-- ==== Sys2Proof/Word.lean ====
section
/-! DEFINITION. The words of the block: bytes, interrupt lines and the two virtqueues.
Byte-order helpers are in Decode.lean. -/
namespace Sys2Proof

/-- A byte of VRAM or of guest memory. -/
abbrev Byte := BitVec 8

/-- A 32-bit register or structure field (00_scope.md R8). -/
abbrev Word32 := BitVec 32

/-- A 64-bit value: a native command word or a guest physical address (00_scope.md R8). -/
abbrev Word64 := BitVec 64

/-- The two interrupt outputs: `eng` is `IrqPulse(ENG)`, `vio` is `IrqPulse(VIO)`
(60_exceptions.md R410, R411). -/
inductive IrqLine where
  | eng | vio
deriving DecidableEq, Repr, Inhabited

/-- The two virtqueues (00_scope.md R7, NUM_QUEUES): controlq 0 and cursorq 1. -/
inductive QueueId where
  | ctrl | cursor
deriving DecidableEq, Repr, Inhabited

/-- The agents whose steps interleave (60_exceptions.md R418). Parse and the work on the head
of INFLIGHT (Pixel, Retire) are two choices of the pipeline agent, since no order between them
is fixed (41_fifo_decoder.md R185). `display x y` is the display reader reading pixel (x, y). -/
inductive Agent where
  | host | parse | head | vqp
  | display (x y : Nat)
deriving DecidableEq, Repr, Inhabited

end Sys2Proof
end

