-- ==== Sys2Proof/Config.lean ====
section
/-! DEFINITION. The parameters of 00_scope.md R7, their reference values, and the free values:
opaque constants without a body, about which nothing can be proved. -/
namespace Sys2Proof

/-- A part of guest memory the platform answers: a DMA access of `n` bytes at `a` is admitted by
the region when it lies inside it and `n` is one of its widths. A list of regions can describe
any set of accesses of the widths the block makes (log 4). -/
structure GuestRegion where
  base : Nat
  size : Nat
  widths : List Nat
deriving DecidableEq, Repr, Inhabited

/-- The parameters of 00_scope.md R7 that a step depends on. They are constants of one machine:
no step writes them. They stand in State so that every statement quantifies over them (log 1). -/
structure Params where
  fifoDepth : Nat
  pipeDepth : Nat
  vramSize : Nat
  stagingSize : Nat
  resHeapBase : Nat
  allocAlign : Nat
  maxResources : Nat
  maxResW : Nat
  maxResH : Nat
  maxBackingEntries : Nat
  displayW : Nat
  displayH : Nat
  queueNumMax : Nat
  vendorId : Word32
  guestRegions : List GuestRegion
deriving DecidableEq, Repr, Inhabited

/-- VENDOR_ID is OPEN (00_scope.md R7, D32). -/
opaque Config.vendorId : Word32

/-- GuestAdmits is OPEN (00_scope.md R7, D29). -/
opaque Config.guestRegions : List GuestRegion

/-- LEGACY_BASE is OPEN (00_scope.md R7). -/
opaque Config.legacyBase : Nat

/-- VIRTIO_BASE is OPEN (00_scope.md R7, R9). -/
opaque Config.virtioBase : Nat

/-- VRAM_WINDOW_BASE is OPEN (00_scope.md R7). -/
opaque Config.vramWindowBase : Nat

/-- IRQ_ENG and IRQ_VIO are OPEN (00_scope.md R7). -/
opaque Config.irqNumber : IrqLine → Nat

/-- The byte VRAM holds at an address after the given power-on reset, until something writes it:
unconstrained (10_state.md R34). -/
opaque Config.vramByte : Nat → Nat → Byte

/-- The byte guest memory holds at an address until something writes it: guest memory is outside
the block and the spec gives it no content (10_state.md R20). -/
opaque Config.guestByte : Nat → Byte

/-- The n-th unconstrained byte a draw reads (43_draw.md R222). -/
opaque Config.freeByte : Nat → Byte

/-- Which agent takes the n-th step when nothing outside has decided it: any schedule is
admissible (41_fifo_decoder.md R185, 60_exceptions.md R418). -/
opaque Config.freeSchedule : Nat → Agent

/-- The slot "index mod num" of a ring whose `num` is 0: the spec gives the value for a power of two
only (45_virtqueue.md R301), and a driver can set `num` to 0 while a request is served (log 26). -/
opaque Config.slotOfEmptyRing : Nat → Nat

/-- NUM_SCANOUTS (00_scope.md R7). -/
def Config.numScanouts : Nat := 1

/-- NUM_QUEUES (00_scope.md R7). -/
def Config.numQueues : Nat := 2

/-- The device feature set: only VIRTIO_F_VERSION_1, bit 32 (10_state.md R37). -/
def Config.deviceFeatures : Word64 := 0x0000000100000000#64

/-- The reference configuration of 00_scope.md R7 (D26); the OPEN VENDOR_ID and GuestAdmits stay
free. -/
def Params.reference : Params where
  fifoDepth := 256
  pipeDepth := 4
  vramSize := 0x01000000
  stagingSize := 0x00400000
  resHeapBase := 0
  allocAlign := 4096
  maxResources := 64
  maxResW := 1024
  maxResH := 1024
  maxBackingEntries := 16384
  displayW := 640
  displayH := 480
  queueNumMax := 256
  vendorId := Config.vendorId
  guestRegions := Config.guestRegions

/-- STAGING_BASE = VRAM_SIZE - STAGING_SIZE (00_scope.md R7). -/
def Params.stagingBase (p : Params) : Nat := p.vramSize - p.stagingSize

/-- MAX_REQ_BYTES = 32 + 16 * MAX_BACKING_ENTRIES (45_virtqueue.md R305). -/
def Params.maxReqBytes (p : Params) : Nat := 32 + 16 * p.maxBackingEntries

/-- A power of two, decidably. -/
def natIsPow2 (n : Nat) : Bool := n != 0 && n &&& (n - 1) == 0

/-- The constraints of 00_scope.md R7. That the staging area lies inside VRAM follows from
STAGING_BASE being an address; that MAX_RES_H fits DRAW_H follows from 46_gpu_translator.md R354,
"Every value the translator puts in a `SET` fits the register's width" (log 17). -/
def Params.ok (p : Params) : Bool :=
  1 ≤ p.fifoDepth && p.fifoDepth ≤ 511 && 1 ≤ p.pipeDepth && p.vramSize ≤ 2 ^ 32 &&
  p.stagingSize ≤ p.vramSize && 4 * p.maxResW * p.maxResH ≤ p.stagingSize &&
  natIsPow2 p.allocAlign && 4 * p.maxResW ≤ 0xFFFF && p.maxResH ≤ 0xFFFF &&
  natIsPow2 p.queueNumMax && p.queueNumMax ≤ 32768

end Sys2Proof
end

