-- ==== Sys2Proof/Syntax.lean ====
section
/-! DEFINITION. The instructions: one constructor for each row of spec/opcode_table.json. -/
namespace Sys2Proof

/-- The control header of a VirtIO-GPU request without its `type` (30_encoding.md R116). All of it
is mirrored in the response (46_gpu_translator.md R344). -/
structure CtrlHdr where
  flags : Word32
  fenceId : Word64
  ctxId : Word32
  ringIdx : Byte
  padding : BitVec 24
deriving DecidableEq, Repr, Inhabited

/-- A rectangle of the wire format (30_encoding.md R120). -/
structure Rect where
  x : Word32
  y : Word32
  width : Word32
  height : Word32
deriving DecidableEq, Repr, Inhabited

/-- One backing entry: guest address and length (30_encoding.md R120, 10_state.md R42). -/
structure BackingEntry where
  addr : Word64
  length : Word32
deriving DecidableEq, Repr, Inhabited

/-- The instruction set of the block, in the order of spec/opcode_table.json: the native command
words (30_encoding.md R101), the VirtIO-GPU command types (R117) with the fields of R120, and the
accesses to the legacy registers (R110) and to the VirtIO registers (R111, R112). -/
inductive Instr where
  -- native command words
  | nop
  | eol
  | setReg (sel : BitVec 8) (val : Word32)
  | fill
  | blit
  -- VirtIO-GPU commands
  | cmdGetDisplayInfo (h : CtrlHdr)
  | cmdResourceCreate2d (h : CtrlHdr) (resourceId format width height : Word32)
  | cmdResourceUnref (h : CtrlHdr) (resourceId : Word32)
  | cmdSetScanout (h : CtrlHdr) (r : Rect) (scanoutId resourceId : Word32)
  | cmdResourceFlush (h : CtrlHdr) (r : Rect) (resourceId : Word32)
  | cmdTransferToHost2d (h : CtrlHdr) (r : Rect) (offset : Word64) (resourceId : Word32)
  /-- `entries` are the complete entries the request holds, at most `nrEntries` of them. -/
  | cmdResourceAttachBacking (h : CtrlHdr) (resourceId nrEntries : Word32) (entries : List BackingEntry)
  | cmdResourceDetachBacking (h : CtrlHdr) (resourceId : Word32)
  | cmdGetCapsetInfo (h : CtrlHdr)
  | cmdGetCapset (h : CtrlHdr)
  | cmdGetEdid (h : CtrlHdr)
  | cmdResourceAssignUuid (h : CtrlHdr)
  | cmdResourceCreateBlob (h : CtrlHdr)
  | cmdSetScanoutBlob (h : CtrlHdr)
  | cmdUpdateCursor (h : CtrlHdr)
  | cmdMoveCursor (h : CtrlHdr)
  /-- The 3D types 0x0200 to 0x02FF; `low` is the type's low byte. -/
  | cmd3dRange (h : CtrlHdr) (low : BitVec 8)
  -- legacy register reads
  | legReadFbAddr
  | legReadFbStride
  | legReadDrawX
  | legReadDrawY
  | legReadDrawW
  | legReadDrawH
  | legReadFillColor
  | legReadSrcAddr
  | legReadSrcStride
  | legReadStencilKey
  | legReadAlphaMode
  | legReadPixelFmt
  | legReadStatus
  | legReadIrqEnable
  | legReadFifoDataLo
  | legReadFifoPush
  | legReadCtrl
  | legReadVqFaultCount
  -- legacy register writes
  | legWriteFbAddr (data : Word32)
  | legWriteFbStride (data : Word32)
  | legWriteDrawX (data : Word32)
  | legWriteDrawY (data : Word32)
  | legWriteDrawW (data : Word32)
  | legWriteDrawH (data : Word32)
  | legWriteFillColor (data : Word32)
  | legWriteSrcAddr (data : Word32)
  | legWriteSrcStride (data : Word32)
  | legWriteStencilKey (data : Word32)
  | legWriteAlphaMode (data : Word32)
  | legWritePixelFmt (data : Word32)
  | legWriteStatus (data : Word32)
  | legWriteIrqEnable (data : Word32)
  | legWriteFifoDataLo (data : Word32)
  | legWriteFifoPush (data : Word32)
  | legWriteCtrl (data : Word32)
  | legWriteVqFaultCount (data : Word32)
  -- VirtIO register reads
  | vioReadMagicValue
  | vioReadVersion
  | vioReadDeviceID
  | vioReadVendorID
  | vioReadDeviceFeatures
  | vioReadQueueNumMax
  | vioReadQueueReady
  | vioReadInterruptStatus
  | vioReadStatus
  | vioReadConfigGeneration
  | vioReadEventsRead
  | vioReadNumScanouts
  | vioReadNumCapsets
  -- VirtIO register writes
  | vioWriteDeviceFeaturesSel (data : Word32)
  | vioWriteDriverFeatures (data : Word32)
  | vioWriteDriverFeaturesSel (data : Word32)
  | vioWriteQueueSel (data : Word32)
  | vioWriteQueueNum (data : Word32)
  | vioWriteQueueReady (data : Word32)
  | vioWriteQueueNotify (data : Word32)
  | vioWriteInterruptACK (data : Word32)
  | vioWriteStatus (data : Word32)
  | vioWriteQueueDescLow (data : Word32)
  | vioWriteQueueDescHigh (data : Word32)
  | vioWriteQueueDriverLow (data : Word32)
  | vioWriteQueueDriverHigh (data : Word32)
  | vioWriteQueueDeviceLow (data : Word32)
  | vioWriteQueueDeviceHigh (data : Word32)
  | vioWriteEventsClear (data : Word32)
  /-- Every other valid VirtIO access: `none` is a read, `some d` a write of `d`
  (44_virtio_transport.md R260). -/
  | vioOther (off : BitVec 9) (data : Option Word32)
deriving DecidableEq, Repr, Inhabited

end Sys2Proof
end

