-- ==== Sys2Proof/WellFormed.lean ====
section
/-! DEFINITION. Which instruction terms stand for something the block can receive. -/
namespace Sys2Proof

/-- The offsets with a VIRTIO_MMIO_READ row (30_encoding.md R111, R112). -/
def vioReadOffsets : List (BitVec 9) :=
  [0x000#9, 0x004#9, 0x008#9, 0x00C#9, 0x010#9, 0x034#9, 0x044#9, 0x060#9, 0x070#9, 0x0FC#9, 0x100#9, 0x108#9, 0x10C#9]

/-- The offsets with a VIRTIO_MMIO_WRITE row (30_encoding.md R111, R112). -/
def vioWriteOffsets : List (BitVec 9) :=
  [0x014#9, 0x020#9, 0x024#9, 0x030#9, 0x038#9, 0x044#9, 0x050#9, 0x064#9, 0x070#9,
   0x080#9, 0x084#9, 0x090#9, 0x094#9, 0x0A0#9, 0x0A4#9, 0x104#9]

/-- VIO_OTHER is the row of lowest priority: an aligned offset that no row of its direction lists
(44_virtio_transport.md R260). -/
def vioOtherOk (off : BitVec 9) (data : Option Word32) : Bool :=
  off.toNat % 4 == 0 &&
    match data with
    | none => !vioReadOffsets.contains off
    | some _ => !vioWriteOffsets.contains off

/-- Well-formed instructions. Only two rows have terms that no bits stand for: an attach with more
entries than it announces (46_gpu_translator.md R351), and a VIO_OTHER access to a listed or
misaligned offset. A SET_REG of any id is well-formed: ids 12 to 255 fault (42_state_set.md R201). -/
def WellFormed (i : Instr) : Bool :=
  match i with
  | .cmdResourceAttachBacking _ _ nrEntries entries => entries.length ≤ nrEntries.toNat
  | .vioOther off data => vioOtherOk off data
  | .nop | .eol | .setReg _ _ | .fill | .blit | .cmdGetDisplayInfo _
  | .cmdResourceCreate2d _ _ _ _ _ | .cmdResourceUnref _ _ | .cmdSetScanout _ _ _ _
  | .cmdResourceFlush _ _ _ | .cmdTransferToHost2d _ _ _ _ | .cmdResourceDetachBacking _ _
  | .cmdGetCapsetInfo _ | .cmdGetCapset _ | .cmdGetEdid _ | .cmdResourceAssignUuid _
  | .cmdResourceCreateBlob _ | .cmdSetScanoutBlob _ | .cmdUpdateCursor _ | .cmdMoveCursor _
  | .cmd3dRange _ _ | .legReadFbAddr | .legReadFbStride | .legReadDrawX | .legReadDrawY
  | .legReadDrawW | .legReadDrawH | .legReadFillColor | .legReadSrcAddr | .legReadSrcStride
  | .legReadStencilKey | .legReadAlphaMode | .legReadPixelFmt | .legReadStatus
  | .legReadIrqEnable | .legReadFifoDataLo | .legReadFifoPush | .legReadCtrl
  | .legReadVqFaultCount | .legWriteFbAddr _ | .legWriteFbStride _ | .legWriteDrawX _
  | .legWriteDrawY _ | .legWriteDrawW _ | .legWriteDrawH _ | .legWriteFillColor _
  | .legWriteSrcAddr _ | .legWriteSrcStride _ | .legWriteStencilKey _ | .legWriteAlphaMode _
  | .legWritePixelFmt _ | .legWriteStatus _ | .legWriteIrqEnable _ | .legWriteFifoDataLo _
  | .legWriteFifoPush _ | .legWriteCtrl _ | .legWriteVqFaultCount _ | .vioReadMagicValue
  | .vioReadVersion | .vioReadDeviceID | .vioReadVendorID | .vioReadDeviceFeatures
  | .vioReadQueueNumMax | .vioReadQueueReady | .vioReadInterruptStatus | .vioReadStatus
  | .vioReadConfigGeneration | .vioReadEventsRead | .vioReadNumScanouts | .vioReadNumCapsets
  | .vioWriteDeviceFeaturesSel _ | .vioWriteDriverFeatures _ | .vioWriteDriverFeaturesSel _
  | .vioWriteQueueSel _ | .vioWriteQueueNum _ | .vioWriteQueueReady _ | .vioWriteQueueNotify _
  | .vioWriteInterruptACK _ | .vioWriteStatus _ | .vioWriteQueueDescLow _
  | .vioWriteQueueDescHigh _ | .vioWriteQueueDriverLow _ | .vioWriteQueueDriverHigh _
  | .vioWriteQueueDeviceLow _ | .vioWriteQueueDeviceHigh _ | .vioWriteEventsClear _ => true

/-- The three ways an instruction reaches the block: through the FIFO, as a VirtIO-GPU request, or as
a register access. -/
inductive Source where
  | fifo | request | access
deriving DecidableEq, Repr, Inhabited

/-- The way a row of spec/opcode_table.json reaches the block, by its format. -/
def source (i : Instr) : Source :=
  match i with
  | .nop | .eol | .setReg _ _ | .fill | .blit => .fifo
  | .cmdGetDisplayInfo _ | .cmdResourceCreate2d _ _ _ _ _ | .cmdResourceUnref _ _
  | .cmdSetScanout _ _ _ _ | .cmdResourceFlush _ _ _ | .cmdTransferToHost2d _ _ _ _
  | .cmdResourceDetachBacking _ _ | .cmdGetCapsetInfo _ | .cmdGetCapset _ | .cmdGetEdid _
  | .cmdResourceAssignUuid _ | .cmdResourceCreateBlob _ | .cmdSetScanoutBlob _
  | .cmdUpdateCursor _ | .cmdMoveCursor _ | .cmd3dRange _ _ | .cmdResourceAttachBacking _ _ _ _ => .request
  | .legReadFbAddr | .legReadFbStride | .legReadDrawX | .legReadDrawY | .legReadDrawW
  | .legReadDrawH | .legReadFillColor | .legReadSrcAddr | .legReadSrcStride | .legReadStencilKey
  | .legReadAlphaMode | .legReadPixelFmt | .legReadStatus | .legReadIrqEnable
  | .legReadFifoDataLo | .legReadFifoPush | .legReadCtrl | .legReadVqFaultCount
  | .legWriteFbAddr _ | .legWriteFbStride _ | .legWriteDrawX _ | .legWriteDrawY _
  | .legWriteDrawW _ | .legWriteDrawH _ | .legWriteFillColor _ | .legWriteSrcAddr _
  | .legWriteSrcStride _ | .legWriteStencilKey _ | .legWriteAlphaMode _ | .legWritePixelFmt _
  | .legWriteStatus _ | .legWriteIrqEnable _ | .legWriteFifoDataLo _ | .legWriteFifoPush _
  | .legWriteCtrl _ | .legWriteVqFaultCount _ | .vioReadMagicValue | .vioReadVersion
  | .vioReadDeviceID | .vioReadVendorID | .vioReadDeviceFeatures | .vioReadQueueNumMax
  | .vioReadQueueReady | .vioReadInterruptStatus | .vioReadStatus | .vioReadConfigGeneration
  | .vioReadEventsRead | .vioReadNumScanouts | .vioReadNumCapsets | .vioWriteDeviceFeaturesSel _
  | .vioWriteDriverFeatures _ | .vioWriteDriverFeaturesSel _ | .vioWriteQueueSel _
  | .vioWriteQueueNum _ | .vioWriteQueueReady _ | .vioWriteQueueNotify _
  | .vioWriteInterruptACK _ | .vioWriteStatus _ | .vioWriteQueueDescLow _
  | .vioWriteQueueDescHigh _ | .vioWriteQueueDriverLow _ | .vioWriteQueueDriverHigh _
  | .vioWriteQueueDeviceLow _ | .vioWriteQueueDeviceHigh _ | .vioWriteEventsClear _
  | .vioOther _ _ => .access

end Sys2Proof
end

