-- ==== Sys2Proof/Decode.lean ====
section
/-! DEFINITION. Byte order, the three carriers of instructions, decoding, and encoding. -/
namespace Sys2Proof

/-- Little-endian value of a byte string (20_memory.md R72); missing bytes count as 0. -/
def leNat : List Byte → Nat
  | [] => 0
  | b :: bs => b.toNat + 256 * leNat bs

/-- The `n` low bytes of a value, little-endian (20_memory.md R72). -/
def leBytes : Nat → Nat → List Byte
  | 0, _ => []
  | n + 1, v => BitVec.ofNat 8 v :: leBytes n (v / 256)

/-- The little-endian field of `n` bytes at byte offset `off`. -/
def leField (bs : List Byte) (off n : Nat) : Nat := leNat ((bs.drop off).take n)

/-- A `le32` field. -/
def le32 (bs : List Byte) (off : Nat) : Word32 := BitVec.ofNat 32 (leField bs off 4)

/-- A `le64` field. -/
def le64 (bs : List Byte) (off : Nat) : Word64 := BitVec.ofNat 64 (leField bs off 8)

/-- A host access to one of the two register blocks, `n` the width in bytes
(40_register_interface.md R140, 44_virtio_transport.md R260). An offset has as many bits as its
window. -/
inductive BusAccess where
  | legRead (off : BitVec 12) (n : Nat)
  | legWrite (off : BitVec 12) (n : Nat) (data : Word32)
  | vioRead (off : BitVec 9) (n : Nat)
  | vioWrite (off : BitVec 9) (n : Nat) (data : Word32)
deriving DecidableEq, Repr, Inhabited

/-- What carries an instruction to the block: a native command word in the FIFO, the bytes of a
VirtIO-GPU request, or a bus access. -/
inductive Carrier where
  | command (w : Word64)
  | request (bs : List Byte)
  | access (a : BusAccess)
deriving DecidableEq, Repr, Inhabited

/-- What the decoder answers: an instruction, or a rejection by name. -/
inductive Decoded where
  | instr (i : Instr)
  /-- A command word that is INVALID (41_fifo_decoder.md R181). -/
  | invalidCommand
  /-- A request shorter than its type needs (46_gpu_translator.md R340). -/
  | shortRequest
  /-- A request of a type that 30_encoding.md R117 does not list. -/
  | unlistedRequest
  /-- A bus access of a bad width, alignment or offset (R140, R260). -/
  | invalidAccess
deriving DecidableEq, Repr, Inhabited

/-- The decoded instruction, if there is one. -/
def decodedInstr : Decoded → Option Instr
  | .instr i => some i
  | .invalidCommand | .shortRequest | .unlistedRequest | .invalidAccess => none

/-- The fields of a command word (30_encoding.md R100). -/
def wordOpc (w : Word64) : BitVec 8 := w.extractLsb' 56 8
def wordSel (w : Word64) : BitVec 8 := w.extractLsb' 48 8
def wordRsv (w : Word64) : BitVec 16 := w.extractLsb' 32 16
def wordVal (w : Word64) : Word32 := w.extractLsb' 0 32

/-- `Decode(w)`, the checks in the order of 41_fifo_decoder.md R181. -/
def decodeCommand (w : Word64) : Decoded :=
  if !([0x00#8, 0x01#8, 0x10#8, 0x20#8, 0x21#8].contains (wordOpc w)) then .invalidCommand
  else if wordRsv w != 0 then .invalidCommand
  else if wordOpc w != 0x10 && (wordSel w != 0 || wordVal w != 0) then .invalidCommand
  else if wordOpc w == 0x00 then .instr .nop
  else if wordOpc w == 0x01 then .instr .eol
  else if wordOpc w == 0x10 then .instr (.setReg (wordSel w) (wordVal w))
  else if wordOpc w == 0x20 then .instr .fill
  else .instr .blit

/-- The header of a request, missing bytes 0 (30_encoding.md R116, 46_gpu_translator.md R344). -/
def decodeHdr (bs : List Byte) : CtrlHdr where
  flags := le32 bs 4
  fenceId := le64 bs 8
  ctxId := le32 bs 16
  ringIdx := BitVec.ofNat 8 (leField bs 20 1)
  padding := BitVec.ofNat 24 (leField bs 21 3)

/-- The rectangle at byte offset `off` (30_encoding.md R120). -/
def decodeRect (bs : List Byte) (off : Nat) : Rect where
  x := le32 bs off
  y := le32 bs (off + 4)
  width := le32 bs (off + 8)
  height := le32 bs (off + 12)

/-- The complete 16-byte entries at the front of `bs`, at most `n` (30_encoding.md R120). The fuel
`k` bounds them by the bytes there are. -/
def decodeEntries : (k : Nat) → (n : Nat) → List Byte → List BackingEntry
  | 0, _, _ => []
  | _ + 1, 0, _ => []
  | k + 1, n + 1, bs =>
    if bs.length < 16 then []
    else { addr := le64 bs 0, length := le32 bs 8 } :: decodeEntries k n (bs.drop 16)

/-- The supported types with the minimum length L of 30_encoding.md R120, and how their fields are
read. -/
def decodeSupported (t : Nat) (bs : List Byte) : Option (Nat × Instr) :=
  let h := decodeHdr bs
  match t with
  | 0x100 => some (24, .cmdGetDisplayInfo h)
  | 0x101 => some (40, .cmdResourceCreate2d h (le32 bs 24) (le32 bs 28) (le32 bs 32) (le32 bs 36))
  | 0x102 => some (32, .cmdResourceUnref h (le32 bs 24))
  | 0x103 => some (48, .cmdSetScanout h (decodeRect bs 24) (le32 bs 40) (le32 bs 44))
  | 0x104 => some (48, .cmdResourceFlush h (decodeRect bs 24) (le32 bs 40))
  | 0x105 => some (56, .cmdTransferToHost2d h (decodeRect bs 24) (le64 bs 40) (le32 bs 48))
  | 0x106 => some (32, .cmdResourceAttachBacking h (le32 bs 24) (le32 bs 28)
      (decodeEntries (bs.length / 16) (le32 bs 28).toNat (bs.drop 32)))
  | 0x107 => some (32, .cmdResourceDetachBacking h (le32 bs 24))
  | _ => none

/-- The listed types that are not supported (30_encoding.md R117). -/
def decodeUnsupported (t : Nat) (h : CtrlHdr) : Option Instr :=
  match t with
  | 0x108 => some (.cmdGetCapsetInfo h)
  | 0x109 => some (.cmdGetCapset h)
  | 0x10A => some (.cmdGetEdid h)
  | 0x10B => some (.cmdResourceAssignUuid h)
  | 0x10C => some (.cmdResourceCreateBlob h)
  | 0x10D => some (.cmdSetScanoutBlob h)
  | 0x300 => some (.cmdUpdateCursor h)
  | 0x301 => some (.cmdMoveCursor h)
  | _ => if 0x200 ≤ t ∧ t ≤ 0x2FF then some (.cmd3dRange h (BitVec.ofNat 8 t)) else none

/-- The first checks of `Translate(q, req)` (46_gpu_translator.md R340). -/
def decodeRequest (bs : List Byte) : Decoded :=
  if bs.length < 24 then .shortRequest
  else
    let t := leField bs 0 4
    match decodeSupported t bs with
    | some (len, i) => if bs.length < len then .shortRequest else .instr i
    | none =>
      match decodeUnsupported t (decodeHdr bs) with
      | some i => .instr i
      | none => .unlistedRequest

/-- The LEGACY_MMIO_READ rows (30_encoding.md R110). -/
def legReadRows : List (BitVec 12 × Instr) :=
  [(0x000#12, .legReadFbAddr), (0x004#12, .legReadFbStride), (0x008#12, .legReadDrawX),
   (0x00C#12, .legReadDrawY), (0x010#12, .legReadDrawW), (0x014#12, .legReadDrawH),
   (0x018#12, .legReadFillColor), (0x01C#12, .legReadSrcAddr), (0x020#12, .legReadSrcStride),
   (0x024#12, .legReadStencilKey), (0x028#12, .legReadAlphaMode), (0x02C#12, .legReadPixelFmt),
   (0x030#12, .legReadStatus), (0x034#12, .legReadIrqEnable), (0x038#12, .legReadFifoDataLo),
   (0x03C#12, .legReadFifoPush), (0x040#12, .legReadCtrl), (0x044#12, .legReadVqFaultCount)]

/-- The LEGACY_MMIO_WRITE rows (30_encoding.md R110). -/
def legWriteRows : List (BitVec 12 × (Word32 → Instr)) :=
  [(0x000#12, .legWriteFbAddr), (0x004#12, .legWriteFbStride), (0x008#12, .legWriteDrawX),
   (0x00C#12, .legWriteDrawY), (0x010#12, .legWriteDrawW), (0x014#12, .legWriteDrawH),
   (0x018#12, .legWriteFillColor), (0x01C#12, .legWriteSrcAddr), (0x020#12, .legWriteSrcStride),
   (0x024#12, .legWriteStencilKey), (0x028#12, .legWriteAlphaMode),
   (0x02C#12, .legWritePixelFmt), (0x030#12, .legWriteStatus), (0x034#12, .legWriteIrqEnable),
   (0x038#12, .legWriteFifoDataLo), (0x03C#12, .legWriteFifoPush), (0x040#12, .legWriteCtrl),
   (0x044#12, .legWriteVqFaultCount)]

/-- The VIRTIO_MMIO_READ rows (30_encoding.md R111, R112). -/
def vioReadRows : List (BitVec 9 × Instr) :=
  [(0x000#9, .vioReadMagicValue), (0x004#9, .vioReadVersion), (0x008#9, .vioReadDeviceID),
   (0x00C#9, .vioReadVendorID), (0x010#9, .vioReadDeviceFeatures),
   (0x034#9, .vioReadQueueNumMax), (0x044#9, .vioReadQueueReady),
   (0x060#9, .vioReadInterruptStatus), (0x070#9, .vioReadStatus),
   (0x0FC#9, .vioReadConfigGeneration), (0x100#9, .vioReadEventsRead),
   (0x108#9, .vioReadNumScanouts), (0x10C#9, .vioReadNumCapsets)]

/-- The VIRTIO_MMIO_WRITE rows (30_encoding.md R111, R112). -/
def vioWriteRows : List (BitVec 9 × (Word32 → Instr)) :=
  [(0x014#9, .vioWriteDeviceFeaturesSel), (0x020#9, .vioWriteDriverFeatures),
   (0x024#9, .vioWriteDriverFeaturesSel), (0x030#9, .vioWriteQueueSel),
   (0x038#9, .vioWriteQueueNum), (0x044#9, .vioWriteQueueReady),
   (0x050#9, .vioWriteQueueNotify), (0x064#9, .vioWriteInterruptACK),
   (0x070#9, .vioWriteStatus), (0x080#9, .vioWriteQueueDescLow),
   (0x084#9, .vioWriteQueueDescHigh), (0x090#9, .vioWriteQueueDriverLow),
   (0x094#9, .vioWriteQueueDriverHigh), (0x0A0#9, .vioWriteQueueDeviceLow),
   (0x0A4#9, .vioWriteQueueDeviceHigh), (0x104#9, .vioWriteEventsClear)]

/-- Validity and row of a bus access: a legacy access is valid at the 18 word offsets
(40_register_interface.md R140), a VirtIO access at every word offset (44_virtio_transport.md
R260). -/
def decodeAccess (a : BusAccess) : Decoded :=
  match a with
  | .legRead off n =>
    if n != 4 then .invalidAccess
    else match legReadRows.lookup off with
      | some i => .instr i
      | none => .invalidAccess
  | .legWrite off n data =>
    if n != 4 then .invalidAccess
    else match legWriteRows.lookup off with
      | some f => .instr (f data)
      | none => .invalidAccess
  | .vioRead off n =>
    if n != 4 || off.toNat % 4 != 0 then .invalidAccess
    else match vioReadRows.lookup off with
      | some i => .instr i
      | none => .instr (.vioOther off none)
  | .vioWrite off n data =>
    if n != 4 || off.toNat % 4 != 0 then .invalidAccess
    else match vioWriteRows.lookup off with
      | some f => .instr (f data)
      | none => .instr (.vioOther off (some data))

/-- The decoder: total, rejecting by name. -/
def decode (c : Carrier) : Decoded :=
  match c with
  | .command w => decodeCommand w
  | .request bs => decodeRequest bs
  | .access a => decodeAccess a

/-- The command word with the given fields (30_encoding.md R100, R106). -/
def commandWord (opc sel : BitVec 8) (val : Word32) : Word64 := opc ++ sel ++ 0#16 ++ val

/-- The control header of a request or response of type `t` (30_encoding.md R116). -/
def hdrBytes (t : Nat) (h : CtrlHdr) : List Byte :=
  leBytes 4 t ++ (leBytes 4 h.flags.toNat ++ (leBytes 8 h.fenceId.toNat ++
    (leBytes 4 h.ctxId.toNat ++ (leBytes 1 h.ringIdx.toNat ++ leBytes 3 h.padding.toNat))))

/-- A rectangle on the wire. -/
def rectBytes (r : Rect) : List Byte :=
  leBytes 4 r.x.toNat ++ (leBytes 4 r.y.toNat ++ (leBytes 4 r.width.toNat ++
    leBytes 4 r.height.toNat))

/-- Backing entries on the wire, padding 0 (30_encoding.md R120). -/
def entriesBytes : List BackingEntry → List Byte
  | [] => []
  | e :: es => leBytes 8 e.addr.toNat ++ (leBytes 4 e.length.toNat ++ (leBytes 4 0 ++ entriesBytes es))

/-- A request: header, then the fields of 30_encoding.md R120. -/
def requestOf (t : Nat) (h : CtrlHdr) (fields : List Byte) : Carrier :=
  .request (hdrBytes t h ++ fields)

/-- The carrier of a well-formed instruction, written from the encodings of 30_encoding.md R100,
R110 to R112 and R116 to R120 (padding fields 0). -/
def encode (i : Instr) : Carrier :=
  match i with
  | .nop => .command (commandWord 0x00 0 0)
  | .eol => .command (commandWord 0x01 0 0)
  | .setReg sel val => .command (commandWord 0x10 sel val)
  | .fill => .command (commandWord 0x20 0 0)
  | .blit => .command (commandWord 0x21 0 0)
  | .cmdGetDisplayInfo h => requestOf 0x100 h []
  | .cmdResourceCreate2d h id format width height =>
    requestOf 0x101 h (leBytes 4 id.toNat ++ (leBytes 4 format.toNat ++
      (leBytes 4 width.toNat ++ leBytes 4 height.toNat)))
  | .cmdResourceUnref h id => requestOf 0x102 h (leBytes 4 id.toNat ++ leBytes 4 0)
  | .cmdSetScanout h r scanoutId id =>
    requestOf 0x103 h (rectBytes r ++ (leBytes 4 scanoutId.toNat ++ leBytes 4 id.toNat))
  | .cmdResourceFlush h r id => requestOf 0x104 h (rectBytes r ++ (leBytes 4 id.toNat ++ leBytes 4 0))
  | .cmdTransferToHost2d h r offset id =>
    requestOf 0x105 h (rectBytes r ++ (leBytes 8 offset.toNat ++ (leBytes 4 id.toNat ++ leBytes 4 0)))
  | .cmdResourceAttachBacking h id n entries =>
    requestOf 0x106 h (leBytes 4 id.toNat ++ (leBytes 4 n.toNat ++ entriesBytes entries))
  | .cmdResourceDetachBacking h id => requestOf 0x107 h (leBytes 4 id.toNat ++ leBytes 4 0)
  | .cmdGetCapsetInfo h => requestOf 0x108 h []
  | .cmdGetCapset h => requestOf 0x109 h []
  | .cmdGetEdid h => requestOf 0x10A h []
  | .cmdResourceAssignUuid h => requestOf 0x10B h []
  | .cmdResourceCreateBlob h => requestOf 0x10C h []
  | .cmdSetScanoutBlob h => requestOf 0x10D h []
  | .cmdUpdateCursor h => requestOf 0x300 h []
  | .cmdMoveCursor h => requestOf 0x301 h []
  | .cmd3dRange h low => requestOf (0x200 + low.toNat) h []
  | .legReadFbAddr => .access (.legRead 0x000#12 4)
  | .legReadFbStride => .access (.legRead 0x004#12 4)
  | .legReadDrawX => .access (.legRead 0x008#12 4)
  | .legReadDrawY => .access (.legRead 0x00C#12 4)
  | .legReadDrawW => .access (.legRead 0x010#12 4)
  | .legReadDrawH => .access (.legRead 0x014#12 4)
  | .legReadFillColor => .access (.legRead 0x018#12 4)
  | .legReadSrcAddr => .access (.legRead 0x01C#12 4)
  | .legReadSrcStride => .access (.legRead 0x020#12 4)
  | .legReadStencilKey => .access (.legRead 0x024#12 4)
  | .legReadAlphaMode => .access (.legRead 0x028#12 4)
  | .legReadPixelFmt => .access (.legRead 0x02C#12 4)
  | .legReadStatus => .access (.legRead 0x030#12 4)
  | .legReadIrqEnable => .access (.legRead 0x034#12 4)
  | .legReadFifoDataLo => .access (.legRead 0x038#12 4)
  | .legReadFifoPush => .access (.legRead 0x03C#12 4)
  | .legReadCtrl => .access (.legRead 0x040#12 4)
  | .legReadVqFaultCount => .access (.legRead 0x044#12 4)
  | .legWriteFbAddr data => .access (.legWrite 0x000#12 4 data)
  | .legWriteFbStride data => .access (.legWrite 0x004#12 4 data)
  | .legWriteDrawX data => .access (.legWrite 0x008#12 4 data)
  | .legWriteDrawY data => .access (.legWrite 0x00C#12 4 data)
  | .legWriteDrawW data => .access (.legWrite 0x010#12 4 data)
  | .legWriteDrawH data => .access (.legWrite 0x014#12 4 data)
  | .legWriteFillColor data => .access (.legWrite 0x018#12 4 data)
  | .legWriteSrcAddr data => .access (.legWrite 0x01C#12 4 data)
  | .legWriteSrcStride data => .access (.legWrite 0x020#12 4 data)
  | .legWriteStencilKey data => .access (.legWrite 0x024#12 4 data)
  | .legWriteAlphaMode data => .access (.legWrite 0x028#12 4 data)
  | .legWritePixelFmt data => .access (.legWrite 0x02C#12 4 data)
  | .legWriteStatus data => .access (.legWrite 0x030#12 4 data)
  | .legWriteIrqEnable data => .access (.legWrite 0x034#12 4 data)
  | .legWriteFifoDataLo data => .access (.legWrite 0x038#12 4 data)
  | .legWriteFifoPush data => .access (.legWrite 0x03C#12 4 data)
  | .legWriteCtrl data => .access (.legWrite 0x040#12 4 data)
  | .legWriteVqFaultCount data => .access (.legWrite 0x044#12 4 data)
  | .vioReadMagicValue => .access (.vioRead 0x000#9 4)
  | .vioReadVersion => .access (.vioRead 0x004#9 4)
  | .vioReadDeviceID => .access (.vioRead 0x008#9 4)
  | .vioReadVendorID => .access (.vioRead 0x00C#9 4)
  | .vioReadDeviceFeatures => .access (.vioRead 0x010#9 4)
  | .vioReadQueueNumMax => .access (.vioRead 0x034#9 4)
  | .vioReadQueueReady => .access (.vioRead 0x044#9 4)
  | .vioReadInterruptStatus => .access (.vioRead 0x060#9 4)
  | .vioReadStatus => .access (.vioRead 0x070#9 4)
  | .vioReadConfigGeneration => .access (.vioRead 0x0FC#9 4)
  | .vioReadEventsRead => .access (.vioRead 0x100#9 4)
  | .vioReadNumScanouts => .access (.vioRead 0x108#9 4)
  | .vioReadNumCapsets => .access (.vioRead 0x10C#9 4)
  | .vioWriteDeviceFeaturesSel data => .access (.vioWrite 0x014#9 4 data)
  | .vioWriteDriverFeatures data => .access (.vioWrite 0x020#9 4 data)
  | .vioWriteDriverFeaturesSel data => .access (.vioWrite 0x024#9 4 data)
  | .vioWriteQueueSel data => .access (.vioWrite 0x030#9 4 data)
  | .vioWriteQueueNum data => .access (.vioWrite 0x038#9 4 data)
  | .vioWriteQueueReady data => .access (.vioWrite 0x044#9 4 data)
  | .vioWriteQueueNotify data => .access (.vioWrite 0x050#9 4 data)
  | .vioWriteInterruptACK data => .access (.vioWrite 0x064#9 4 data)
  | .vioWriteStatus data => .access (.vioWrite 0x070#9 4 data)
  | .vioWriteQueueDescLow data => .access (.vioWrite 0x080#9 4 data)
  | .vioWriteQueueDescHigh data => .access (.vioWrite 0x084#9 4 data)
  | .vioWriteQueueDriverLow data => .access (.vioWrite 0x090#9 4 data)
  | .vioWriteQueueDriverHigh data => .access (.vioWrite 0x094#9 4 data)
  | .vioWriteQueueDeviceLow data => .access (.vioWrite 0x0A0#9 4 data)
  | .vioWriteQueueDeviceHigh data => .access (.vioWrite 0x0A4#9 4 data)
  | .vioWriteEventsClear data => .access (.vioWrite 0x104#9 4 data)
  | .vioOther off none => .access (.vioRead off 4)
  | .vioOther off (some data) => .access (.vioWrite off 4 data)

/-- The carrier that an opcode-table word stands for (log 8). A row of 64 bits is a command word. A
row of 32 bits is a request, the type in its first four bytes and zeros up to 64 bytes, which is
longer than every fixed layout; a word that is no listed type is the data of VIO_OTHER, a write at
offset 0. A row of at most 16 bits is an offset: the table's bits do not say which of the four
kinds of bus access it is, and the first row of the table whose masked bits match is taken. -/
def tableCarrier (nbits w : Nat) : Carrier :=
  if nbits ≤ 16 then
    if (legReadRows.lookup (BitVec.ofNat 12 w)).isSome then .access (.legRead (BitVec.ofNat 12 w) 4)
    else if (vioReadRows.lookup (BitVec.ofNat 9 w)).isNone &&
      (vioWriteRows.lookup (BitVec.ofNat 9 w)).isSome
    then .access (.vioWrite (BitVec.ofNat 9 w) 4 0)
    else .access (.vioRead (BitVec.ofNat 9 w) 4)
  else if nbits ≤ 32 then
    let bs := leBytes 4 w ++ List.replicate 60 0#8
    match decodeRequest bs with
    | .instr _ => .request bs
    | _ => .access (.vioWrite 0 4 (BitVec.ofNat 32 w))
  else .command (BitVec.ofNat 64 w)

/-- The instruction the decoder reads from an opcode-table word (log 8). -/
def decodeTableWord (nbits w : Nat) : Option Instr := decodedInstr (decode (tableCarrier nbits w))

end Sys2Proof
end

