-- ==== Sys2Proof/Machine/State.lean ====
section
/-! DEFINITION. The state of the block as plain data (10_state.md R20 to R47), the model's own
fields beside it, and the state after power-on reset. -/
namespace Sys2Proof.Machine

/-- Why a step can stop. -/
inductive Fault where
  /-- A pixel access or a staging write whose bytes leave VRAM (20_memory.md R71). Raised by the
  Pixel step and by the staging copy only, and only in states no run reaches: Parse refuses such
  draws (43_draw.md R211) and the staging area holds every transfer (46_gpu_translator.md R356).
  Safe: the machine stops where the spec performs no access (log 14). -/
  | vramOutOfRange
deriving DecidableEq, Repr

/-- Why an instruction has no meaning. -/
inductive Refusal where
  /-- An instruction that no meaning has been written for. No arm of `exec` answers it. Safe. -/
  | notModelled (mnemonic : String)
deriving DecidableEq, Repr

/-- The twelve drawing registers at their widths (10_state.md R21). -/
structure Regs where
  fbAddr : Word32
  fbStride : BitVec 16
  drawX : BitVec 16
  drawY : BitVec 16
  drawW : BitVec 16
  drawH : BitVec 16
  fillColor : Word32
  srcAddr : Word32
  srcStride : BitVec 16
  stencilKey : Word32
  alphaMode : BitVec 2
  pixelFmt : BitVec 1
deriving DecidableEq, Repr

/-- The ids 0 to 11 of the drawing registers (10_state.md R21). -/
inductive RegId where
  | fbAddr | fbStride | drawX | drawY | drawW | drawH
  | fillColor | srcAddr | srcStride | stencilKey | alphaMode | pixelFmt
deriving DecidableEq, Repr

/-- The producer tag of a command word (10_state.md R31). -/
inductive Producer where
  | legacy | virtio
deriving DecidableEq, Repr

/-- An entry of the command FIFO (10_state.md R31). -/
structure FifoEntry where
  word : Word64
  producer : Producer
deriving DecidableEq, Repr

/-- The arbiter's state (10_state.md R32). -/
inductive Lock where
  | free | heldVirtio
deriving DecidableEq, Repr

/-- The kinds of operations in flight (10_state.md R33). -/
inductive OpKind where
  | fill | blit | eol
deriving DecidableEq, Repr

/-- A parsed operation that has not retired (10_state.md R33). `tainted` is a set of VRAM byte
addresses, as a strictly rising list. An EOL takes no snapshot: its `snap` is all zeros (log 19). -/
structure Operation where
  kind : OpKind
  producer : Producer
  snap : Regs
  k : Nat
  tainted : List Nat
deriving DecidableEq, Repr

/-- The device-wide registers of the VirtIO transport (10_state.md R36 to R39). -/
structure Vio where
  status : BitVec 8
  negFailed : Bool
  devFeaturesSel : Word32
  drvFeaturesSel : Word32
  driverFeatures : Word64
  queueSel : Word32
  interruptStatus : BitVec 2
  eventsRead : Word32
deriving DecidableEq, Repr

/-- The state of one virtqueue (10_state.md R40). -/
structure Queue where
  num : Word32
  ready : Bool
  descAddr : Word64
  driverAddr : Word64
  deviceAddr : Word64
  lastAvail : BitVec 16
  usedIdx : BitVec 16
  pending : Bool
deriving DecidableEq, Repr

/-- A descriptor (30_encoding.md R113). -/
structure Desc where
  addr : Word64
  len : Word32
  flags : BitVec 16
  next : BitVec 16
deriving DecidableEq, Repr

/-- The four field reads of a descriptor, in order (45_virtqueue.md R304). -/
inductive DescField where
  | addr | len | flags | next
deriving DecidableEq, Repr

/-- What the staging copy still needs of `StagingCopy(R, r, offset)` (46_gpu_translator.md R356):
R's backing and stride, the size of r, and the offset. -/
structure StagingPlan where
  backing : List BackingEntry
  stride : Nat
  width : Nat
  height : Nat
  offset : Nat
deriving DecidableEq, Repr

/-- The processor's position: IDLE, or the step of 45_virtqueue.md R300 it takes next. Step 6 is
`translate`, then `stage` (the staging copy), then `acquire`, `push`, `release`. -/
inductive Phase where
  | idle | readIdx | readSlot | walk | gather | translate | stage
  | acquire | push | release | wait | respond | usedElem | usedIdx | notify
deriving DecidableEq, Repr

/-- VQP (10_state.md R41): the phase with the values it carries. A value the phase does not carry
is at its idle value or left over from an earlier phase of the same request. -/
structure Vqp where
  phase : Phase
  /-- The queue being served. -/
  queue : QueueId
  /-- The head index of the request. -/
  head : BitVec 16
  /-- The next descriptor index of the walk. -/
  walkIdx : BitVec 16
  /-- The descriptor indices already visited. -/
  visited : List (BitVec 16)
  seenWritable : Bool
  /-- The descriptor being read, and the field of it that is read next. -/
  cur : Desc
  curField : DescField
  /-- The resolved chain, in order. -/
  chain : List Desc
  req : List Byte
  resp : List Byte
  /-- The command words still to push. -/
  group : List Word64
  plan : Option StagingPlan
  /-- Bytes the staging copy has made. -/
  copied : Nat
  /-- Response bytes written. -/
  written : Nat
  /-- A DMA access that takes one step a byte: the bytes read so far, or the bytes still to write;
  empty between accesses. -/
  dma : List Byte
  /-- The address of that access: its first byte when reading, its next byte when writing. -/
  dmaAddr : Nat
  /-- The guest address of the descriptor whose fields are being read. -/
  descBase : Nat
deriving DecidableEq, Repr

/-- A resource (10_state.md R42). -/
structure Resource where
  format : Word32
  width : Nat
  height : Nat
  stride : Nat
  base : Nat
  size : Nat
  backing : Option (List BackingEntry)
deriving DecidableEq, Repr

/-- The scan-out binding (10_state.md R43). -/
structure Scanout where
  enabled : Bool
  resourceId : Word32
  rect : Rect
  base : Nat
  stride : Nat
deriving DecidableEq, Repr

/-- Sparse memory: (address, byte) pairs, addresses strictly rising. An address that is not listed
has never been written and reads as a free value (logs 2, 3), so no listed byte equals what an
unlisted address reads as. -/
abbrev Memory := List Host.Cell

/-- What an error answers on the host bus (60_exceptions.md R401). -/
inductive BusError where
  | invalidRegister | fifoFull | outOfRange
deriving DecidableEq, Repr

/-- The block's answer to the last host access (00_scope.md R13): none yet, OK of a write, OK with
data, or an error, with which the read data is 0. -/
inductive BusResponse where
  | none
  | ok
  | okData (data : Word32)
  | err (e : BusError)
deriving DecidableEq, Repr

/-- An operation the host issues: a register access, an access to the VRAM window
(20_memory.md R74), or an access of its own to guest memory (60_exceptions.md R418). -/
inductive HostOp where
  | access (a : BusAccess)
  | vramRead (a n : Nat)
  | vramWrite (a n : Nat) (data : Word32)
  | guestRead (a : Word64) (n : Nat)
  | guestWrite (a : Word64) (bytes : List Byte)
deriving DecidableEq, Repr

/-- The display reader's last sample: pixel (x, y), and its canonical value unless its bytes leave
VRAM. -/
structure Sample where
  x : Nat
  y : Nat
  pixel : Option Word32
deriving DecidableEq, Repr

/-- Who moves: an agent, or the power-on reset from outside. -/
inductive Turn where
  | agent (a : Agent)
  | powerOn
deriving DecidableEq, Repr

/-- The state. The fields from `guest` on are the model's own (INVENTORY.md, State). -/
structure State where
  cfg : Params
  regs : Regs
  done : Bool
  fault : Bool
  faultCode : BitVec 8
  irqEnable : BitVec 2
  loLatch : Word32
  vqFaultCount : Word32
  fifo : List FifoEntry
  lock : Lock
  inflight : List Operation
  vram : Memory
  vio : Vio
  q0 : Queue
  q1 : Queue
  vqp : Vqp
  resources : List (Nat × Resource)
  scanout : Scanout
  out : List IrqLine
  guest : Memory
  hostOps : List HostOp
  bus : BusResponse
  hostRead : List Byte
  display : Option Sample
  sched : List Turn
  tick : Nat
  draws : Nat
  epoch : Nat
deriving DecidableEq, Repr

/-- All drawing registers 0 (10_state.md R47). -/
def Regs.zero : Regs where
  fbAddr := 0
  fbStride := 0
  drawX := 0
  drawY := 0
  drawW := 0
  drawH := 0
  fillColor := 0
  srcAddr := 0
  srcStride := 0
  stencilKey := 0
  alphaMode := 0
  pixelFmt := 0

/-- The transport after reset (10_state.md R47). -/
def Vio.zero : Vio where
  status := 0
  negFailed := false
  devFeaturesSel := 0
  drvFeaturesSel := 0
  driverFeatures := 0
  queueSel := 0
  interruptStatus := 0
  eventsRead := 0

/-- A queue after reset (10_state.md R47). -/
def Queue.zero : Queue where
  num := 0
  ready := false
  descAddr := 0
  driverAddr := 0
  deviceAddr := 0
  lastAvail := 0
  usedIdx := 0
  pending := false

/-- A descriptor of which nothing is read. -/
def Desc.zero : Desc where
  addr := 0
  len := 0
  flags := 0
  next := 0

/-- VQP = IDLE (10_state.md R47). -/
def Vqp.idle : Vqp where
  phase := .idle
  queue := .ctrl
  head := 0
  walkIdx := 0
  visited := []
  seenWritable := false
  cur := Desc.zero
  curField := .addr
  chain := []
  req := []
  resp := []
  group := []
  plan := none
  copied := 0
  written := 0
  dma := []
  dmaAddr := 0
  descBase := 0

/-- The scan-out disabled, all other fields 0 (10_state.md R47). -/
def Scanout.off : Scanout where
  enabled := false
  resourceId := 0
  rect := { x := 0, y := 0, width := 0, height := 0 }
  base := 0
  stride := 0

/-- The machine right after power-on reset, in the reference configuration (10_state.md R47,
70_reset_and_hazards.md R440). -/
def State.reset : State where
  cfg := Params.reference
  regs := Regs.zero
  done := false
  fault := false
  faultCode := 0
  irqEnable := 0
  loLatch := 0
  vqFaultCount := 0
  fifo := []
  lock := .free
  inflight := []
  vram := []
  vio := Vio.zero
  q0 := Queue.zero
  q1 := Queue.zero
  vqp := Vqp.idle
  resources := []
  scanout := Scanout.off
  out := []
  guest := []
  hostOps := []
  bus := .none
  hostRead := []
  display := none
  sched := []
  tick := 0
  draws := 0
  epoch := 0

end Sys2Proof.Machine
end

