-- ==== Sys2Proof/Machine/Flags.lean ====
section
/-! DEFINITION. The status views: the fields of STATUS, of IRQ_ENABLE and of the VirtIO status, the
interrupt levels, and the framebuffer output. -/
namespace Sys2Proof.Machine

/-- `IRQ_ENABLE.DONE_IE` (10_state.md R27). -/
def doneIe (s : State) : Bool := s.irqEnable.getLsbD 0

/-- `IRQ_ENABLE.FAULT_IE` (10_state.md R27). -/
def faultIe (s : State) : Bool := s.irqEnable.getLsbD 1

/-- `STATUS.BUSY`: the FIFO or the in-flight list is not empty (10_state.md R26). -/
def isBusy (s : State) : Bool := !s.fifo.isEmpty || !s.inflight.isEmpty

/-- `STATUS.FIFO_FULL`: the FIFO holds `FIFO_DEPTH` entries (10_state.md R26). -/
def fifoFull (s : State) : Bool := s.fifo.length == s.cfg.fifoDepth

/-- STATUS, computed at each read (10_state.md R26), from bit 31 down: reserved 31:25, FIFO_COUNT
24:16, FAULT_CODE 15:8, reserved 7:6, VIO_LOCK, FAULT, FIFO_FULL, FIFO_EMPTY, BUSY, DONE. -/
def statusWord (s : State) : Word32 :=
  0#7 ++ BitVec.ofNat 9 s.fifo.length ++ s.faultCode ++ 0#2 ++
    BitVec.ofBool (s.lock == .heldVirtio) ++ BitVec.ofBool s.fault ++ BitVec.ofBool (fifoFull s) ++
    BitVec.ofBool s.fifo.isEmpty ++ BitVec.ofBool (isBusy s) ++ BitVec.ofBool s.done

/-- The level form of the ENG line (60_exceptions.md R412). -/
def engLevel (s : State) : Bool := (s.done && doneIe s) || (s.fault && faultIe s)

/-- The level form of the VIO line (60_exceptions.md R412). -/
def vioLevel (s : State) : Bool := s.vio.interruptStatus != 0

/-- The bits of the VirtIO device status (10_state.md R36). -/
def statusDriverOk : BitVec 8 := 0x04
def statusFeaturesOk : BitVec 8 := 0x08
def statusNeedsReset : BitVec 8 := 0x40

/-- Whether a status holds a bit. -/
def hasStatus (status bit : BitVec 8) : Bool := status &&& bit != 0

/-- `serviceable(q)` (45_virtqueue.md R300). -/
def serviceable (s : State) (q : Queue) : Bool :=
  q.ready && hasStatus s.vio.status statusDriverOk && !hasStatus s.vio.status statusNeedsReset

/-- The framebuffer output: FB_ADDR, FB_STRIDE, PIXEL_FMT and the display size, read from the
register file (10_state.md R35). -/
def framebufferOutput (s : State) : Word32 × BitVec 16 × BitVec 1 × Nat × Nat :=
  (s.regs.fbAddr, s.regs.fbStride, s.regs.pixelFmt, s.cfg.displayW, s.cfg.displayH)

/-- The windows the platform places (20_memory.md R79). -/
inductive Window where
  | legacy | virtio | vram
deriving DecidableEq, Repr

/-- The bus address of an offset of a window (00_scope.md R7, 20_memory.md R79). -/
def busAddress (w : Window) (off : Nat) : Nat :=
  match w with
  | .legacy => Config.legacyBase + off
  | .virtio => Config.virtioBase + off
  | .vram => Config.vramWindowBase + off

/-- A state is final: the block has no work and the host no operation left (70_reset_and_hazards.md
R446). -/
def isFinal (s : State) : Bool :=
  s.fifo.isEmpty && s.inflight.isEmpty && s.vqp.phase == .idle && s.lock == .free &&
    !(s.q0.pending && serviceable s s.q0) && !(s.q1.pending && serviceable s s.q1) &&
    s.hostOps.isEmpty

end Sys2Proof.Machine
end

