-- ==== Sys2Proof/Machine/Ops.lean ====
section
/-! DEFINITION. The named operations over memory, the FIFO, the in-flight list, the queues, the bus
answer and DMA; recording a fault and clearing it. -/
namespace Sys2Proof.Machine

/-! ### Finite maps and sets with rising keys -/

/-- The value a map holds at a key. -/
def assocGet {α : Type} (k : Nat) : List (Nat × α) → Option α
  | [] => none
  | (k', v) :: r => if k = k' then some v else assocGet k r

/-- The map with a value set at a key, in rising order of keys. -/
def assocPut {α : Type} (k : Nat) (v : α) : List (Nat × α) → List (Nat × α)
  | [] => [(k, v)]
  | (k', v') :: r =>
    if k < k' then (k, v) :: (k', v') :: r
    else if k = k' then (k, v) :: r
    else (k', v') :: assocPut k v r

/-- The map without a key. -/
def assocErase {α : Type} (k : Nat) : List (Nat × α) → List (Nat × α)
  | [] => []
  | (k', v') :: r => if k = k' then r else (k', v') :: assocErase k r

/-- The canonical form of a map: keys strictly rising. -/
def keysRising {α : Type} (m : List (Nat × α)) : Bool :=
  decide ((m.map Prod.fst).Pairwise (· < ·))

/-- The canonical form of a memory. An unlisted address holds no written byte, so no entry can be
equal to one: strictly rising addresses are the whole form. -/
def Memory.wf (m : Memory) : Bool := keysRising m

/-- A set of addresses with one more, in rising order. -/
def setInsert (a : Nat) : List Nat → List Nat
  | [] => [a]
  | b :: r => if a < b then a :: b :: r else if a = b then b :: r else b :: setInsert a r

/-- A set of addresses with `a` to `a + n - 1`. -/
def setInsertRange : (a n : Nat) → List Nat → List Nat
  | _, 0, t => t
  | a, n + 1, t => setInsertRange (a + 1) n (setInsert a t)

/-- Bytes stored at rising addresses. -/
def storeBytes : Memory → Nat → List Byte → Memory
  | m, _, [] => m
  | m, a, b :: bs => storeBytes (assocPut a b m) (a + 1) bs

/-! ### VRAM -/

/-- The byte at a VRAM address: the last one written, else the unconstrained byte of the last
power-on reset (10_state.md R34). -/
def vramByte (s : State) (a : Nat) : Byte := (assocGet a s.vram).getD (Config.vramByte s.epoch a)

/-- The bytes of an access. -/
def vramBytes (s : State) (a n : Nat) : List Byte := (List.range n).map fun i => vramByte s (a + i)

/-- Whether an access lies inside VRAM, over unbounded integers (20_memory.md R71). -/
def vramInRange (s : State) (a n : Nat) : Bool := a + n ≤ s.cfg.vramSize

/-- `VramRead(a, n)`; `none` is `OutOfRange` (20_memory.md R71). -/
def vramRead (s : State) (a n : Nat) : Option Nat :=
  if vramInRange s a n then some (leNat (vramBytes s a n)) else none

/-- Stores bytes in VRAM. -/
def vramStore (s : State) (a : Nat) (bytes : List Byte) : State :=
  { s with vram := storeBytes s.vram a bytes }

/-- `VramWrite(a, n, v)`; `none` is `OutOfRange`, with nothing written (20_memory.md R71). -/
def vramWrite (s : State) (a n v : Nat) : Option State :=
  if vramInRange s a n then some (vramStore s a (leBytes n v)) else none

/-- Adds the bytes of a write to the `tainted` set of operations (43_draw.md R213, R222). -/
def taintOps (a n : Nat) (ops : List Operation) : List Operation :=
  ops.map fun op => { op with tainted := setInsertRange a n op.tainted }

/-- Taints every operation in INFLIGHT (43_draw.md R222, 46_gpu_translator.md R356). -/
def taintAll (a n : Nat) (s : State) : State := { s with inflight := taintOps a n s.inflight }

/-! ### Interrupt pulses and faults -/

/-- `Emit(IrqPulse(line))` (00_scope.md R11, 10_state.md R44). -/
def emit (line : IrqLine) (s : State) : State := { s with out := s.out ++ [line] }

/-- The fault codes (60_exceptions.md R400). -/
def codeInvalidOpcode : BitVec 8 := 0x01
def codeInvalidRegister : BitVec 8 := 0x02
def codeOutOfRange : BitVec 8 := 0x03
def codeMalformedChain : BitVec 8 := 0x04
def codeUnknownResource : BitVec 8 := 0x05

/-- `raise Fault(code)`, the only thing a fault does: the first code since the last clear is kept,
FAULT is set, and a pulse is emitted when FAULT_IE is set (60_exceptions.md R403, R406). -/
def raiseFault (code : BitVec 8) (s : State) : State :=
  { s with
    faultCode := if s.fault then s.faultCode else code
    fault := true
    out := if faultIe s then s.out ++ [.eng] else s.out }

/-- The host's clear of a fault, `CTRL.CLEAR_FAULT` (60_exceptions.md R407). -/
def clearFault (s : State) : State := { s with fault := false, faultCode := 0 }

/-- `DONE <- 1` with the completion pulse when DONE_IE is set (41_fifo_decoder.md R187, R188). -/
def setDone (s : State) : State :=
  { s with done := true, out := if doneIe s then s.out ++ [.eng] else s.out }

/-- `DeviceError()` (44_virtio_transport.md R275). -/
def deviceError (s : State) : State :=
  { s with
    vio := { s.vio with
      status := s.vio.status ||| statusNeedsReset
      interruptStatus := s.vio.interruptStatus ||| 0x2 }
    out := s.out ++ [.vio] }

/-! ### FIFO and in-flight list -/

/-- The producer of the oldest entry. Parse never runs on an empty FIFO (log 10). -/
def headProducer (s : State) : Producer :=
  match s.fifo with
  | [] => .legacy
  | e :: _ => e.producer

/-- `pop()`: the FIFO without its oldest entry (41_fifo_decoder.md R170, R180). -/
def popFifo (s : State) : State := { s with fifo := s.fifo.tail }

/-- Appends an entry at the tail (41_fifo_decoder.md R170). -/
def pushFifo (word : Word64) (producer : Producer) (s : State) : State :=
  { s with fifo := s.fifo ++ [{ word, producer }] }

/-- Appends an operation that starts at pixel 0 with nothing tainted (43_draw.md R211). -/
def startOperation (kind : OpKind) (producer : Producer) (snap : Regs) (s : State) : State :=
  { s with inflight := s.inflight ++ [{ kind, producer, snap, k := 0, tainted := [] }] }

/-- Whether an entry or operation of the translator is still in the engine (45_virtqueue.md R310). -/
def virtioPending (s : State) : Bool :=
  s.fifo.any (fun e => e.producer == .virtio) || s.inflight.any (fun o => o.producer == .virtio)

/-! ### Queues and the bus answer -/

/-- The state of a queue. -/
def getQueue (s : State) (q : QueueId) : Queue :=
  match q with
  | .ctrl => s.q0
  | .cursor => s.q1

/-- The state with a queue replaced. -/
def setQueue (q : QueueId) (v : Queue) (s : State) : State :=
  match q with
  | .ctrl => { s with q0 := v }
  | .cursor => { s with q1 := v }

/-- The queue an index names; 2 and more name none (44_virtio_transport.md R264). -/
def queueOfIndex (i : Word32) : Option QueueId :=
  if i = 0 then some .ctrl else if i = 1 then some .cursor else none

/-- Records the block's answer to a host access. -/
def respond (r : BusResponse) (s : State) : State := { s with bus := r }

/-- The data of an answer; 0 with an error (40_register_interface.md R140). -/
def responseData (r : BusResponse) : Word32 :=
  match r with
  | .okData d => d
  | .none | .ok | .err _ => 0

/-! ### Guest memory and DMA -/

/-- The byte of guest memory at an address (log 3). -/
def guestByte (s : State) (a : Nat) : Byte := (assocGet a s.guest).getD (Config.guestByte a)

/-- The bytes of an access. -/
def guestBytes (s : State) (a n : Nat) : List Byte := (List.range n).map fun i => guestByte s (a + i)

/-- `GuestAdmits(a, n)`; an access beyond 2^64 is never admitted (20_memory.md R73). -/
def guestAdmits (p : Params) (a n : Nat) : Bool :=
  a + n ≤ 2 ^ 64 &&
    p.guestRegions.any fun r => r.base ≤ a && a + n ≤ r.base + r.size && r.widths.contains n

/-- Whether a DMA access is one step: at most 8 bytes at a multiple of its size (20_memory.md R77). -/
def dmaAtomic (a n : Nat) : Bool := n ≤ 8 && a % n == 0

/-- What one step of a DMA access does: the processor is held at it, or a byte of it is transferred,
or it is complete, with the bytes transferred. -/
inductive Dma where
  | held
  | more (s : State)
  | done (s : State) (bytes : List Byte)
deriving DecidableEq, Repr

/-- The state with the progress of a DMA access. -/
def setDma (dma : List Byte) (addr : Nat) (s : State) : State :=
  { s with vqp := { s.vqp with dma := dma, dmaAddr := addr } }

/-- One step of `GuestRead(a, n)` (20_memory.md R73, R77). Address and admission are those of the
first byte's step (log 12). -/
def dmaRead (a n : Nat) (s : State) : Dma :=
  if s.vqp.dma.isEmpty && !guestAdmits s.cfg a n then .held
  else if s.vqp.dma.isEmpty && dmaAtomic a n then .done s (guestBytes s a n)
  else
    let base := if s.vqp.dma.isEmpty then a else s.vqp.dmaAddr
    let got := s.vqp.dma ++ [guestByte s (base + s.vqp.dma.length)]
    if got.length < n then .more (setDma got base s) else .done (setDma [] 0 s) got

/-- The state with bytes stored in guest memory. -/
def guestStore (a : Nat) (bytes : List Byte) (s : State) : State :=
  { s with guest := storeBytes s.guest a bytes }

/-- One step of `GuestWrite` of the given bytes (20_memory.md R73, R77). Address, bytes and admission
are those of the first byte's step (log 12). -/
def dmaWrite (a : Nat) (bytes : List Byte) (s : State) : Dma :=
  if s.vqp.dma.isEmpty && !guestAdmits s.cfg a bytes.length then .held
  else if s.vqp.dma.isEmpty && dmaAtomic a bytes.length then .done (guestStore a bytes s) bytes
  else
    let base := if s.vqp.dma.isEmpty then a else s.vqp.dmaAddr
    let left := if s.vqp.dma.isEmpty then bytes else s.vqp.dma
    let s' := guestStore base (left.take 1) s
    if left.length ≤ 1 then .done (setDma [] 0 s') bytes
    else .more (setDma (left.drop 1) (base + 1) s')

/-! ### Turns -/

/-- The turn the next step gives: the first one decided from outside, else the free schedule's
(60_exceptions.md R418, log 5). -/
def nextTurn (s : State) : Turn :=
  match s.sched with
  | [] => .agent (Config.freeSchedule s.tick)
  | t :: _ => t

/-- The state once its turn is taken. -/
def takeTurn (s : State) : State := { s with sched := s.sched.tail, tick := s.tick + 1 }

/-- Power-on reset: every piece of state at its reset value but VRAM, whose bytes are unconstrained
anew, and the pulse list, which is not reset (70_reset_and_hazards.md R440, 10_state.md R34, R44).
The parameters, guest memory, the host's operations, what it read, and the schedule are not the block's
(log 18). -/
def powerOn (s : State) : State :=
  { State.reset with
    cfg := s.cfg
    out := s.out
    guest := s.guest
    hostOps := s.hostOps
    hostRead := s.hostRead
    sched := s.sched
    tick := s.tick
    draws := s.draws
    epoch := s.epoch + 1 }

end Sys2Proof.Machine
end

