-- ==== Sys2Proof/Machine/Operands.lean ====
section
/-! DEFINITION. Operands: register ids and masking, the geometry of a draw, pixels and the blend, group
words, rectangles, and lists of segments. -/
namespace Sys2Proof.Machine

/-! ### Drawing registers -/

/-- The id of a drawing register (10_state.md R21). -/
def regNumber (r : RegId) : Nat :=
  match r with
  | .fbAddr => 0
  | .fbStride => 1
  | .drawX => 2
  | .drawY => 3
  | .drawW => 4
  | .drawH => 5
  | .fillColor => 6
  | .srcAddr => 7
  | .srcStride => 8
  | .stencilKey => 9
  | .alphaMode => 10
  | .pixelFmt => 11

/-- The drawing register with an id; 12 and more name none (42_state_set.md R201). -/
def regOfNumber (n : Nat) : Option RegId :=
  match n with
  | 0 => some .fbAddr
  | 1 => some .fbStride
  | 2 => some .drawX
  | 3 => some .drawY
  | 4 => some .drawW
  | 5 => some .drawH
  | 6 => some .fillColor
  | 7 => some .srcAddr
  | 8 => some .srcStride
  | 9 => some .stencilKey
  | 10 => some .alphaMode
  | 11 => some .pixelFmt
  | _ => none

/-- The width of a drawing register (10_state.md R21). -/
def regWidth (r : RegId) : Nat :=
  match r with
  | .fbAddr | .fillColor | .srcAddr | .stencilKey => 32
  | .fbStride | .drawX | .drawY | .drawW | .drawH | .srcStride => 16
  | .alphaMode => 2
  | .pixelFmt => 1

/-- `zext_32(REG[id])` (40_register_interface.md R141). -/
def readReg (r : RegId) (g : Regs) : Word32 :=
  match r with
  | .fbAddr => g.fbAddr
  | .fbStride => g.fbStride.setWidth 32
  | .drawX => g.drawX.setWidth 32
  | .drawY => g.drawY.setWidth 32
  | .drawW => g.drawW.setWidth 32
  | .drawH => g.drawH.setWidth 32
  | .fillColor => g.fillColor
  | .srcAddr => g.srcAddr
  | .srcStride => g.srcStride.setWidth 32
  | .stencilKey => g.stencilKey
  | .alphaMode => g.alphaMode.setWidth 32
  | .pixelFmt => g.pixelFmt.setWidth 32

/-- `REG[id] <- v & MASK(id)`: the value masked to the register's width (40_register_interface.md
R142, 42_state_set.md R200). -/
def writeReg (r : RegId) (v : Word32) (g : Regs) : Regs :=
  match r with
  | .fbAddr => { g with fbAddr := v }
  | .fbStride => { g with fbStride := v.setWidth 16 }
  | .drawX => { g with drawX := v.setWidth 16 }
  | .drawY => { g with drawY := v.setWidth 16 }
  | .drawW => { g with drawW := v.setWidth 16 }
  | .drawH => { g with drawH := v.setWidth 16 }
  | .fillColor => { g with fillColor := v }
  | .srcAddr => { g with srcAddr := v }
  | .srcStride => { g with srcStride := v.setWidth 16 }
  | .stencilKey => { g with stencilKey := v }
  | .alphaMode => { g with alphaMode := v.setWidth 2 }
  | .pixelFmt => { g with pixelFmt := v.setWidth 1 }

/-- The state with a drawing register written. -/
def setReg (r : RegId) (v : Word32) (s : State) : State := { s with regs := writeReg r v s.regs }

/-! ### Geometry of a draw (43_draw.md R210) -/

/-- Bytes per pixel (10_state.md R23). -/
def bytesPerPixel (fmt : BitVec 1) : Nat := if fmt = 0 then 4 else 3

/-- `N = W * H`. -/
def pixelCount (g : Regs) : Nat := g.drawW.toNat * g.drawH.toNat

/-- `DstAddr(s, k)`, over unbounded integers. -/
def dstAddr (g : Regs) (k : Nat) : Nat :=
  g.fbAddr.toNat + (g.drawY.toNat + k / g.drawW.toNat) * g.fbStride.toNat +
    (g.drawX.toNat + k % g.drawW.toNat) * bytesPerPixel g.pixelFmt

/-- `SrcAddr(s, k)`, over unbounded integers. -/
def srcAddr (g : Regs) (k : Nat) : Nat :=
  g.srcAddr.toNat + k / g.drawW.toNat * g.srcStride.toNat +
    k % g.drawW.toNat * bytesPerPixel g.pixelFmt

/-- Whether address `b` is in `DstBytes(s, k)`. -/
def inDstBytes (g : Regs) (k b : Nat) : Bool :=
  dstAddr g k ≤ b && b < dstAddr g k + bytesPerPixel g.pixelFmt

/-- Whether address `b` is in `DstBytes(s, k')` for some `k' < k` (43_draw.md R222 (b)). -/
def inEarlierBytes (g : Regs) : (k : Nat) → (b : Nat) → Bool
  | 0, _ => false
  | k + 1, b => inDstBytes g k b || inEarlierBytes g k b

/-- The bounds test of Draw Parse: the last pixel's bytes lie inside VRAM (43_draw.md R211). -/
def drawInBounds (kind : OpKind) (g : Regs) (vramSize : Nat) : Bool :=
  pixelCount g == 0 ||
    (dstAddr g (pixelCount g - 1) + bytesPerPixel g.pixelFmt ≤ vramSize &&
      (kind != .blit || srcAddr g (pixelCount g - 1) + bytesPerPixel g.pixelFmt ≤ vramSize))

/-! ### Pixels and the blend -/

/-- A pixel widened to canonical ARGB8888 from its bytes in memory (20_memory.md R75). -/
def widenPixel (fmt : BitVec 1) (bs : List Byte) : Word32 :=
  if fmt = 0 then BitVec.ofNat 32 (leNat bs) else 0xFF#8 ++ BitVec.ofNat 24 (leNat bs)

/-- A canonical pixel narrowed to its bytes in memory (20_memory.md R75). -/
def narrowPixel (fmt : BitVec 1) (p : Word32) : List Byte := leBytes (bytesPerPixel fmt) p.toNat

/-- `min(src_c + (dst_c * (255 - sa)) div 255, 255)` (43_draw.md R212). -/
def overChannel (sa src dst : Nat) : Nat := min (src + dst * (255 - sa) / 255) 255

/-- `Over(src, dst)`, channel by channel (43_draw.md R212). -/
def overPixel (src dst : Word32) : Word32 :=
  let sa := (src.extractLsb' 24 8).toNat
  let channel (lo : Nat) : BitVec 8 :=
    BitVec.ofNat 8 (overChannel sa (src.extractLsb' lo 8).toNat (dst.extractLsb' lo 8).toNat)
  channel 24 ++ channel 16 ++ channel 8 ++ channel 0

/-- Whether the byte at `b` reads as an unconstrained one for the operation (43_draw.md R222). -/
def readsFree (op : Operation) (b : Nat) : Bool :=
  op.tainted.contains b || inEarlierBytes op.snap op.k b

/-- The bytes `Rd(op, k, a)` reads, `n` of them from `a`: each unconstrained one is the next free byte.
The second component counts the free bytes drawn (43_draw.md R213, R222). -/
def readDraw (s : State) (op : Operation) : (a n draws : Nat) → List Byte × Nat
  | _, 0, draws => ([], draws)
  | a, n + 1, draws =>
    if readsFree op a then
      let r := readDraw s op (a + 1) n (draws + 1)
      (Config.freeByte draws :: r.1, r.2)
    else
      let r := readDraw s op (a + 1) n draws
      (vramByte s a :: r.1, r.2)

/-! ### Group words (46_gpu_translator.md R354) -/

/-- `SET(id, v)`. -/
def setWord (r : RegId) (v : Nat) : Word64 :=
  commandWord 0x10 (BitVec.ofNat 8 (regNumber r)) (BitVec.ofNat 32 v)

/-- `BLIT`. -/
def blitWord : Word64 := commandWord 0x21 0 0

/-! ### Rectangles and segments -/

/-- `Inside(r, R)`, over unbounded integers (46_gpu_translator.md R343). -/
def rectInside (r : Rect) (width height : Nat) : Bool :=
  r.x.toNat + r.width.toNat ≤ width && r.y.toNat + r.height.toNat ≤ height

/-- The bytes of a list of (address, length) segments: `BackLen` (46_gpu_translator.md R357), the
length of the buffers of a chain. -/
def segLength : List (Nat × Nat) → Nat
  | [] => 0
  | (_, l) :: r => l + segLength r

/-- The address of byte `t` of a list of segments: `BackAddr(t)` (46_gpu_translator.md R357), the
address of byte `t` of the buffers of a chain (45_virtqueue.md R305, R308). -/
def segAddr : List (Nat × Nat) → Nat → Option Nat
  | [], _ => none
  | (a, l) :: r, t => if t < l then some (a + t) else segAddr r (t - l)

/-- A backing list as segments. -/
def backingSegs (b : List BackingEntry) : List (Nat × Nat) :=
  b.map fun e => (e.addr.toNat, e.length.toNat)

/-- The flag bits of a descriptor (30_encoding.md R113). -/
def descNext (d : Desc) : Bool := d.flags.getLsbD 0
def descWrite (d : Desc) : Bool := d.flags.getLsbD 1
def descIndirect (d : Desc) : Bool := d.flags.getLsbD 2

/-- The device-readable buffers of a chain, in order. -/
def readableSegs (chain : List Desc) : List (Nat × Nat) :=
  (chain.filter fun d => !descWrite d).map fun d => (d.addr.toNat, d.len.toNat)

/-- The device-writable buffers of a chain, in order. -/
def writableSegs (chain : List Desc) : List (Nat × Nat) :=
  (chain.filter fun d => descWrite d).map fun d => (d.addr.toNat, d.len.toNat)

/-- The ring slot of a free-running index (45_virtqueue.md R301). -/
def ringSlot (num : Word32) (idx : BitVec 16) : Nat :=
  if num = 0 then Config.slotOfEmptyRing idx.toNat else idx.toNat % num.toNat

end Sys2Proof.Machine
end

