-- ==== Sys2Proof/Machine/Legacy.lean ====
section
/-! DEFINITION. The legacy register block and the host's VRAM window. Each register access is one atomic
step of the host (40_register_interface.md R140). -/
namespace Sys2Proof.Machine

/-- A read answers OK with data and changes nothing else (40_register_interface.md R141). -/
def answerData (data : Word32) (s : State) : State := respond (.okData data) s

/-- Read of a drawing register (40_register_interface.md R141). -/
def readDrawing (r : RegId) (s : State) : State := answerData (readReg r s.regs) s

/-- Write of a drawing register (40_register_interface.md R142). -/
def writeDrawing (r : RegId) (data : Word32) (s : State) : State := respond .ok (setReg r data s)

/-- A write to a read-only register: OK, nothing written (40_register_interface.md R145). -/
def ignoreWrite (s : State) : State := respond .ok s

/-- Whether a legacy push is turned away (40_register_interface.md R144). -/
def pushBlocked (s : State) : Bool := s.lock == .heldVirtio || s.fifo.length ≥ s.cfg.fifoDepth

/-- FIFO_PUSH: the word of the written high half and LO_LATCH, or ERR(FifoFull) with nothing changed
(40_register_interface.md R144). -/
def legacyPush (data : Word32) (s : State) : State :=
  if pushBlocked s then respond (.err .fifoFull) s
  else respond .ok { pushFifo (data ++ s.loLatch) .legacy s with loLatch := 0 }

/-- FIFO_FLUSH: every legacy entry not yet parsed is dropped, and LO_LATCH cleared
(40_register_interface.md R146). -/
def flushLegacy (s : State) : State :=
  { s with fifo := s.fifo.filter (fun e => e.producer == .virtio), loLatch := 0 }

/-- CLEAR_DONE (40_register_interface.md R146). -/
def clearDone (s : State) : State := { s with done := false }

/-- CTRL: bits 0, 1 and 2 act, in this order (40_register_interface.md R146). -/
def ctrlWrite (data : Word32) (s : State) : State :=
  let s1 := if data.getLsbD 0 then flushLegacy s else s
  let s2 := if data.getLsbD 1 then clearDone s1 else s1
  let s3 := if data.getLsbD 2 then clearFault s2 else s2
  respond .ok s3

/-- The answer to an access that is not valid: ERR(InvalidRegister), nothing changed
(40_register_interface.md R140, 44_virtio_transport.md R260). -/
def rejectAccess (s : State) : State := respond (.err .invalidRegister) s

/-! ### One meaning a row -/

/-- LEG_READ FB_ADDR: 40_register_interface.md R141. -/
def execLegReadFbAddr (s : State) : Host.Outcome State Fault Refusal := .next (readDrawing .fbAddr s)

/-- LEG_READ FB_STRIDE: 40_register_interface.md R141. -/
def execLegReadFbStride (s : State) : Host.Outcome State Fault Refusal := .next (readDrawing .fbStride s)

/-- LEG_READ DRAW_X: 40_register_interface.md R141. -/
def execLegReadDrawX (s : State) : Host.Outcome State Fault Refusal := .next (readDrawing .drawX s)

/-- LEG_READ DRAW_Y: 40_register_interface.md R141. -/
def execLegReadDrawY (s : State) : Host.Outcome State Fault Refusal := .next (readDrawing .drawY s)

/-- LEG_READ DRAW_W: 40_register_interface.md R141. -/
def execLegReadDrawW (s : State) : Host.Outcome State Fault Refusal := .next (readDrawing .drawW s)

/-- LEG_READ DRAW_H: 40_register_interface.md R141. -/
def execLegReadDrawH (s : State) : Host.Outcome State Fault Refusal := .next (readDrawing .drawH s)

/-- LEG_READ FILL_COLOR: 40_register_interface.md R141. -/
def execLegReadFillColor (s : State) : Host.Outcome State Fault Refusal := .next (readDrawing .fillColor s)

/-- LEG_READ SRC_ADDR: 40_register_interface.md R141. -/
def execLegReadSrcAddr (s : State) : Host.Outcome State Fault Refusal := .next (readDrawing .srcAddr s)

/-- LEG_READ SRC_STRIDE: 40_register_interface.md R141. -/
def execLegReadSrcStride (s : State) : Host.Outcome State Fault Refusal := .next (readDrawing .srcStride s)

/-- LEG_READ STENCIL_KEY: 40_register_interface.md R141. -/
def execLegReadStencilKey (s : State) : Host.Outcome State Fault Refusal := .next (readDrawing .stencilKey s)

/-- LEG_READ ALPHA_MODE: 40_register_interface.md R141. -/
def execLegReadAlphaMode (s : State) : Host.Outcome State Fault Refusal := .next (readDrawing .alphaMode s)

/-- LEG_READ PIXEL_FMT: 40_register_interface.md R141. -/
def execLegReadPixelFmt (s : State) : Host.Outcome State Fault Refusal := .next (readDrawing .pixelFmt s)

/-- LEG_READ STATUS: 40_register_interface.md R141. -/
def execLegReadStatus (s : State) : Host.Outcome State Fault Refusal := .next (answerData (statusWord s) s)

/-- LEG_READ IRQ_ENABLE: 40_register_interface.md R141. -/
def execLegReadIrqEnable (s : State) : Host.Outcome State Fault Refusal := .next (answerData (s.irqEnable.setWidth 32) s)

/-- LEG_READ FIFO_DATA_LO: write-only, reads 0 (R141). -/
def execLegReadFifoDataLo (s : State) : Host.Outcome State Fault Refusal := .next (answerData 0 s)

/-- LEG_READ FIFO_PUSH: write-only, reads 0 (R141). -/
def execLegReadFifoPush (s : State) : Host.Outcome State Fault Refusal := .next (answerData 0 s)

/-- LEG_READ CTRL: write-only, reads 0 (R141). -/
def execLegReadCtrl (s : State) : Host.Outcome State Fault Refusal := .next (answerData 0 s)

/-- LEG_READ VQ_FAULT_COUNT: 40_register_interface.md R141. -/
def execLegReadVqFaultCount (s : State) : Host.Outcome State Fault Refusal := .next (answerData s.vqFaultCount s)

/-- LEG_WRITE FB_ADDR: 40_register_interface.md R142. -/
def execLegWriteFbAddr (data : Word32) (s : State) : Host.Outcome State Fault Refusal :=
  .next (writeDrawing .fbAddr data s)

/-- LEG_WRITE FB_STRIDE: 40_register_interface.md R142. -/
def execLegWriteFbStride (data : Word32) (s : State) : Host.Outcome State Fault Refusal :=
  .next (writeDrawing .fbStride data s)

/-- LEG_WRITE DRAW_X: 40_register_interface.md R142. -/
def execLegWriteDrawX (data : Word32) (s : State) : Host.Outcome State Fault Refusal :=
  .next (writeDrawing .drawX data s)

/-- LEG_WRITE DRAW_Y: 40_register_interface.md R142. -/
def execLegWriteDrawY (data : Word32) (s : State) : Host.Outcome State Fault Refusal :=
  .next (writeDrawing .drawY data s)

/-- LEG_WRITE DRAW_W: 40_register_interface.md R142. -/
def execLegWriteDrawW (data : Word32) (s : State) : Host.Outcome State Fault Refusal :=
  .next (writeDrawing .drawW data s)

/-- LEG_WRITE DRAW_H: 40_register_interface.md R142. -/
def execLegWriteDrawH (data : Word32) (s : State) : Host.Outcome State Fault Refusal :=
  .next (writeDrawing .drawH data s)

/-- LEG_WRITE FILL_COLOR: 40_register_interface.md R142. -/
def execLegWriteFillColor (data : Word32) (s : State) : Host.Outcome State Fault Refusal :=
  .next (writeDrawing .fillColor data s)

/-- LEG_WRITE SRC_ADDR: 40_register_interface.md R142. -/
def execLegWriteSrcAddr (data : Word32) (s : State) : Host.Outcome State Fault Refusal :=
  .next (writeDrawing .srcAddr data s)

/-- LEG_WRITE SRC_STRIDE: 40_register_interface.md R142. -/
def execLegWriteSrcStride (data : Word32) (s : State) : Host.Outcome State Fault Refusal :=
  .next (writeDrawing .srcStride data s)

/-- LEG_WRITE STENCIL_KEY: 40_register_interface.md R142. -/
def execLegWriteStencilKey (data : Word32) (s : State) : Host.Outcome State Fault Refusal :=
  .next (writeDrawing .stencilKey data s)

/-- LEG_WRITE ALPHA_MODE: 40_register_interface.md R142. -/
def execLegWriteAlphaMode (data : Word32) (s : State) : Host.Outcome State Fault Refusal :=
  .next (writeDrawing .alphaMode data s)

/-- LEG_WRITE PIXEL_FMT: 40_register_interface.md R142. -/
def execLegWritePixelFmt (data : Word32) (s : State) : Host.Outcome State Fault Refusal :=
  .next (writeDrawing .pixelFmt data s)

/-- LEG_WRITE STATUS: 40_register_interface.md R145. -/
def execLegWriteStatus (_data : Word32) (s : State) : Host.Outcome State Fault Refusal :=
  .next (ignoreWrite s)

/-- LEG_WRITE IRQ_ENABLE: 40_register_interface.md R142, no pulse. -/
def execLegWriteIrqEnable (data : Word32) (s : State) : Host.Outcome State Fault Refusal :=
  .next (respond .ok { s with irqEnable := data.setWidth 2 })

/-- LEG_WRITE FIFO_DATA_LO: 40_register_interface.md R143. -/
def execLegWriteFifoDataLo (data : Word32) (s : State) : Host.Outcome State Fault Refusal :=
  .next (respond .ok { s with loLatch := data })

/-- LEG_WRITE FIFO_PUSH: 40_register_interface.md R144. -/
def execLegWriteFifoPush (data : Word32) (s : State) : Host.Outcome State Fault Refusal :=
  .next (legacyPush data s)

/-- LEG_WRITE CTRL: 40_register_interface.md R146. -/
def execLegWriteCtrl (data : Word32) (s : State) : Host.Outcome State Fault Refusal :=
  .next (ctrlWrite data s)

/-- LEG_WRITE VQ_FAULT_COUNT: 40_register_interface.md R145. -/
def execLegWriteVqFaultCount (_data : Word32) (s : State) : Host.Outcome State Fault Refusal :=
  .next (ignoreWrite s)

/-! ### The VRAM window (20_memory.md R74) -/

/-- Whether a window access has a legal width and natural alignment. -/
def windowAligned (a n : Nat) : Bool := [1, 2, 4].contains n && a % n == 0

/-- A host read through the window. Widths other than 1, 2, 4 are answered as misaligned (log 16). -/
def windowRead (a n : Nat) (s : State) : State :=
  if !windowAligned a n then respond (.err .invalidRegister) s
  else match vramRead s a n with
    | none => respond (.err .outOfRange) s
    | some v => respond (.okData (BitVec.ofNat 32 v)) s

/-- A host write through the window; its bytes taint every operation in flight (43_draw.md R222). -/
def windowWrite (a n : Nat) (data : Word32) (s : State) : State :=
  if !windowAligned a n then respond (.err .invalidRegister) s
  else match vramWrite s a n data.toNat with
    | none => respond (.err .outOfRange) s
    | some s' => respond .ok (taintAll a n s')

/-- The host's own read of guest memory, of the bytes below 2^64: what it finds stands in `hostRead`
(60_exceptions.md R418, log 21). -/
def hostGuestRead (a : Word64) (n : Nat) (s : State) : State :=
  { s with hostRead := guestBytes s a.toNat (min n (2 ^ 64 - a.toNat)) }

/-- The host's own write of guest memory, at addresses below 2^64 (60_exceptions.md R425, log 21). -/
def hostGuestWrite (a : Word64) (bytes : List Byte) (s : State) : State :=
  guestStore a.toNat (bytes.take (2 ^ 64 - a.toNat)) s

/-- The carrier of an access the host has issued. -/
def fetchAccess (a : BusAccess) : Carrier := .access a

end Sys2Proof.Machine
end

