-- ==== Sys2Proof/Machine/Native.lean ====
section
/-! DEFINITION. The native command words. Each meaning is the Parse step on that word as the oldest
entry of the FIFO (41_fifo_decoder.md R180), which it consumes. -/
namespace Sys2Proof.Machine

/-- NOP: only the FIFO head moves (41_fifo_decoder.md R182). -/
def execNop (s : State) : Host.Outcome State Fault Refusal := .next (popFifo s)

/-- EOL: enters the in-flight list (41_fifo_decoder.md R183). -/
def execEol (s : State) : Host.Outcome State Fault Refusal :=
  .next (startOperation .eol (headProducer s) Regs.zero (popFifo s))

/-- SET_REG's effect: a drawing register, or Fault INVALID_REGISTER (42_state_set.md R200, R201). -/
def setRegEffect (sel : BitVec 8) (val : Word32) (s : State) : State :=
  match regOfNumber sel.toNat with
  | some r => setReg r val s
  | none => raiseFault codeInvalidRegister s

/-- SET_REG (42_state_set.md R200, R201). -/
def execSetReg (sel : BitVec 8) (val : Word32) (s : State) : Host.Outcome State Fault Refusal :=
  .next (setRegEffect sel val (popFifo s))

/-- Draw Parse: the snapshot, the bounds test, and the in-flight entry (43_draw.md R211). -/
def parseDraw (kind : OpKind) (s : State) : State :=
  if drawInBounds kind s.regs s.cfg.vramSize then
    startOperation kind (headProducer s) s.regs (popFifo s)
  else raiseFault codeOutOfRange (popFifo s)

/-- FILL (43_draw.md R211, R230); its pixels are the steps of `pixelStep`. -/
def execFill (s : State) : Host.Outcome State Fault Refusal := .next (parseDraw .fill s)

/-- BLIT (43_draw.md R211, R231); its pixels are the steps of `pixelStep`. -/
def execBlit (s : State) : Host.Outcome State Fault Refusal := .next (parseDraw .blit s)

/-- A word that decodes as INVALID: consumed, Fault INVALID_OPCODE (41_fifo_decoder.md R184). -/
def parseInvalid (s : State) : State := raiseFault codeInvalidOpcode (popFifo s)

/-- Whether Parse is enabled (41_fifo_decoder.md R180). -/
def parseEnabled (s : State) : Bool := !s.fifo.isEmpty && s.inflight.length < s.cfg.pipeDepth

/-- The word Parse takes: the oldest entry's. -/
def fetchCommand (s : State) : Carrier :=
  match s.fifo with
  | [] => .command 0
  | e :: _ => .command e.word

end Sys2Proof.Machine
end

