-- ==== Sys2Proof/Machine/Translator.lean ====
section
/-! DEFINITION. The VirtIO-GPU translator: step 6 of the request algorithm on a decoded request
(45_virtqueue.md R300, R306; 46_gpu_translator.md). A meaning leaves the response, the group and the staging
plan in VQP and moves it to the staging copy, to Acquire, or to WAIT. -/
namespace Sys2Proof.Machine

/-- The response types (30_encoding.md R118). -/
def respOkNoData : Nat := 0x1100
def respOkDisplayInfo : Nat := 0x1101
def respErrUnspec : Nat := 0x1200
def respErrOutOfMemory : Nat := 0x1201
def respErrInvalidScanoutId : Nat := 0x1202
def respErrInvalidResourceId : Nat := 0x1203
def respErrInvalidParameter : Nat := 0x1205

/-- The phase after TRANSLATE: the staging copy if there is one, the arbiter for a non-empty group,
else WAIT (45_virtqueue.md R300, R306). -/
def phaseAfterTranslate (group : List Word64) (plan : Option StagingPlan) : Phase :=
  match plan with
  | some _ => .stage
  | none => if group.isEmpty then .wait else .acquire

/-- The state with a translation's response, group and staging plan (45_virtqueue.md R306). -/
def finishTranslate (resp : List Byte) (group : List Word64) (plan : Option StagingPlan)
    (s : State) : State :=
  { s with vqp := { s.vqp with
      phase := phaseAfterTranslate group plan
      resp := resp
      group := group
      plan := plan
      copied := 0 } }

/-- `Err(code)` (46_gpu_translator.md R340, R344). -/
def answerError (code : Nat) (h : CtrlHdr) (s : State) : State :=
  finishTranslate (hdrBytes code h) [] none s

/-- `Hdr(RESP_OK_NODATA)` with a group (46_gpu_translator.md R344). -/
def answerOk (h : CtrlHdr) (group : List Word64) (s : State) : State :=
  finishTranslate (hdrBytes respOkNoData h) group none s

/-- `Lookup(id)`; `none` when id is 0 or not mapped (46_gpu_translator.md R342). -/
def lookupResource (s : State) (id : Word32) : Option Resource :=
  if id = 0 then none else assocGet id.toNat s.resources

/-- What a failed lookup does (46_gpu_translator.md R342). -/
def unknownResource (h : CtrlHdr) (s : State) : State :=
  answerError respErrInvalidResourceId h (raiseFault codeUnknownResource s)

/-- The state with a resource mapped or replaced. -/
def putResource (id : Word32) (r : Resource) (s : State) : State :=
  { s with resources := assocPut id.toNat r s.resources }

/-- Whether [b, b + size) overlaps a resource's region (46_gpu_translator.md R341). -/
def overlapsResource (b size : Nat) (r : Resource) : Bool := b < r.base + r.size && r.base < b + size

/-- First fit from `RES_HEAP_BASE + m * ALLOC_ALIGN` on (46_gpu_translator.md R341). -/
def allocFrom (p : Params) (rs : List (Nat × Resource)) (size : Nat) : (fuel m : Nat) → Option Nat
  | 0, _ => none
  | fuel + 1, m =>
    let b := p.resHeapBase + m * p.allocAlign
    if p.stagingBase < b + size then none
    else if rs.any (fun r => overlapsResource b size r.2) then allocFrom p rs size fuel (m + 1)
    else some b

/-- `Alloc(size)` (46_gpu_translator.md R341). The fuel covers every candidate below STAGING_BASE. -/
def allocRegion (p : Params) (rs : List (Nat × Resource)) (size : Nat) : Option Nat :=
  allocFrom p rs size (p.stagingBase / p.allocAlign + 1) 0

/-- The accepted resource formats (30_encoding.md R119). -/
def formatAccepted (f : Word32) : Bool := [1, 2, 3, 4, 67, 68, 121, 134].contains f.toNat

/-- CMD_GET_DISPLAY_INFO: one enabled mode of the display size, fifteen zero modes
(46_gpu_translator.md R345). -/
def displayInfoBytes (p : Params) : List Byte :=
  leBytes 4 0 ++ leBytes 4 0 ++ leBytes 4 p.displayW ++ leBytes 4 p.displayH ++ leBytes 4 1 ++
    leBytes 4 0 ++ List.replicate 360 0#8

/-- CMD_GET_DISPLAY_INFO (46_gpu_translator.md R345). -/
def execCmdGetDisplayInfo (h : CtrlHdr) (s : State) : Host.Outcome State Fault Refusal :=
  .next (finishTranslate (hdrBytes respOkDisplayInfo h ++ displayInfoBytes s.cfg) [] none s)

/-- CMD_RESOURCE_CREATE_2D (46_gpu_translator.md R346). -/
def createResource (h : CtrlHdr) (id format width height : Word32) (s : State) : State :=
  if id = 0 || (assocGet id.toNat s.resources).isSome then answerError respErrInvalidResourceId h s
  else if !formatAccepted format then answerError respErrInvalidParameter h s
  else if width = 0 || height = 0 || s.cfg.maxResW < width.toNat || s.cfg.maxResH < height.toNat then
    answerError respErrInvalidParameter h s
  else if s.resources.length ≥ s.cfg.maxResources then answerError respErrOutOfMemory h s
  else match allocRegion s.cfg s.resources (4 * width.toNat * height.toNat) with
    | none => answerError respErrOutOfMemory h s
    | some b =>
      answerOk h [] (putResource id
        { format, width := width.toNat, height := height.toNat, stride := 4 * width.toNat, base := b,
          size := 4 * width.toNat * height.toNat, backing := none } s)

def execCmdResourceCreate2d (h : CtrlHdr) (id format width height : Word32) (s : State) :
    Host.Outcome State Fault Refusal :=
  .next (createResource h id format width height s)

/-- The state with a resource unmapped, the scan-out disabled if it was bound to it
(46_gpu_translator.md R347). -/
def removeResource (id : Word32) (s : State) : State :=
  { s with
    scanout := if s.scanout.enabled && s.scanout.resourceId == id then Scanout.off else s.scanout
    resources := assocErase id.toNat s.resources }

/-- CMD_RESOURCE_UNREF (46_gpu_translator.md R347). -/
def execCmdResourceUnref (h : CtrlHdr) (id : Word32) (s : State) :
    Host.Outcome State Fault Refusal :=
  match lookupResource s id with
  | none => .next (unknownResource h s)
  | some _ => .next (answerOk h [] (removeResource id s))

/-- The group of SET_SCANOUT (46_gpu_translator.md R348). -/
def scanoutGroup (base stride : Nat) : List Word64 :=
  [setWord .fbAddr base, setWord .fbStride stride, setWord .pixelFmt 0]

/-- The VRAM address of pixel (x, y) of a resource. -/
def resourceAddr (r : Resource) (x y : Word32) : Nat := r.base + y.toNat * r.stride + x.toNat * 4

/-- CMD_SET_SCANOUT (46_gpu_translator.md R348). -/
def setScanout (h : CtrlHdr) (r : Rect) (scanoutId id : Word32) (s : State) : State :=
  if scanoutId ≠ 0 then answerError respErrInvalidScanoutId h s
  else if id = 0 then answerOk h [] { s with scanout := Scanout.off }
  else match lookupResource s id with
    | none => unknownResource h s
    | some res =>
      if r.width = 0 || r.height = 0 || !rectInside r res.width res.height then
        answerError respErrInvalidParameter h s
      else
        answerOk h (scanoutGroup (resourceAddr res r.x r.y) res.stride)
          { s with scanout := { enabled := true, resourceId := id, rect := r,
                                base := resourceAddr res r.x r.y, stride := res.stride } }

def execCmdSetScanout (h : CtrlHdr) (r : Rect) (scanoutId id : Word32) (s : State) :
    Host.Outcome State Fault Refusal :=
  .next (setScanout h r scanoutId id s)

/-- The ten SET words and the BLIT of a flush or transfer, in their order
(46_gpu_translator.md R349, R350). -/
def blitGroup (src srcStride fb fbStride x y w h : Nat) : List Word64 :=
  [setWord .srcAddr src, setWord .srcStride srcStride, setWord .fbAddr fb, setWord .fbStride fbStride,
   setWord .drawX x, setWord .drawY y, setWord .drawW w, setWord .drawH h,
   setWord .alphaMode 0, setWord .pixelFmt 0, blitWord]

/-- Width or height left of a flushed rectangle once clipped to the scan-out's: 0 when nothing is
visible (46_gpu_translator.md R349). -/
def clipLength (start len limit : Word32) : Nat :=
  min (start.toNat + len.toNat) limit.toNat - start.toNat

/-- CMD_RESOURCE_FLUSH's group; empty when nothing is to be copied (46_gpu_translator.md R349). -/
def flushGroup (r : Rect) (id : Word32) (res : Resource) (sc : Scanout) : List Word64 :=
  let cw := clipLength r.x r.width sc.rect.width
  let ch := clipLength r.y r.height sc.rect.height
  if !sc.enabled || id = sc.resourceId || r.width = 0 || r.height = 0 || cw = 0 || ch = 0 then []
  else blitGroup (resourceAddr res r.x r.y) res.stride sc.base sc.stride r.x.toNat r.y.toNat cw ch

/-- CMD_RESOURCE_FLUSH (46_gpu_translator.md R349). -/
def execCmdResourceFlush (h : CtrlHdr) (r : Rect) (id : Word32) (s : State) :
    Host.Outcome State Fault Refusal :=
  match lookupResource s id with
  | none => .next (unknownResource h s)
  | some res =>
    if !rectInside r res.width res.height then .next (answerError respErrInvalidParameter h s)
    else .next (answerOk h (flushGroup r id res s.scanout) s)

/-- The group of a transfer: the BLIT from the staging area, and the scan-out's FB registers put back
when one is enabled (46_gpu_translator.md R350). -/
def transferGroup (p : Params) (r : Rect) (res : Resource) (sc : Scanout) : List Word64 :=
  blitGroup p.stagingBase (4 * r.width.toNat) res.base res.stride r.x.toNat r.y.toNat r.width.toNat
      r.height.toNat ++
    if sc.enabled then [setWord .fbAddr sc.base, setWord .fbStride sc.stride] else []

/-- CMD_TRANSFER_TO_HOST_2D (46_gpu_translator.md R350). -/
def transferToHost (h : CtrlHdr) (r : Rect) (offset : Word64) (id : Word32) (s : State) : State :=
  match lookupResource s id with
  | none => unknownResource h s
  | some res =>
    match res.backing with
    | none => answerError respErrUnspec h s
    | some backing =>
      if !rectInside r res.width res.height then answerError respErrInvalidParameter h s
      else if r.width = 0 || r.height = 0 then answerOk h [] s
      else if segLength (backingSegs backing) <
          offset.toNat + (r.height.toNat - 1) * res.stride + 4 * r.width.toNat then
        answerError respErrInvalidParameter h s
      else
        finishTranslate (hdrBytes respOkNoData h) (transferGroup s.cfg r res s.scanout)
          (some { backing, stride := res.stride, width := r.width.toNat, height := r.height.toNat,
                  offset := offset.toNat }) s

def execCmdTransferToHost2d (h : CtrlHdr) (r : Rect) (offset : Word64) (id : Word32) (s : State) :
    Host.Outcome State Fault Refusal :=
  .next (transferToHost h r offset id s)

/-- CMD_RESOURCE_ATTACH_BACKING (46_gpu_translator.md R351): `entries` holds the complete entries of the
request, so it is short exactly when the request is shorter than 32 + 16n. -/
def attachBacking (h : CtrlHdr) (id nrEntries : Word32) (entries : List BackingEntry) (s : State) :
    State :=
  if s.cfg.maxBackingEntries < nrEntries.toNat || entries.length < nrEntries.toNat then
    answerError respErrUnspec h s
  else match lookupResource s id with
    | none => unknownResource h s
    | some res =>
      if res.backing.isSome then answerError respErrUnspec h s
      else answerOk h [] (putResource id { res with backing := some entries } s)

def execCmdResourceAttachBacking (h : CtrlHdr) (id nrEntries : Word32) (entries : List BackingEntry)
    (s : State) : Host.Outcome State Fault Refusal :=
  .next (attachBacking h id nrEntries entries s)

/-- CMD_RESOURCE_DETACH_BACKING (46_gpu_translator.md R352). -/
def execCmdResourceDetachBacking (h : CtrlHdr) (id : Word32) (s : State) :
    Host.Outcome State Fault Refusal :=
  match lookupResource s id with
  | none => .next (unknownResource h s)
  | some res =>
    if res.backing.isSome then .next (answerOk h [] (putResource id { res with backing := none } s))
    else .next (answerError respErrUnspec h s)

/-- CMD_GET_CAPSET_INFO: unsupported, RESP_ERR_UNSPEC (46_gpu_translator.md R353). -/
def execCmdGetCapsetInfo (h : CtrlHdr) (s : State) : Host.Outcome State Fault Refusal :=
  .next (answerError respErrUnspec h s)

/-- CMD_GET_CAPSET: unsupported, RESP_ERR_UNSPEC (46_gpu_translator.md R353). -/
def execCmdGetCapset (h : CtrlHdr) (s : State) : Host.Outcome State Fault Refusal :=
  .next (answerError respErrUnspec h s)

/-- CMD_GET_EDID: unsupported, RESP_ERR_UNSPEC (46_gpu_translator.md R353). -/
def execCmdGetEdid (h : CtrlHdr) (s : State) : Host.Outcome State Fault Refusal :=
  .next (answerError respErrUnspec h s)

/-- CMD_RESOURCE_ASSIGN_UUID: unsupported, RESP_ERR_UNSPEC (46_gpu_translator.md R353). -/
def execCmdResourceAssignUuid (h : CtrlHdr) (s : State) : Host.Outcome State Fault Refusal :=
  .next (answerError respErrUnspec h s)

/-- CMD_RESOURCE_CREATE_BLOB: unsupported, RESP_ERR_UNSPEC (46_gpu_translator.md R353). -/
def execCmdResourceCreateBlob (h : CtrlHdr) (s : State) : Host.Outcome State Fault Refusal :=
  .next (answerError respErrUnspec h s)

/-- CMD_SET_SCANOUT_BLOB: unsupported, RESP_ERR_UNSPEC (46_gpu_translator.md R353). -/
def execCmdSetScanoutBlob (h : CtrlHdr) (s : State) : Host.Outcome State Fault Refusal :=
  .next (answerError respErrUnspec h s)

/-- CMD_UPDATE_CURSOR: unsupported, RESP_ERR_UNSPEC (46_gpu_translator.md R353). -/
def execCmdUpdateCursor (h : CtrlHdr) (s : State) : Host.Outcome State Fault Refusal :=
  .next (answerError respErrUnspec h s)

/-- CMD_MOVE_CURSOR: unsupported, RESP_ERR_UNSPEC (46_gpu_translator.md R353). -/
def execCmdMoveCursor (h : CtrlHdr) (s : State) : Host.Outcome State Fault Refusal :=
  .next (answerError respErrUnspec h s)

/-- The 3D types: unsupported, RESP_ERR_UNSPEC (46_gpu_translator.md R353). -/
def execCmd3dRange (h : CtrlHdr) (_low : BitVec 8) (s : State) : Host.Outcome State Fault Refusal :=
  .next (answerError respErrUnspec h s)

/-- A request that decodes to no row, short or of an unlisted type (46_gpu_translator.md R340, R353). -/
def rejectRequest (s : State) : State := answerError respErrUnspec (decodeHdr s.vqp.req) s

/-- The carrier of the request in translation. -/
def fetchRequest (s : State) : Carrier := .request s.vqp.req

end Sys2Proof.Machine
end

