-- ==== Sys2Proof/Machine/VirtioMmio.lean ====
section
/-! DEFINITION. The VirtIO MMIO block (Version 2). Each access is one atomic step of the host
(44_virtio_transport.md R260). -/
namespace Sys2Proof.Machine

/-- A word of a 64-bit value: 0 the low one, 1 the high one, else 0 (44_virtio_transport.md R261). -/
def wordOf (v : Word64) (sel : Word32) : Word32 :=
  if sel = 0 then v.extractLsb' 0 32 else if sel = 1 then v.extractLsb' 32 32 else 0

/-- A 64-bit value with its low word replaced. -/
def withLow (v : Word64) (data : Word32) : Word64 := v.extractLsb' 32 32 ++ data

/-- A 64-bit value with its high word replaced. -/
def withHigh (v : Word64) (data : Word32) : Word64 := data ++ v.extractLsb' 0 32

/-- The selected queue, if the selector names one (44_virtio_transport.md R264). -/
def selectedQueue (s : State) : Option QueueId := queueOfIndex s.vio.queueSel

/-- A configuration write to the selected queue: ignored for no queue or a ready one
(44_virtio_transport.md R265). -/
def configureQueue (f : Queue → Queue) (s : State) : State :=
  match selectedQueue s with
  | none => s
  | some q => if (getQueue s q).ready then s else setQueue q (f (getQueue s q)) s

/-- Whether a queue size can be made ready (44_virtio_transport.md R266). -/
def queueSizeOk (s : State) (num : Word32) : Bool :=
  natIsPow2 num.toNat && num.toNat ≤ s.cfg.queueNumMax

/-- QueueReady written with bit 0 set, on a queue that exists (44_virtio_transport.md R266). -/
def enableQueue (q : QueueId) (s : State) : State :=
  let v := getQueue s q
  if v.ready then s
  else if queueSizeOk s v.num then
    setQueue q { v with ready := true, lastAvail := 0, usedIdx := 0, pending := false } s
  else deviceError s

/-- QueueReady written with bit 0 clear (44_virtio_transport.md R266). -/
def disableQueue (q : QueueId) (s : State) : State :=
  setQueue q { getQueue s q with ready := false, pending := false } s

/-- QueueReady (44_virtio_transport.md R266). -/
def queueReadyWrite (data : Word32) (s : State) : State :=
  match selectedQueue s with
  | none => s
  | some q => if data.getLsbD 0 then enableQueue q s else disableQueue q s

/-- QueueNotify (44_virtio_transport.md R268). -/
def queueNotify (data : Word32) (s : State) : State :=
  match queueOfIndex data with
  | none => s
  | some q =>
    if serviceable s (getQueue s q) then setQueue q { getQueue s q with pending := true } s else s

/-- DriverFeatures: ignored while FEATURES_OK is set or for a selector above 1 (44_virtio_transport.md
R262). A driver that clears FEATURES_OK by a Status write can write them again (log 32). -/
def driverFeaturesWrite (data : Word32) (s : State) : State :=
  if hasStatus s.vio.status statusFeaturesOk then s
  else if s.vio.drvFeaturesSel = 0 then
    { s with vio := { s.vio with driverFeatures := withLow s.vio.driverFeatures data } }
  else if s.vio.drvFeaturesSel = 1 then
    { s with vio := { s.vio with driverFeatures := withHigh s.vio.driverFeatures data } }
  else s

/-- `DeviceReset()` (70_reset_and_hazards.md R441): VIO, both queues, VQP and TR at their reset values
and the lock free; the native engine, the FIFO, VRAM and the pulses are kept. -/
def deviceReset (s : State) : State :=
  { s with
    vio := Vio.zero
    q0 := Queue.zero
    q1 := Queue.zero
    vqp := Vqp.idle
    resources := []
    scanout := Scanout.off
    lock := .free }

/-- `FeatureCheck()`'s test: a feature bit the device did not offer (44_virtio_transport.md R272). -/
def featuresRefused (features : Word64) : Bool := features &&& ~~~Config.deviceFeatures != 0

/-- `neg_failed` after a Status write of `v` that is not 0 (44_virtio_transport.md R270, R272). -/
def negFailedAfter (v : BitVec 8) (w : Vio) : Bool :=
  if hasStatus v statusFeaturesOk && !hasStatus w.status statusFeaturesOk then
    w.negFailed || featuresRefused w.driverFeatures
  else w.negFailed

/-- The status stored by a write of `v` that is not 0, given `neg_failed` after the check
(44_virtio_transport.md R270, R273). -/
def statusAfter (v old : BitVec 8) (negFailed : Bool) : BitVec 8 :=
  let new0 := v &&& ~~~statusNeedsReset
  let new1 := if negFailed then new0 &&& ~~~(statusFeaturesOk ||| statusDriverOk) else new0
  let new2 := if hasStatus new1 statusFeaturesOk then new1 else new1 &&& ~~~statusDriverOk
  new2 ||| (old &&& statusNeedsReset)

/-- Status (44_virtio_transport.md R270). -/
def statusWrite (data : Word32) (s : State) : State :=
  let v : BitVec 8 := data.setWidth 8
  if v = 0 then deviceReset s
  else
    let neg := negFailedAfter v s.vio
    { s with vio := { s.vio with negFailed := neg, status := statusAfter v s.vio.status neg } }

/-- InterruptACK (44_virtio_transport.md R269). -/
def interruptAck (data : Word32) (s : State) : State :=
  { s with vio := { s.vio with
      interruptStatus := s.vio.interruptStatus &&& ~~~(data.setWidth 2) } }

/-- events_clear (44_virtio_transport.md R276). -/
def eventsClear (data : Word32) (s : State) : State :=
  { s with vio := { s.vio with eventsRead := s.vio.eventsRead &&& ~~~data } }

/-- The value of QueueReady (44_virtio_transport.md R266). -/
def queueReadyValue (s : State) : Word32 :=
  match selectedQueue s with
  | none => 0
  | some q => if (getQueue s q).ready then 1 else 0

/-- The value of QueueNumMax (44_virtio_transport.md R264). -/
def queueNumMaxValue (s : State) : Word32 :=
  if (selectedQueue s).isSome then BitVec.ofNat 32 s.cfg.queueNumMax else 0

/-! ### One meaning a row -/

/-- VIO_READ MagicValue: 44_virtio_transport.md R263. -/
def execVioReadMagicValue (s : State) : Host.Outcome State Fault Refusal :=
  .next (answerData 0x74726976 s)

/-- VIO_READ Version: 44_virtio_transport.md R263. -/
def execVioReadVersion (s : State) : Host.Outcome State Fault Refusal :=
  .next (answerData 2 s)

/-- VIO_READ DeviceID: 44_virtio_transport.md R263. -/
def execVioReadDeviceID (s : State) : Host.Outcome State Fault Refusal :=
  .next (answerData 16 s)

/-- VIO_READ VendorID: 44_virtio_transport.md R263. -/
def execVioReadVendorID (s : State) : Host.Outcome State Fault Refusal :=
  .next (answerData s.cfg.vendorId s)

/-- VIO_READ DeviceFeatures: 44_virtio_transport.md R261. -/
def execVioReadDeviceFeatures (s : State) : Host.Outcome State Fault Refusal :=
  .next (answerData (wordOf Config.deviceFeatures s.vio.devFeaturesSel) s)

/-- VIO_READ QueueNumMax: 44_virtio_transport.md R264. -/
def execVioReadQueueNumMax (s : State) : Host.Outcome State Fault Refusal :=
  .next (answerData (queueNumMaxValue s) s)

/-- VIO_READ QueueReady: 44_virtio_transport.md R266. -/
def execVioReadQueueReady (s : State) : Host.Outcome State Fault Refusal :=
  .next (answerData (queueReadyValue s) s)

/-- VIO_READ InterruptStatus: 44_virtio_transport.md R267. -/
def execVioReadInterruptStatus (s : State) : Host.Outcome State Fault Refusal :=
  .next (answerData (s.vio.interruptStatus.setWidth 32) s)

/-- VIO_READ Status: 44_virtio_transport.md R270. -/
def execVioReadStatus (s : State) : Host.Outcome State Fault Refusal :=
  .next (answerData (s.vio.status.setWidth 32) s)

/-- VIO_READ ConfigGeneration: 44_virtio_transport.md R263. -/
def execVioReadConfigGeneration (s : State) : Host.Outcome State Fault Refusal :=
  .next (answerData 0 s)

/-- VIO_READ events_read: 44_virtio_transport.md R276. -/
def execVioReadEventsRead (s : State) : Host.Outcome State Fault Refusal :=
  .next (answerData s.vio.eventsRead s)

/-- VIO_READ num_scanouts: 44_virtio_transport.md R276. -/
def execVioReadNumScanouts (s : State) : Host.Outcome State Fault Refusal :=
  .next (answerData (BitVec.ofNat 32 Config.numScanouts) s)

/-- VIO_READ num_capsets: 44_virtio_transport.md R276. -/
def execVioReadNumCapsets (s : State) : Host.Outcome State Fault Refusal :=
  .next (answerData 0 s)

/-- VIO_WRITE DeviceFeaturesSel: 44_virtio_transport.md R261. -/
def execVioWriteDeviceFeaturesSel (data : Word32) (s : State) : Host.Outcome State Fault Refusal :=
  .next (respond .ok { s with vio := { s.vio with devFeaturesSel := data } })

/-- VIO_WRITE DriverFeatures: 44_virtio_transport.md R262. -/
def execVioWriteDriverFeatures (data : Word32) (s : State) : Host.Outcome State Fault Refusal :=
  .next (respond .ok (driverFeaturesWrite data s))

/-- VIO_WRITE DriverFeaturesSel: 44_virtio_transport.md R262. -/
def execVioWriteDriverFeaturesSel (data : Word32) (s : State) : Host.Outcome State Fault Refusal :=
  .next (respond .ok { s with vio := { s.vio with drvFeaturesSel := data } })

/-- VIO_WRITE QueueSel: 44_virtio_transport.md R264. -/
def execVioWriteQueueSel (data : Word32) (s : State) : Host.Outcome State Fault Refusal :=
  .next (respond .ok { s with vio := { s.vio with queueSel := data } })

/-- VIO_WRITE QueueNum: 44_virtio_transport.md R265. -/
def execVioWriteQueueNum (data : Word32) (s : State) : Host.Outcome State Fault Refusal :=
  .next (respond .ok (configureQueue (fun q => { q with num := data }) s))

/-- VIO_WRITE QueueReady: 44_virtio_transport.md R266. -/
def execVioWriteQueueReady (data : Word32) (s : State) : Host.Outcome State Fault Refusal :=
  .next (respond .ok (queueReadyWrite data s))

/-- VIO_WRITE QueueNotify: 44_virtio_transport.md R268. -/
def execVioWriteQueueNotify (data : Word32) (s : State) : Host.Outcome State Fault Refusal :=
  .next (respond .ok (queueNotify data s))

/-- VIO_WRITE InterruptACK: 44_virtio_transport.md R269. -/
def execVioWriteInterruptACK (data : Word32) (s : State) : Host.Outcome State Fault Refusal :=
  .next (respond .ok (interruptAck data s))

/-- VIO_WRITE Status: 44_virtio_transport.md R270. -/
def execVioWriteStatus (data : Word32) (s : State) : Host.Outcome State Fault Refusal :=
  .next (respond .ok (statusWrite data s))

/-- VIO_WRITE QueueDescLow: 44_virtio_transport.md R265. -/
def execVioWriteQueueDescLow (data : Word32) (s : State) : Host.Outcome State Fault Refusal :=
  .next (respond .ok (configureQueue (fun q => { q with descAddr := withLow q.descAddr data }) s))

/-- VIO_WRITE QueueDescHigh: 44_virtio_transport.md R265. -/
def execVioWriteQueueDescHigh (data : Word32) (s : State) : Host.Outcome State Fault Refusal :=
  .next (respond .ok (configureQueue (fun q => { q with descAddr := withHigh q.descAddr data }) s))

/-- VIO_WRITE QueueDriverLow: 44_virtio_transport.md R265. -/
def execVioWriteQueueDriverLow (data : Word32) (s : State) : Host.Outcome State Fault Refusal :=
  .next (respond .ok (configureQueue (fun q => { q with driverAddr := withLow q.driverAddr data }) s))

/-- VIO_WRITE QueueDriverHigh: 44_virtio_transport.md R265. -/
def execVioWriteQueueDriverHigh (data : Word32) (s : State) : Host.Outcome State Fault Refusal :=
  .next (respond .ok (configureQueue (fun q => { q with driverAddr := withHigh q.driverAddr data }) s))

/-- VIO_WRITE QueueDeviceLow: 44_virtio_transport.md R265. -/
def execVioWriteQueueDeviceLow (data : Word32) (s : State) : Host.Outcome State Fault Refusal :=
  .next (respond .ok (configureQueue (fun q => { q with deviceAddr := withLow q.deviceAddr data }) s))

/-- VIO_WRITE QueueDeviceHigh: 44_virtio_transport.md R265. -/
def execVioWriteQueueDeviceHigh (data : Word32) (s : State) : Host.Outcome State Fault Refusal :=
  .next (respond .ok (configureQueue (fun q => { q with deviceAddr := withHigh q.deviceAddr data }) s))

/-- VIO_WRITE events_clear: 44_virtio_transport.md R276. -/
def execVioWriteEventsClear (data : Word32) (s : State) : Host.Outcome State Fault Refusal :=
  .next (respond .ok (eventsClear data s))

/-- VIO_OTHER: a read answers 0, a write is ignored, both OK (44_virtio_transport.md R260). The offset
does not matter. -/
def execVioOther (_off : BitVec 9) (data : Option Word32) (s : State) :
    Host.Outcome State Fault Refusal :=
  match data with
  | none => .next (answerData 0 s)
  | some _ => .next (ignoreWrite s)

end Sys2Proof.Machine
end

