-- ==== Sys2Proof/Machine/Dispatch.lean ====
section
/-! DEFINITION. One arm for each row of spec/opcode_table.json. -/
namespace Sys2Proof.Machine

def exec (i : Instr) (s : State) : Host.Outcome State Fault Refusal :=
  match i with
  | .nop => Sys2Proof.Machine.execNop s
  | .eol => Sys2Proof.Machine.execEol s
  | .setReg sel val => Sys2Proof.Machine.execSetReg sel val s
  | .fill => Sys2Proof.Machine.execFill s
  | .blit => Sys2Proof.Machine.execBlit s
  | .cmdGetDisplayInfo h => Sys2Proof.Machine.execCmdGetDisplayInfo h s
  | .cmdResourceCreate2d h id format width height => Sys2Proof.Machine.execCmdResourceCreate2d h id format width height s
  | .cmdResourceUnref h id => Sys2Proof.Machine.execCmdResourceUnref h id s
  | .cmdSetScanout h r scanoutId id => Sys2Proof.Machine.execCmdSetScanout h r scanoutId id s
  | .cmdResourceFlush h r id => Sys2Proof.Machine.execCmdResourceFlush h r id s
  | .cmdTransferToHost2d h r offset id => Sys2Proof.Machine.execCmdTransferToHost2d h r offset id s
  | .cmdResourceAttachBacking h id nrEntries entries => Sys2Proof.Machine.execCmdResourceAttachBacking h id nrEntries entries s
  | .cmdResourceDetachBacking h id => Sys2Proof.Machine.execCmdResourceDetachBacking h id s
  | .cmdGetCapsetInfo h => Sys2Proof.Machine.execCmdGetCapsetInfo h s
  | .cmdGetCapset h => Sys2Proof.Machine.execCmdGetCapset h s
  | .cmdGetEdid h => Sys2Proof.Machine.execCmdGetEdid h s
  | .cmdResourceAssignUuid h => Sys2Proof.Machine.execCmdResourceAssignUuid h s
  | .cmdResourceCreateBlob h => Sys2Proof.Machine.execCmdResourceCreateBlob h s
  | .cmdSetScanoutBlob h => Sys2Proof.Machine.execCmdSetScanoutBlob h s
  | .cmdUpdateCursor h => Sys2Proof.Machine.execCmdUpdateCursor h s
  | .cmdMoveCursor h => Sys2Proof.Machine.execCmdMoveCursor h s
  | .cmd3dRange h low => Sys2Proof.Machine.execCmd3dRange h low s
  | .legReadFbAddr => Sys2Proof.Machine.execLegReadFbAddr s
  | .legReadFbStride => Sys2Proof.Machine.execLegReadFbStride s
  | .legReadDrawX => Sys2Proof.Machine.execLegReadDrawX s
  | .legReadDrawY => Sys2Proof.Machine.execLegReadDrawY s
  | .legReadDrawW => Sys2Proof.Machine.execLegReadDrawW s
  | .legReadDrawH => Sys2Proof.Machine.execLegReadDrawH s
  | .legReadFillColor => Sys2Proof.Machine.execLegReadFillColor s
  | .legReadSrcAddr => Sys2Proof.Machine.execLegReadSrcAddr s
  | .legReadSrcStride => Sys2Proof.Machine.execLegReadSrcStride s
  | .legReadStencilKey => Sys2Proof.Machine.execLegReadStencilKey s
  | .legReadAlphaMode => Sys2Proof.Machine.execLegReadAlphaMode s
  | .legReadPixelFmt => Sys2Proof.Machine.execLegReadPixelFmt s
  | .legReadStatus => Sys2Proof.Machine.execLegReadStatus s
  | .legReadIrqEnable => Sys2Proof.Machine.execLegReadIrqEnable s
  | .legReadFifoDataLo => Sys2Proof.Machine.execLegReadFifoDataLo s
  | .legReadFifoPush => Sys2Proof.Machine.execLegReadFifoPush s
  | .legReadCtrl => Sys2Proof.Machine.execLegReadCtrl s
  | .legReadVqFaultCount => Sys2Proof.Machine.execLegReadVqFaultCount s
  | .legWriteFbAddr data => Sys2Proof.Machine.execLegWriteFbAddr data s
  | .legWriteFbStride data => Sys2Proof.Machine.execLegWriteFbStride data s
  | .legWriteDrawX data => Sys2Proof.Machine.execLegWriteDrawX data s
  | .legWriteDrawY data => Sys2Proof.Machine.execLegWriteDrawY data s
  | .legWriteDrawW data => Sys2Proof.Machine.execLegWriteDrawW data s
  | .legWriteDrawH data => Sys2Proof.Machine.execLegWriteDrawH data s
  | .legWriteFillColor data => Sys2Proof.Machine.execLegWriteFillColor data s
  | .legWriteSrcAddr data => Sys2Proof.Machine.execLegWriteSrcAddr data s
  | .legWriteSrcStride data => Sys2Proof.Machine.execLegWriteSrcStride data s
  | .legWriteStencilKey data => Sys2Proof.Machine.execLegWriteStencilKey data s
  | .legWriteAlphaMode data => Sys2Proof.Machine.execLegWriteAlphaMode data s
  | .legWritePixelFmt data => Sys2Proof.Machine.execLegWritePixelFmt data s
  | .legWriteStatus data => Sys2Proof.Machine.execLegWriteStatus data s
  | .legWriteIrqEnable data => Sys2Proof.Machine.execLegWriteIrqEnable data s
  | .legWriteFifoDataLo data => Sys2Proof.Machine.execLegWriteFifoDataLo data s
  | .legWriteFifoPush data => Sys2Proof.Machine.execLegWriteFifoPush data s
  | .legWriteCtrl data => Sys2Proof.Machine.execLegWriteCtrl data s
  | .legWriteVqFaultCount data => Sys2Proof.Machine.execLegWriteVqFaultCount data s
  | .vioReadMagicValue => Sys2Proof.Machine.execVioReadMagicValue s
  | .vioReadVersion => Sys2Proof.Machine.execVioReadVersion s
  | .vioReadDeviceID => Sys2Proof.Machine.execVioReadDeviceID s
  | .vioReadVendorID => Sys2Proof.Machine.execVioReadVendorID s
  | .vioReadDeviceFeatures => Sys2Proof.Machine.execVioReadDeviceFeatures s
  | .vioReadQueueNumMax => Sys2Proof.Machine.execVioReadQueueNumMax s
  | .vioReadQueueReady => Sys2Proof.Machine.execVioReadQueueReady s
  | .vioReadInterruptStatus => Sys2Proof.Machine.execVioReadInterruptStatus s
  | .vioReadStatus => Sys2Proof.Machine.execVioReadStatus s
  | .vioReadConfigGeneration => Sys2Proof.Machine.execVioReadConfigGeneration s
  | .vioReadEventsRead => Sys2Proof.Machine.execVioReadEventsRead s
  | .vioReadNumScanouts => Sys2Proof.Machine.execVioReadNumScanouts s
  | .vioReadNumCapsets => Sys2Proof.Machine.execVioReadNumCapsets s
  | .vioWriteDeviceFeaturesSel data => Sys2Proof.Machine.execVioWriteDeviceFeaturesSel data s
  | .vioWriteDriverFeatures data => Sys2Proof.Machine.execVioWriteDriverFeatures data s
  | .vioWriteDriverFeaturesSel data => Sys2Proof.Machine.execVioWriteDriverFeaturesSel data s
  | .vioWriteQueueSel data => Sys2Proof.Machine.execVioWriteQueueSel data s
  | .vioWriteQueueNum data => Sys2Proof.Machine.execVioWriteQueueNum data s
  | .vioWriteQueueReady data => Sys2Proof.Machine.execVioWriteQueueReady data s
  | .vioWriteQueueNotify data => Sys2Proof.Machine.execVioWriteQueueNotify data s
  | .vioWriteInterruptACK data => Sys2Proof.Machine.execVioWriteInterruptACK data s
  | .vioWriteStatus data => Sys2Proof.Machine.execVioWriteStatus data s
  | .vioWriteQueueDescLow data => Sys2Proof.Machine.execVioWriteQueueDescLow data s
  | .vioWriteQueueDescHigh data => Sys2Proof.Machine.execVioWriteQueueDescHigh data s
  | .vioWriteQueueDriverLow data => Sys2Proof.Machine.execVioWriteQueueDriverLow data s
  | .vioWriteQueueDriverHigh data => Sys2Proof.Machine.execVioWriteQueueDriverHigh data s
  | .vioWriteQueueDeviceLow data => Sys2Proof.Machine.execVioWriteQueueDeviceLow data s
  | .vioWriteQueueDeviceHigh data => Sys2Proof.Machine.execVioWriteQueueDeviceHigh data s
  | .vioWriteEventsClear data => Sys2Proof.Machine.execVioWriteEventsClear data s
  | .vioOther off data => Sys2Proof.Machine.execVioOther off data s

end Sys2Proof.Machine
end

