-- ==== Sys2Proof/Machine/Pipeline.lean ====
section
/-! DEFINITION. The steps of the head of the in-flight list, Pixel and Retire, and the display reader. -/
namespace Sys2Proof.Machine

/-- The source pixel of an operation's current pixel, with the count of free bytes drawn: FILL_COLOR,
or the pixel at SrcAddr (43_draw.md R213). -/
def sourcePixel (s : State) (op : Operation) : Word32 × Nat :=
  if op.kind = .fill then (op.snap.fillColor, s.draws)
  else
    let r := readDraw s op (srcAddr op.snap op.k) (bytesPerPixel op.snap.pixelFmt) s.draws
    (widenPixel op.snap.pixelFmt r.1, r.2)

/-- Whether the colour key drops a source pixel: BLIT only, with KEY_EN, compared before blending on
the full 32 bits (43_draw.md R213). -/
def keyDrops (op : Operation) (src : Word32) : Bool :=
  op.kind == .blit && op.snap.alphaMode.getLsbD 1 && src == op.snap.stencilKey

/-- The pixel to write, blended over the destination when BLEND_EN is set, with the count of free
bytes drawn (43_draw.md R213). -/
def outputPixel (s : State) (op : Operation) (src : Word32) (draws : Nat) : Word32 × Nat :=
  if op.snap.alphaMode.getLsbD 0 then
    let r := readDraw s op (dstAddr op.snap op.k) (bytesPerPixel op.snap.pixelFmt) draws
    (overPixel src (widenPixel op.snap.pixelFmt r.1), r.2)
  else (src, draws)

/-- The operation at its next pixel. -/
def nextPixel (op : Operation) : Operation := { op with k := op.k + 1 }

/-- The state once the head's pixel is written: the bytes stored, every other operation tainted with
them (43_draw.md R213). -/
def writePixel (op : Operation) (rest : List Operation) (out : Word32) (draws : Nat) (s : State) :
    State :=
  { s with
    vram := storeBytes s.vram (dstAddr op.snap op.k) (narrowPixel op.snap.pixelFmt out)
    inflight := nextPixel op ::
      taintOps (dstAddr op.snap op.k) (bytesPerPixel op.snap.pixelFmt) rest
    draws := draws }

/-- Whether the current pixel's accesses lie inside VRAM. -/
def pixelInVram (s : State) (op : Operation) : Bool :=
  vramInRange s (dstAddr op.snap op.k) (bytesPerPixel op.snap.pixelFmt) &&
    (op.kind != .blit || vramInRange s (srcAddr op.snap op.k) (bytesPerPixel op.snap.pixelFmt))

/-- The Pixel step of the head `op`, with `rest` behind it (43_draw.md R213). -/
def pixelStep (op : Operation) (rest : List Operation) (s : State) :
    Host.Outcome State Fault Refusal :=
  if pixelInVram s op then
    let src := sourcePixel s op
    if keyDrops op src.1 then .next { s with inflight := nextPixel op :: rest, draws := src.2 }
    else
      let out := outputPixel s op src.1 src.2
      .next (writePixel op rest out.1 out.2 s)
  else .fault .vramOutOfRange

/-- Retire EOL (41_fifo_decoder.md R187). -/
def retireEol (rest : List Operation) (s : State) : State := setDone { s with inflight := rest }

/-- Retire draw: DONE when nothing is queued or in flight behind it (41_fifo_decoder.md R188). -/
def retireDraw (rest : List Operation) (s : State) : State :=
  if s.fifo.isEmpty && rest.isEmpty then setDone { s with inflight := rest }
  else { s with inflight := rest }

/-- The turn of the head of the in-flight list: Pixel while pixels are left, then Retire; nothing when
the list is empty (41_fifo_decoder.md R185 to R188). -/
def headStep (s : State) : Host.Outcome State Fault Refusal :=
  match s.inflight with
  | [] => .next s
  | op :: rest =>
    if op.kind = .eol then .next (retireEol rest s)
    else if op.k < pixelCount op.snap then pixelStep op rest s
    else .next (retireDraw rest s)

/-- The VRAM address of displayed pixel (x, y) (10_state.md R35). -/
def displayAddr (s : State) (x y : Nat) : Nat :=
  s.regs.fbAddr.toNat + y * s.regs.fbStride.toNat + x * bytesPerPixel s.regs.pixelFmt

/-- The displayed pixel, from what VRAM holds; `none` when its bytes leave VRAM (20_memory.md R71). -/
def displayPixel (s : State) (x y : Nat) : Option Word32 :=
  if vramInRange s (displayAddr s x y) (bytesPerPixel s.regs.pixelFmt) then
    some (widenPixel s.regs.pixelFmt
      (vramBytes s (displayAddr s x y) (bytesPerPixel s.regs.pixelFmt)))
  else none

/-- A read of the display reader, inside DISPLAY_W x DISPLAY_H (20_memory.md R79, log 15). -/
def displayStep (x y : Nat) (s : State) : State :=
  if x < s.cfg.displayW ∧ y < s.cfg.displayH then
    { s with display := some { x, y, pixel := displayPixel s x y } }
  else s

end Sys2Proof.Machine
end

