-- ==== Sys2Proof/Machine/Virtqueue.lean ====
section
/-! DEFINITION. The virtqueue processor: the steps of the request algorithm other than TRANSLATE
(45_virtqueue.md R300). A step that is not enabled leaves the state as it is. -/
namespace Sys2Proof.Machine

/-- The state with the processor in another phase. -/
def setPhase (p : Phase) (s : State) : State := { s with vqp := { s.vqp with phase := p } }

/-- `VQP <- IDLE`. -/
def goIdle (s : State) : State := { s with vqp := Vqp.idle }

/-- The queue being served. -/
def servedQueue (s : State) : Queue := getQueue s s.vqp.queue

/-- Step 1 SELECT: the lowest pending, serviceable queue (45_virtqueue.md R300, R312). -/
def selectStep (s : State) : State :=
  if s.q0.pending && serviceable s s.q0 then
    { s with q0 := { s.q0 with pending := false }
             vqp := { Vqp.idle with phase := .readIdx, queue := .ctrl } }
  else if s.q1.pending && serviceable s s.q1 then
    { s with q1 := { s.q1 with pending := false }
             vqp := { Vqp.idle with phase := .readIdx, queue := .cursor } }
  else s

/-- The end of step 2: caught up, overrun, or an entry to read (45_virtqueue.md R300, R302). -/
def idxRead (avail : BitVec 16) (s : State) : State :=
  let d := avail - (servedQueue s).lastAvail
  if d = 0 then goIdle s
  else if (servedQueue s).num.toNat < d.toNat then goIdle (deviceError s)
  else setPhase .readSlot s

/-- Step 2 READ_IDX: a queue that has stopped being serviceable is left, and only a request past this
step runs on (45_virtqueue.md R311, log 30). -/
def readIdxStep (s : State) : State :=
  if serviceable s (servedQueue s) then
    match dmaRead ((servedQueue s).driverAddr.toNat + 2) 2 s with
    | .held => s
    | .more s' => s'
    | .done s' bs => idxRead (BitVec.ofNat 16 (leNat bs)) s'
  else goIdle s

/-- The start of step 4 at a head index. -/
def startWalk (head : BitVec 16) (s : State) : State :=
  { s with vqp := { s.vqp with phase := .walk, head := head, walkIdx := head, visited := [],
                                seenWritable := false, cur := Desc.zero, curField := .addr,
                                chain := [] } }

/-- The guest address of the available-ring slot (45_virtqueue.md R300, R301). -/
def availSlotAddr (q : Queue) : Nat := q.driverAddr.toNat + 4 + 2 * ringSlot q.num q.lastAvail

/-- Step 3 READ_SLOT. -/
def readSlotStep (s : State) : State :=
  match dmaRead (availSlotAddr (servedQueue s)) 2 s with
  | .held => s
  | .more s' => s'
  | .done s' bs => startWalk (BitVec.ofNat 16 (leNat bs)) s'

/-- A malformed chain: fault, count, and on to the used element with nothing written
(45_virtqueue.md R307). -/
def malformedChain (s : State) : State :=
  let s' := raiseFault codeMalformedChain s
  { s' with
    vqFaultCount := s'.vqFaultCount + 1
    vqp := { s'.vqp with phase := .usedElem, written := 0, dma := [] } }

/-- The end of a descriptor read: the checks of the walk on it, then the next descriptor or the end of
the chain (45_virtqueue.md R303, log 20). -/
def descRead (d : Desc) (s : State) : State :=
  if descIndirect d || (!descWrite d && s.vqp.seenWritable) then malformedChain s
  else
    { s with vqp := { s.vqp with
        phase := if descNext d then .walk else .gather
        walkIdx := d.next
        visited := s.vqp.visited ++ [s.vqp.walkIdx]
        seenWritable := s.vqp.seenWritable || descWrite d
        cur := Desc.zero
        curField := .addr
        chain := s.vqp.chain ++ [d]
        req := [] } }

/-- Offset and width of a descriptor field (30_encoding.md R113). -/
def descFieldAt (f : DescField) : Nat × Nat :=
  match f with
  | .addr => (0, 8)
  | .len => (8, 4)
  | .flags => (12, 2)
  | .next => (14, 2)

/-- A descriptor field is read: the next one follows, the last one ends the descriptor
(45_virtqueue.md R304). -/
def fieldRead (bs : List Byte) (s : State) : State :=
  let d := s.vqp.cur
  match s.vqp.curField with
  | .addr =>
    { s with vqp := { s.vqp with cur := { d with addr := BitVec.ofNat 64 (leNat bs) }, curField := .len } }
  | .len =>
    { s with vqp := { s.vqp with cur := { d with len := BitVec.ofNat 32 (leNat bs) }, curField := .flags } }
  | .flags =>
    { s with vqp := { s.vqp with cur := { d with flags := BitVec.ofNat 16 (leNat bs) }, curField := .next } }
  | .next => descRead { d with next := BitVec.ofNat 16 (leNat bs) } s

/-- Whether the walk stands before a descriptor of which nothing is read. -/
def atDescStart (s : State) : Bool := s.vqp.curField == .addr && s.vqp.dma.isEmpty

/-- Whether the walk cannot go on at its index: dangling, or visited before (45_virtqueue.md R303). -/
def walkBroken (s : State) : Bool :=
  (servedQueue s).num.toNat ≤ s.vqp.walkIdx.toNat || s.vqp.visited.contains s.vqp.walkIdx

/-- The guest address of the walk's descriptor (30_encoding.md R113). -/
def descAddrOf (s : State) : Nat := (servedQueue s).descAddr.toNat + 16 * s.vqp.walkIdx.toNat

/-- The state with the descriptor's guest address kept for its field reads. -/
def keepDescBase (s : State) : State :=
  if atDescStart s then { s with vqp := { s.vqp with descBase := descAddrOf s } } else s

/-- Step 4 WALK: one descriptor field a step (45_virtqueue.md R303, R304), each admitted as an access
of its own width (log 33). -/
def walkStep (s : State) : State :=
  if atDescStart s && walkBroken s then malformedChain s
  else
    let s1 := keepDescBase s
    let f := descFieldAt s.vqp.curField
    match dmaRead (s1.vqp.descBase + f.1) f.2 s1 with
    | .held => s
    | .more s' => s'
    | .done s' bs => fieldRead bs s'

/-- How many request bytes step 5 reads (45_virtqueue.md R305). -/
def gatherLimit (s : State) : Nat := min (segLength (readableSegs s.vqp.chain)) s.cfg.maxReqBytes

/-- Step 5 GATHER: one request byte a step; a request without bytes takes one step (log 13). -/
def gatherStep (s : State) : State :=
  if s.vqp.req.length < gatherLimit s then
    match segAddr (readableSegs s.vqp.chain) s.vqp.req.length with
    | none => s
    | some a =>
      if guestAdmits s.cfg a 1 then
        let req := s.vqp.req ++ [guestByte s a]
        { s with vqp := { s.vqp with
            req := req
            phase := if req.length < gatherLimit s then .gather else .translate } }
      else s
  else setPhase .translate s

/-- The bytes of a staging copy (46_gpu_translator.md R356). -/
def stagingTotal (p : StagingPlan) : Nat := p.height * (4 * p.width)

/-- The backing byte number of staged byte `t` (46_gpu_translator.md R356). -/
def stagingSource (p : StagingPlan) (t : Nat) : Nat :=
  p.offset + t / (4 * p.width) * p.stride + t % (4 * p.width)

/-- Where the processor goes once the staging copy is done (45_virtqueue.md R306). -/
def phaseAfterStage (group : List Word64) : Phase := if group.isEmpty then .wait else .acquire

/-- The state once a staged byte is written, its address tainting every operation
(46_gpu_translator.md R356). -/
def stageByte (p : StagingPlan) (b : Byte) (s : State) : State :=
  let a := s.cfg.stagingBase + s.vqp.copied
  { taintAll a 1 (vramStore s a [b]) with
    vqp := { s.vqp with
      copied := s.vqp.copied + 1
      phase := if s.vqp.copied + 1 < stagingTotal p then .stage else phaseAfterStage s.vqp.group } }

/-- The staging copy, one byte a step (46_gpu_translator.md R356). Byte (j, c) is number j*4*width + c of
the packed image, so the copy goes in ascending order. -/
def stageStep (s : State) : Host.Outcome State Fault Refusal :=
  match s.vqp.plan with
  | none => .next (setPhase (phaseAfterStage s.vqp.group) s)
  | some p =>
    if s.vqp.copied < stagingTotal p then
      match segAddr (backingSegs p.backing) (stagingSource p s.vqp.copied) with
      | none => .next s
      | some a =>
        if guestAdmits s.cfg a 1 then
          if vramInRange s (s.cfg.stagingBase + s.vqp.copied) 1 then
            .next (stageByte p (guestByte s a) s)
          else .fault .vramOutOfRange
        else .next s
    else .next (setPhase (phaseAfterStage s.vqp.group) s)

/-- Acquire (41_fifo_decoder.md R172). -/
def acquireStep (s : State) : State :=
  if s.lock = .free then { setPhase .push s with lock := .heldVirtio } else s

/-- Translator push: held while the FIFO is full (41_fifo_decoder.md R173). -/
def pushStep (s : State) : State :=
  match s.vqp.group with
  | [] => setPhase .release s
  | w :: ws =>
    if s.lock = .heldVirtio && s.fifo.length < s.cfg.fifoDepth then
      { pushFifo w .virtio s with
        vqp := { s.vqp with group := ws, phase := if ws.isEmpty then .release else .push } }
    else s

/-- Release (41_fifo_decoder.md R172). -/
def releaseStep (s : State) : State := { setPhase .wait s with lock := .free }

/-- Step 7 WAIT (45_virtqueue.md R310). -/
def waitStep (s : State) : State :=
  if virtioPending s then s
  else { s with vqp := { s.vqp with phase := .respond, written := 0, plan := none } }

/-- How many response bytes step 8 writes (45_virtqueue.md R308). -/
def respondLimit (s : State) : Nat := min (segLength (writableSegs s.vqp.chain)) s.vqp.resp.length

/-- Step 8 RESPOND: one response byte a step; a response without room takes one step (log 13). -/
def respondStep (s : State) : State :=
  if s.vqp.written < respondLimit s then
    match segAddr (writableSegs s.vqp.chain) s.vqp.written with
    | none => s
    | some a =>
      if guestAdmits s.cfg a 1 then
        { guestStore a [s.vqp.resp.getD s.vqp.written 0] s with
          vqp := { s.vqp with
            written := s.vqp.written + 1
            phase := if s.vqp.written + 1 < respondLimit s then .respond else .usedElem } }
      else s
  else setPhase .usedElem s

/-- The guest address of the used-ring slot (45_virtqueue.md R300, R309). -/
def usedSlotAddr (q : Queue) : Nat := q.deviceAddr.toNat + 4 + 8 * ringSlot q.num q.usedIdx

/-- The used element `{id = head, len = written}` (45_virtqueue.md R309). -/
def usedElement (v : Vqp) : List Byte := leBytes 4 v.head.toNat ++ leBytes 4 v.written

/-- Step 9 USED_ELEM. -/
def usedElemStep (s : State) : State :=
  match dmaWrite (usedSlotAddr (servedQueue s)) (usedElement s.vqp) s with
  | .held => s
  | .more s' => s'
  | .done s' _ => setPhase .usedIdx s'

/-- `Q[q].used_idx` after step 10's first action; a split write does it once (45_virtqueue.md R300). -/
def bumpUsedIdx (s : State) : State :=
  if s.vqp.dma.isEmpty then
    setQueue s.vqp.queue { servedQueue s with usedIdx := (servedQueue s).usedIdx + 1 } s
  else s

/-- Step 10 USED_IDX. -/
def usedIdxStep (s : State) : State :=
  let s1 := bumpUsedIdx s
  match dmaWrite ((servedQueue s1).deviceAddr.toNat + 2) (leBytes 2 (servedQueue s1).usedIdx.toNat) s1 with
  | .held => s
  | .more s' => s'
  | .done s' _ => setPhase .notify s'

/-- The state once an entry is done: the interrupt bit, the pulse and `last_avail`
(45_virtqueue.md R300, R313). -/
def entryDone (s : State) : State :=
  emit .vio (setQueue s.vqp.queue { servedQueue s with lastAvail := (servedQueue s).lastAvail + 1 }
    { s with vio := { s.vio with interruptStatus := s.vio.interruptStatus ||| 0x1 } })

/-- Step 11 NOTIFY: on to the next entry while the queue is serviceable (45_virtqueue.md R300, R311). -/
def notifyStep (s : State) : State :=
  let s1 := entryDone s
  if serviceable s1 (servedQueue s) then
    { s1 with vqp := { Vqp.idle with phase := .readIdx, queue := s.vqp.queue } }
  else goIdle s1

/-- The processor's step in every phase but TRANSLATE, whose step runs the decoded request
(`translateStep`, Step.lean). -/
def vqpPhaseStep (s : State) : Host.Outcome State Fault Refusal :=
  match s.vqp.phase with
  | .idle => .next (selectStep s)
  | .readIdx => .next (readIdxStep s)
  | .readSlot => .next (readSlotStep s)
  | .walk => .next (walkStep s)
  | .gather => .next (gatherStep s)
  | .translate => .next s
  | .stage => stageStep s
  | .acquire => .next (acquireStep s)
  | .push => .next (pushStep s)
  | .release => .next (releaseStep s)
  | .wait => .next (waitStep s)
  | .respond => .next (respondStep s)
  | .usedElem => .next (usedElemStep s)
  | .usedIdx => .next (usedIdxStep s)
  | .notify => .next (notifyStep s)

end Sys2Proof.Machine
end

