-- ==== Sys2Proof/Machine/Step.lean ====
section
/-! DEFINITION. One step of the machine: the turn of one agent (60_exceptions.md R418), and the word a
next step would fetch. -/
namespace Sys2Proof.Machine

/-- Parse, if enabled: the oldest FIFO word is decoded and run, an INVALID one consumed with its fault
(41_fifo_decoder.md R180, R184). -/
def parseStep (s : State) : Host.Outcome State Fault Refusal :=
  if parseEnabled s then
    match decode (fetchCommand s) with
    | .instr i => exec i s
    | .invalidCommand | .shortRequest | .unlistedRequest | .invalidAccess => .next (parseInvalid s)
  else .next s

/-- A register access of the host: decoded and run, or answered ERR(InvalidRegister)
(40_register_interface.md R140, 44_virtio_transport.md R260). -/
def accessStep (a : BusAccess) (s : State) : Host.Outcome State Fault Refusal :=
  match decode (fetchAccess a) with
  | .instr i => exec i s
  | .invalidCommand | .shortRequest | .unlistedRequest | .invalidAccess => .next (rejectAccess s)

/-- The host's turn: its oldest issued operation takes effect (20_memory.md R84). -/
def hostStep (s : State) : Host.Outcome State Fault Refusal :=
  match s.hostOps with
  | [] => .next s
  | op :: rest =>
    match op with
    | .access a => accessStep a { s with hostOps := rest }
    | .vramRead a n => .next (windowRead a n { s with hostOps := rest })
    | .vramWrite a n data => .next (windowWrite a n data { s with hostOps := rest })
    | .guestRead a n => .next (hostGuestRead a n { s with hostOps := rest })
    | .guestWrite a bytes => .next (hostGuestWrite a bytes { s with hostOps := rest })

/-- Step 6 TRANSLATE: the gathered request is decoded and run, a short or unlisted one answered
RESP_ERR_UNSPEC (46_gpu_translator.md R340). -/
def translateStep (s : State) : Host.Outcome State Fault Refusal :=
  match decode (fetchRequest s) with
  | .instr i => exec i s
  | .invalidCommand | .shortRequest | .unlistedRequest | .invalidAccess => .next (rejectRequest s)

/-- The virtqueue processor's turn (45_virtqueue.md R300). -/
def vqpStep (s : State) : Host.Outcome State Fault Refusal :=
  if s.vqp.phase = .translate then translateStep s else vqpPhaseStep s

/-- The turn of an agent. -/
def agentStep (a : Agent) (s : State) : Host.Outcome State Fault Refusal :=
  match a with
  | .host => hostStep s
  | .parse => parseStep s
  | .head => headStep s
  | .vqp => vqpStep s
  | .display x y => .next (displayStep x y s)

/-- A turn. -/
def turnStep (t : Turn) (s : State) : Host.Outcome State Fault Refusal :=
  match t with
  | .agent a => agentStep a s
  | .powerOn => .next (powerOn s)

/-- One step: the turn that is next, taken. -/
def step (s : State) : Host.Outcome State Fault Refusal := turnStep (nextTurn s) (takeTurn s)

/-- A state whose next step fetches and runs the instruction of an opcode-table word (logs 7, 8). A
command word goes to the head of the FIFO, with room made in the in-flight list and Parse's turn next; a
request to the processor's TRANSLATE phase, with its turn next; a bus access to the front of the host's
operations, with its turn next. -/
def State.withFetchWord (s : State) (nbits w : Nat) : State :=
  match tableCarrier nbits w with
  | .command word =>
    { s with
      fifo := { word, producer := .legacy } :: s.fifo.tail
      inflight := if s.inflight.length < s.cfg.pipeDepth then s.inflight else []
      sched := .agent .parse :: s.sched }
  | .request bs =>
    { s with
      vqp := { s.vqp with phase := .translate, req := bs }
      sched := .agent .vqp :: s.sched }
  | .access a =>
    { s with
      hostOps := .access a :: s.hostOps
      sched := .agent .host :: s.sched }

end Sys2Proof.Machine
end

