-- ==== Sys2Proof/Machine/DisplayList.lean ====
section
/-! DEFINITION. Display lists as the host writes and pushes them: the assembler lines of 30_encoding.md
R106 and R107, the host spelling of a push (R105), and the bring-up sequences of 70_reset_and_hazards.md
R444 and R445. They are notation and host programs, not agents of the block. -/
namespace Sys2Proof.Machine

/-- A line of a display list (30_encoding.md R106, R107). -/
inductive AsmLine where
  | nop | eol | fill | blit
  | set (reg : RegId) (value : Word32)
  | setId (id : BitVec 8) (value : Word32)
  | cw (word : Word64)
  | rect (x y w h : Word32)
  | target (addr stride : Word32)
  | source (addr stride : Word32)
  | mode (blend key : Bool)
  | color (c : Word32)
  | key (c : Word32)
deriving DecidableEq, Repr

/-- `SET <reg>, <v>` (30_encoding.md R106). -/
def asmSet (r : RegId) (v : Word32) : Word64 := commandWord 0x10 (BitVec.ofNat 8 (regNumber r)) v

/-- The words of a line (30_encoding.md R106, R107). -/
def assembleLine (l : AsmLine) : List Word64 :=
  match l with
  | .nop => [commandWord 0x00 0 0]
  | .eol => [commandWord 0x01 0 0]
  | .fill => [commandWord 0x20 0 0]
  | .blit => [commandWord 0x21 0 0]
  | .set reg value => [asmSet reg value]
  | .setId id value => [commandWord 0x10 id value]
  | .cw word => [word]
  | .rect x y w h => [asmSet .drawX x, asmSet .drawY y, asmSet .drawW w, asmSet .drawH h]
  | .target addr stride => [asmSet .fbAddr addr, asmSet .fbStride stride]
  | .source addr stride => [asmSet .srcAddr addr, asmSet .srcStride stride]
  | .mode blend key => [asmSet .alphaMode ((BitVec.ofBool key ++ BitVec.ofBool blend).setWidth 32)]
  | .color c => [asmSet .fillColor c]
  | .key c => [asmSet .stencilKey c]

/-- The words of a display list. -/
def assemble (ls : List AsmLine) : List Word64 := ls.flatMap assembleLine

/-- The two writes that push a word: LO_LATCH, then FIFO_PUSH (30_encoding.md R105). -/
def pushOps (w : Word64) : List HostOp :=
  [.access (.legWrite 0x038 4 (w.extractLsb' 0 32)), .access (.legWrite 0x03C 4 (w.extractLsb' 32 32))]

/-- Legacy bring-up and one list, to its last push (70_reset_and_hazards.md R444, steps 1 to 4). The
retry of a full FIFO is the host program's. -/
def legacyBringUp (words : List Word64) : List HostOp :=
  [.access (.legWrite 0x040 4 0x7), .access (.legWrite 0x034 4 0x3)] ++
    (words ++ [commandWord 0x01 0 0]).flatMap pushOps

/-- Queue set-up for the driver (70_reset_and_hazards.md R445, step 7). -/
def queueSetUp (q num : Word32) (desc driver device : Word64) : List HostOp :=
  [.access (.vioWrite 0x030 4 q), .access (.vioRead 0x034 4), .access (.vioWrite 0x038 4 num),
   .access (.vioWrite 0x080 4 (desc.extractLsb' 0 32)), .access (.vioWrite 0x084 4 (desc.extractLsb' 32 32)),
   .access (.vioWrite 0x090 4 (driver.extractLsb' 0 32)), .access (.vioWrite 0x094 4 (driver.extractLsb' 32 32)),
   .access (.vioWrite 0x0A0 4 (device.extractLsb' 0 32)), .access (.vioWrite 0x0A4 4 (device.extractLsb' 32 32)),
   .access (.vioWrite 0x044 4 1)]

/-- VirtIO bring-up up to FEATURES_OK (70_reset_and_hazards.md R445, steps 1 to 6). -/
def virtioBringUp : List HostOp :=
  [.access (.vioWrite 0x070 4 0), .access (.vioRead 0x000 4), .access (.vioRead 0x004 4),
   .access (.vioRead 0x008 4), .access (.vioWrite 0x070 4 0x01), .access (.vioWrite 0x070 4 0x03),
   .access (.vioWrite 0x014 4 1), .access (.vioRead 0x010 4), .access (.vioWrite 0x014 4 0),
   .access (.vioRead 0x010 4), .access (.vioWrite 0x024 4 1), .access (.vioWrite 0x020 4 0x1),
   .access (.vioWrite 0x024 4 0), .access (.vioWrite 0x020 4 0), .access (.vioWrite 0x070 4 0x0B),
   .access (.vioRead 0x070 4)]

/-! ### The text form of a line (30_encoding.md R106) -/

/-- A line without its `;` comment. -/
def stripComment (cs : List Char) : List Char := cs.takeWhile (· != ';')

/-- The tokens of a line: spaces, tabs and commas separate them. -/
def tokens : List Char → List Char → List (List Char)
  | [], cur => if cur.isEmpty then [] else [cur.reverse]
  | c :: cs, cur =>
    if c == ' ' || c == '\t' || c == ',' then
      if cur.isEmpty then tokens cs [] else cur.reverse :: tokens cs []
    else tokens cs (c :: cur)

/-- The value of a digit in a base, if it is one. -/
def digitValue (base : Nat) (c : Char) : Option Nat :=
  let n := c.toNat
  let v :=
    if 48 ≤ n ∧ n ≤ 57 then n - 48
    else if 65 ≤ n ∧ n ≤ 70 then n - 55
    else if 97 ≤ n ∧ n ≤ 102 then n - 87
    else base
  if v < base then some v else none

/-- The value of a digit string. -/
def digitsValue (base : Nat) : List Char → Nat → Option Nat
  | [], acc => some acc
  | c :: cs, acc =>
    match digitValue base c with
    | none => none
    | some d => digitsValue base cs (acc * base + d)

/-- An unsigned number below a bound, decimal or `0x` hexadecimal. -/
def parseNumber (bound : Nat) (cs : List Char) : Option Nat :=
  let v :=
    match cs with
    | [] => none
    | '0' :: 'x' :: d :: ds => digitsValue 16 (d :: ds) 0
    | d :: ds => digitsValue 10 (d :: ds) 0
  match v with
  | none => none
  | some n => if n < bound then some n else none

/-- A 32-bit number. -/
def parseWord (cs : List Char) : Option Word32 := (parseNumber (2 ^ 32) cs).map (BitVec.ofNat 32)

/-- The names of the drawing registers (10_state.md R21). -/
def regNames : List (List Char × RegId) :=
  [(['F','B','_','A','D','D','R'], .fbAddr), (['F','B','_','S','T','R','I','D','E'], .fbStride),
   (['D','R','A','W','_','X'], .drawX), (['D','R','A','W','_','Y'], .drawY),
   (['D','R','A','W','_','W'], .drawW), (['D','R','A','W','_','H'], .drawH),
   (['F','I','L','L','_','C','O','L','O','R'], .fillColor),
   (['S','R','C','_','A','D','D','R'], .srcAddr), (['S','R','C','_','S','T','R','I','D','E'], .srcStride),
   (['S','T','E','N','C','I','L','_','K','E','Y'], .stencilKey),
   (['A','L','P','H','A','_','M','O','D','E'], .alphaMode),
   (['P','I','X','E','L','_','F','M','T'], .pixelFmt)]

/-- `SET <reg>, <value>`, the register by name or as `#<id>`. -/
def parseSet (reg value : List Char) : Option AsmLine :=
  match parseWord value, reg with
  | none, _ => none
  | some v, '#' :: id =>
    match digitsValue 10 id 0 with
    | none => none
    | some n => if id.isEmpty || 256 ≤ n then none else some (.setId (BitVec.ofNat 8 n) v)
  | some v, name => (regNames.lookup name).map fun r => .set r v

/-- A bit argument of `MODE`. -/
def parseBit (cs : List Char) : Option Bool :=
  match parseNumber 2 cs with
  | none => none
  | some n => some (n == 1)

/-- A hexadecimal 64-bit word, `0x` optional. -/
def parseHexWord (cs : List Char) : Option Word64 :=
  let ds :=
    match cs with
    | '0' :: 'x' :: r => r
    | r => r
  match digitsValue 16 ds 0 with
  | none => none
  | some n => if ds.isEmpty || 2 ^ 64 ≤ n then none else some (BitVec.ofNat 64 n)

/-- The tokens of one command. -/
def parseTokens (ts : List (List Char)) : Option AsmLine :=
  match ts with
  | [['N','O','P']] => some .nop
  | [['E','O','L']] => some .eol
  | [['F','I','L','L']] => some .fill
  | [['B','L','I','T']] => some .blit
  | [['S','E','T'], reg, value] => parseSet reg value
  | [['.','c','w'], w] => (parseHexWord w).map .cw
  | [['C','O','L','O','R'], c] => (parseWord c).map .color
  | [['K','E','Y'], c] => (parseWord c).map .key
  | [['T','A','R','G','E','T'], a, st] =>
    match parseWord a, parseWord st with
    | some a, some st => some (.target a st)
    | _, _ => none
  | [['S','O','U','R','C','E'], a, st] =>
    match parseWord a, parseWord st with
    | some a, some st => some (.source a st)
    | _, _ => none
  | [['M','O','D','E'], b, k] =>
    match parseBit b, parseBit k with
    | some b, some k => some (.mode b k)
    | _, _ => none
  | [['R','E','C','T'], x, y, w, h] =>
    match parseWord x, parseWord y, parseWord w, parseWord h with
    | some x, some y, some w, some h => some (.rect x y w h)
    | _, _, _, _ => none
  | _ => none

/-- One line of text: nothing but blanks and a comment, or a command. -/
def parseLine (cs : List Char) : Option (List AsmLine) :=
  match tokens (stripComment cs) [] with
  | [] => some []
  | ts => (parseTokens ts).map fun l => [l]

end Sys2Proof.Machine
end

