-- ==== Sys2Proof/Safety.lean ====
section
/-! DEFINITION. What holds of every state a run reaches, in the terms the statements use, and runs of
turns. Each predicate is a Bool so that a concrete state can be tested. -/
namespace Sys2Proof.Machine

/-! ### Memory -/

/-- A memory lists addresses below a bound only. -/
def memBelow (bound : Nat) (m : Memory) : Bool := m.all fun c => c.1 < bound

/-- A DMA access in parts is under way only in a phase that makes one, and a write in parts ends below
2^64 (20_memory.md R73, R77). -/
def dmaOk (v : Vqp) : Bool :=
  match v.phase with
  | .readIdx | .readSlot | .walk => true
  | .usedElem | .usedIdx => v.dma.isEmpty || v.dmaAddr + v.dma.length ≤ 2 ^ 64
  | .idle | .gather | .translate | .stage | .acquire | .push | .release | .wait | .respond
  | .notify => v.dma.isEmpty

/-- Both memories keep their canonical form inside their address spaces (20_memory.md R71, R73). -/
def memoryOk (s : State) : Bool :=
  Memory.wf s.vram && memBelow s.cfg.vramSize s.vram && Memory.wf s.guest &&
    memBelow (2 ^ 64) s.guest && dmaOk s.vqp

/-! ### Engine -/

/-- A strictly rising list of addresses. -/
def addrsRising (l : List Nat) : Bool := decide (l.Pairwise (· < ·))

/-- An operation in flight: a draw passed the bounds test of its Parse and has processed at most all
its pixels (10_state.md R33, 43_draw.md R211). -/
def operationOk (vramSize : Nat) (op : Operation) : Bool :=
  addrsRising op.tainted &&
    (op.kind == .eol || (drawInBounds op.kind op.snap vramSize && op.k ≤ pixelCount op.snap))

/-- The FIFO and the in-flight list are within their capacities, and every operation is in bounds
(10_state.md R31, R33). -/
def engineOk (s : State) : Bool :=
  s.fifo.length ≤ s.cfg.fifoDepth && s.inflight.length ≤ s.cfg.pipeDepth &&
    s.inflight.all (operationOk s.cfg.vramSize)

/-! ### Arbiter, transport and queues -/

/-- The lock is held exactly while a group is being pushed, and the group is not empty before its last
word is pushed (41_fifo_decoder.md R172, R173). -/
def arbiterOk (s : State) : Bool :=
  match s.vqp.phase with
  | .acquire => s.lock == .free && !s.vqp.group.isEmpty
  | .push => s.lock == .heldVirtio && !s.vqp.group.isEmpty
  | .release => s.lock == .heldVirtio && s.vqp.group.isEmpty
  | .idle | .readIdx | .readSlot | .walk | .gather | .translate | .stage | .wait | .respond
  | .usedElem | .usedIdx | .notify => s.lock == .free

/-- DRIVER_OK is stored only together with FEATURES_OK; FEATURES_OK never after a failed negotiation
and never with a feature the device did not offer; events_read is 0 (44_virtio_transport.md R272, R273,
10_state.md R39). -/
def transportOk (s : State) : Bool :=
  (!hasStatus s.vio.status statusDriverOk || hasStatus s.vio.status statusFeaturesOk) &&
    (!hasStatus s.vio.status statusFeaturesOk ||
      (!s.vio.negFailed && !featuresRefused s.vio.driverFeatures)) &&
    s.vio.eventsRead == 0

/-- A ready queue has a legal size, and only a ready queue is pending (44_virtio_transport.md R266,
R268). -/
def queueOk (p : Params) (q : Queue) : Bool :=
  (!q.ready || (natIsPow2 q.num.toNat && q.num.toNat ≤ p.queueNumMax)) && (!q.pending || q.ready)

/-- Both queues. -/
def queuesOk (s : State) : Bool := queueOk s.cfg s.q0 && queueOk s.cfg s.q1

/-! ### Translator -/

/-- A resource of the table (10_state.md R42): its fields agree, and its region lies in the heap at a
multiple of ALLOC_ALIGN (46_gpu_translator.md R341). -/
def resourceOk (p : Params) (e : Nat × Resource) : Bool :=
  0 < e.1 && e.1 < 2 ^ 32 && formatAccepted e.2.format &&
    1 ≤ e.2.width && e.2.width ≤ p.maxResW && 1 ≤ e.2.height && e.2.height ≤ p.maxResH &&
    e.2.stride == 4 * e.2.width && e.2.size == e.2.stride * e.2.height &&
    p.resHeapBase ≤ e.2.base && (e.2.base - p.resHeapBase) % p.allocAlign == 0 &&
    e.2.base + e.2.size ≤ p.stagingBase

/-- No two regions of the table overlap (46_gpu_translator.md R341). -/
def regionsDisjoint (rs : List (Nat × Resource)) : Bool :=
  decide (rs.Pairwise fun a b => overlapsResource a.2.base a.2.size b.2 = false)

/-- An enabled scan-out shows a rectangle inside a mapped resource; a disabled one is all zero
(46_gpu_translator.md R347, R348, 10_state.md R43). -/
def scanoutOk (rs : List (Nat × Resource)) (sc : Scanout) : Bool :=
  if sc.enabled then
    match assocGet sc.resourceId.toNat rs with
    | none => false
    | some r =>
      rectInside sc.rect r.width r.height && sc.rect.width != 0 && sc.rect.height != 0 &&
        sc.base == resourceAddr r sc.rect.x sc.rect.y && sc.stride == r.stride
  else sc == Scanout.off

/-- A staging copy under way fits the staging area and its backing (46_gpu_translator.md R350, R356). -/
def stagingOk (p : Params) (v : Vqp) : Bool :=
  match v.phase with
  | .stage =>
    match v.plan with
    | none => false
    | some g =>
      1 ≤ g.width && 1 ≤ g.height && stagingTotal g ≤ p.stagingSize &&
        v.copied < stagingTotal g &&
        g.offset + (g.height - 1) * g.stride + 4 * g.width ≤ segLength (backingSegs g.backing)
  | .idle | .readIdx | .readSlot | .walk | .gather | .translate | .acquire | .push | .release
  | .wait | .respond | .usedElem | .usedIdx | .notify => true

/-- The translator's state. -/
def translatorOk (s : State) : Bool :=
  keysRising s.resources && s.resources.all (resourceOk s.cfg) && regionsDisjoint s.resources &&
    s.resources.length ≤ s.cfg.maxResources && scanoutOk s.resources s.scanout &&
    stagingOk s.cfg s.vqp

/-! ### Runs -/

/-- The turns of a list of agents, one after another, stopping at a fault or refusal. -/
def runAgents : List Agent → State → Host.Outcome State Fault Refusal
  | [], s => .next s
  | a :: r, s =>
    match agentStep a s with
    | .next s' => runAgents r s'
    | .fault e => .fault e
    | .refused e => .refused e

/-- The work left for an operation at the head of the in-flight list: its pixels and its retirement. -/
def operationWork (op : Operation) : Nat :=
  if op.kind = .eol then 1 else pixelCount op.snap - op.k + 1

end Sys2Proof.Machine
end

