-- ==== Sys2Proof/Certificates/Slice0/Obligations.lean ====
section
/-! DEFINITION. The statements for the provers, from the numbered rules of the spec: decoding and the step,
invariants, footprints, the native engine, the two register blocks, the virtqueue processor and the
translator. -/

open Sys2Proof Sys2Proof.Machine

/-! ### Decoding and the step -/

/-- Every well-formed instruction is what its encoding decodes to, for all 88 rows and every operand
(30_encoding.md R100 to R120). -/
def Obligations.DecodeEncodeRoundTrip : Prop :=
  ∀ i : Instr, WellFormed i = true → decode (encode i) = .instr i

/-- What decodes is well-formed, and a command word or a bus access is the encoding of what it decodes
to: no bit of them is dropped (30_encoding.md R100, R110 to R112). -/
def Obligations.DecodedReencodes : Prop :=
  (∀ (c : Carrier) (i : Instr), decode c = .instr i → WellFormed i = true) ∧
  (∀ (w : Word64) (i : Instr), decode (.command w) = .instr i → encode i = .command w) ∧
  (∀ (a : BusAccess) (i : Instr), decode (.access a) = .instr i → encode i = .access a)

/-- Words and requests written out from the encodings of the spec, with what they stand for. -/
def Obligations.EncodingsWrittenOut : Prop :=
  decode (.command 0x1004000000000040#64) = .instr (.setReg 4 0x40) ∧
  decode (.command 0x2100000000000000#64) = .instr .blit ∧
  decode (.access (.legWrite 0x03C 4 0x10040000)) = .instr (.legWriteFifoPush 0x10040000) ∧
  decode (.access (.legRead 0x030 4)) = .instr .legReadStatus ∧
  decode (.access (.vioRead 0x010 4)) = .instr .vioReadDeviceFeatures ∧
  decode (.access (.vioWrite 0x050 4 1)) = .instr (.vioWriteQueueNotify 1) ∧
  decode (.access (.vioRead 0x0F0 4)) = .instr (.vioOther 0x0F0 none) ∧
  decode (.request [0x02, 0x01, 0, 0, 0x01, 0, 0, 0, 0x09, 0, 0, 0, 0, 0, 0, 0, 0, 0, 0, 0, 0, 0, 0, 0,
    0x05, 0, 0, 0, 0, 0, 0, 0]) =
      .instr (.cmdResourceUnref { flags := 1, fenceId := 9, ctxId := 0, ringIdx := 0, padding := 0 } 5)

/-- Decode of a command word by its four fields, the checks in the order given; a SET_REG of a register
id above 11 decodes, and faults when it runs (41_fifo_decoder.md R181). -/
def Obligations.CommandWordDecode : Prop :=
  (∀ w : Word64,
    decode (.command w) =
      if w.toNat / 2 ^ 56 ∉ [0x00, 0x01, 0x10, 0x20, 0x21] then .invalidCommand
      else if w.toNat / 2 ^ 32 % 2 ^ 16 ≠ 0 then .invalidCommand
      else if w.toNat / 2 ^ 56 ≠ 0x10 ∧ (w.toNat / 2 ^ 48 % 2 ^ 8 ≠ 0 ∨ w.toNat % 2 ^ 32 ≠ 0) then
        .invalidCommand
      else if w.toNat / 2 ^ 56 = 0x00 then .instr .nop
      else if w.toNat / 2 ^ 56 = 0x01 then .instr .eol
      else if w.toNat / 2 ^ 56 = 0x10 then
        .instr (.setReg (BitVec.ofNat 8 (w.toNat / 2 ^ 48 % 2 ^ 8)) (BitVec.ofNat 32 (w.toNat % 2 ^ 32)))
      else if w.toNat / 2 ^ 56 = 0x20 then .instr .fill
      else .instr .blit) ∧
  (∀ (s : State) (sel : BitVec 8) (val : Word32), 11 < sel.toNat →
    exec (.setReg sel val) s = .next (raiseFault 0x02 { s with fifo := s.fifo.tail }))

/-- Which requests are rejected, by their length and type (46_gpu_translator.md R340, 30_encoding.md
R117, R120), and where the header and the fields of every form are read from (R116, R120). -/
def Obligations.RequestDecode : Prop :=
  ∀ bs : List Byte,
    let header (t : Nat) (h : CtrlHdr) : List Byte :=
      leBytes 4 t ++ leBytes 4 h.flags.toNat ++ leBytes 8 h.fenceId.toNat ++ leBytes 4 h.ctxId.toNat ++
        leBytes 1 h.ringIdx.toNat ++ leBytes 3 h.padding.toNat
    let rect (r : Rect) : List Byte :=
      leBytes 4 r.x.toNat ++ leBytes 4 r.y.toNat ++ leBytes 4 r.width.toNat ++ leBytes 4 r.height.toNat
    (decode (.request bs) = .shortRequest ↔
      bs.length < 24 ∨ ∃ p ∈ [(0x100, 24), (0x101, 40), (0x102, 32), (0x103, 48), (0x104, 48), (0x105, 56),
        (0x106, 32), (0x107, 32)], leNat (bs.take 4) = p.1 ∧ bs.length < p.2) ∧
    (decode (.request bs) = .unlistedRequest ↔
      24 ≤ bs.length ∧ leNat (bs.take 4) ∉ [0x100, 0x101, 0x102, 0x103, 0x104, 0x105, 0x106, 0x107, 0x108,
        0x109, 0x10A, 0x10B, 0x10C, 0x10D, 0x300, 0x301] ∧
        ¬(0x200 ≤ leNat (bs.take 4) ∧ leNat (bs.take 4) ≤ 0x2FF)) ∧
    (∀ h, decode (.request bs) = .instr (.cmdGetDisplayInfo h) → header 0x100 h = bs.take 24) ∧
    (∀ h id f w l, decode (.request bs) = .instr (.cmdResourceCreate2d h id f w l) →
      header 0x101 h ++ leBytes 4 id.toNat ++ leBytes 4 f.toNat ++ leBytes 4 w.toNat ++ leBytes 4 l.toNat =
        bs.take 40) ∧
    (∀ h id, decode (.request bs) = .instr (.cmdResourceUnref h id) →
      header 0x102 h ++ leBytes 4 id.toNat = bs.take 28) ∧
    (∀ h r sc id, decode (.request bs) = .instr (.cmdSetScanout h r sc id) →
      header 0x103 h ++ rect r ++ leBytes 4 sc.toNat ++ leBytes 4 id.toNat = bs.take 48) ∧
    (∀ h r id, decode (.request bs) = .instr (.cmdResourceFlush h r id) →
      header 0x104 h ++ rect r ++ leBytes 4 id.toNat = bs.take 44) ∧
    (∀ h r off id, decode (.request bs) = .instr (.cmdTransferToHost2d h r off id) →
      header 0x105 h ++ rect r ++ leBytes 8 off.toNat ++ leBytes 4 id.toNat = bs.take 52) ∧
    (∀ h id n es, decode (.request bs) = .instr (.cmdResourceAttachBacking h id n es) →
      header 0x106 h ++ leBytes 4 id.toNat ++ leBytes 4 n.toNat = bs.take 32 ∧
      es.length = min n.toNat ((bs.length - 32) / 16) ∧
      ∀ k e, es[k]? = some e →
        leBytes 8 e.addr.toNat ++ leBytes 4 e.length.toNat = (bs.drop (32 + 16 * k)).take 12) ∧
    (∀ h id, decode (.request bs) = .instr (.cmdResourceDetachBacking h id) →
      header 0x107 h ++ leBytes 4 id.toNat = bs.take 28) ∧
    (∀ (h : CtrlHdr) (low : BitVec 8),
      ∀ p ∈ [(Instr.cmdGetCapsetInfo h, 0x108), (.cmdGetCapset h, 0x109), (.cmdGetEdid h, 0x10A),
          (.cmdResourceAssignUuid h, 0x10B), (.cmdResourceCreateBlob h, 0x10C), (.cmdSetScanoutBlob h, 0x10D),
          (.cmdUpdateCursor h, 0x300), (.cmdMoveCursor h, 0x301), (.cmd3dRange h low, 0x200 + low.toNat)],
        decode (.request bs) = .instr p.1 → header p.2 h = bs.take 24)

/-- Which bus accesses are valid (40_register_interface.md R140, 44_virtio_transport.md R260), and the
answer to the others: ERR(InvalidRegister) with read data 0, and no other change. -/
def Obligations.AccessValidity : Prop :=
  (∀ (off : BitVec 12) (n : Nat),
    ((∃ i, decode (.access (.legRead off n)) = .instr i) ↔ n = 4 ∧ off.toNat % 4 = 0 ∧ off.toNat ≤ 0x44) ∧
    ∀ d, (∃ i, decode (.access (.legWrite off n d)) = .instr i) ↔
      n = 4 ∧ off.toNat % 4 = 0 ∧ off.toNat ≤ 0x44) ∧
  (∀ (off : BitVec 9) (n : Nat),
    ((∃ i, decode (.access (.vioRead off n)) = .instr i) ↔ n = 4 ∧ off.toNat % 4 = 0) ∧
    ∀ d, (∃ i, decode (.access (.vioWrite off n d)) = .instr i) ↔ n = 4 ∧ off.toNat % 4 = 0) ∧
  (∀ (a : BusAccess) (s : State) (rest : List HostOp), s.hostOps = .access a :: rest →
    (∀ i, decode (.access a) ≠ .instr i) →
    hostStep s = .next { s with hostOps := rest, bus := .err .invalidRegister } ∧
      responseData (.err .invalidRegister) = 0)

/-- A step runs the instruction that the agent whose turn it is fetches: Parse the oldest FIFO word,
the host its oldest access, the virtqueue processor the request it gathered. -/
def Obligations.StepRunsDecodedInstruction : Prop :=
  ∀ (s : State) (i : Instr), WellFormed i = true →
    (∀ e rest, nextTurn s = .agent .parse → s.fifo = e :: rest → s.inflight.length < s.cfg.pipeDepth →
      decode (.command e.word) = .instr i → step s = exec i (takeTurn s)) ∧
    (∀ a rest, nextTurn s = .agent .host → s.hostOps = .access a :: rest →
      decode (.access a) = .instr i → step s = exec i { takeTurn s with hostOps := rest }) ∧
    (nextTurn s = .agent .vqp → s.vqp.phase = .translate →
      decode (.request s.vqp.req) = .instr i → step s = exec i (takeTurn s))

/-- What is fetched and decodes to no instruction: an invalid word is consumed with a fault
(41_fifo_decoder.md R184), a short or unlisted request is answered RESP_ERR_UNSPEC
(46_gpu_translator.md R340, R353). -/
def Obligations.UndecodedSteps : Prop :=
  (∀ (s : State) (e : FifoEntry) (rest : List FifoEntry), nextTurn s = .agent .parse → s.fifo = e :: rest →
    s.inflight.length < s.cfg.pipeDepth → decode (.command e.word) = .invalidCommand →
    step s = .next (raiseFault 0x01 { takeTurn s with fifo := rest })) ∧
  (∀ s : State, nextTurn s = .agent .vqp → s.vqp.phase = .translate →
    decode (.request s.vqp.req) = .shortRequest ∨ decode (.request s.vqp.req) = .unlistedRequest →
    step s = .next (finishTranslate (hdrBytes 0x1200 (decodeHdr s.vqp.req)) [] none (takeTurn s)))

/-! ### Invariants of every step -/

/-- Both memories stay canonical and inside their address spaces (20_memory.md R71, R73). -/
def Obligations.MemoryInvariant : Prop :=
  ∀ s t : State, memoryOk s = true → step s = .next t → memoryOk t = true

/-- The FIFO and the in-flight list stay within their capacities, and every draw in flight lies inside
VRAM with at most all of its pixels processed (10_state.md R31, R33, 43_draw.md R211). -/
def Obligations.EngineInvariant : Prop :=
  ∀ s t : State, engineOk s = true → step s = .next t → engineOk t = true

/-- The lock is held exactly while a group is being pushed (41_fifo_decoder.md R172, R173). -/
def Obligations.ArbiterInvariant : Prop :=
  ∀ s t : State, arbiterOk s = true → step s = .next t → arbiterOk t = true

/-- DRIVER_OK stays stored only with FEATURES_OK, FEATURES_OK never with a failed negotiation, and
events_read stays 0; a ready queue keeps a legal size and only a ready queue is pending
(44_virtio_transport.md R266, R268, R272, R273, 10_state.md R39). -/
def Obligations.TransportInvariant : Prop :=
  ∀ s t : State, transportOk s = true → queuesOk s = true → step s = .next t →
    transportOk t = true ∧ queuesOk t = true

/-- The resource table stays within its limits, its regions aligned, inside the heap and disjoint; an
enabled scan-out shows a rectangle of a mapped resource; a staging copy fits the staging area
(46_gpu_translator.md R341, R346 to R350, R356, 10_state.md R42, R43). -/
def Obligations.TranslatorInvariant : Prop :=
  ∀ s t : State, s.cfg.ok = true → translatorOk s = true → step s = .next t →
    t.cfg.ok = true ∧ translatorOk t = true

/-- Every invariant above holds right after reset. -/
def Obligations.InvariantsAtReset : Prop :=
  State.reset.cfg.ok = true ∧ memoryOk State.reset = true ∧ engineOk State.reset = true ∧
    arbiterOk State.reset = true ∧ transportOk State.reset = true ∧ queuesOk State.reset = true ∧
    translatorOk State.reset = true

/-- No step of a state that keeps the invariants stops: the block has no trap, and every error is
recorded or answered while the machine goes on (60_exceptions.md R406, 41_fifo_decoder.md R190). -/
def Obligations.StepNeverStops : Prop :=
  ∀ s : State, s.cfg.ok = true → engineOk s = true → translatorOk s = true → ∃ t, step s = .next t

/-! ### Which step may change what -/

/-- The FIFO is first-in first-out: a step that is not a power-on reset leaves it, appends one entry at
the tail (a legacy one by FIFO_PUSH, a translator one by a push with the lock held), removes its oldest
entry (Parse), or drops legacy entries (CTRL.FIFO_FLUSH) (41_fifo_decoder.md R170, R171). -/
def Obligations.FifoDiscipline : Prop :=
  ∀ s t : State, step s = .next t → nextTurn s ≠ .powerOn →
    t.fifo = s.fifo ∨
    (nextTurn s = .agent .host ∧ s.lock = .free ∧ s.fifo.length < s.cfg.fifoDepth ∧
      (∃ d rest, s.hostOps = .access (.legWrite 0x03C 4 d) :: rest) ∧
      ∃ w, t.fifo = s.fifo ++ [{ word := w, producer := .legacy }]) ∨
    (nextTurn s = .agent .vqp ∧ s.lock = .heldVirtio ∧ s.fifo.length < s.cfg.fifoDepth ∧
      ∃ w, t.fifo = s.fifo ++ [{ word := w, producer := .virtio }]) ∨
    (nextTurn s = .agent .parse ∧ ∃ e, s.fifo = e :: t.fifo) ∨
    (nextTurn s = .agent .host ∧
      (∃ d rest, s.hostOps = .access (.legWrite 0x040 4 d) :: rest ∧ d.getLsbD 0 = true) ∧
      t.fifo = s.fifo.filter fun e => e.producer == .virtio)

/-- The pulse list is append-only, and a step emits at most one pulse; a power-on reset does not reset
it (10_state.md R44). -/
def Obligations.PulsesAppendOnly : Prop :=
  ∀ s t : State, step s = .next t → ∃ p : List IrqLine, t.out = s.out ++ p ∧ p.length ≤ 1

/-- What the turn of each agent leaves unchanged: only the host and Parse write drawing registers; only
the host writes IRQ_ENABLE, LO_LATCH and the configuration of the transport and of the queues; the
display reader writes nothing of the block (10_state.md R24, R25, R27, R28, 20_memory.md R79, R82, 60_exceptions.md R418). -/
def Obligations.AgentFootprints : Prop :=
  ∀ s t : State,
    (agentStep .parse s = .next t →
      t.vram = s.vram ∧ t.guest = s.guest ∧ t.vio = s.vio ∧ t.q0 = s.q0 ∧ t.q1 = s.q1 ∧ t.vqp = s.vqp ∧
      t.resources = s.resources ∧ t.scanout = s.scanout ∧ t.lock = s.lock ∧ t.done = s.done ∧
      t.irqEnable = s.irqEnable ∧ t.loLatch = s.loLatch ∧ t.vqFaultCount = s.vqFaultCount ∧
      t.hostOps = s.hostOps ∧ t.bus = s.bus) ∧
    (agentStep .head s = .next t →
      t.regs = s.regs ∧ t.fifo = s.fifo ∧ t.guest = s.guest ∧ t.vio = s.vio ∧ t.q0 = s.q0 ∧ t.q1 = s.q1 ∧
      t.vqp = s.vqp ∧ t.resources = s.resources ∧ t.scanout = s.scanout ∧ t.lock = s.lock ∧
      t.fault = s.fault ∧ t.faultCode = s.faultCode ∧ t.irqEnable = s.irqEnable ∧ t.loLatch = s.loLatch ∧
      t.vqFaultCount = s.vqFaultCount ∧ t.hostOps = s.hostOps ∧ t.bus = s.bus) ∧
    (agentStep .vqp s = .next t →
      t.regs = s.regs ∧ t.done = s.done ∧ t.irqEnable = s.irqEnable ∧ t.loLatch = s.loLatch ∧
      t.inflight.map (fun o => (o.kind, o.producer, o.snap, o.k)) =
        s.inflight.map (fun o => (o.kind, o.producer, o.snap, o.k)) ∧
      t.vio = { s.vio with status := t.vio.status, interruptStatus := t.vio.interruptStatus } ∧
      t.q0 = { s.q0 with lastAvail := t.q0.lastAvail, usedIdx := t.q0.usedIdx, pending := t.q0.pending } ∧
      t.q1 = { s.q1 with lastAvail := t.q1.lastAvail, usedIdx := t.q1.usedIdx, pending := t.q1.pending } ∧
      t.hostOps = s.hostOps ∧ t.bus = s.bus) ∧
    (agentStep .host s = .next t →
      t.inflight.map (fun o => (o.kind, o.producer, o.snap, o.k)) =
        s.inflight.map (fun o => (o.kind, o.producer, o.snap, o.k)) ∧
      t.vqFaultCount = s.vqFaultCount ∧ (t.done = true → s.done = true) ∧ (t.fault = true → s.fault = true) ∧
      (t.resources = s.resources ∨ t.resources = [])) ∧
    (∀ x y, agentStep (.display x y) s = .next t → { t with display := s.display } = s)

/-- Which steps may change a byte of VRAM, and which bytes: the pixel step of the head of the in-flight
list, the staging copy, a host write through the window, and a power-on reset
(20_memory.md R82, 43_draw.md R213, 46_gpu_translator.md R356). -/
def Obligations.VramWrittenOnlyBy : Prop :=
  ∀ (s t : State) (b : Nat), step s = .next t → vramByte t b ≠ vramByte s b →
    nextTurn s = .powerOn ∨
    (nextTurn s = .agent .head ∧ ∃ op rest, s.inflight = op :: rest ∧ op.kind ≠ .eol ∧
      op.k < op.snap.drawW.toNat * op.snap.drawH.toNat ∧ dstAddr op.snap op.k ≤ b ∧
      b < dstAddr op.snap op.k + bytesPerPixel op.snap.pixelFmt) ∨
    (nextTurn s = .agent .vqp ∧ s.vqp.phase = .stage ∧ b = s.cfg.stagingBase + s.vqp.copied) ∨
    (nextTurn s = .agent .host ∧ ∃ a n d rest, s.hostOps = .vramWrite a n d :: rest ∧
      a ≤ b ∧ b < a + n ∧ a + n ≤ s.cfg.vramSize)

/-- Which steps may change a byte of guest memory, and which bytes: the response, the used element and
the used index of the request being served, and the host's own writes. Of a write in parts, the byte
whose turn it is. No descriptor, available ring or readable buffer is written but through an overlap of
these (45_virtqueue.md R308, R309, R310, R314). And what the host's own reads and writes of guest memory do
(60_exceptions.md R418): that each is one step and ends below 2^64 is the model's choice (log 21). -/
def Obligations.GuestWrittenOnlyBy : Prop :=
  (∀ (s : State) (a : Word64) (n : Nat) (rest : List HostOp), s.hostOps = .guestRead a n :: rest →
    ∃ bytes : List Byte, hostStep s = .next { s with hostOps := rest, hostRead := bytes } ∧
      ∀ i, bytes[i]? = if i < n ∧ a.toNat + i < 2 ^ 64 then some (guestByte s (a.toNat + i)) else none) ∧
  (∀ (s : State) (a : Word64) (bytes : List Byte) (rest : List HostOp),
    s.hostOps = .guestWrite a bytes :: rest →
    ∃ t, hostStep s = .next t ∧ { t with guest := s.guest } = { s with hostOps := rest } ∧
      ∀ b, guestByte t b =
        if a.toNat ≤ b ∧ b < a.toNat + bytes.length ∧ b < 2 ^ 64 then bytes.getD (b - a.toNat) 0
        else guestByte s b) ∧
  ∀ (s t : State) (b : Nat), step s = .next t → guestByte t b ≠ guestByte s b →
    (nextTurn s = .agent .vqp ∧ s.vqp.phase = .respond ∧
      segAddr (writableSegs s.vqp.chain) s.vqp.written = some b) ∨
    (nextTurn s = .agent .vqp ∧ s.vqp.phase = .usedElem ∧
      (s.vqp.dma = [] → usedSlotAddr (servedQueue s) ≤ b ∧ b < usedSlotAddr (servedQueue s) + 8) ∧
      (s.vqp.dma ≠ [] → b = s.vqp.dmaAddr)) ∨
    (nextTurn s = .agent .vqp ∧ s.vqp.phase = .usedIdx ∧
      (s.vqp.dma = [] → (servedQueue s).deviceAddr.toNat + 2 ≤ b ∧ b < (servedQueue s).deviceAddr.toNat + 4) ∧
      (s.vqp.dma ≠ [] → b = s.vqp.dmaAddr)) ∨
    (nextTurn s = .agent .host ∧ ∃ a bytes rest, s.hostOps = .guestWrite a bytes :: rest ∧
      a.toNat ≤ b ∧ b < a.toNat + bytes.length)

/-- The instructions themselves store nothing to VRAM or guest memory: a draw's pixels, the staging copy
and the responses are later steps. Command words leave everything but the FIFO, the in-flight list, the
drawing registers and the fault; requests everything but the translator, the processor and the fault;
accesses leave VRAM, guest memory, the in-flight list and the fault counter. -/
def Obligations.ExecFrames : Prop :=
  ∀ (i : Instr) (s t : State), exec i s = .next t →
    (∀ a, vramByte t a = vramByte s a ∧ guestByte t a = guestByte s a) ∧
    (source i = .fifo →
      t = { s with regs := t.regs, fifo := s.fifo.tail, inflight := t.inflight, fault := t.fault,
                   faultCode := t.faultCode, out := t.out }) ∧
    (source i = .request →
      t = { s with vqp := t.vqp, resources := t.resources, scanout := t.scanout, fault := t.fault,
                   faultCode := t.faultCode, out := t.out }) ∧
    (source i = .access →
      t = { s with regs := t.regs, done := t.done, fault := t.fault, faultCode := t.faultCode,
                   irqEnable := t.irqEnable, loLatch := t.loLatch, fifo := t.fifo, lock := t.lock,
                   vio := t.vio, q0 := t.q0, q1 := t.q1, vqp := t.vqp, resources := t.resources,
                   scanout := t.scanout, out := t.out, bus := t.bus })

/-! ### Native commands and the pipeline -/

/-- NOP moves the FIFO head only, and the all-zero word is NOP (41_fifo_decoder.md R182). -/
def Obligations.NopParse : Prop :=
  decode (.command 0) = .instr .nop ∧
  ∀ (s : State) (w : Word64) (p : Producer) (rest : List FifoEntry),
    s.fifo = { word := w, producer := p } :: rest → exec .nop s = .next { s with fifo := rest }

/-- EOL leaves the FIFO and enters the in-flight list with its producer (41_fifo_decoder.md R183). That
its unused snapshot is all zeros is the model's choice (log 19). -/
def Obligations.EolParse : Prop :=
  ∀ (s : State) (w : Word64) (p : Producer) (rest : List FifoEntry),
    s.fifo = { word := w, producer := p } :: rest →
    exec .eol s =
      .next { s with
        fifo := rest
        inflight := s.inflight ++ [{ kind := .eol, producer := p, snap := Regs.zero, k := 0, tainted := [] }] }

/-- SET_REG of ids 0 to 11 writes that register, masked to its width, and no other; of the other ids it
raises INVALID_REGISTER and changes no register (42_state_set.md R200, R201). The ids and widths are written
out (10_state.md R21). -/
def Obligations.SetRegParse : Prop :=
  let table : List (RegId × Nat × Nat) :=
    [(.fbAddr, 0, 32), (.fbStride, 1, 16), (.drawX, 2, 16), (.drawY, 3, 16), (.drawW, 4, 16), (.drawH, 5, 16),
      (.fillColor, 6, 32), (.srcAddr, 7, 32), (.srcStride, 8, 16), (.stencilKey, 9, 32), (.alphaMode, 10, 2),
      (.pixelFmt, 11, 1)]
  (∀ r ∈ table, regNumber r.1 = r.2.1 ∧ regWidth r.1 = r.2.2) ∧
  (∀ g : Regs, table.map (fun r => (readReg r.1 g).toNat) =
    [g.fbAddr.toNat, g.fbStride.toNat, g.drawX.toNat, g.drawY.toNat, g.drawW.toNat, g.drawH.toNat,
      g.fillColor.toNat, g.srcAddr.toNat, g.srcStride.toNat, g.stencilKey.toNat, g.alphaMode.toNat,
      g.pixelFmt.toNat]) ∧
  ∀ (s : State) (w : Word64) (p : Producer) (rest : List FifoEntry) (sel : BitVec 8) (val : Word32),
    s.fifo = { word := w, producer := p } :: rest →
    (sel.toNat ≤ 11 →
      ∃ g : Regs, exec (.setReg sel val) s = .next { s with fifo := rest, regs := g } ∧
        ∀ r ∈ table, (readReg r.1 g).toNat =
          if r.2.1 = sel.toNat then val.toNat % 2 ^ r.2.2 else (readReg r.1 s.regs).toNat) ∧
    (12 ≤ sel.toNat →
      exec (.setReg sel val) s =
        .next { s with
          fifo := rest
          fault := true
          faultCode := if s.fault then s.faultCode else 0x02
          out := if s.irqEnable.getLsbD 1 then s.out ++ [.eng] else s.out })

/-- Draw Parse: the registers are copied, and a draw whose last pixel leaves VRAM raises OUT_OF_RANGE and
enters nothing; one that enters has every pixel inside VRAM (43_draw.md R211). -/
def Obligations.DrawParse : Prop :=
  ∀ (s : State) (w : Word64) (p : Producer) (rest : List FifoEntry),
    s.fifo = { word := w, producer := p } :: rest →
    let n := s.regs.drawW.toNat * s.regs.drawH.toNat
    let bpp := if s.regs.pixelFmt = 0 then 4 else 3
    let refused : State :=
      { s with
        fifo := rest
        fault := true
        faultCode := if s.fault then s.faultCode else 0x03
        out := if s.irqEnable.getLsbD 1 then s.out ++ [.eng] else s.out }
    let entered (kind : OpKind) : State :=
      { s with
        fifo := rest
        inflight := s.inflight ++ [{ kind := kind, producer := p, snap := s.regs, k := 0, tainted := [] }] }
    (n > 0 ∧ dstAddr s.regs (n - 1) + bpp > s.cfg.vramSize → exec .fill s = .next refused) ∧
    (¬(n > 0 ∧ dstAddr s.regs (n - 1) + bpp > s.cfg.vramSize) →
      exec .fill s = .next (entered .fill) ∧
        ∀ k < n, dstAddr s.regs k + bpp ≤ s.cfg.vramSize) ∧
    (n > 0 ∧ (dstAddr s.regs (n - 1) + bpp > s.cfg.vramSize ∨ srcAddr s.regs (n - 1) + bpp > s.cfg.vramSize) →
      exec .blit s = .next refused) ∧
    (¬(n > 0 ∧ (dstAddr s.regs (n - 1) + bpp > s.cfg.vramSize ∨ srcAddr s.regs (n - 1) + bpp > s.cfg.vramSize)) →
      exec .blit s = .next (entered .blit) ∧
        ∀ k < n, dstAddr s.regs k + bpp ≤ s.cfg.vramSize ∧ srcAddr s.regs k + bpp ≤ s.cfg.vramSize)

/-- The geometry of a draw: pixel k is at row j and column i of the rectangle, row-major, over unbounded
integers; DRAW_X and DRAW_Y move the destination only (43_draw.md R210). -/
def Obligations.DrawGeometry : Prop :=
  ∀ (g : Regs) (k : Nat), k < g.drawW.toNat * g.drawH.toNat →
    ∃ i j, i < g.drawW.toNat ∧ j < g.drawH.toNat ∧ k = j * g.drawW.toNat + i ∧
      dstAddr g k = g.fbAddr.toNat + (g.drawY.toNat + j) * g.fbStride.toNat +
        (g.drawX.toNat + i) * (if g.pixelFmt = 0 then 4 else 3) ∧
      srcAddr g k = g.srcAddr.toNat + j * g.srcStride.toNat + i * (if g.pixelFmt = 0 then 4 else 3) ∧
      ∀ b, inDstBytes g k b = true ↔ dstAddr g k ≤ b ∧ b < dstAddr g k + (if g.pixelFmt = 0 then 4 else 3)

/-- The Pixel step of a FILL without blending: the pixel's bytes become FILL_COLOR, narrowed to 3 bytes in
RGB888, and no other byte changes; every operation behind it is tainted with them; KEY_EN has no effect
(43_draw.md R213, R230, 20_memory.md R75). -/
def Obligations.FillPixelStep : Prop :=
  ∀ (s : State) (op : Operation) (rest : List Operation),
    s.inflight = op :: rest → op.kind = .fill → op.k < op.snap.drawW.toNat * op.snap.drawH.toNat →
    dstAddr op.snap op.k + bytesPerPixel op.snap.pixelFmt ≤ s.cfg.vramSize →
    op.snap.alphaMode.getLsbD 0 = false →
    ∃ t, headStep s = .next t ∧
      { t with vram := s.vram } =
        { s with
          inflight := { op with k := op.k + 1 } ::
            taintOps (dstAddr op.snap op.k) (bytesPerPixel op.snap.pixelFmt) rest } ∧
      ∀ b, vramByte t b =
        if dstAddr op.snap op.k ≤ b ∧ b < dstAddr op.snap op.k + bytesPerPixel op.snap.pixelFmt then
          BitVec.ofNat 8 (op.snap.fillColor.toNat / 256 ^ (b - dstAddr op.snap op.k))
        else vramByte s b

/-- The Pixel step of a BLIT whose source bytes are neither tainted nor written by an earlier pixel of it:
with KEY_EN and the widened source pixel equal to STENCIL_KEY nothing is written, blending or not; otherwise,
without blending, the source bytes are copied (43_draw.md R213, R222, R231, 20_memory.md R75). -/
def Obligations.BlitPixelStep : Prop :=
  ∀ (s : State) (op : Operation) (rest : List Operation),
    s.inflight = op :: rest → op.kind = .blit → op.k < op.snap.drawW.toNat * op.snap.drawH.toNat →
    dstAddr op.snap op.k + bytesPerPixel op.snap.pixelFmt ≤ s.cfg.vramSize →
    srcAddr op.snap op.k + bytesPerPixel op.snap.pixelFmt ≤ s.cfg.vramSize →
    (∀ b, srcAddr op.snap op.k ≤ b → b < srcAddr op.snap op.k + bytesPerPixel op.snap.pixelFmt →
      b ∉ op.tainted ∧ ∀ k < op.k, inDstBytes op.snap k b = false) →
    let pixel := leNat (vramBytes s (srcAddr op.snap op.k) (bytesPerPixel op.snap.pixelFmt)) +
      (if op.snap.pixelFmt = 0 then 0 else 0xFF000000)
    (op.snap.alphaMode.getLsbD 1 = true ∧ pixel = op.snap.stencilKey.toNat →
      headStep s = .next { s with inflight := { op with k := op.k + 1 } :: rest }) ∧
    (¬(op.snap.alphaMode.getLsbD 1 = true ∧ pixel = op.snap.stencilKey.toNat) →
      op.snap.alphaMode.getLsbD 0 = false →
      ∃ t, headStep s = .next t ∧
        { t with vram := s.vram } =
          { s with
            inflight := { op with k := op.k + 1 } ::
              taintOps (dstAddr op.snap op.k) (bytesPerPixel op.snap.pixelFmt) rest } ∧
        ∀ b, vramByte t b =
          if dstAddr op.snap op.k ≤ b ∧ b < dstAddr op.snap op.k + bytesPerPixel op.snap.pixelFmt then
            vramByte s (srcAddr op.snap op.k + (b - dstAddr op.snap op.k))
          else vramByte s b)

/-- The Pixel step with blending, for a FILL, or a BLIT whose key does not drop the pixel, when no byte it
reads is tainted or written by an earlier pixel: the pixel becomes Over(source, old destination), narrowed
(43_draw.md R212, R213, R222, R230, R231, 20_memory.md R75). -/
def Obligations.BlendPixelStep : Prop :=
  ∀ (s : State) (op : Operation) (rest : List Operation),
    s.inflight = op :: rest → op.kind ≠ .eol → op.k < op.snap.drawW.toNat * op.snap.drawH.toNat →
    dstAddr op.snap op.k + bytesPerPixel op.snap.pixelFmt ≤ s.cfg.vramSize →
    (op.kind = .blit → srcAddr op.snap op.k + bytesPerPixel op.snap.pixelFmt ≤ s.cfg.vramSize) →
    op.snap.alphaMode.getLsbD 0 = true →
    (∀ b, (dstAddr op.snap op.k ≤ b ∧ b < dstAddr op.snap op.k + bytesPerPixel op.snap.pixelFmt) ∨
        (op.kind = .blit ∧ srcAddr op.snap op.k ≤ b ∧
          b < srcAddr op.snap op.k + bytesPerPixel op.snap.pixelFmt) →
      b ∉ op.tainted ∧ ∀ k < op.k, inDstBytes op.snap k b = false) →
    let widened (a : Nat) : Word32 :=
      BitVec.ofNat 32 (leNat (vramBytes s a (bytesPerPixel op.snap.pixelFmt)) +
        (if op.snap.pixelFmt = 0 then 0 else 0xFF000000))
    let src := if op.kind = .fill then op.snap.fillColor else widened (srcAddr op.snap op.k)
    ¬(op.kind = .blit ∧ op.snap.alphaMode.getLsbD 1 = true ∧ src = op.snap.stencilKey) →
    ∃ t, headStep s = .next t ∧
      { t with vram := s.vram } =
        { s with
          inflight := { op with k := op.k + 1 } ::
            taintOps (dstAddr op.snap op.k) (bytesPerPixel op.snap.pixelFmt) rest } ∧
      ∀ b, vramByte t b =
        if dstAddr op.snap op.k ≤ b ∧ b < dstAddr op.snap op.k + bytesPerPixel op.snap.pixelFmt then
          BitVec.ofNat 8 ((overPixel src (widened (dstAddr op.snap op.k))).toNat /
            256 ^ (b - dstAddr op.snap op.k))
        else vramByte s b

/-- What a draw reads, byte by byte: a free byte where the byte is tainted or written by an earlier pixel
of the same operation, else what VRAM holds; and what a write taints (43_draw.md R213, R222). The free
bytes are numbered by the model's counter (log 9). -/
def Obligations.FreeReads : Prop :=
  (∀ (op : Operation) (b : Nat), readsFree op b = true ↔
    b ∈ op.tainted ∨ ∃ k < op.k, dstAddr op.snap k ≤ b ∧
      b < dstAddr op.snap k + bytesPerPixel op.snap.pixelFmt) ∧
  (∀ (s : State) (op : Operation) (a n d : Nat),
    (readDraw s op a n d).1.length = n ∧
    (readDraw s op a n d).2 = d + ((List.range n).filter fun i => readsFree op (a + i)).length ∧
    ∀ i < n, (readDraw s op a n d).1[i]? =
      some (if readsFree op (a + i) then
        Config.freeByte (d + ((List.range i).filter fun j => readsFree op (a + j)).length)
      else vramByte s (a + i))) ∧
  (∀ (a n : Nat) (ops : List Operation) (j : Nat) (op : Operation), ops[j]? = some op →
    ∃ op', (taintOps a n ops)[j]? = some op' ∧ { op' with tainted := op.tainted } = op ∧
      ∀ b, b ∈ op'.tainted ↔ b ∈ op.tainted ∨ (a ≤ b ∧ b < a + n))

/-- The blend, channel by channel: channel 3 is A, 2 R, 1 G, 0 B (43_draw.md R212); an opaque source
replaces the destination (R220), a transparent one adds to it, saturating (R221). -/
def Obligations.BlendFormula : Prop :=
  (∀ (src dst : Word32) (c : Nat), c < 4 →
    (overPixel src dst).toNat / 2 ^ (8 * c) % 2 ^ 8 =
      min (src.toNat / 2 ^ (8 * c) % 2 ^ 8 +
        (dst.toNat / 2 ^ (8 * c) % 2 ^ 8) * (255 - src.toNat / 2 ^ 24) / 255) 255) ∧
  (∀ src dst : Word32, src.toNat / 2 ^ 24 = 255 → overPixel src dst = src) ∧
  (∀ src dst : Word32, src.toNat / 2 ^ 24 = 0 → ∀ c < 4,
    (overPixel src dst).toNat / 2 ^ (8 * c) % 2 ^ 8 =
      min (src.toNat / 2 ^ (8 * c) % 2 ^ 8 + dst.toNat / 2 ^ (8 * c) % 2 ^ 8) 255) ∧
  (∀ dst : Word32, overPixel 0 dst = dst)

/-- Retirement of an EOL and of a draw: DONE, with the pulse when DONE_IE is set; a draw sets it only when
nothing is queued or in flight behind it (41_fifo_decoder.md R187, R188). -/
def Obligations.RetireSteps : Prop :=
  ∀ (s : State) (op : Operation) (rest : List Operation), s.inflight = op :: rest →
    let pulsed := if s.irqEnable.getLsbD 0 then s.out ++ [.eng] else s.out
    (op.kind = .eol → headStep s = .next { s with inflight := rest, done := true, out := pulsed }) ∧
    (op.kind = .fill ∨ op.kind = .blit → op.k = op.snap.drawW.toNat * op.snap.drawH.toNat →
      (s.fifo = [] ∧ rest = [] → headStep s = .next { s with inflight := rest, done := true, out := pulsed }) ∧
      (¬(s.fifo = [] ∧ rest = []) → headStep s = .next { s with inflight := rest }))

/-- A whole FILL without blending whose rows do not overlap: N turns of the pipeline paint every pixel of
the rectangle with FILL_COLOR and change no other byte of VRAM, and one more retires it with DONE
(43_draw.md R213, R230, 41_fifo_decoder.md R188). -/
def Obligations.FillRectangle : Prop :=
  ∀ (s : State) (op : Operation),
    s.inflight = [op] → s.fifo = [] → op.kind = .fill → op.k = 0 → op.snap.alphaMode.getLsbD 0 = false →
    (op.snap.drawH.toNat ≤ 1 ∨
      op.snap.drawW.toNat * bytesPerPixel op.snap.pixelFmt ≤ op.snap.fbStride.toNat) →
    (∀ k < op.snap.drawW.toNat * op.snap.drawH.toNat,
      dstAddr op.snap k + bytesPerPixel op.snap.pixelFmt ≤ s.cfg.vramSize) →
    ∃ t, runAgents (List.replicate (op.snap.drawW.toNat * op.snap.drawH.toNat + 1) .head) s = .next t ∧
      { t with vram := s.vram } =
        { s with
          inflight := []
          done := true
          out := if s.irqEnable.getLsbD 0 then s.out ++ [.eng] else s.out } ∧
      (∀ k < op.snap.drawW.toNat * op.snap.drawH.toNat, ∀ c < bytesPerPixel op.snap.pixelFmt,
        vramByte t (dstAddr op.snap k + c) = BitVec.ofNat 8 (op.snap.fillColor.toNat / 256 ^ c)) ∧
      (∀ b, (∀ k < op.snap.drawW.toNat * op.snap.drawH.toNat, inDstBytes op.snap k b = false) →
        vramByte t b = vramByte s b)

/-- While the FIFO or the in-flight list is not empty some pipeline step is enabled: the head's when
something is in flight, else Parse; and each pipeline step makes what is left smaller
(41_fifo_decoder.md R190). -/
def Obligations.PipelineProgress : Prop :=
  ∀ s : State, s.cfg.ok = true → engineOk s = true →
    (s.inflight ≠ [] → ∃ t, headStep s = .next t ∧ t.fifo = s.fifo ∧
      (t.inflight.map operationWork).sum < (s.inflight.map operationWork).sum) ∧
    (s.inflight = [] → s.fifo ≠ [] → parseEnabled s = true) ∧
    (parseEnabled s = true → ∃ t, parseStep s = .next t ∧ t.fifo = s.fifo.tail ∧
      t.fifo.length < s.fifo.length)

/-- From every state that keeps the engine's invariant, pipeline turns alone reach BUSY = 0
(41_fifo_decoder.md R190, 70_reset_and_hazards.md R447). Which states are final, and that in one neither the
host nor an agent of the block has a step (R446). -/
def Obligations.PipelineDrains : Prop :=
  (∀ s : State, s.cfg.ok = true → engineOk s = true →
    ∃ (l : List Agent) (t : State), (∀ a ∈ l, a = .parse ∨ a = .head) ∧ runAgents l s = .next t ∧
      t.fifo = [] ∧ t.inflight = []) ∧
  ∀ s : State,
    (isFinal s = true ↔ s.fifo = [] ∧ s.inflight = [] ∧ s.vqp.phase = .idle ∧ s.lock = .free ∧
      ¬(s.q0.pending = true ∧ serviceable s s.q0 = true) ∧
      ¬(s.q1.pending = true ∧ serviceable s s.q1 = true) ∧ s.hostOps = []) ∧
    (isFinal s = true → ∀ a ∈ [Agent.host, .parse, .head, .vqp], agentStep a s = .next s)

/-! ### The legacy register block -/

/-- Legacy reads of all eighteen registers, each at its offset (40_register_interface.md R141), and STATUS as computed at each
read (10_state.md R26), in states whose FIFO keeps its capacity. -/
def Obligations.LegacyReads : Prop :=
  ((List.range 18).map fun k => decode (.access (.legRead (BitVec.ofNat 12 (4 * k)) 4))) =
    [Instr.legReadFbAddr, .legReadFbStride, .legReadDrawX, .legReadDrawY, .legReadDrawW, .legReadDrawH,
      .legReadFillColor, .legReadSrcAddr, .legReadSrcStride, .legReadStencilKey, .legReadAlphaMode,
      .legReadPixelFmt, .legReadStatus, .legReadIrqEnable, .legReadFifoDataLo, .legReadFifoPush,
      .legReadCtrl, .legReadVqFaultCount].map Decoded.instr ∧
  (∀ s : State,
    (∀ p ∈ [(Instr.legReadFbAddr, RegId.fbAddr), (.legReadFbStride, .fbStride), (.legReadDrawX, .drawX),
        (.legReadDrawY, .drawY), (.legReadDrawW, .drawW), (.legReadDrawH, .drawH),
        (.legReadFillColor, .fillColor), (.legReadSrcAddr, .srcAddr), (.legReadSrcStride, .srcStride),
        (.legReadStencilKey, .stencilKey), (.legReadAlphaMode, .alphaMode), (.legReadPixelFmt, .pixelFmt)],
      exec p.1 s = .next { s with bus := .okData (readReg p.2 s.regs) }) ∧
    exec .legReadStatus s = .next { s with bus := .okData (statusWord s) } ∧
    exec .legReadIrqEnable s = .next { s with bus := .okData (BitVec.ofNat 32 s.irqEnable.toNat) } ∧
    exec .legReadFifoDataLo s = .next { s with bus := .okData 0 } ∧
    exec .legReadFifoPush s = .next { s with bus := .okData 0 } ∧
    exec .legReadCtrl s = .next { s with bus := .okData 0 } ∧
    exec .legReadVqFaultCount s = .next { s with bus := .okData s.vqFaultCount }) ∧
  (∀ s : State, s.fifo.length ≤ s.cfg.fifoDepth → s.cfg.fifoDepth ≤ 511 →
    (statusWord s).toNat =
      (if s.done then 1 else 0) + 2 * (if s.fifo ≠ [] ∨ s.inflight ≠ [] then 1 else 0) +
      4 * (if s.fifo = [] then 1 else 0) + 8 * (if s.fifo.length = s.cfg.fifoDepth then 1 else 0) +
      16 * (if s.fault then 1 else 0) + 32 * (if s.lock = .heldVirtio then 1 else 0) +
      2 ^ 8 * s.faultCode.toNat + 2 ^ 16 * s.fifo.length) ∧
  statusWord State.reset = 0x00000004

/-- Legacy writes of the drawing registers, IRQ_ENABLE, FIFO_DATA_LO and the read-only registers: a value
too wide is masked, nothing else changes, and no pulse is emitted (40_register_interface.md R142, R143,
R145). -/
def Obligations.LegacyRegisterWrites : Prop :=
  ∀ (s : State) (d : Word32),
    ((List.range 18).map fun k => decode (.access (.legWrite (BitVec.ofNat 12 (4 * k)) 4 d))) =
      [Instr.legWriteFbAddr d, .legWriteFbStride d, .legWriteDrawX d, .legWriteDrawY d, .legWriteDrawW d,
      .legWriteDrawH d, .legWriteFillColor d, .legWriteSrcAddr d, .legWriteSrcStride d,
      .legWriteStencilKey d, .legWriteAlphaMode d, .legWritePixelFmt d, .legWriteStatus d,
      .legWriteIrqEnable d, .legWriteFifoDataLo d, .legWriteFifoPush d, .legWriteCtrl d,
      .legWriteVqFaultCount d].map Decoded.instr ∧
    (∀ p ∈ [(Instr.legWriteFbAddr d, RegId.fbAddr), (.legWriteFbStride d, .fbStride),
        (.legWriteDrawX d, .drawX), (.legWriteDrawY d, .drawY), (.legWriteDrawW d, .drawW),
        (.legWriteDrawH d, .drawH), (.legWriteFillColor d, .fillColor), (.legWriteSrcAddr d, .srcAddr),
        (.legWriteSrcStride d, .srcStride), (.legWriteStencilKey d, .stencilKey),
        (.legWriteAlphaMode d, .alphaMode), (.legWritePixelFmt d, .pixelFmt)],
      ∃ g : Regs, exec p.1 s = .next { s with regs := g, bus := .ok } ∧
        ∀ r : RegId, (readReg r g).toNat =
          if r = p.2 then d.toNat % 2 ^ regWidth r else (readReg r s.regs).toNat) ∧
    exec (.legWriteIrqEnable d) s = .next { s with irqEnable := BitVec.ofNat 2 (d.toNat % 4), bus := .ok } ∧
    exec (.legWriteFifoDataLo d) s = .next { s with loLatch := d, bus := .ok } ∧
    exec (.legWriteStatus d) s = .next { s with bus := .ok } ∧
    exec (.legWriteVqFaultCount d) s = .next { s with bus := .ok }

/-- FIFO_PUSH appends the word of the written half and LO_LATCH, or answers FifoFull with nothing changed
(40_register_interface.md R144); the two host writes of a push append exactly the word they spell
(30_encoding.md R105). -/
def Obligations.FifoPush : Prop :=
  (∀ (s : State) (d : Word32), s.fifo.length ≤ s.cfg.fifoDepth →
    (s.lock = .heldVirtio ∨ s.fifo.length = s.cfg.fifoDepth →
      exec (.legWriteFifoPush d) s = .next { s with bus := .err .fifoFull }) ∧
    (¬(s.lock = .heldVirtio ∨ s.fifo.length = s.cfg.fifoDepth) →
      exec (.legWriteFifoPush d) s =
        .next { s with
          fifo := s.fifo ++
            [{ word := BitVec.ofNat 64 (d.toNat * 2 ^ 32 + s.loLatch.toNat), producer := .legacy }]
          loLatch := 0
          bus := .ok })) ∧
  (∀ (s : State) (w : Word64) (rest : List HostOp), s.hostOps = pushOps w ++ rest → s.lock = .free →
    s.fifo.length < s.cfg.fifoDepth →
    runAgents [.host, .host] s =
      .next { s with
        hostOps := rest
        fifo := s.fifo ++ [{ word := w, producer := .legacy }]
        loLatch := 0
        bus := .ok })

/-- CTRL: FIFO_FLUSH drops the legacy entries and LO_LATCH, CLEAR_DONE and CLEAR_FAULT clear the latches,
each by its own bit, without a pulse (40_register_interface.md R146); a raised fault keeps the first code,
sets FAULT, and emits a pulse of its own when FAULT_IE is set (60_exceptions.md R403). -/
def Obligations.ControlAndFaults : Prop :=
  (∀ (s : State) (d : Word32), ∃ t, exec (.legWriteCtrl d) s = .next t ∧
    t = { s with fifo := t.fifo, loLatch := t.loLatch, done := t.done, fault := t.fault,
                 faultCode := t.faultCode, bus := .ok } ∧
    (d.toNat % 2 = 1 → t.fifo = s.fifo.filter (fun e => e.producer == .virtio) ∧ t.loLatch = 0) ∧
    (d.toNat % 2 = 0 → t.fifo = s.fifo ∧ t.loLatch = s.loLatch) ∧
    (d.toNat / 2 % 2 = 1 → t.done = false) ∧ (d.toNat / 2 % 2 = 0 → t.done = s.done) ∧
    (d.toNat / 4 % 2 = 1 → t.fault = false ∧ t.faultCode = 0) ∧
    (d.toNat / 4 % 2 = 0 → t.fault = s.fault ∧ t.faultCode = s.faultCode)) ∧
  (∀ (s : State) (c : BitVec 8),
    raiseFault c s =
      { s with
        fault := true
        faultCode := if s.fault = false then c else s.faultCode
        out := if s.irqEnable.getLsbD 1 then s.out ++ [.eng] else s.out })

/-- FAULT and FAULT_CODE agree in every state a step reaches: the code is 0 exactly while FAULT is 0, and
never one of the reserved codes; and a code only a Parse, a chain walk or a translation can record
(60_exceptions.md R400). -/
def Obligations.FaultInvariant : Prop :=
  (∀ s t : State, (s.fault = false ↔ s.faultCode = 0) ∧ s.faultCode.toNat ≤ 5 → step s = .next t →
    (t.fault = false ↔ t.faultCode = 0) ∧ t.faultCode.toNat ≤ 5) ∧
  (∀ s t : State, step s = .next t → s.fault = false → t.fault = true →
    (nextTurn s = .agent .parse ∧ t.faultCode.toNat ∈ [1, 2, 3]) ∨
    (nextTurn s = .agent .vqp ∧ s.vqp.phase = .walk ∧ t.faultCode.toNat = 4) ∨
    (nextTurn s = .agent .vqp ∧ s.vqp.phase = .translate ∧ t.faultCode.toNat = 5)) ∧
  (State.reset.fault = false ∧ State.reset.faultCode = 0)

/-- The host's VRAM window (20_memory.md R74): naturally aligned accesses of 1, 2 and 4 bytes read and
write VRAM little-endian, a misaligned one is answered InvalidRegister, one beyond VRAM OutOfRange. A write
taints every operation in flight (43_draw.md R222). -/
def Obligations.WindowAccess : Prop :=
  ∀ (s : State) (rest : List HostOp) (a n : Nat) (d : Word32), n = 1 ∨ n = 2 ∨ n = 4 →
    (s.hostOps = .vramRead a n :: rest →
      (a % n ≠ 0 → hostStep s = .next { s with hostOps := rest, bus := .err .invalidRegister }) ∧
      (a % n = 0 → s.cfg.vramSize < a + n →
        hostStep s = .next { s with hostOps := rest, bus := .err .outOfRange }) ∧
      (a % n = 0 → a + n ≤ s.cfg.vramSize → ∃ v : Word32,
        hostStep s = .next { s with hostOps := rest, bus := .okData v } ∧ v.toNat < 256 ^ n ∧
        ∀ c < n, v.toNat / 256 ^ c % 256 = (vramByte s (a + c)).toNat)) ∧
    (s.hostOps = .vramWrite a n d :: rest →
      (a % n ≠ 0 → hostStep s = .next { s with hostOps := rest, bus := .err .invalidRegister }) ∧
      (a % n = 0 → s.cfg.vramSize < a + n →
        hostStep s = .next { s with hostOps := rest, bus := .err .outOfRange }) ∧
      (a % n = 0 → a + n ≤ s.cfg.vramSize → ∃ t, hostStep s = .next t ∧
        { t with vram := s.vram } =
          { s with hostOps := rest, bus := .ok, inflight := taintOps a n s.inflight } ∧
        ∀ b, vramByte t b =
          if a ≤ b ∧ b < a + n then BitVec.ofNat 8 (d.toNat / 256 ^ (b - a)) else vramByte s b))

/-! ### The VirtIO transport -/

/-- Reads of the transport and the configuration space, the device-feature and queue selectors,
events_clear, and the accesses to every other offset, writes of read-only registers among them
(44_virtio_transport.md R260, R261, R263, R264, R267, R276). -/
def Obligations.TransportAccesses : Prop :=
  ∀ s : State,
    exec .vioReadMagicValue s = .next { s with bus := .okData 0x74726976 } ∧
    exec .vioReadVersion s = .next { s with bus := .okData 2 } ∧
    exec .vioReadDeviceID s = .next { s with bus := .okData 16 } ∧
    exec .vioReadVendorID s = .next { s with bus := .okData s.cfg.vendorId } ∧
    exec .vioReadConfigGeneration s = .next { s with bus := .okData 0 } ∧
    exec .vioReadDeviceFeatures s =
      .next { s with bus := .okData (if s.vio.devFeaturesSel = 1 then 1 else 0) } ∧
    (∃ v : Word32, exec .vioReadQueueNumMax s = .next { s with bus := .okData v } ∧
      (s.vio.queueSel.toNat < 2 → v = BitVec.ofNat 32 s.cfg.queueNumMax) ∧
      (2 ≤ s.vio.queueSel.toNat → v = 0)) ∧
    exec .vioReadInterruptStatus s =
      .next { s with bus := .okData (BitVec.ofNat 32 s.vio.interruptStatus.toNat) } ∧
    exec .vioReadEventsRead s = .next { s with bus := .okData s.vio.eventsRead } ∧
    exec .vioReadNumScanouts s = .next { s with bus := .okData 1 } ∧
    exec .vioReadNumCapsets s = .next { s with bus := .okData 0 } ∧
    (∀ d, exec (.vioWriteDeviceFeaturesSel d) s =
      .next { s with vio := { s.vio with devFeaturesSel := d }, bus := .ok }) ∧
    (∀ d, exec (.vioWriteQueueSel d) s =
      .next { s with vio := { s.vio with queueSel := d }, bus := .ok }) ∧
    (∀ d, exec (.vioWriteEventsClear d) s =
      .next { s with vio := { s.vio with eventsRead := s.vio.eventsRead &&& ~~~d }, bus := .ok }) ∧
    (∀ off, exec (.vioOther off none) s = .next { s with bus := .okData 0 }) ∧
    (∀ off d, exec (.vioOther off (some d)) s = .next { s with bus := .ok }) ∧
    (∀ d, ∀ off ∈ [(0x000 : BitVec 9), 0x004, 0x008, 0x00C, 0x010, 0x034, 0x060, 0x0FC, 0x100, 0x108, 0x10C],
      decode (.access (.vioWrite off 4 d)) = .instr (.vioOther off (some d)))

/-- DriverFeaturesSel stores the whole value; DriverFeatures: the selected half is stored while FEATURES_OK is 0, and the write is ignored otherwise
(44_virtio_transport.md R262). -/
def Obligations.DriverFeaturesWrite : Prop :=
  ∀ (s : State) (d : Word32),
    exec (.vioWriteDriverFeaturesSel d) s =
      .next { s with vio := { s.vio with drvFeaturesSel := d }, bus := .ok } ∧
    ∃ f : Word64,
      exec (.vioWriteDriverFeatures d) s =
        .next { s with vio := { s.vio with driverFeatures := f }, bus := .ok } ∧
      (s.vio.status.toNat / 8 % 2 = 0 → s.vio.drvFeaturesSel = 0 →
        f.toNat = s.vio.driverFeatures.toNat / 2 ^ 32 * 2 ^ 32 + d.toNat) ∧
      (s.vio.status.toNat / 8 % 2 = 0 → s.vio.drvFeaturesSel = 1 →
        f.toNat = d.toNat * 2 ^ 32 + s.vio.driverFeatures.toNat % 2 ^ 32) ∧
      (s.vio.status.toNat / 8 % 2 = 1 ∨ 2 ≤ s.vio.drvFeaturesSel.toNat → f = s.vio.driverFeatures)

/-- Queue configuration: each of the seven writes stores its half of its field in the selected queue while
that queue is not ready, and is ignored for a ready queue or none (44_virtio_transport.md R265); the
registers read as 0. -/
def Obligations.QueueConfigWrites : Prop :=
  (∀ (s : State) (d : Word32) (q : QueueId) (p : Instr × (Queue → Queue)),
    let low (v : Word64) : Word64 := BitVec.ofNat 64 (v.toNat / 2 ^ 32 * 2 ^ 32 + d.toNat)
    let high (v : Word64) : Word64 := BitVec.ofNat 64 (d.toNat * 2 ^ 32 + v.toNat % 2 ^ 32)
    p ∈ [(Instr.vioWriteQueueNum d, fun v : Queue => { v with num := d }),
      (.vioWriteQueueDescLow d, fun v => { v with descAddr := low v.descAddr }),
      (.vioWriteQueueDescHigh d, fun v => { v with descAddr := high v.descAddr }),
      (.vioWriteQueueDriverLow d, fun v => { v with driverAddr := low v.driverAddr }),
      (.vioWriteQueueDriverHigh d, fun v => { v with driverAddr := high v.driverAddr }),
      (.vioWriteQueueDeviceLow d, fun v => { v with deviceAddr := low v.deviceAddr }),
      (.vioWriteQueueDeviceHigh d, fun v => { v with deviceAddr := high v.deviceAddr })] →
    (s.vio.queueSel.toNat = (if q = .ctrl then 0 else 1) → (getQueue s q).ready = false →
      exec p.1 s = .next (setQueue q (p.2 (getQueue s q)) { s with bus := .ok })) ∧
    (s.vio.queueSel.toNat = (if q = .ctrl then 0 else 1) → (getQueue s q).ready = true →
      exec p.1 s = .next { s with bus := .ok }) ∧
    (2 ≤ s.vio.queueSel.toNat → exec p.1 s = .next { s with bus := .ok })) ∧
  (∀ off ∈ [(0x038 : BitVec 9), 0x080, 0x084, 0x090, 0x094, 0x0A0, 0x0A4],
    decode (.access (.vioRead off 4)) = .instr (.vioOther off none))

/-- QueueReady: bit 0 set makes a queue of a legal size ready with its indices at 0, and is a transport
error for another size; bit 0 clear takes it out of service; it reads as the selected queue's flag
(44_virtio_transport.md R266, R275). -/
def Obligations.QueueReadyRegister : Prop :=
  ∀ (s : State) (d : Word32),
    (∃ v : Word32, exec .vioReadQueueReady s = .next { s with bus := .okData v } ∧
      (s.vio.queueSel = 0 → v = if s.q0.ready then 1 else 0) ∧
      (s.vio.queueSel = 1 → v = if s.q1.ready then 1 else 0) ∧ (2 ≤ s.vio.queueSel.toNat → v = 0)) ∧
    (2 ≤ s.vio.queueSel.toNat → exec (.vioWriteQueueReady d) s = .next { s with bus := .ok }) ∧
    (∀ q : QueueId, s.vio.queueSel.toNat = (if q = .ctrl then 0 else 1) →
      (d.toNat % 2 = 0 →
        exec (.vioWriteQueueReady d) s =
          .next (setQueue q { getQueue s q with ready := false, pending := false } { s with bus := .ok })) ∧
      (d.toNat % 2 = 1 → (getQueue s q).ready = true →
        exec (.vioWriteQueueReady d) s = .next { s with bus := .ok }) ∧
      (d.toNat % 2 = 1 → (getQueue s q).ready = false →
        ((∃ k, (getQueue s q).num.toNat = 2 ^ k) ∧ (getQueue s q).num.toNat ≤ s.cfg.queueNumMax →
          exec (.vioWriteQueueReady d) s =
            .next (setQueue q
              { getQueue s q with ready := true, lastAvail := 0, usedIdx := 0, pending := false }
              { s with bus := .ok })) ∧
        (¬((∃ k, (getQueue s q).num.toNat = 2 ^ k) ∧ (getQueue s q).num.toNat ≤ s.cfg.queueNumMax) →
          exec (.vioWriteQueueReady d) s =
            .next { s with
              vio := { s.vio with
                status := s.vio.status ||| 0x40
                interruptStatus := s.vio.interruptStatus ||| 0x2 }
              out := s.out ++ [.vio]
              bus := .ok })))

/-- QueueNotify sets the pending flag of a queue that can be served and is ignored otherwise;
InterruptACK clears the bits written as 1 (44_virtio_transport.md R268, R269). -/
def Obligations.NotifyAndAcknowledge : Prop :=
  ∀ (s : State) (d : Word32),
    (∀ q : QueueId, d.toNat = (if q = .ctrl then 0 else 1) →
      ((getQueue s q).ready = true ∧ s.vio.status.toNat / 4 % 2 = 1 ∧ s.vio.status.toNat / 64 % 2 = 0 →
        exec (.vioWriteQueueNotify d) s =
          .next (setQueue q { getQueue s q with pending := true } { s with bus := .ok })) ∧
      (¬((getQueue s q).ready = true ∧ s.vio.status.toNat / 4 % 2 = 1 ∧ s.vio.status.toNat / 64 % 2 = 0) →
        exec (.vioWriteQueueNotify d) s = .next { s with bus := .ok })) ∧
    (2 ≤ d.toNat → exec (.vioWriteQueueNotify d) s = .next { s with bus := .ok }) ∧
    (∃ v : BitVec 2,
      exec (.vioWriteInterruptACK d) s =
        .next { s with vio := { s.vio with interruptStatus := v }, bus := .ok } ∧
      ∀ c < 2, v.toNat / 2 ^ c % 2 =
        if d.toNat / 2 ^ c % 2 = 1 then 0 else s.vio.interruptStatus.toNat / 2 ^ c % 2)

/-- Status: a write of 0 in bits 7:0 is the device reset, which keeps the engine, the FIFO, VRAM and the
pulses (70_reset_and_hazards.md R441); any other leaves the negotiation flag and the stored status, bit by
bit, that the handshake gives (44_virtio_transport.md R270, R272, R273); it reads as stored. Bit 3 is
FEATURES_OK, bit 2 DRIVER_OK, bit 6 DEVICE_NEEDS_RESET. -/
def Obligations.StatusRegister : Prop :=
  ∀ (s : State) (d : Word32),
    exec .vioReadStatus s = .next { s with bus := .okData (BitVec.ofNat 32 s.vio.status.toNat) } ∧
    (d.toNat % 256 = 0 →
      exec (.vioWriteStatus d) s =
        .next { s with
          vio := { status := 0, negFailed := false, devFeaturesSel := 0, drvFeaturesSel := 0,
                   driverFeatures := 0, queueSel := 0, interruptStatus := 0, eventsRead := 0 }
          q0 := { num := 0, ready := false, descAddr := 0, driverAddr := 0, deviceAddr := 0, lastAvail := 0,
                  usedIdx := 0, pending := false }
          q1 := { num := 0, ready := false, descAddr := 0, driverAddr := 0, deviceAddr := 0, lastAvail := 0,
                  usedIdx := 0, pending := false }
          vqp := Vqp.idle
          resources := []
          scanout := { enabled := false, resourceId := 0, rect := { x := 0, y := 0, width := 0, height := 0 },
                       base := 0, stride := 0 }
          lock := .free
          bus := .ok }) ∧
    (d.toNat % 256 ≠ 0 →
      ∃ (v : BitVec 8) (neg : Bool),
        exec (.vioWriteStatus d) s =
          .next { s with vio := { s.vio with status := v, negFailed := neg }, bus := .ok } ∧
        (neg = true ↔ s.vio.negFailed = true ∨
          (d.getLsbD 3 = true ∧ s.vio.status.getLsbD 3 = false ∧
            ∃ b < 64, s.vio.driverFeatures.getLsbD b = true ∧ b ≠ 32)) ∧
        v.getLsbD 3 = (d.getLsbD 3 && !neg) ∧
        v.getLsbD 2 = (d.getLsbD 2 && d.getLsbD 3 && !neg) ∧
        v.getLsbD 6 = s.vio.status.getLsbD 6 ∧
        ∀ b ∈ [0, 1, 4, 5, 7], v.getLsbD b = d.getLsbD b)

/-- The power-on reset, which keeps only what is not the block's and the pulses, and leaves every VRAM byte
unconstrained anew (70_reset_and_hazards.md R440, 10_state.md R34, R44, R47). That the model counts power-on
resets and keeps the host's queued operations, what the host has read and the schedule is its own choice
(log 18). -/
def Obligations.PowerOnReset : Prop :=
  ∀ s : State, nextTurn s = .powerOn → ∃ t, step s = .next t ∧
    t.regs = { fbAddr := 0, fbStride := 0, drawX := 0, drawY := 0, drawW := 0, drawH := 0, fillColor := 0,
               srcAddr := 0, srcStride := 0, stencilKey := 0, alphaMode := 0, pixelFmt := 0 } ∧
    t.done = false ∧ t.fault = false ∧ t.faultCode = 0 ∧ t.irqEnable = 0 ∧
    t.loLatch = 0 ∧ t.vqFaultCount = 0 ∧ t.fifo = [] ∧ t.inflight = [] ∧ t.lock = .free ∧
    t.vio = { status := 0, negFailed := false, devFeaturesSel := 0, drvFeaturesSel := 0, driverFeatures := 0,
              queueSel := 0, interruptStatus := 0, eventsRead := 0 } ∧
    (∀ q ∈ [t.q0, t.q1], q = { num := 0, ready := false, descAddr := 0, driverAddr := 0, deviceAddr := 0,
                               lastAvail := 0, usedIdx := 0, pending := false }) ∧
    t.vqp = Vqp.idle ∧ t.vqp.phase = .idle ∧ t.vqp.group = [] ∧ t.vqp.dma = [] ∧ t.resources = [] ∧
    t.scanout = { enabled := false, resourceId := 0, rect := { x := 0, y := 0, width := 0, height := 0 },
                  base := 0, stride := 0 } ∧
    t.out = s.out ∧ t.guest = s.guest ∧ t.hostOps = s.hostOps ∧ t.hostRead = s.hostRead ∧ t.cfg = s.cfg ∧
    ∀ a, vramByte t a = Config.vramByte (s.epoch + 1) a

/-! ### The virtqueue processor -/

/-- Steps 1, 2, 3 and 7 of the request algorithm: SELECT takes the lower pending queue that can be served,
READ_IDX leaves a queue that is no longer serviceable and compares the published index of a serviceable one
with `last_avail`, READ_SLOT takes the head index from the slot
`last_avail mod num`, WAIT holds while a translator command is in the engine (45_virtqueue.md R300, R301,
R302, R310, R311, R312). The reads stated are those made in one access. That READ_IDX tests serviceability is
the model's choice, R311's prose followed where R300's pseudocode has no test (log 30). -/
def Obligations.ServiceSteps : Prop :=
  ∀ s : State,
    (∀ q : Queue, serviceable s q = true ↔
      q.ready = true ∧ s.vio.status.toNat / 4 % 2 = 1 ∧ s.vio.status.toNat / 64 % 2 = 0) ∧
    (s.vqp.phase = .readIdx → serviceable s (getQueue s s.vqp.queue) = false →
      vqpStep s = .next { s with vqp := Vqp.idle }) ∧
    (s.vqp.phase = .idle →
      (s.q0.pending = true ∧ serviceable s s.q0 = true →
        vqpStep s = .next { s with
          q0 := { s.q0 with pending := false }
          vqp := { Vqp.idle with phase := .readIdx, queue := .ctrl } }) ∧
      (¬(s.q0.pending = true ∧ serviceable s s.q0 = true) →
        (s.q1.pending = true ∧ serviceable s s.q1 = true →
          vqpStep s = .next { s with
            q1 := { s.q1 with pending := false }
            vqp := { Vqp.idle with phase := .readIdx, queue := .cursor } }) ∧
        (¬(s.q1.pending = true ∧ serviceable s s.q1 = true) → vqpStep s = .next s))) ∧
    (∀ q : Queue, q = getQueue s s.vqp.queue → serviceable s q = true → s.vqp.phase = .readIdx →
      s.vqp.dma = [] →
      guestAdmits s.cfg (q.driverAddr.toNat + 2) 2 = true → q.driverAddr.toNat % 2 = 0 →
      let avail := (guestByte s (q.driverAddr.toNat + 2)).toNat +
        256 * (guestByte s (q.driverAddr.toNat + 3)).toNat
      let d := (avail + 2 ^ 16 - q.lastAvail.toNat) % 2 ^ 16
      (d = 0 → vqpStep s = .next { s with vqp := Vqp.idle }) ∧
      (q.num.toNat < d →
        vqpStep s = .next { s with
          vqp := Vqp.idle
          vio := { s.vio with
            status := s.vio.status ||| 0x40
            interruptStatus := s.vio.interruptStatus ||| 0x2 }
          out := s.out ++ [.vio] }) ∧
      (d ≠ 0 ∧ d ≤ q.num.toNat → vqpStep s = .next { s with vqp := { s.vqp with phase := .readSlot } })) ∧
    (∀ (q : Queue) (a : Nat), q = getQueue s s.vqp.queue → s.vqp.phase = .readSlot → s.vqp.dma = [] →
      q.num ≠ 0 → a = q.driverAddr.toNat + 4 + 2 * (q.lastAvail.toNat % q.num.toNat) →
      guestAdmits s.cfg a 2 = true → a % 2 = 0 →
      let head : BitVec 16 := BitVec.ofNat 16 ((guestByte s a).toNat + 256 * (guestByte s (a + 1)).toNat)
      vqpStep s = .next { s with vqp := { s.vqp with
        phase := .walk, head := head, walkIdx := head, visited := [], seenWritable := false,
        cur := { addr := 0, len := 0, flags := 0, next := 0 }, curField := .addr, chain := [] } }) ∧
    (s.vqp.phase = .wait →
      ((∃ e ∈ s.fifo, e.producer = .virtio) ∨ (∃ o ∈ s.inflight, o.producer = .virtio) →
        vqpStep s = .next s) ∧
      ((∀ e ∈ s.fifo, e.producer = .legacy) ∧ (∀ o ∈ s.inflight, o.producer = .legacy) →
        vqpStep s = .next { s with vqp := { s.vqp with phase := .respond, written := 0, plan := none } }))

/-- DMA: an access the platform does not admit holds the processor where it is (20_memory.md R73); an access
of at most 8 bytes at a multiple of its size is one step, and any other is one byte a step in ascending
order (R77). That a split access keeps the address and bytes of its first step is the model's choice
(log 12), and so are the separate admission of each descriptor field (log 33) and that READ_IDX is held for a
serviceable queue only (log 30). -/
def Obligations.DmaAccesses : Prop :=
  (∀ (s : State) (q : Queue), q = getQueue s s.vqp.queue → s.vqp.dma = [] →
    (s.vqp.phase = .readIdx ∧ serviceable s q = true ∧
      guestAdmits s.cfg (q.driverAddr.toNat + 2) 2 = false) ∨
    (s.vqp.phase = .readSlot ∧ guestAdmits s.cfg (availSlotAddr q) 2 = false) ∨
    (s.vqp.phase = .walk ∧ s.vqp.curField = .addr ∧ s.vqp.walkIdx.toNat < q.num.toNat ∧
      s.vqp.walkIdx ∉ s.vqp.visited ∧
      guestAdmits s.cfg (q.descAddr.toNat + 16 * s.vqp.walkIdx.toNat) 8 = false) ∨
    (s.vqp.phase = .walk ∧ s.vqp.curField = .len ∧ guestAdmits s.cfg (s.vqp.descBase + 8) 4 = false) ∨
    (s.vqp.phase = .walk ∧ s.vqp.curField = .flags ∧ guestAdmits s.cfg (s.vqp.descBase + 12) 2 = false) ∨
    (s.vqp.phase = .walk ∧ s.vqp.curField = .next ∧ guestAdmits s.cfg (s.vqp.descBase + 14) 2 = false) ∨
    (s.vqp.phase = .usedElem ∧ guestAdmits s.cfg (usedSlotAddr q) 8 = false) ∨
    (s.vqp.phase = .usedIdx ∧ guestAdmits s.cfg (q.deviceAddr.toNat + 2) 2 = false) → vqpStep s = .next s) ∧
  (∀ (p : Params) (a n : Nat), 2 ^ 64 < a + n → guestAdmits p a n = false) ∧
  (∀ (s : State) (a n : Nat), s.vqp.dma = [] → guestAdmits s.cfg a n = true → 1 ≤ n →
    (n ≤ 8 ∧ a % n = 0 → dmaRead a n s = .done s ((List.range n).map fun i => guestByte s (a + i))) ∧
    (¬(n ≤ 8 ∧ a % n = 0) → 2 ≤ n →
      dmaRead a n s = .more { s with vqp := { s.vqp with dma := [guestByte s a], dmaAddr := a } })) ∧
  (∀ (s : State) (a n : Nat), s.vqp.dma ≠ [] →
    let got := s.vqp.dma ++ [guestByte s (s.vqp.dmaAddr + s.vqp.dma.length)]
    (got.length < n → dmaRead a n s = .more { s with vqp := { s.vqp with dma := got } }) ∧
    (n ≤ got.length → dmaRead a n s = .done { s with vqp := { s.vqp with dma := [], dmaAddr := 0 } } got)) ∧
  (∀ (s : State) (a : Nat) (b : Byte) (bs : List Byte), s.vqp.dma = [] →
    guestAdmits s.cfg a (bs.length + 1) = true →
    (bs.length + 1 ≤ 8 ∧ a % (bs.length + 1) = 0 →
      dmaWrite a (b :: bs) s = .done { s with guest := storeBytes s.guest a (b :: bs) } (b :: bs)) ∧
    (¬(bs.length + 1 ≤ 8 ∧ a % (bs.length + 1) = 0) → bs ≠ [] →
      dmaWrite a (b :: bs) s =
        .more { s with
          guest := storeBytes s.guest a [b]
          vqp := { s.vqp with dma := bs, dmaAddr := a + 1 } })) ∧
  (∀ (s : State) (a : Nat) (bytes : List Byte) (b : Byte) (bs : List Byte), s.vqp.dma = b :: bs →
    (bs ≠ [] → dmaWrite a bytes s =
      .more { s with
        guest := storeBytes s.guest s.vqp.dmaAddr [b]
        vqp := { s.vqp with dma := bs, dmaAddr := s.vqp.dmaAddr + 1 } }) ∧
    (bs = [] → dmaWrite a bytes s =
      .done { s with
        guest := storeBytes s.guest s.vqp.dmaAddr [b]
        vqp := { s.vqp with dma := [], dmaAddr := 0 } } bytes))

/-- Step 4 WALK: a dangling or repeated index is a malformed chain; a descriptor is read as its four fields
in order; the finished descriptor is malformed when indirect or readable after writable, else it joins the
chain, and the walk goes on at `next` or ends (45_virtqueue.md R303, R304, R307). The field reads stated
are those made in one access. That the flag checks come with the last field (log 20), and that each field
is admitted as an access of its own (log 33), are the model's choices. -/
def Obligations.ChainWalk : Prop :=
  ∀ (s : State) (q : Queue), q = getQueue s s.vqp.queue → s.vqp.phase = .walk → s.vqp.dma = [] →
    let malformed : State :=
      { s with
        fault := true
        faultCode := if s.fault then s.faultCode else 0x04
        out := if s.irqEnable.getLsbD 1 then s.out ++ [.eng] else s.out
        vqFaultCount := s.vqFaultCount + 1
        vqp := { s.vqp with phase := .usedElem, written := 0, dma := [] } }
    let field (base n : Nat) : Nat := leNat ((List.range n).map fun i => guestByte s (base + i))
    let broken := q.num.toNat ≤ s.vqp.walkIdx.toNat ∨ s.vqp.walkIdx ∈ s.vqp.visited
    let desc := q.descAddr.toNat + 16 * s.vqp.walkIdx.toNat
    (s.vqp.curField = .addr → broken → vqpStep s = .next malformed) ∧
    (s.vqp.curField = .addr → ¬broken → guestAdmits s.cfg desc 8 = true → desc % 8 = 0 →
      vqpStep s = .next { s with vqp := { s.vqp with
        descBase := desc
        cur := { s.vqp.cur with addr := BitVec.ofNat 64 (field desc 8) }
        curField := .len } }) ∧
    (s.vqp.curField = .len → guestAdmits s.cfg (s.vqp.descBase + 8) 4 = true → s.vqp.descBase % 4 = 0 →
      vqpStep s = .next { s with vqp := { s.vqp with
        cur := { s.vqp.cur with len := BitVec.ofNat 32 (field (s.vqp.descBase + 8) 4) }
        curField := .flags } }) ∧
    (s.vqp.curField = .flags → guestAdmits s.cfg (s.vqp.descBase + 12) 2 = true → s.vqp.descBase % 2 = 0 →
      vqpStep s = .next { s with vqp := { s.vqp with
        cur := { s.vqp.cur with flags := BitVec.ofNat 16 (field (s.vqp.descBase + 12) 2) }
        curField := .next } }) ∧
    (s.vqp.curField = .next → guestAdmits s.cfg (s.vqp.descBase + 14) 2 = true → s.vqp.descBase % 2 = 0 →
      let d : Desc := { s.vqp.cur with next := BitVec.ofNat 16 (field (s.vqp.descBase + 14) 2) }
      let bad := d.flags.toNat / 4 % 2 = 1 ∨ (d.flags.toNat / 2 % 2 = 0 ∧ s.vqp.seenWritable = true)
      (bad → vqpStep s = .next malformed) ∧
      (¬bad →
        vqpStep s = .next { s with vqp := { s.vqp with
          phase := if d.flags.toNat % 2 = 1 then .walk else .gather
          walkIdx := d.next
          visited := s.vqp.visited ++ [s.vqp.walkIdx]
          seenWritable := decide (s.vqp.seenWritable = true ∨ d.flags.toNat / 2 % 2 = 1)
          cur := { addr := 0, len := 0, flags := 0, next := 0 }
          curField := .addr
          chain := s.vqp.chain ++ [d]
          req := [] } }))

/-- Steps 5 and 8, one byte a step: GATHER reads the readable buffers in chain order up to MAX_REQ_BYTES,
RESPOND writes the response into the writable ones, truncated (45_virtqueue.md R305, R308). An empty gather
or response takes one step (log 13). -/
def Obligations.GatherAndRespond : Prop :=
  ∀ s : State,
    let readable := (s.vqp.chain.filter fun d => !d.flags.getLsbD 1).map fun d => (d.addr.toNat, d.len.toNat)
    let writable := (s.vqp.chain.filter fun d => d.flags.getLsbD 1).map fun d => (d.addr.toNat, d.len.toNat)
    let total (l : List (Nat × Nat)) : Nat := (l.map Prod.snd).sum
    let want := min (total readable) (32 + 16 * s.cfg.maxBackingEntries)
    let room := min (total writable) s.vqp.resp.length
    (s.vqp.phase = .gather → want ≤ s.vqp.req.length →
      vqpStep s = .next { s with vqp := { s.vqp with phase := .translate } }) ∧
    (s.vqp.phase = .gather → s.vqp.req.length < want →
      ∃ a, segAddr readable s.vqp.req.length = some a ∧
        (guestAdmits s.cfg a 1 = false → vqpStep s = .next s) ∧
        (guestAdmits s.cfg a 1 = true →
          vqpStep s = .next { s with vqp := { s.vqp with
            req := s.vqp.req ++ [guestByte s a]
            phase := if s.vqp.req.length + 1 < want then .gather else .translate } })) ∧
    (s.vqp.phase = .respond → room ≤ s.vqp.written →
      vqpStep s = .next { s with vqp := { s.vqp with phase := .usedElem } }) ∧
    (s.vqp.phase = .respond → s.vqp.written < room →
      ∃ a b, segAddr writable s.vqp.written = some a ∧ s.vqp.resp[s.vqp.written]? = some b ∧
        (guestAdmits s.cfg a 1 = false → vqpStep s = .next s) ∧
        (guestAdmits s.cfg a 1 = true →
          vqpStep s = .next { s with
            guest := storeBytes s.guest a [b]
            vqp := { s.vqp with
              written := s.vqp.written + 1
              phase := if s.vqp.written + 1 < room then .respond else .usedElem } }))

/-- Steps 9 to 11: the used element at the slot `used_idx mod num`, then the used index, then the interrupt
bit with one pulse, `last_avail`, and on to the next entry while the queue can be served (45_virtqueue.md
R309, R310, R311, R313). The used element is written in one access at a multiple of 8, and elsewhere byte by
byte (20_memory.md R77); that the bytes left are those of the first step is the model's choice (log 12). The
write of the used index stated is the one made in one access. -/
def Obligations.CompletionSteps : Prop :=
  ∀ (s : State) (q : Queue), q = getQueue s s.vqp.queue →
    (∀ a, s.vqp.phase = .usedElem → s.vqp.dma = [] → q.num ≠ 0 →
      a = q.deviceAddr.toNat + 4 + 8 * (q.usedIdx.toNat % q.num.toNat) →
      guestAdmits s.cfg a 8 = true → a % 8 = 0 →
      ∃ t, vqpStep s = .next t ∧
        { t with guest := s.guest } = { s with vqp := { s.vqp with phase := .usedIdx } } ∧
        ∀ b, guestByte t b =
          if a ≤ b ∧ b < a + 4 then BitVec.ofNat 8 (s.vqp.head.toNat / 256 ^ (b - a))
          else if a + 4 ≤ b ∧ b < a + 8 then BitVec.ofNat 8 (s.vqp.written / 256 ^ (b - a - 4))
          else guestByte s b) ∧
    (∀ a, s.vqp.phase = .usedElem → s.vqp.dma = [] → q.num ≠ 0 →
      a = q.deviceAddr.toNat + 4 + 8 * (q.usedIdx.toNat % q.num.toNat) →
      guestAdmits s.cfg a 8 = true → a % 8 ≠ 0 →
      ∃ t, vqpStep s = .next t ∧
        { t with guest := s.guest } = { s with vqp := { s.vqp with
          dma := [BitVec.ofNat 8 (s.vqp.head.toNat / 256), 0, 0, BitVec.ofNat 8 s.vqp.written,
            BitVec.ofNat 8 (s.vqp.written / 256), BitVec.ofNat 8 (s.vqp.written / 256 ^ 2),
            BitVec.ofNat 8 (s.vqp.written / 256 ^ 3)]
          dmaAddr := a + 1 } } ∧
        ∀ b, guestByte t b = if b = a then BitVec.ofNat 8 s.vqp.head.toNat else guestByte s b) ∧
    (∀ c cs, s.vqp.phase = .usedElem → s.vqp.dma = c :: cs →
      ∃ t, vqpStep s = .next t ∧
        { t with guest := s.guest } = { s with vqp := { s.vqp with
          phase := if cs = [] then .usedIdx else .usedElem
          dma := cs
          dmaAddr := if cs = [] then 0 else s.vqp.dmaAddr + 1 } } ∧
        ∀ b, guestByte t b = if b = s.vqp.dmaAddr then c else guestByte s b) ∧
    (s.vqp.phase = .usedIdx → s.vqp.dma = [] → guestAdmits s.cfg (q.deviceAddr.toNat + 2) 2 = true →
      q.deviceAddr.toNat % 2 = 0 →
      ∃ t, vqpStep s = .next t ∧
        { t with guest := s.guest } =
          setQueue s.vqp.queue { q with usedIdx := BitVec.ofNat 16 (q.usedIdx.toNat + 1) }
            { s with vqp := { s.vqp with phase := .notify } } ∧
        ∀ b, guestByte t b =
          if b = q.deviceAddr.toNat + 2 then BitVec.ofNat 8 (q.usedIdx.toNat + 1)
          else if b = q.deviceAddr.toNat + 3 then BitVec.ofNat 8 ((q.usedIdx.toNat + 1) / 256)
          else guestByte s b) ∧
    (s.vqp.phase = .notify →
      vqpStep s = .next (setQueue s.vqp.queue { q with lastAvail := BitVec.ofNat 16 (q.lastAvail.toNat + 1) }
        { s with
          vio := { s.vio with interruptStatus := s.vio.interruptStatus ||| 0x1 }
          out := s.out ++ [.vio]
          vqp := if serviceable s q then { Vqp.idle with phase := .readIdx, queue := s.vqp.queue }
            else Vqp.idle }))

/-- The arbiter and the translator's push: Acquire takes a free lock, a push appends the group's next word
while the FIFO has room and otherwise waits, Release frees the lock (41_fifo_decoder.md R172, R173); while
it is held every legacy push is refused. -/
def Obligations.ArbiterSteps : Prop :=
  ∀ s : State,
    (s.vqp.phase = .acquire → s.lock = .free →
      vqpStep s = .next { s with lock := .heldVirtio, vqp := { s.vqp with phase := .push } }) ∧
    (s.vqp.phase = .push → s.lock = .heldVirtio → ∀ w ws, s.vqp.group = w :: ws →
      (s.fifo.length < s.cfg.fifoDepth →
        vqpStep s = .next { s with
          fifo := s.fifo ++ [{ word := w, producer := .virtio }]
          vqp := { s.vqp with group := ws, phase := if ws = [] then .release else .push } }) ∧
      (s.cfg.fifoDepth ≤ s.fifo.length → vqpStep s = .next s)) ∧
    (s.vqp.phase = .release →
      vqpStep s = .next { s with lock := .free, vqp := { s.vqp with phase := .wait } }) ∧
    (s.lock = .heldVirtio → ∀ d, exec (.legWriteFifoPush d) s = .next { s with bus := .err .fifoFull })

/-- The staging copy, one byte a step: staged byte `copied` comes from the backing byte of its row and
column, goes to the packed image in the staging area, and taints every operation in flight
(46_gpu_translator.md R356); and where a backing byte lies (R357). -/
def Obligations.StagingCopy : Prop :=
  (∀ (s : State) (p : StagingPlan), s.vqp.phase = .stage → s.vqp.plan = some p →
    s.vqp.copied < p.height * (4 * p.width) → s.cfg.stagingBase + s.vqp.copied < s.cfg.vramSize →
    ∀ j c, j < p.height → c < 4 * p.width → s.vqp.copied = j * (4 * p.width) + c →
    ∀ a, segAddr (p.backing.map fun e => (e.addr.toNat, e.length.toNat)) (p.offset + j * p.stride + c) =
        some a →
      (guestAdmits s.cfg a 1 = false → vqpStep s = .next s) ∧
      (guestAdmits s.cfg a 1 = true → ∃ t, vqpStep s = .next t ∧
        { t with vram := s.vram } =
          { s with
            inflight := taintOps (s.cfg.stagingBase + s.vqp.copied) 1 s.inflight
            vqp := { s.vqp with
              copied := s.vqp.copied + 1
              phase := if s.vqp.copied + 1 < p.height * (4 * p.width) then .stage
                else if s.vqp.group = [] then .wait else .acquire } } ∧
        ∀ b, vramByte t b =
          if b = s.cfg.stagingBase + (j * (4 * p.width) + c) then guestByte s a else vramByte s b)) ∧
  (∀ (l : List (Nat × Nat)) (t : Nat),
    (t < (l.map Prod.snd).sum → ∃ e a n, l[e]? = some (a, n) ∧
      ((l.take e).map Prod.snd).sum ≤ t ∧ t < ((l.take (e + 1)).map Prod.snd).sum ∧
      segAddr l t = some (a + (t - ((l.take e).map Prod.snd).sum))) ∧
    ((l.map Prod.snd).sum ≤ t → segAddr l t = none))

/-! ### The translator -/

/-- What a translation leaves: the response, group and staging plan, and the phase that follows
(45_virtqueue.md R306); the response header mirrors the request's, missing bytes as 0 (46_gpu_translator.md
R344); GET_DISPLAY_INFO (R345), and the nine unsupported forms (R353), change nothing else. -/
def Obligations.TranslateOutcomes : Prop :=
  (∀ (resp : List Byte) (group : List Word64) (plan : Option StagingPlan) (s : State),
    finishTranslate resp group plan s =
      { s with vqp := { s.vqp with
          phase := if plan ≠ none then .stage else if group = [] then .wait else .acquire
          resp := resp
          group := group
          plan := plan
          copied := 0 } }) ∧
  (∀ (code : Nat) (bs : List Byte),
    hdrBytes code (decodeHdr bs) =
      leBytes 4 code ++ (bs.drop 4).take 20 ++ List.replicate (20 - (bs.length - 4)) 0) ∧
  (∀ (s : State) (h : CtrlHdr), ∃ modes : List Byte,
    exec (.cmdGetDisplayInfo h) s = .next (finishTranslate (hdrBytes 0x1101 h ++ modes) [] none s) ∧
    (hdrBytes 0x1101 h ++ modes).length = 408 ∧
    modes = leBytes 4 0 ++ leBytes 4 0 ++ leBytes 4 s.cfg.displayW ++ leBytes 4 s.cfg.displayH ++
      leBytes 4 1 ++ leBytes 4 0 ++ List.replicate (15 * 24) 0) ∧
  (∀ (s : State) (h : CtrlHdr) (low : BitVec 8),
    ∀ i ∈ [Instr.cmdGetCapsetInfo h, .cmdGetCapset h, .cmdGetEdid h, .cmdResourceAssignUuid h,
        .cmdResourceCreateBlob h, .cmdSetScanoutBlob h, .cmdUpdateCursor h, .cmdMoveCursor h,
        .cmd3dRange h low],
      exec i s = .next (finishTranslate (hdrBytes 0x1200 h) [] none s))

/-- Allocation is first fit over the multiples of ALLOC_ALIGN in the heap (46_gpu_translator.md R341), for
a table whose regions are not empty; RESOURCE_CREATE_2D: its checks in order with their answers, and the new
record (R346). -/
def Obligations.CreateResource : Prop :=
  (∀ (p : Params) (rs : List (Nat × Resource)) (size : Nat), 0 < p.allocAlign → 0 < size →
    (∀ r ∈ rs, 0 < r.2.size) →
    let fits (b : Nat) : Prop :=
      (∃ m, b = p.resHeapBase + m * p.allocAlign) ∧ b + size ≤ p.stagingBase ∧
        ∀ r ∈ rs, ∀ x, ¬((b ≤ x ∧ x < b + size) ∧ (r.2.base ≤ x ∧ x < r.2.base + r.2.size))
    (∀ b, allocRegion p rs size = some b ↔ fits b ∧ ∀ b' < b, ¬fits b') ∧
    (allocRegion p rs size = none ↔ ∀ b, ¬fits b)) ∧
  (∀ (s : State) (h : CtrlHdr) (id format width height : Word32),
    s.resources.length ≤ s.cfg.maxResources →
    let result := exec (.cmdResourceCreate2d h id format width height) s
    let answers (code : Nat) : Prop := result = .next (finishTranslate (hdrBytes code h) [] none s)
    let used := id = 0 ∨ (assocGet id.toNat s.resources).isSome = true
    let badFormat := format.toNat ∉ [1, 2, 3, 4, 67, 68, 121, 134]
    let badSize := width = 0 ∨ height = 0 ∨ s.cfg.maxResW < width.toNat ∨ s.cfg.maxResH < height.toNat
    let size := 4 * width.toNat * height.toNat
    (used → answers 0x1203) ∧
    (¬used → badFormat ∨ badSize → answers 0x1205) ∧
    (¬used → ¬badFormat → ¬badSize →
      s.resources.length = s.cfg.maxResources ∨ allocRegion s.cfg s.resources size = none →
      answers 0x1201) ∧
    (¬used → ¬badFormat → ¬badSize → s.resources.length < s.cfg.maxResources →
      ∀ b, allocRegion s.cfg s.resources size = some b →
      ∃ rs, result = .next (finishTranslate (hdrBytes 0x1100 h) [] none { s with resources := rs }) ∧
        assocGet id.toNat rs =
          some { format := format, width := width.toNat, height := height.toNat,
                 stride := 4 * width.toNat, base := b, size := size, backing := none } ∧
        ∀ k, k ≠ id.toNat → assocGet k rs = assocGet k s.resources))

/-- An id that is 0 or not mapped raises UNKNOWN_RESOURCE and is answered INVALID_RESOURCE_ID
(46_gpu_translator.md R342); RESOURCE_UNREF, ATTACH_BACKING and DETACH_BACKING of a mapped one (R347, R351,
R352). The table is in its canonical form. -/
def Obligations.ResourceCommands : Prop :=
  ∀ (s : State) (h : CtrlHdr) (id : Word32), keysRising s.resources = true →
    (id = 0 ∨ assocGet id.toNat s.resources = none →
      ∀ (r : Rect) (n : Word32) (es : List BackingEntry) (off : Word64),
        n.toNat ≤ s.cfg.maxBackingEntries → n.toNat ≤ es.length →
        ∀ i ∈ [Instr.cmdResourceUnref h id, .cmdResourceFlush h r id, .cmdTransferToHost2d h r off id,
            .cmdResourceAttachBacking h id n es, .cmdResourceDetachBacking h id] ++
            (if id = 0 then [] else [.cmdSetScanout h r 0 id]),
          exec i s = .next (finishTranslate (hdrBytes 0x1203 h) [] none
            { s with
              fault := true
              faultCode := if s.fault then s.faultCode else 0x05
              out := if s.irqEnable.getLsbD 1 then s.out ++ [.eng] else s.out })) ∧
    (∀ (n : Word32) (es : List BackingEntry),
      s.cfg.maxBackingEntries < n.toNat ∨ es.length < n.toNat →
      exec (.cmdResourceAttachBacking h id n es) s =
        .next (finishTranslate (hdrBytes 0x1200 h) [] none s)) ∧
    (∀ res, id ≠ 0 → assocGet id.toNat s.resources = some res →
      (∃ rs, exec (.cmdResourceUnref h id) s =
          .next (finishTranslate (hdrBytes 0x1100 h) [] none
            { s with
              resources := rs
              scanout := if s.scanout.enabled = true ∧ s.scanout.resourceId = id then
                  { enabled := false, resourceId := 0, rect := { x := 0, y := 0, width := 0, height := 0 },
                    base := 0, stride := 0 }
                else s.scanout }) ∧
        assocGet id.toNat rs = none ∧ ∀ k, k ≠ id.toNat → assocGet k rs = assocGet k s.resources) ∧
      (∀ (n : Word32) (es : List BackingEntry), n.toNat ≤ s.cfg.maxBackingEntries → n.toNat ≤ es.length →
        (res.backing ≠ none → exec (.cmdResourceAttachBacking h id n es) s =
          .next (finishTranslate (hdrBytes 0x1200 h) [] none s)) ∧
        (res.backing = none → ∃ rs, exec (.cmdResourceAttachBacking h id n es) s =
            .next (finishTranslate (hdrBytes 0x1100 h) [] none { s with resources := rs }) ∧
          assocGet id.toNat rs = some { res with backing := some es } ∧
          ∀ k, k ≠ id.toNat → assocGet k rs = assocGet k s.resources)) ∧
      (res.backing = none → exec (.cmdResourceDetachBacking h id) s =
        .next (finishTranslate (hdrBytes 0x1200 h) [] none s)) ∧
      (res.backing ≠ none → ∃ rs, exec (.cmdResourceDetachBacking h id) s =
          .next (finishTranslate (hdrBytes 0x1100 h) [] none { s with resources := rs }) ∧
        assocGet id.toNat rs = some { res with backing := none } ∧
        ∀ k, k ≠ id.toNat → assocGet k rs = assocGet k s.resources))

/-- SET_SCANOUT, RESOURCE_FLUSH and TRANSFER_TO_HOST_2D of a mapped resource: their checks in order, their
groups word by word, and the binding or staging plan they leave (46_gpu_translator.md R343, R348, R349,
R350, R354). -/
def Obligations.DisplayCommands : Prop :=
  (∀ (r : RegId) (v : Nat), v < 2 ^ 32 →
    (setWord r v).toNat = 0x10 * 2 ^ 56 + regNumber r * 2 ^ 48 + v) ∧
  blitWord = 0x2100000000000000 ∧
  ∀ (s : State) (h : CtrlHdr) (r : Rect) (id : Word32),
    let ok (group : List Word64) (plan : Option StagingPlan) (t : State) : Host.Outcome State Fault Refusal :=
      .next (finishTranslate (hdrBytes 0x1100 h) group plan t)
    let err (code : Nat) : Host.Outcome State Fault Refusal :=
      .next (finishTranslate (hdrBytes code h) [] none s)
    (∀ sc : Word32, sc ≠ 0 → exec (.cmdSetScanout h r sc id) s = err 0x1202) ∧
    (id = 0 → exec (.cmdSetScanout h r 0 id) s =
      ok [] none { s with scanout :=
        { enabled := false, resourceId := 0, rect := { x := 0, y := 0, width := 0, height := 0 },
          base := 0, stride := 0 } }) ∧
    ∀ res, id ≠ 0 → assocGet id.toNat s.resources = some res →
      let inside := r.x.toNat + r.width.toNat ≤ res.width ∧ r.y.toNat + r.height.toNat ≤ res.height
      let empty := r.width = 0 ∨ r.height = 0
      let a := res.base + r.y.toNat * res.stride + r.x.toNat * 4
      (empty ∨ ¬inside → exec (.cmdSetScanout h r 0 id) s = err 0x1205) ∧
      (¬empty → inside → exec (.cmdSetScanout h r 0 id) s =
        ok [setWord .fbAddr a, setWord .fbStride res.stride, setWord .pixelFmt 0] none
          { s with scanout := { enabled := true, resourceId := id, rect := r, base := a,
                                stride := res.stride } }) ∧
      (¬inside → exec (.cmdResourceFlush h r id) s = err 0x1205) ∧
      (∀ cw ch : Nat, cw = min (r.x.toNat + r.width.toNat) s.scanout.rect.width.toNat - r.x.toNat →
        ch = min (r.y.toNat + r.height.toNat) s.scanout.rect.height.toNat - r.y.toNat → inside →
        (s.scanout.enabled = false ∨ id = s.scanout.resourceId ∨ empty ∨ cw = 0 ∨ ch = 0 →
          exec (.cmdResourceFlush h r id) s = ok [] none s) ∧
        (¬(s.scanout.enabled = false ∨ id = s.scanout.resourceId ∨ empty ∨ cw = 0 ∨ ch = 0) →
          exec (.cmdResourceFlush h r id) s =
            ok [setWord .srcAddr a, setWord .srcStride res.stride, setWord .fbAddr s.scanout.base,
                setWord .fbStride s.scanout.stride, setWord .drawX r.x.toNat, setWord .drawY r.y.toNat,
                setWord .drawW cw, setWord .drawH ch, setWord .alphaMode 0, setWord .pixelFmt 0, blitWord]
              none s)) ∧
      (∀ off : Word64,
        (res.backing = none → exec (.cmdTransferToHost2d h r off id) s = err 0x1200) ∧
        ∀ backing, res.backing = some backing →
          let short := (backing.map fun e => e.length.toNat).sum <
            off.toNat + (r.height.toNat - 1) * res.stride + 4 * r.width.toNat
          (¬inside → exec (.cmdTransferToHost2d h r off id) s = err 0x1205) ∧
          (inside → empty → exec (.cmdTransferToHost2d h r off id) s = ok [] none s) ∧
          (inside → ¬empty → short → exec (.cmdTransferToHost2d h r off id) s = err 0x1205) ∧
          (inside → ¬empty → ¬short → exec (.cmdTransferToHost2d h r off id) s =
            ok ([setWord .srcAddr s.cfg.stagingBase, setWord .srcStride (4 * r.width.toNat),
                setWord .fbAddr res.base, setWord .fbStride res.stride, setWord .drawX r.x.toNat,
                setWord .drawY r.y.toNat, setWord .drawW r.width.toNat, setWord .drawH r.height.toNat,
                setWord .alphaMode 0, setWord .pixelFmt 0, blitWord] ++
                (if s.scanout.enabled = true then
                  [setWord .fbAddr s.scanout.base, setWord .fbStride s.scanout.stride] else []))
              (some { backing := backing, stride := res.stride, width := r.width.toNat,
                      height := r.height.toNat, offset := off.toNat }) s))

/-- Every value the translator puts in a SET word fits the register's width, so Parse masks none
(46_gpu_translator.md R354), in states that keep the translator's invariant. It rests on the bound
MAX_RES_H <= 0xFFFF of `Params.ok`, which is the model's choice: R7 does not give it, and log 17 takes it
from R354 itself. -/
def Obligations.GroupWordsFit : Prop :=
  ∀ (i : Instr) (s t : State), s.cfg.ok = true → translatorOk s = true → source i = .request →
    exec i s = .next t → ∀ w ∈ t.vqp.group,
      w = blitWord ∨ ∃ (r : RegId) (v : Nat), v < 2 ^ regWidth r ∧ w = setWord r v
end

