-- ==== Sys2Proof/Laws/Codec.lean ====
section
/-! SUPPORT. Byte order: what a field of a byte string is when the string is written field by field. -/
namespace Sys2Proof

@[simp] theorem leBytes_length (n v : Nat) : (leBytes n v).length = n := by
  induction n generalizing v with
  | zero => rfl
  | succ n ih => simp [leBytes, ih]

/-- Reading back what was written gives the value at its width. -/
theorem leNat_leBytes (n v : Nat) : leNat (leBytes n v) = v % 256 ^ n := by
  induction n generalizing v with
  | zero => simp [leBytes, leNat, Nat.mod_one]
  | succ n ih =>
    rw [Nat.pow_succ, Nat.mul_comm, Nat.mod_mul]
    simp only [leBytes, leNat, ih, BitVec.toNat_ofNat, Nat.reducePow]

theorem leNat_lt (bs : List Byte) : leNat bs < 256 ^ bs.length := by
  induction bs with
  | nil => simp [leNat]
  | cons b bs ih =>
    have hb := b.isLt
    simp only [leNat, List.length_cons, Nat.pow_succ]
    omega

/-- The bytes of the value of a byte string are the string. -/
theorem leBytes_leNat (bs : List Byte) : leBytes bs.length (leNat bs) = bs := by
  induction bs with
  | nil => rfl
  | cons b bs ih =>
    have hb := b.isLt
    have h1 : (b.toNat + 256 * leNat bs) / 256 = leNat bs := by omega
    have h2 : BitVec.ofNat 8 (b.toNat + 256 * leNat bs) = b := by
      apply BitVec.eq_of_toNat_eq; simp only [BitVec.toNat_ofNat]; omega
    simp only [List.length_cons, leNat, leBytes, h1, h2, ih]

/-- A field written first. -/
theorem leField_here (n v : Nat) (b : List Byte) : leField (leBytes n v ++ b) 0 n = v % 256 ^ n := by
  unfold leField
  rw [List.drop_zero, List.take_append_of_le_length (by simp), List.take_of_length_le (by simp),
    leNat_leBytes]

/-- A field written last. -/
theorem leField_last (n v : Nat) : leField (leBytes n v) 0 n = v % 256 ^ n := by
  simpa using leField_here n v []

/-- A field behind another. -/
theorem leField_skip (k v : Nat) (b : List Byte) (off n : Nat) (h : k ≤ off) :
    leField (leBytes k v ++ b) off n = leField b (off - k) n := by
  simp [leField, List.drop_append, h, List.drop_of_length_le]

/-- A value at its own width. -/
theorem ofNat_toNat_mod {w : Nat} (x : BitVec w) (m : Nat) (h : m = 2 ^ w) :
    BitVec.ofNat w (x.toNat % m) = x := by
  subst h
  rw [Nat.mod_eq_of_lt x.isLt, BitVec.ofNat_toNat, BitVec.setWidth_eq]

@[simp] theorem hdrBytes_length (t : Nat) (h : CtrlHdr) : (hdrBytes t h).length = 24 := by
  simp [hdrBytes]

@[simp] theorem rectBytes_length (r : Rect) : (rectBytes r).length = 16 := by simp [rectBytes]

@[simp] theorem entriesBytes_length (es : List BackingEntry) :
    (entriesBytes es).length = 16 * es.length := by
  induction es with
  | nil => rfl
  | cons e es ih => simp only [entriesBytes, List.length_append, leBytes_length, ih, List.length_cons]; omega

/-- The type field of a written request. -/
theorem leField_type (t : Nat) (h : CtrlHdr) (b : List Byte) (ht : t < 2 ^ 32) :
    leField (hdrBytes t h ++ b) 0 4 = t := by
  simp only [hdrBytes, List.append_assoc, leField_here]
  exact Nat.mod_eq_of_lt ht

/-- The header of a written request. -/
theorem decodeHdr_hdrBytes (t : Nat) (h : CtrlHdr) (b : List Byte) :
    decodeHdr (hdrBytes t h ++ b) = h := by
  simp (disch := decide) only [decodeHdr, le32, le64, hdrBytes, List.append_assoc, leField_skip,
    leField_here, Nat.reduceSub, ofNat_toNat_mod]

/-- A field of a written request behind its header. -/
theorem leField_body (t : Nat) (h : CtrlHdr) (b : List Byte) (off n : Nat) (ho : 24 ≤ off) :
    leField (hdrBytes t h ++ b) off n = leField b (off - 24) n := by
  simp [leField, List.drop_append, ho, List.drop_of_length_le]

/-- The entries of a written attach request. -/
theorem decodeEntries_entriesBytes (es : List BackingEntry) (k n : Nat) (hk : es.length ≤ k)
    (hn : es.length ≤ n) : decodeEntries k n (entriesBytes es) = es := by
  induction es generalizing k n with
  | nil => cases k <;> cases n <;> simp [decodeEntries, entriesBytes]
  | cons e es ih =>
    obtain ⟨k, rfl⟩ : ∃ j, k = j + 1 := ⟨k - 1, by simp at hk; omega⟩
    obtain ⟨n, rfl⟩ : ∃ j, n = j + 1 := ⟨n - 1, by simp at hn; omega⟩
    have hl : ¬ (entriesBytes (e :: es)).length < 16 := by simp
    have hd : (entriesBytes (e :: es)).drop 16 = entriesBytes es := by
      simp [entriesBytes, List.drop_append, List.drop_of_length_le]
    simp only [decodeEntries, if_neg hl, hd, ih k n (by simpa using hk) (by simpa using hn)]
    simp (disch := decide) only [le64, le32, entriesBytes, leField_skip, leField_here,
      Nat.reduceSub, ofNat_toNat_mod]

end Sys2Proof
end

