-- ==== Sys2Proof/Laws/State.lean ====
section
/-! SUPPORT. What each named update does to each field of State: one lemma a field, so that no proof
unfolds a record update. -/
namespace Sys2Proof.Machine

@[simp] theorem respond_cfg (r : BusResponse) (s : State) : (respond r s).cfg = s.cfg := rfl
@[simp] theorem respond_regs (r : BusResponse) (s : State) : (respond r s).regs = s.regs := rfl
@[simp] theorem respond_done (r : BusResponse) (s : State) : (respond r s).done = s.done := rfl
@[simp] theorem respond_fault (r : BusResponse) (s : State) : (respond r s).fault = s.fault := rfl
@[simp] theorem respond_faultCode (r : BusResponse) (s : State) : (respond r s).faultCode = s.faultCode := rfl
@[simp] theorem respond_irqEnable (r : BusResponse) (s : State) : (respond r s).irqEnable = s.irqEnable := rfl
@[simp] theorem respond_loLatch (r : BusResponse) (s : State) : (respond r s).loLatch = s.loLatch := rfl
@[simp] theorem respond_vqFaultCount (r : BusResponse) (s : State) : (respond r s).vqFaultCount = s.vqFaultCount := rfl
@[simp] theorem respond_fifo (r : BusResponse) (s : State) : (respond r s).fifo = s.fifo := rfl
@[simp] theorem respond_lock (r : BusResponse) (s : State) : (respond r s).lock = s.lock := rfl
@[simp] theorem respond_inflight (r : BusResponse) (s : State) : (respond r s).inflight = s.inflight := rfl
@[simp] theorem respond_vram (r : BusResponse) (s : State) : (respond r s).vram = s.vram := rfl
@[simp] theorem respond_vio (r : BusResponse) (s : State) : (respond r s).vio = s.vio := rfl
@[simp] theorem respond_q0 (r : BusResponse) (s : State) : (respond r s).q0 = s.q0 := rfl
@[simp] theorem respond_q1 (r : BusResponse) (s : State) : (respond r s).q1 = s.q1 := rfl
@[simp] theorem respond_vqp (r : BusResponse) (s : State) : (respond r s).vqp = s.vqp := rfl
@[simp] theorem respond_resources (r : BusResponse) (s : State) : (respond r s).resources = s.resources := rfl
@[simp] theorem respond_scanout (r : BusResponse) (s : State) : (respond r s).scanout = s.scanout := rfl
@[simp] theorem respond_out (r : BusResponse) (s : State) : (respond r s).out = s.out := rfl
@[simp] theorem respond_guest (r : BusResponse) (s : State) : (respond r s).guest = s.guest := rfl
@[simp] theorem respond_hostOps (r : BusResponse) (s : State) : (respond r s).hostOps = s.hostOps := rfl
@[simp] theorem respond_bus (r : BusResponse) (s : State) : (respond r s).bus = r := rfl
@[simp] theorem respond_hostRead (r : BusResponse) (s : State) : (respond r s).hostRead = s.hostRead := rfl
@[simp] theorem respond_display (r : BusResponse) (s : State) : (respond r s).display = s.display := rfl
@[simp] theorem respond_sched (r : BusResponse) (s : State) : (respond r s).sched = s.sched := rfl
@[simp] theorem respond_tick (r : BusResponse) (s : State) : (respond r s).tick = s.tick := rfl
@[simp] theorem respond_draws (r : BusResponse) (s : State) : (respond r s).draws = s.draws := rfl
@[simp] theorem respond_epoch (r : BusResponse) (s : State) : (respond r s).epoch = s.epoch := rfl

@[simp] theorem emit_cfg (l : IrqLine) (s : State) : (emit l s).cfg = s.cfg := rfl
@[simp] theorem emit_regs (l : IrqLine) (s : State) : (emit l s).regs = s.regs := rfl
@[simp] theorem emit_done (l : IrqLine) (s : State) : (emit l s).done = s.done := rfl
@[simp] theorem emit_fault (l : IrqLine) (s : State) : (emit l s).fault = s.fault := rfl
@[simp] theorem emit_faultCode (l : IrqLine) (s : State) : (emit l s).faultCode = s.faultCode := rfl
@[simp] theorem emit_irqEnable (l : IrqLine) (s : State) : (emit l s).irqEnable = s.irqEnable := rfl
@[simp] theorem emit_loLatch (l : IrqLine) (s : State) : (emit l s).loLatch = s.loLatch := rfl
@[simp] theorem emit_vqFaultCount (l : IrqLine) (s : State) : (emit l s).vqFaultCount = s.vqFaultCount := rfl
@[simp] theorem emit_fifo (l : IrqLine) (s : State) : (emit l s).fifo = s.fifo := rfl
@[simp] theorem emit_lock (l : IrqLine) (s : State) : (emit l s).lock = s.lock := rfl
@[simp] theorem emit_inflight (l : IrqLine) (s : State) : (emit l s).inflight = s.inflight := rfl
@[simp] theorem emit_vram (l : IrqLine) (s : State) : (emit l s).vram = s.vram := rfl
@[simp] theorem emit_vio (l : IrqLine) (s : State) : (emit l s).vio = s.vio := rfl
@[simp] theorem emit_q0 (l : IrqLine) (s : State) : (emit l s).q0 = s.q0 := rfl
@[simp] theorem emit_q1 (l : IrqLine) (s : State) : (emit l s).q1 = s.q1 := rfl
@[simp] theorem emit_vqp (l : IrqLine) (s : State) : (emit l s).vqp = s.vqp := rfl
@[simp] theorem emit_resources (l : IrqLine) (s : State) : (emit l s).resources = s.resources := rfl
@[simp] theorem emit_scanout (l : IrqLine) (s : State) : (emit l s).scanout = s.scanout := rfl
@[simp] theorem emit_out (l : IrqLine) (s : State) : (emit l s).out = s.out ++ [l] := rfl
@[simp] theorem emit_guest (l : IrqLine) (s : State) : (emit l s).guest = s.guest := rfl
@[simp] theorem emit_hostOps (l : IrqLine) (s : State) : (emit l s).hostOps = s.hostOps := rfl
@[simp] theorem emit_bus (l : IrqLine) (s : State) : (emit l s).bus = s.bus := rfl
@[simp] theorem emit_hostRead (l : IrqLine) (s : State) : (emit l s).hostRead = s.hostRead := rfl
@[simp] theorem emit_display (l : IrqLine) (s : State) : (emit l s).display = s.display := rfl
@[simp] theorem emit_sched (l : IrqLine) (s : State) : (emit l s).sched = s.sched := rfl
@[simp] theorem emit_tick (l : IrqLine) (s : State) : (emit l s).tick = s.tick := rfl
@[simp] theorem emit_draws (l : IrqLine) (s : State) : (emit l s).draws = s.draws := rfl
@[simp] theorem emit_epoch (l : IrqLine) (s : State) : (emit l s).epoch = s.epoch := rfl

@[simp] theorem raiseFault_cfg (c : BitVec 8) (s : State) : (raiseFault c s).cfg = s.cfg := rfl
@[simp] theorem raiseFault_regs (c : BitVec 8) (s : State) : (raiseFault c s).regs = s.regs := rfl
@[simp] theorem raiseFault_done (c : BitVec 8) (s : State) : (raiseFault c s).done = s.done := rfl
@[simp] theorem raiseFault_fault (c : BitVec 8) (s : State) : (raiseFault c s).fault = true := rfl
@[simp] theorem raiseFault_faultCode (c : BitVec 8) (s : State) : (raiseFault c s).faultCode = if s.fault then s.faultCode else c := rfl
@[simp] theorem raiseFault_irqEnable (c : BitVec 8) (s : State) : (raiseFault c s).irqEnable = s.irqEnable := rfl
@[simp] theorem raiseFault_loLatch (c : BitVec 8) (s : State) : (raiseFault c s).loLatch = s.loLatch := rfl
@[simp] theorem raiseFault_vqFaultCount (c : BitVec 8) (s : State) : (raiseFault c s).vqFaultCount = s.vqFaultCount := rfl
@[simp] theorem raiseFault_fifo (c : BitVec 8) (s : State) : (raiseFault c s).fifo = s.fifo := rfl
@[simp] theorem raiseFault_lock (c : BitVec 8) (s : State) : (raiseFault c s).lock = s.lock := rfl
@[simp] theorem raiseFault_inflight (c : BitVec 8) (s : State) : (raiseFault c s).inflight = s.inflight := rfl
@[simp] theorem raiseFault_vram (c : BitVec 8) (s : State) : (raiseFault c s).vram = s.vram := rfl
@[simp] theorem raiseFault_vio (c : BitVec 8) (s : State) : (raiseFault c s).vio = s.vio := rfl
@[simp] theorem raiseFault_q0 (c : BitVec 8) (s : State) : (raiseFault c s).q0 = s.q0 := rfl
@[simp] theorem raiseFault_q1 (c : BitVec 8) (s : State) : (raiseFault c s).q1 = s.q1 := rfl
@[simp] theorem raiseFault_vqp (c : BitVec 8) (s : State) : (raiseFault c s).vqp = s.vqp := rfl
@[simp] theorem raiseFault_resources (c : BitVec 8) (s : State) : (raiseFault c s).resources = s.resources := rfl
@[simp] theorem raiseFault_scanout (c : BitVec 8) (s : State) : (raiseFault c s).scanout = s.scanout := rfl
@[simp] theorem raiseFault_out (c : BitVec 8) (s : State) : (raiseFault c s).out = if faultIe s then s.out ++ [.eng] else s.out := rfl
@[simp] theorem raiseFault_guest (c : BitVec 8) (s : State) : (raiseFault c s).guest = s.guest := rfl
@[simp] theorem raiseFault_hostOps (c : BitVec 8) (s : State) : (raiseFault c s).hostOps = s.hostOps := rfl
@[simp] theorem raiseFault_bus (c : BitVec 8) (s : State) : (raiseFault c s).bus = s.bus := rfl
@[simp] theorem raiseFault_hostRead (c : BitVec 8) (s : State) : (raiseFault c s).hostRead = s.hostRead := rfl
@[simp] theorem raiseFault_display (c : BitVec 8) (s : State) : (raiseFault c s).display = s.display := rfl
@[simp] theorem raiseFault_sched (c : BitVec 8) (s : State) : (raiseFault c s).sched = s.sched := rfl
@[simp] theorem raiseFault_tick (c : BitVec 8) (s : State) : (raiseFault c s).tick = s.tick := rfl
@[simp] theorem raiseFault_draws (c : BitVec 8) (s : State) : (raiseFault c s).draws = s.draws := rfl
@[simp] theorem raiseFault_epoch (c : BitVec 8) (s : State) : (raiseFault c s).epoch = s.epoch := rfl

@[simp] theorem clearFault_cfg (s : State) : (clearFault s).cfg = s.cfg := rfl
@[simp] theorem clearFault_regs (s : State) : (clearFault s).regs = s.regs := rfl
@[simp] theorem clearFault_done (s : State) : (clearFault s).done = s.done := rfl
@[simp] theorem clearFault_fault (s : State) : (clearFault s).fault = false := rfl
@[simp] theorem clearFault_faultCode (s : State) : (clearFault s).faultCode = 0 := rfl
@[simp] theorem clearFault_irqEnable (s : State) : (clearFault s).irqEnable = s.irqEnable := rfl
@[simp] theorem clearFault_loLatch (s : State) : (clearFault s).loLatch = s.loLatch := rfl
@[simp] theorem clearFault_vqFaultCount (s : State) : (clearFault s).vqFaultCount = s.vqFaultCount := rfl
@[simp] theorem clearFault_fifo (s : State) : (clearFault s).fifo = s.fifo := rfl
@[simp] theorem clearFault_lock (s : State) : (clearFault s).lock = s.lock := rfl
@[simp] theorem clearFault_inflight (s : State) : (clearFault s).inflight = s.inflight := rfl
@[simp] theorem clearFault_vram (s : State) : (clearFault s).vram = s.vram := rfl
@[simp] theorem clearFault_vio (s : State) : (clearFault s).vio = s.vio := rfl
@[simp] theorem clearFault_q0 (s : State) : (clearFault s).q0 = s.q0 := rfl
@[simp] theorem clearFault_q1 (s : State) : (clearFault s).q1 = s.q1 := rfl
@[simp] theorem clearFault_vqp (s : State) : (clearFault s).vqp = s.vqp := rfl
@[simp] theorem clearFault_resources (s : State) : (clearFault s).resources = s.resources := rfl
@[simp] theorem clearFault_scanout (s : State) : (clearFault s).scanout = s.scanout := rfl
@[simp] theorem clearFault_out (s : State) : (clearFault s).out = s.out := rfl
@[simp] theorem clearFault_guest (s : State) : (clearFault s).guest = s.guest := rfl
@[simp] theorem clearFault_hostOps (s : State) : (clearFault s).hostOps = s.hostOps := rfl
@[simp] theorem clearFault_bus (s : State) : (clearFault s).bus = s.bus := rfl
@[simp] theorem clearFault_hostRead (s : State) : (clearFault s).hostRead = s.hostRead := rfl
@[simp] theorem clearFault_display (s : State) : (clearFault s).display = s.display := rfl
@[simp] theorem clearFault_sched (s : State) : (clearFault s).sched = s.sched := rfl
@[simp] theorem clearFault_tick (s : State) : (clearFault s).tick = s.tick := rfl
@[simp] theorem clearFault_draws (s : State) : (clearFault s).draws = s.draws := rfl
@[simp] theorem clearFault_epoch (s : State) : (clearFault s).epoch = s.epoch := rfl

@[simp] theorem setDone_cfg (s : State) : (setDone s).cfg = s.cfg := rfl
@[simp] theorem setDone_regs (s : State) : (setDone s).regs = s.regs := rfl
@[simp] theorem setDone_done (s : State) : (setDone s).done = true := rfl
@[simp] theorem setDone_fault (s : State) : (setDone s).fault = s.fault := rfl
@[simp] theorem setDone_faultCode (s : State) : (setDone s).faultCode = s.faultCode := rfl
@[simp] theorem setDone_irqEnable (s : State) : (setDone s).irqEnable = s.irqEnable := rfl
@[simp] theorem setDone_loLatch (s : State) : (setDone s).loLatch = s.loLatch := rfl
@[simp] theorem setDone_vqFaultCount (s : State) : (setDone s).vqFaultCount = s.vqFaultCount := rfl
@[simp] theorem setDone_fifo (s : State) : (setDone s).fifo = s.fifo := rfl
@[simp] theorem setDone_lock (s : State) : (setDone s).lock = s.lock := rfl
@[simp] theorem setDone_inflight (s : State) : (setDone s).inflight = s.inflight := rfl
@[simp] theorem setDone_vram (s : State) : (setDone s).vram = s.vram := rfl
@[simp] theorem setDone_vio (s : State) : (setDone s).vio = s.vio := rfl
@[simp] theorem setDone_q0 (s : State) : (setDone s).q0 = s.q0 := rfl
@[simp] theorem setDone_q1 (s : State) : (setDone s).q1 = s.q1 := rfl
@[simp] theorem setDone_vqp (s : State) : (setDone s).vqp = s.vqp := rfl
@[simp] theorem setDone_resources (s : State) : (setDone s).resources = s.resources := rfl
@[simp] theorem setDone_scanout (s : State) : (setDone s).scanout = s.scanout := rfl
@[simp] theorem setDone_out (s : State) : (setDone s).out = if doneIe s then s.out ++ [.eng] else s.out := rfl
@[simp] theorem setDone_guest (s : State) : (setDone s).guest = s.guest := rfl
@[simp] theorem setDone_hostOps (s : State) : (setDone s).hostOps = s.hostOps := rfl
@[simp] theorem setDone_bus (s : State) : (setDone s).bus = s.bus := rfl
@[simp] theorem setDone_hostRead (s : State) : (setDone s).hostRead = s.hostRead := rfl
@[simp] theorem setDone_display (s : State) : (setDone s).display = s.display := rfl
@[simp] theorem setDone_sched (s : State) : (setDone s).sched = s.sched := rfl
@[simp] theorem setDone_tick (s : State) : (setDone s).tick = s.tick := rfl
@[simp] theorem setDone_draws (s : State) : (setDone s).draws = s.draws := rfl
@[simp] theorem setDone_epoch (s : State) : (setDone s).epoch = s.epoch := rfl

@[simp] theorem deviceError_cfg (s : State) : (deviceError s).cfg = s.cfg := rfl
@[simp] theorem deviceError_regs (s : State) : (deviceError s).regs = s.regs := rfl
@[simp] theorem deviceError_done (s : State) : (deviceError s).done = s.done := rfl
@[simp] theorem deviceError_fault (s : State) : (deviceError s).fault = s.fault := rfl
@[simp] theorem deviceError_faultCode (s : State) : (deviceError s).faultCode = s.faultCode := rfl
@[simp] theorem deviceError_irqEnable (s : State) : (deviceError s).irqEnable = s.irqEnable := rfl
@[simp] theorem deviceError_loLatch (s : State) : (deviceError s).loLatch = s.loLatch := rfl
@[simp] theorem deviceError_vqFaultCount (s : State) : (deviceError s).vqFaultCount = s.vqFaultCount := rfl
@[simp] theorem deviceError_fifo (s : State) : (deviceError s).fifo = s.fifo := rfl
@[simp] theorem deviceError_lock (s : State) : (deviceError s).lock = s.lock := rfl
@[simp] theorem deviceError_inflight (s : State) : (deviceError s).inflight = s.inflight := rfl
@[simp] theorem deviceError_vram (s : State) : (deviceError s).vram = s.vram := rfl
@[simp] theorem deviceError_vio (s : State) : (deviceError s).vio = { s.vio with status := s.vio.status ||| statusNeedsReset, interruptStatus := s.vio.interruptStatus ||| 0x2 } := rfl
@[simp] theorem deviceError_q0 (s : State) : (deviceError s).q0 = s.q0 := rfl
@[simp] theorem deviceError_q1 (s : State) : (deviceError s).q1 = s.q1 := rfl
@[simp] theorem deviceError_vqp (s : State) : (deviceError s).vqp = s.vqp := rfl
@[simp] theorem deviceError_resources (s : State) : (deviceError s).resources = s.resources := rfl
@[simp] theorem deviceError_scanout (s : State) : (deviceError s).scanout = s.scanout := rfl
@[simp] theorem deviceError_out (s : State) : (deviceError s).out = s.out ++ [.vio] := rfl
@[simp] theorem deviceError_guest (s : State) : (deviceError s).guest = s.guest := rfl
@[simp] theorem deviceError_hostOps (s : State) : (deviceError s).hostOps = s.hostOps := rfl
@[simp] theorem deviceError_bus (s : State) : (deviceError s).bus = s.bus := rfl
@[simp] theorem deviceError_hostRead (s : State) : (deviceError s).hostRead = s.hostRead := rfl
@[simp] theorem deviceError_display (s : State) : (deviceError s).display = s.display := rfl
@[simp] theorem deviceError_sched (s : State) : (deviceError s).sched = s.sched := rfl
@[simp] theorem deviceError_tick (s : State) : (deviceError s).tick = s.tick := rfl
@[simp] theorem deviceError_draws (s : State) : (deviceError s).draws = s.draws := rfl
@[simp] theorem deviceError_epoch (s : State) : (deviceError s).epoch = s.epoch := rfl

@[simp] theorem popFifo_cfg (s : State) : (popFifo s).cfg = s.cfg := rfl
@[simp] theorem popFifo_regs (s : State) : (popFifo s).regs = s.regs := rfl
@[simp] theorem popFifo_done (s : State) : (popFifo s).done = s.done := rfl
@[simp] theorem popFifo_fault (s : State) : (popFifo s).fault = s.fault := rfl
@[simp] theorem popFifo_faultCode (s : State) : (popFifo s).faultCode = s.faultCode := rfl
@[simp] theorem popFifo_irqEnable (s : State) : (popFifo s).irqEnable = s.irqEnable := rfl
@[simp] theorem popFifo_loLatch (s : State) : (popFifo s).loLatch = s.loLatch := rfl
@[simp] theorem popFifo_vqFaultCount (s : State) : (popFifo s).vqFaultCount = s.vqFaultCount := rfl
@[simp] theorem popFifo_fifo (s : State) : (popFifo s).fifo = s.fifo.tail := rfl
@[simp] theorem popFifo_lock (s : State) : (popFifo s).lock = s.lock := rfl
@[simp] theorem popFifo_inflight (s : State) : (popFifo s).inflight = s.inflight := rfl
@[simp] theorem popFifo_vram (s : State) : (popFifo s).vram = s.vram := rfl
@[simp] theorem popFifo_vio (s : State) : (popFifo s).vio = s.vio := rfl
@[simp] theorem popFifo_q0 (s : State) : (popFifo s).q0 = s.q0 := rfl
@[simp] theorem popFifo_q1 (s : State) : (popFifo s).q1 = s.q1 := rfl
@[simp] theorem popFifo_vqp (s : State) : (popFifo s).vqp = s.vqp := rfl
@[simp] theorem popFifo_resources (s : State) : (popFifo s).resources = s.resources := rfl
@[simp] theorem popFifo_scanout (s : State) : (popFifo s).scanout = s.scanout := rfl
@[simp] theorem popFifo_out (s : State) : (popFifo s).out = s.out := rfl
@[simp] theorem popFifo_guest (s : State) : (popFifo s).guest = s.guest := rfl
@[simp] theorem popFifo_hostOps (s : State) : (popFifo s).hostOps = s.hostOps := rfl
@[simp] theorem popFifo_bus (s : State) : (popFifo s).bus = s.bus := rfl
@[simp] theorem popFifo_hostRead (s : State) : (popFifo s).hostRead = s.hostRead := rfl
@[simp] theorem popFifo_display (s : State) : (popFifo s).display = s.display := rfl
@[simp] theorem popFifo_sched (s : State) : (popFifo s).sched = s.sched := rfl
@[simp] theorem popFifo_tick (s : State) : (popFifo s).tick = s.tick := rfl
@[simp] theorem popFifo_draws (s : State) : (popFifo s).draws = s.draws := rfl
@[simp] theorem popFifo_epoch (s : State) : (popFifo s).epoch = s.epoch := rfl

@[simp] theorem pushFifo_cfg (w : Word64) (p : Producer) (s : State) : (pushFifo w p s).cfg = s.cfg := rfl
@[simp] theorem pushFifo_regs (w : Word64) (p : Producer) (s : State) : (pushFifo w p s).regs = s.regs := rfl
@[simp] theorem pushFifo_done (w : Word64) (p : Producer) (s : State) : (pushFifo w p s).done = s.done := rfl
@[simp] theorem pushFifo_fault (w : Word64) (p : Producer) (s : State) : (pushFifo w p s).fault = s.fault := rfl
@[simp] theorem pushFifo_faultCode (w : Word64) (p : Producer) (s : State) : (pushFifo w p s).faultCode = s.faultCode := rfl
@[simp] theorem pushFifo_irqEnable (w : Word64) (p : Producer) (s : State) : (pushFifo w p s).irqEnable = s.irqEnable := rfl
@[simp] theorem pushFifo_loLatch (w : Word64) (p : Producer) (s : State) : (pushFifo w p s).loLatch = s.loLatch := rfl
@[simp] theorem pushFifo_vqFaultCount (w : Word64) (p : Producer) (s : State) : (pushFifo w p s).vqFaultCount = s.vqFaultCount := rfl
@[simp] theorem pushFifo_fifo (w : Word64) (p : Producer) (s : State) : (pushFifo w p s).fifo = s.fifo ++ [{ word := w, producer := p }] := rfl
@[simp] theorem pushFifo_lock (w : Word64) (p : Producer) (s : State) : (pushFifo w p s).lock = s.lock := rfl
@[simp] theorem pushFifo_inflight (w : Word64) (p : Producer) (s : State) : (pushFifo w p s).inflight = s.inflight := rfl
@[simp] theorem pushFifo_vram (w : Word64) (p : Producer) (s : State) : (pushFifo w p s).vram = s.vram := rfl
@[simp] theorem pushFifo_vio (w : Word64) (p : Producer) (s : State) : (pushFifo w p s).vio = s.vio := rfl
@[simp] theorem pushFifo_q0 (w : Word64) (p : Producer) (s : State) : (pushFifo w p s).q0 = s.q0 := rfl
@[simp] theorem pushFifo_q1 (w : Word64) (p : Producer) (s : State) : (pushFifo w p s).q1 = s.q1 := rfl
@[simp] theorem pushFifo_vqp (w : Word64) (p : Producer) (s : State) : (pushFifo w p s).vqp = s.vqp := rfl
@[simp] theorem pushFifo_resources (w : Word64) (p : Producer) (s : State) : (pushFifo w p s).resources = s.resources := rfl
@[simp] theorem pushFifo_scanout (w : Word64) (p : Producer) (s : State) : (pushFifo w p s).scanout = s.scanout := rfl
@[simp] theorem pushFifo_out (w : Word64) (p : Producer) (s : State) : (pushFifo w p s).out = s.out := rfl
@[simp] theorem pushFifo_guest (w : Word64) (p : Producer) (s : State) : (pushFifo w p s).guest = s.guest := rfl
@[simp] theorem pushFifo_hostOps (w : Word64) (p : Producer) (s : State) : (pushFifo w p s).hostOps = s.hostOps := rfl
@[simp] theorem pushFifo_bus (w : Word64) (p : Producer) (s : State) : (pushFifo w p s).bus = s.bus := rfl
@[simp] theorem pushFifo_hostRead (w : Word64) (p : Producer) (s : State) : (pushFifo w p s).hostRead = s.hostRead := rfl
@[simp] theorem pushFifo_display (w : Word64) (p : Producer) (s : State) : (pushFifo w p s).display = s.display := rfl
@[simp] theorem pushFifo_sched (w : Word64) (p : Producer) (s : State) : (pushFifo w p s).sched = s.sched := rfl
@[simp] theorem pushFifo_tick (w : Word64) (p : Producer) (s : State) : (pushFifo w p s).tick = s.tick := rfl
@[simp] theorem pushFifo_draws (w : Word64) (p : Producer) (s : State) : (pushFifo w p s).draws = s.draws := rfl
@[simp] theorem pushFifo_epoch (w : Word64) (p : Producer) (s : State) : (pushFifo w p s).epoch = s.epoch := rfl

@[simp] theorem startOperation_cfg (k : OpKind) (p : Producer) (g : Regs) (s : State) : (startOperation k p g s).cfg = s.cfg := rfl
@[simp] theorem startOperation_regs (k : OpKind) (p : Producer) (g : Regs) (s : State) : (startOperation k p g s).regs = s.regs := rfl
@[simp] theorem startOperation_done (k : OpKind) (p : Producer) (g : Regs) (s : State) : (startOperation k p g s).done = s.done := rfl
@[simp] theorem startOperation_fault (k : OpKind) (p : Producer) (g : Regs) (s : State) : (startOperation k p g s).fault = s.fault := rfl
@[simp] theorem startOperation_faultCode (k : OpKind) (p : Producer) (g : Regs) (s : State) : (startOperation k p g s).faultCode = s.faultCode := rfl
@[simp] theorem startOperation_irqEnable (k : OpKind) (p : Producer) (g : Regs) (s : State) : (startOperation k p g s).irqEnable = s.irqEnable := rfl
@[simp] theorem startOperation_loLatch (k : OpKind) (p : Producer) (g : Regs) (s : State) : (startOperation k p g s).loLatch = s.loLatch := rfl
@[simp] theorem startOperation_vqFaultCount (k : OpKind) (p : Producer) (g : Regs) (s : State) : (startOperation k p g s).vqFaultCount = s.vqFaultCount := rfl
@[simp] theorem startOperation_fifo (k : OpKind) (p : Producer) (g : Regs) (s : State) : (startOperation k p g s).fifo = s.fifo := rfl
@[simp] theorem startOperation_lock (k : OpKind) (p : Producer) (g : Regs) (s : State) : (startOperation k p g s).lock = s.lock := rfl
@[simp] theorem startOperation_inflight (k : OpKind) (p : Producer) (g : Regs) (s : State) : (startOperation k p g s).inflight = s.inflight ++ [{ kind := k, producer := p, snap := g, k := 0, tainted := [] }] := rfl
@[simp] theorem startOperation_vram (k : OpKind) (p : Producer) (g : Regs) (s : State) : (startOperation k p g s).vram = s.vram := rfl
@[simp] theorem startOperation_vio (k : OpKind) (p : Producer) (g : Regs) (s : State) : (startOperation k p g s).vio = s.vio := rfl
@[simp] theorem startOperation_q0 (k : OpKind) (p : Producer) (g : Regs) (s : State) : (startOperation k p g s).q0 = s.q0 := rfl
@[simp] theorem startOperation_q1 (k : OpKind) (p : Producer) (g : Regs) (s : State) : (startOperation k p g s).q1 = s.q1 := rfl
@[simp] theorem startOperation_vqp (k : OpKind) (p : Producer) (g : Regs) (s : State) : (startOperation k p g s).vqp = s.vqp := rfl
@[simp] theorem startOperation_resources (k : OpKind) (p : Producer) (g : Regs) (s : State) : (startOperation k p g s).resources = s.resources := rfl
@[simp] theorem startOperation_scanout (k : OpKind) (p : Producer) (g : Regs) (s : State) : (startOperation k p g s).scanout = s.scanout := rfl
@[simp] theorem startOperation_out (k : OpKind) (p : Producer) (g : Regs) (s : State) : (startOperation k p g s).out = s.out := rfl
@[simp] theorem startOperation_guest (k : OpKind) (p : Producer) (g : Regs) (s : State) : (startOperation k p g s).guest = s.guest := rfl
@[simp] theorem startOperation_hostOps (k : OpKind) (p : Producer) (g : Regs) (s : State) : (startOperation k p g s).hostOps = s.hostOps := rfl
@[simp] theorem startOperation_bus (k : OpKind) (p : Producer) (g : Regs) (s : State) : (startOperation k p g s).bus = s.bus := rfl
@[simp] theorem startOperation_hostRead (k : OpKind) (p : Producer) (g : Regs) (s : State) : (startOperation k p g s).hostRead = s.hostRead := rfl
@[simp] theorem startOperation_display (k : OpKind) (p : Producer) (g : Regs) (s : State) : (startOperation k p g s).display = s.display := rfl
@[simp] theorem startOperation_sched (k : OpKind) (p : Producer) (g : Regs) (s : State) : (startOperation k p g s).sched = s.sched := rfl
@[simp] theorem startOperation_tick (k : OpKind) (p : Producer) (g : Regs) (s : State) : (startOperation k p g s).tick = s.tick := rfl
@[simp] theorem startOperation_draws (k : OpKind) (p : Producer) (g : Regs) (s : State) : (startOperation k p g s).draws = s.draws := rfl
@[simp] theorem startOperation_epoch (k : OpKind) (p : Producer) (g : Regs) (s : State) : (startOperation k p g s).epoch = s.epoch := rfl

@[simp] theorem setReg_cfg (r : RegId) (v : Word32) (s : State) : (setReg r v s).cfg = s.cfg := rfl
@[simp] theorem setReg_regs (r : RegId) (v : Word32) (s : State) : (setReg r v s).regs = writeReg r v s.regs := rfl
@[simp] theorem setReg_done (r : RegId) (v : Word32) (s : State) : (setReg r v s).done = s.done := rfl
@[simp] theorem setReg_fault (r : RegId) (v : Word32) (s : State) : (setReg r v s).fault = s.fault := rfl
@[simp] theorem setReg_faultCode (r : RegId) (v : Word32) (s : State) : (setReg r v s).faultCode = s.faultCode := rfl
@[simp] theorem setReg_irqEnable (r : RegId) (v : Word32) (s : State) : (setReg r v s).irqEnable = s.irqEnable := rfl
@[simp] theorem setReg_loLatch (r : RegId) (v : Word32) (s : State) : (setReg r v s).loLatch = s.loLatch := rfl
@[simp] theorem setReg_vqFaultCount (r : RegId) (v : Word32) (s : State) : (setReg r v s).vqFaultCount = s.vqFaultCount := rfl
@[simp] theorem setReg_fifo (r : RegId) (v : Word32) (s : State) : (setReg r v s).fifo = s.fifo := rfl
@[simp] theorem setReg_lock (r : RegId) (v : Word32) (s : State) : (setReg r v s).lock = s.lock := rfl
@[simp] theorem setReg_inflight (r : RegId) (v : Word32) (s : State) : (setReg r v s).inflight = s.inflight := rfl
@[simp] theorem setReg_vram (r : RegId) (v : Word32) (s : State) : (setReg r v s).vram = s.vram := rfl
@[simp] theorem setReg_vio (r : RegId) (v : Word32) (s : State) : (setReg r v s).vio = s.vio := rfl
@[simp] theorem setReg_q0 (r : RegId) (v : Word32) (s : State) : (setReg r v s).q0 = s.q0 := rfl
@[simp] theorem setReg_q1 (r : RegId) (v : Word32) (s : State) : (setReg r v s).q1 = s.q1 := rfl
@[simp] theorem setReg_vqp (r : RegId) (v : Word32) (s : State) : (setReg r v s).vqp = s.vqp := rfl
@[simp] theorem setReg_resources (r : RegId) (v : Word32) (s : State) : (setReg r v s).resources = s.resources := rfl
@[simp] theorem setReg_scanout (r : RegId) (v : Word32) (s : State) : (setReg r v s).scanout = s.scanout := rfl
@[simp] theorem setReg_out (r : RegId) (v : Word32) (s : State) : (setReg r v s).out = s.out := rfl
@[simp] theorem setReg_guest (r : RegId) (v : Word32) (s : State) : (setReg r v s).guest = s.guest := rfl
@[simp] theorem setReg_hostOps (r : RegId) (v : Word32) (s : State) : (setReg r v s).hostOps = s.hostOps := rfl
@[simp] theorem setReg_bus (r : RegId) (v : Word32) (s : State) : (setReg r v s).bus = s.bus := rfl
@[simp] theorem setReg_hostRead (r : RegId) (v : Word32) (s : State) : (setReg r v s).hostRead = s.hostRead := rfl
@[simp] theorem setReg_display (r : RegId) (v : Word32) (s : State) : (setReg r v s).display = s.display := rfl
@[simp] theorem setReg_sched (r : RegId) (v : Word32) (s : State) : (setReg r v s).sched = s.sched := rfl
@[simp] theorem setReg_tick (r : RegId) (v : Word32) (s : State) : (setReg r v s).tick = s.tick := rfl
@[simp] theorem setReg_draws (r : RegId) (v : Word32) (s : State) : (setReg r v s).draws = s.draws := rfl
@[simp] theorem setReg_epoch (r : RegId) (v : Word32) (s : State) : (setReg r v s).epoch = s.epoch := rfl

@[simp] theorem vramStore_cfg (s : State) (a : Nat) (b : List Byte) : (vramStore s a b).cfg = s.cfg := rfl
@[simp] theorem vramStore_regs (s : State) (a : Nat) (b : List Byte) : (vramStore s a b).regs = s.regs := rfl
@[simp] theorem vramStore_done (s : State) (a : Nat) (b : List Byte) : (vramStore s a b).done = s.done := rfl
@[simp] theorem vramStore_fault (s : State) (a : Nat) (b : List Byte) : (vramStore s a b).fault = s.fault := rfl
@[simp] theorem vramStore_faultCode (s : State) (a : Nat) (b : List Byte) : (vramStore s a b).faultCode = s.faultCode := rfl
@[simp] theorem vramStore_irqEnable (s : State) (a : Nat) (b : List Byte) : (vramStore s a b).irqEnable = s.irqEnable := rfl
@[simp] theorem vramStore_loLatch (s : State) (a : Nat) (b : List Byte) : (vramStore s a b).loLatch = s.loLatch := rfl
@[simp] theorem vramStore_vqFaultCount (s : State) (a : Nat) (b : List Byte) : (vramStore s a b).vqFaultCount = s.vqFaultCount := rfl
@[simp] theorem vramStore_fifo (s : State) (a : Nat) (b : List Byte) : (vramStore s a b).fifo = s.fifo := rfl
@[simp] theorem vramStore_lock (s : State) (a : Nat) (b : List Byte) : (vramStore s a b).lock = s.lock := rfl
@[simp] theorem vramStore_inflight (s : State) (a : Nat) (b : List Byte) : (vramStore s a b).inflight = s.inflight := rfl
@[simp] theorem vramStore_vram (s : State) (a : Nat) (b : List Byte) : (vramStore s a b).vram = storeBytes s.vram a b := rfl
@[simp] theorem vramStore_vio (s : State) (a : Nat) (b : List Byte) : (vramStore s a b).vio = s.vio := rfl
@[simp] theorem vramStore_q0 (s : State) (a : Nat) (b : List Byte) : (vramStore s a b).q0 = s.q0 := rfl
@[simp] theorem vramStore_q1 (s : State) (a : Nat) (b : List Byte) : (vramStore s a b).q1 = s.q1 := rfl
@[simp] theorem vramStore_vqp (s : State) (a : Nat) (b : List Byte) : (vramStore s a b).vqp = s.vqp := rfl
@[simp] theorem vramStore_resources (s : State) (a : Nat) (b : List Byte) : (vramStore s a b).resources = s.resources := rfl
@[simp] theorem vramStore_scanout (s : State) (a : Nat) (b : List Byte) : (vramStore s a b).scanout = s.scanout := rfl
@[simp] theorem vramStore_out (s : State) (a : Nat) (b : List Byte) : (vramStore s a b).out = s.out := rfl
@[simp] theorem vramStore_guest (s : State) (a : Nat) (b : List Byte) : (vramStore s a b).guest = s.guest := rfl
@[simp] theorem vramStore_hostOps (s : State) (a : Nat) (b : List Byte) : (vramStore s a b).hostOps = s.hostOps := rfl
@[simp] theorem vramStore_bus (s : State) (a : Nat) (b : List Byte) : (vramStore s a b).bus = s.bus := rfl
@[simp] theorem vramStore_hostRead (s : State) (a : Nat) (b : List Byte) : (vramStore s a b).hostRead = s.hostRead := rfl
@[simp] theorem vramStore_display (s : State) (a : Nat) (b : List Byte) : (vramStore s a b).display = s.display := rfl
@[simp] theorem vramStore_sched (s : State) (a : Nat) (b : List Byte) : (vramStore s a b).sched = s.sched := rfl
@[simp] theorem vramStore_tick (s : State) (a : Nat) (b : List Byte) : (vramStore s a b).tick = s.tick := rfl
@[simp] theorem vramStore_draws (s : State) (a : Nat) (b : List Byte) : (vramStore s a b).draws = s.draws := rfl
@[simp] theorem vramStore_epoch (s : State) (a : Nat) (b : List Byte) : (vramStore s a b).epoch = s.epoch := rfl

@[simp] theorem taintAll_cfg (a n : Nat) (s : State) : (taintAll a n s).cfg = s.cfg := rfl
@[simp] theorem taintAll_regs (a n : Nat) (s : State) : (taintAll a n s).regs = s.regs := rfl
@[simp] theorem taintAll_done (a n : Nat) (s : State) : (taintAll a n s).done = s.done := rfl
@[simp] theorem taintAll_fault (a n : Nat) (s : State) : (taintAll a n s).fault = s.fault := rfl
@[simp] theorem taintAll_faultCode (a n : Nat) (s : State) : (taintAll a n s).faultCode = s.faultCode := rfl
@[simp] theorem taintAll_irqEnable (a n : Nat) (s : State) : (taintAll a n s).irqEnable = s.irqEnable := rfl
@[simp] theorem taintAll_loLatch (a n : Nat) (s : State) : (taintAll a n s).loLatch = s.loLatch := rfl
@[simp] theorem taintAll_vqFaultCount (a n : Nat) (s : State) : (taintAll a n s).vqFaultCount = s.vqFaultCount := rfl
@[simp] theorem taintAll_fifo (a n : Nat) (s : State) : (taintAll a n s).fifo = s.fifo := rfl
@[simp] theorem taintAll_lock (a n : Nat) (s : State) : (taintAll a n s).lock = s.lock := rfl
@[simp] theorem taintAll_inflight (a n : Nat) (s : State) : (taintAll a n s).inflight = taintOps a n s.inflight := rfl
@[simp] theorem taintAll_vram (a n : Nat) (s : State) : (taintAll a n s).vram = s.vram := rfl
@[simp] theorem taintAll_vio (a n : Nat) (s : State) : (taintAll a n s).vio = s.vio := rfl
@[simp] theorem taintAll_q0 (a n : Nat) (s : State) : (taintAll a n s).q0 = s.q0 := rfl
@[simp] theorem taintAll_q1 (a n : Nat) (s : State) : (taintAll a n s).q1 = s.q1 := rfl
@[simp] theorem taintAll_vqp (a n : Nat) (s : State) : (taintAll a n s).vqp = s.vqp := rfl
@[simp] theorem taintAll_resources (a n : Nat) (s : State) : (taintAll a n s).resources = s.resources := rfl
@[simp] theorem taintAll_scanout (a n : Nat) (s : State) : (taintAll a n s).scanout = s.scanout := rfl
@[simp] theorem taintAll_out (a n : Nat) (s : State) : (taintAll a n s).out = s.out := rfl
@[simp] theorem taintAll_guest (a n : Nat) (s : State) : (taintAll a n s).guest = s.guest := rfl
@[simp] theorem taintAll_hostOps (a n : Nat) (s : State) : (taintAll a n s).hostOps = s.hostOps := rfl
@[simp] theorem taintAll_bus (a n : Nat) (s : State) : (taintAll a n s).bus = s.bus := rfl
@[simp] theorem taintAll_hostRead (a n : Nat) (s : State) : (taintAll a n s).hostRead = s.hostRead := rfl
@[simp] theorem taintAll_display (a n : Nat) (s : State) : (taintAll a n s).display = s.display := rfl
@[simp] theorem taintAll_sched (a n : Nat) (s : State) : (taintAll a n s).sched = s.sched := rfl
@[simp] theorem taintAll_tick (a n : Nat) (s : State) : (taintAll a n s).tick = s.tick := rfl
@[simp] theorem taintAll_draws (a n : Nat) (s : State) : (taintAll a n s).draws = s.draws := rfl
@[simp] theorem taintAll_epoch (a n : Nat) (s : State) : (taintAll a n s).epoch = s.epoch := rfl

@[simp] theorem setDma_cfg (d : List Byte) (a : Nat) (s : State) : (setDma d a s).cfg = s.cfg := rfl
@[simp] theorem setDma_regs (d : List Byte) (a : Nat) (s : State) : (setDma d a s).regs = s.regs := rfl
@[simp] theorem setDma_done (d : List Byte) (a : Nat) (s : State) : (setDma d a s).done = s.done := rfl
@[simp] theorem setDma_fault (d : List Byte) (a : Nat) (s : State) : (setDma d a s).fault = s.fault := rfl
@[simp] theorem setDma_faultCode (d : List Byte) (a : Nat) (s : State) : (setDma d a s).faultCode = s.faultCode := rfl
@[simp] theorem setDma_irqEnable (d : List Byte) (a : Nat) (s : State) : (setDma d a s).irqEnable = s.irqEnable := rfl
@[simp] theorem setDma_loLatch (d : List Byte) (a : Nat) (s : State) : (setDma d a s).loLatch = s.loLatch := rfl
@[simp] theorem setDma_vqFaultCount (d : List Byte) (a : Nat) (s : State) : (setDma d a s).vqFaultCount = s.vqFaultCount := rfl
@[simp] theorem setDma_fifo (d : List Byte) (a : Nat) (s : State) : (setDma d a s).fifo = s.fifo := rfl
@[simp] theorem setDma_lock (d : List Byte) (a : Nat) (s : State) : (setDma d a s).lock = s.lock := rfl
@[simp] theorem setDma_inflight (d : List Byte) (a : Nat) (s : State) : (setDma d a s).inflight = s.inflight := rfl
@[simp] theorem setDma_vram (d : List Byte) (a : Nat) (s : State) : (setDma d a s).vram = s.vram := rfl
@[simp] theorem setDma_vio (d : List Byte) (a : Nat) (s : State) : (setDma d a s).vio = s.vio := rfl
@[simp] theorem setDma_q0 (d : List Byte) (a : Nat) (s : State) : (setDma d a s).q0 = s.q0 := rfl
@[simp] theorem setDma_q1 (d : List Byte) (a : Nat) (s : State) : (setDma d a s).q1 = s.q1 := rfl
@[simp] theorem setDma_vqp (d : List Byte) (a : Nat) (s : State) : (setDma d a s).vqp = { s.vqp with dma := d, dmaAddr := a } := rfl
@[simp] theorem setDma_resources (d : List Byte) (a : Nat) (s : State) : (setDma d a s).resources = s.resources := rfl
@[simp] theorem setDma_scanout (d : List Byte) (a : Nat) (s : State) : (setDma d a s).scanout = s.scanout := rfl
@[simp] theorem setDma_out (d : List Byte) (a : Nat) (s : State) : (setDma d a s).out = s.out := rfl
@[simp] theorem setDma_guest (d : List Byte) (a : Nat) (s : State) : (setDma d a s).guest = s.guest := rfl
@[simp] theorem setDma_hostOps (d : List Byte) (a : Nat) (s : State) : (setDma d a s).hostOps = s.hostOps := rfl
@[simp] theorem setDma_bus (d : List Byte) (a : Nat) (s : State) : (setDma d a s).bus = s.bus := rfl
@[simp] theorem setDma_hostRead (d : List Byte) (a : Nat) (s : State) : (setDma d a s).hostRead = s.hostRead := rfl
@[simp] theorem setDma_display (d : List Byte) (a : Nat) (s : State) : (setDma d a s).display = s.display := rfl
@[simp] theorem setDma_sched (d : List Byte) (a : Nat) (s : State) : (setDma d a s).sched = s.sched := rfl
@[simp] theorem setDma_tick (d : List Byte) (a : Nat) (s : State) : (setDma d a s).tick = s.tick := rfl
@[simp] theorem setDma_draws (d : List Byte) (a : Nat) (s : State) : (setDma d a s).draws = s.draws := rfl
@[simp] theorem setDma_epoch (d : List Byte) (a : Nat) (s : State) : (setDma d a s).epoch = s.epoch := rfl

@[simp] theorem guestStore_cfg (a : Nat) (b : List Byte) (s : State) : (guestStore a b s).cfg = s.cfg := rfl
@[simp] theorem guestStore_regs (a : Nat) (b : List Byte) (s : State) : (guestStore a b s).regs = s.regs := rfl
@[simp] theorem guestStore_done (a : Nat) (b : List Byte) (s : State) : (guestStore a b s).done = s.done := rfl
@[simp] theorem guestStore_fault (a : Nat) (b : List Byte) (s : State) : (guestStore a b s).fault = s.fault := rfl
@[simp] theorem guestStore_faultCode (a : Nat) (b : List Byte) (s : State) : (guestStore a b s).faultCode = s.faultCode := rfl
@[simp] theorem guestStore_irqEnable (a : Nat) (b : List Byte) (s : State) : (guestStore a b s).irqEnable = s.irqEnable := rfl
@[simp] theorem guestStore_loLatch (a : Nat) (b : List Byte) (s : State) : (guestStore a b s).loLatch = s.loLatch := rfl
@[simp] theorem guestStore_vqFaultCount (a : Nat) (b : List Byte) (s : State) : (guestStore a b s).vqFaultCount = s.vqFaultCount := rfl
@[simp] theorem guestStore_fifo (a : Nat) (b : List Byte) (s : State) : (guestStore a b s).fifo = s.fifo := rfl
@[simp] theorem guestStore_lock (a : Nat) (b : List Byte) (s : State) : (guestStore a b s).lock = s.lock := rfl
@[simp] theorem guestStore_inflight (a : Nat) (b : List Byte) (s : State) : (guestStore a b s).inflight = s.inflight := rfl
@[simp] theorem guestStore_vram (a : Nat) (b : List Byte) (s : State) : (guestStore a b s).vram = s.vram := rfl
@[simp] theorem guestStore_vio (a : Nat) (b : List Byte) (s : State) : (guestStore a b s).vio = s.vio := rfl
@[simp] theorem guestStore_q0 (a : Nat) (b : List Byte) (s : State) : (guestStore a b s).q0 = s.q0 := rfl
@[simp] theorem guestStore_q1 (a : Nat) (b : List Byte) (s : State) : (guestStore a b s).q1 = s.q1 := rfl
@[simp] theorem guestStore_vqp (a : Nat) (b : List Byte) (s : State) : (guestStore a b s).vqp = s.vqp := rfl
@[simp] theorem guestStore_resources (a : Nat) (b : List Byte) (s : State) : (guestStore a b s).resources = s.resources := rfl
@[simp] theorem guestStore_scanout (a : Nat) (b : List Byte) (s : State) : (guestStore a b s).scanout = s.scanout := rfl
@[simp] theorem guestStore_out (a : Nat) (b : List Byte) (s : State) : (guestStore a b s).out = s.out := rfl
@[simp] theorem guestStore_guest (a : Nat) (b : List Byte) (s : State) : (guestStore a b s).guest = storeBytes s.guest a b := rfl
@[simp] theorem guestStore_hostOps (a : Nat) (b : List Byte) (s : State) : (guestStore a b s).hostOps = s.hostOps := rfl
@[simp] theorem guestStore_bus (a : Nat) (b : List Byte) (s : State) : (guestStore a b s).bus = s.bus := rfl
@[simp] theorem guestStore_hostRead (a : Nat) (b : List Byte) (s : State) : (guestStore a b s).hostRead = s.hostRead := rfl
@[simp] theorem guestStore_display (a : Nat) (b : List Byte) (s : State) : (guestStore a b s).display = s.display := rfl
@[simp] theorem guestStore_sched (a : Nat) (b : List Byte) (s : State) : (guestStore a b s).sched = s.sched := rfl
@[simp] theorem guestStore_tick (a : Nat) (b : List Byte) (s : State) : (guestStore a b s).tick = s.tick := rfl
@[simp] theorem guestStore_draws (a : Nat) (b : List Byte) (s : State) : (guestStore a b s).draws = s.draws := rfl
@[simp] theorem guestStore_epoch (a : Nat) (b : List Byte) (s : State) : (guestStore a b s).epoch = s.epoch := rfl

@[simp] theorem takeTurn_cfg (s : State) : (takeTurn s).cfg = s.cfg := rfl
@[simp] theorem takeTurn_regs (s : State) : (takeTurn s).regs = s.regs := rfl
@[simp] theorem takeTurn_done (s : State) : (takeTurn s).done = s.done := rfl
@[simp] theorem takeTurn_fault (s : State) : (takeTurn s).fault = s.fault := rfl
@[simp] theorem takeTurn_faultCode (s : State) : (takeTurn s).faultCode = s.faultCode := rfl
@[simp] theorem takeTurn_irqEnable (s : State) : (takeTurn s).irqEnable = s.irqEnable := rfl
@[simp] theorem takeTurn_loLatch (s : State) : (takeTurn s).loLatch = s.loLatch := rfl
@[simp] theorem takeTurn_vqFaultCount (s : State) : (takeTurn s).vqFaultCount = s.vqFaultCount := rfl
@[simp] theorem takeTurn_fifo (s : State) : (takeTurn s).fifo = s.fifo := rfl
@[simp] theorem takeTurn_lock (s : State) : (takeTurn s).lock = s.lock := rfl
@[simp] theorem takeTurn_inflight (s : State) : (takeTurn s).inflight = s.inflight := rfl
@[simp] theorem takeTurn_vram (s : State) : (takeTurn s).vram = s.vram := rfl
@[simp] theorem takeTurn_vio (s : State) : (takeTurn s).vio = s.vio := rfl
@[simp] theorem takeTurn_q0 (s : State) : (takeTurn s).q0 = s.q0 := rfl
@[simp] theorem takeTurn_q1 (s : State) : (takeTurn s).q1 = s.q1 := rfl
@[simp] theorem takeTurn_vqp (s : State) : (takeTurn s).vqp = s.vqp := rfl
@[simp] theorem takeTurn_resources (s : State) : (takeTurn s).resources = s.resources := rfl
@[simp] theorem takeTurn_scanout (s : State) : (takeTurn s).scanout = s.scanout := rfl
@[simp] theorem takeTurn_out (s : State) : (takeTurn s).out = s.out := rfl
@[simp] theorem takeTurn_guest (s : State) : (takeTurn s).guest = s.guest := rfl
@[simp] theorem takeTurn_hostOps (s : State) : (takeTurn s).hostOps = s.hostOps := rfl
@[simp] theorem takeTurn_bus (s : State) : (takeTurn s).bus = s.bus := rfl
@[simp] theorem takeTurn_hostRead (s : State) : (takeTurn s).hostRead = s.hostRead := rfl
@[simp] theorem takeTurn_display (s : State) : (takeTurn s).display = s.display := rfl
@[simp] theorem takeTurn_sched (s : State) : (takeTurn s).sched = s.sched.tail := rfl
@[simp] theorem takeTurn_tick (s : State) : (takeTurn s).tick = s.tick + 1 := rfl
@[simp] theorem takeTurn_draws (s : State) : (takeTurn s).draws = s.draws := rfl
@[simp] theorem takeTurn_epoch (s : State) : (takeTurn s).epoch = s.epoch := rfl

@[simp] theorem finishTranslate_cfg (r : List Byte) (g : List Word64) (p : Option StagingPlan) (s : State) : (finishTranslate r g p s).cfg = s.cfg := rfl
@[simp] theorem finishTranslate_regs (r : List Byte) (g : List Word64) (p : Option StagingPlan) (s : State) : (finishTranslate r g p s).regs = s.regs := rfl
@[simp] theorem finishTranslate_done (r : List Byte) (g : List Word64) (p : Option StagingPlan) (s : State) : (finishTranslate r g p s).done = s.done := rfl
@[simp] theorem finishTranslate_fault (r : List Byte) (g : List Word64) (p : Option StagingPlan) (s : State) : (finishTranslate r g p s).fault = s.fault := rfl
@[simp] theorem finishTranslate_faultCode (r : List Byte) (g : List Word64) (p : Option StagingPlan) (s : State) : (finishTranslate r g p s).faultCode = s.faultCode := rfl
@[simp] theorem finishTranslate_irqEnable (r : List Byte) (g : List Word64) (p : Option StagingPlan) (s : State) : (finishTranslate r g p s).irqEnable = s.irqEnable := rfl
@[simp] theorem finishTranslate_loLatch (r : List Byte) (g : List Word64) (p : Option StagingPlan) (s : State) : (finishTranslate r g p s).loLatch = s.loLatch := rfl
@[simp] theorem finishTranslate_vqFaultCount (r : List Byte) (g : List Word64) (p : Option StagingPlan) (s : State) : (finishTranslate r g p s).vqFaultCount = s.vqFaultCount := rfl
@[simp] theorem finishTranslate_fifo (r : List Byte) (g : List Word64) (p : Option StagingPlan) (s : State) : (finishTranslate r g p s).fifo = s.fifo := rfl
@[simp] theorem finishTranslate_lock (r : List Byte) (g : List Word64) (p : Option StagingPlan) (s : State) : (finishTranslate r g p s).lock = s.lock := rfl
@[simp] theorem finishTranslate_inflight (r : List Byte) (g : List Word64) (p : Option StagingPlan) (s : State) : (finishTranslate r g p s).inflight = s.inflight := rfl
@[simp] theorem finishTranslate_vram (r : List Byte) (g : List Word64) (p : Option StagingPlan) (s : State) : (finishTranslate r g p s).vram = s.vram := rfl
@[simp] theorem finishTranslate_vio (r : List Byte) (g : List Word64) (p : Option StagingPlan) (s : State) : (finishTranslate r g p s).vio = s.vio := rfl
@[simp] theorem finishTranslate_q0 (r : List Byte) (g : List Word64) (p : Option StagingPlan) (s : State) : (finishTranslate r g p s).q0 = s.q0 := rfl
@[simp] theorem finishTranslate_q1 (r : List Byte) (g : List Word64) (p : Option StagingPlan) (s : State) : (finishTranslate r g p s).q1 = s.q1 := rfl
@[simp] theorem finishTranslate_vqp (r : List Byte) (g : List Word64) (p : Option StagingPlan) (s : State) : (finishTranslate r g p s).vqp = { s.vqp with phase := phaseAfterTranslate g p, resp := r, group := g, plan := p, copied := 0 } := rfl
@[simp] theorem finishTranslate_resources (r : List Byte) (g : List Word64) (p : Option StagingPlan) (s : State) : (finishTranslate r g p s).resources = s.resources := rfl
@[simp] theorem finishTranslate_scanout (r : List Byte) (g : List Word64) (p : Option StagingPlan) (s : State) : (finishTranslate r g p s).scanout = s.scanout := rfl
@[simp] theorem finishTranslate_out (r : List Byte) (g : List Word64) (p : Option StagingPlan) (s : State) : (finishTranslate r g p s).out = s.out := rfl
@[simp] theorem finishTranslate_guest (r : List Byte) (g : List Word64) (p : Option StagingPlan) (s : State) : (finishTranslate r g p s).guest = s.guest := rfl
@[simp] theorem finishTranslate_hostOps (r : List Byte) (g : List Word64) (p : Option StagingPlan) (s : State) : (finishTranslate r g p s).hostOps = s.hostOps := rfl
@[simp] theorem finishTranslate_bus (r : List Byte) (g : List Word64) (p : Option StagingPlan) (s : State) : (finishTranslate r g p s).bus = s.bus := rfl
@[simp] theorem finishTranslate_hostRead (r : List Byte) (g : List Word64) (p : Option StagingPlan) (s : State) : (finishTranslate r g p s).hostRead = s.hostRead := rfl
@[simp] theorem finishTranslate_display (r : List Byte) (g : List Word64) (p : Option StagingPlan) (s : State) : (finishTranslate r g p s).display = s.display := rfl
@[simp] theorem finishTranslate_sched (r : List Byte) (g : List Word64) (p : Option StagingPlan) (s : State) : (finishTranslate r g p s).sched = s.sched := rfl
@[simp] theorem finishTranslate_tick (r : List Byte) (g : List Word64) (p : Option StagingPlan) (s : State) : (finishTranslate r g p s).tick = s.tick := rfl
@[simp] theorem finishTranslate_draws (r : List Byte) (g : List Word64) (p : Option StagingPlan) (s : State) : (finishTranslate r g p s).draws = s.draws := rfl
@[simp] theorem finishTranslate_epoch (r : List Byte) (g : List Word64) (p : Option StagingPlan) (s : State) : (finishTranslate r g p s).epoch = s.epoch := rfl

@[simp] theorem putResource_cfg (i : Word32) (r : Resource) (s : State) : (putResource i r s).cfg = s.cfg := rfl
@[simp] theorem putResource_regs (i : Word32) (r : Resource) (s : State) : (putResource i r s).regs = s.regs := rfl
@[simp] theorem putResource_done (i : Word32) (r : Resource) (s : State) : (putResource i r s).done = s.done := rfl
@[simp] theorem putResource_fault (i : Word32) (r : Resource) (s : State) : (putResource i r s).fault = s.fault := rfl
@[simp] theorem putResource_faultCode (i : Word32) (r : Resource) (s : State) : (putResource i r s).faultCode = s.faultCode := rfl
@[simp] theorem putResource_irqEnable (i : Word32) (r : Resource) (s : State) : (putResource i r s).irqEnable = s.irqEnable := rfl
@[simp] theorem putResource_loLatch (i : Word32) (r : Resource) (s : State) : (putResource i r s).loLatch = s.loLatch := rfl
@[simp] theorem putResource_vqFaultCount (i : Word32) (r : Resource) (s : State) : (putResource i r s).vqFaultCount = s.vqFaultCount := rfl
@[simp] theorem putResource_fifo (i : Word32) (r : Resource) (s : State) : (putResource i r s).fifo = s.fifo := rfl
@[simp] theorem putResource_lock (i : Word32) (r : Resource) (s : State) : (putResource i r s).lock = s.lock := rfl
@[simp] theorem putResource_inflight (i : Word32) (r : Resource) (s : State) : (putResource i r s).inflight = s.inflight := rfl
@[simp] theorem putResource_vram (i : Word32) (r : Resource) (s : State) : (putResource i r s).vram = s.vram := rfl
@[simp] theorem putResource_vio (i : Word32) (r : Resource) (s : State) : (putResource i r s).vio = s.vio := rfl
@[simp] theorem putResource_q0 (i : Word32) (r : Resource) (s : State) : (putResource i r s).q0 = s.q0 := rfl
@[simp] theorem putResource_q1 (i : Word32) (r : Resource) (s : State) : (putResource i r s).q1 = s.q1 := rfl
@[simp] theorem putResource_vqp (i : Word32) (r : Resource) (s : State) : (putResource i r s).vqp = s.vqp := rfl
@[simp] theorem putResource_resources (i : Word32) (r : Resource) (s : State) : (putResource i r s).resources = assocPut i.toNat r s.resources := rfl
@[simp] theorem putResource_scanout (i : Word32) (r : Resource) (s : State) : (putResource i r s).scanout = s.scanout := rfl
@[simp] theorem putResource_out (i : Word32) (r : Resource) (s : State) : (putResource i r s).out = s.out := rfl
@[simp] theorem putResource_guest (i : Word32) (r : Resource) (s : State) : (putResource i r s).guest = s.guest := rfl
@[simp] theorem putResource_hostOps (i : Word32) (r : Resource) (s : State) : (putResource i r s).hostOps = s.hostOps := rfl
@[simp] theorem putResource_bus (i : Word32) (r : Resource) (s : State) : (putResource i r s).bus = s.bus := rfl
@[simp] theorem putResource_hostRead (i : Word32) (r : Resource) (s : State) : (putResource i r s).hostRead = s.hostRead := rfl
@[simp] theorem putResource_display (i : Word32) (r : Resource) (s : State) : (putResource i r s).display = s.display := rfl
@[simp] theorem putResource_sched (i : Word32) (r : Resource) (s : State) : (putResource i r s).sched = s.sched := rfl
@[simp] theorem putResource_tick (i : Word32) (r : Resource) (s : State) : (putResource i r s).tick = s.tick := rfl
@[simp] theorem putResource_draws (i : Word32) (r : Resource) (s : State) : (putResource i r s).draws = s.draws := rfl
@[simp] theorem putResource_epoch (i : Word32) (r : Resource) (s : State) : (putResource i r s).epoch = s.epoch := rfl

@[simp] theorem removeResource_cfg (i : Word32) (s : State) : (removeResource i s).cfg = s.cfg := rfl
@[simp] theorem removeResource_regs (i : Word32) (s : State) : (removeResource i s).regs = s.regs := rfl
@[simp] theorem removeResource_done (i : Word32) (s : State) : (removeResource i s).done = s.done := rfl
@[simp] theorem removeResource_fault (i : Word32) (s : State) : (removeResource i s).fault = s.fault := rfl
@[simp] theorem removeResource_faultCode (i : Word32) (s : State) : (removeResource i s).faultCode = s.faultCode := rfl
@[simp] theorem removeResource_irqEnable (i : Word32) (s : State) : (removeResource i s).irqEnable = s.irqEnable := rfl
@[simp] theorem removeResource_loLatch (i : Word32) (s : State) : (removeResource i s).loLatch = s.loLatch := rfl
@[simp] theorem removeResource_vqFaultCount (i : Word32) (s : State) : (removeResource i s).vqFaultCount = s.vqFaultCount := rfl
@[simp] theorem removeResource_fifo (i : Word32) (s : State) : (removeResource i s).fifo = s.fifo := rfl
@[simp] theorem removeResource_lock (i : Word32) (s : State) : (removeResource i s).lock = s.lock := rfl
@[simp] theorem removeResource_inflight (i : Word32) (s : State) : (removeResource i s).inflight = s.inflight := rfl
@[simp] theorem removeResource_vram (i : Word32) (s : State) : (removeResource i s).vram = s.vram := rfl
@[simp] theorem removeResource_vio (i : Word32) (s : State) : (removeResource i s).vio = s.vio := rfl
@[simp] theorem removeResource_q0 (i : Word32) (s : State) : (removeResource i s).q0 = s.q0 := rfl
@[simp] theorem removeResource_q1 (i : Word32) (s : State) : (removeResource i s).q1 = s.q1 := rfl
@[simp] theorem removeResource_vqp (i : Word32) (s : State) : (removeResource i s).vqp = s.vqp := rfl
@[simp] theorem removeResource_resources (i : Word32) (s : State) : (removeResource i s).resources = assocErase i.toNat s.resources := rfl
@[simp] theorem removeResource_scanout (i : Word32) (s : State) : (removeResource i s).scanout = if s.scanout.enabled && s.scanout.resourceId == i then Scanout.off else s.scanout := rfl
@[simp] theorem removeResource_out (i : Word32) (s : State) : (removeResource i s).out = s.out := rfl
@[simp] theorem removeResource_guest (i : Word32) (s : State) : (removeResource i s).guest = s.guest := rfl
@[simp] theorem removeResource_hostOps (i : Word32) (s : State) : (removeResource i s).hostOps = s.hostOps := rfl
@[simp] theorem removeResource_bus (i : Word32) (s : State) : (removeResource i s).bus = s.bus := rfl
@[simp] theorem removeResource_hostRead (i : Word32) (s : State) : (removeResource i s).hostRead = s.hostRead := rfl
@[simp] theorem removeResource_display (i : Word32) (s : State) : (removeResource i s).display = s.display := rfl
@[simp] theorem removeResource_sched (i : Word32) (s : State) : (removeResource i s).sched = s.sched := rfl
@[simp] theorem removeResource_tick (i : Word32) (s : State) : (removeResource i s).tick = s.tick := rfl
@[simp] theorem removeResource_draws (i : Word32) (s : State) : (removeResource i s).draws = s.draws := rfl
@[simp] theorem removeResource_epoch (i : Word32) (s : State) : (removeResource i s).epoch = s.epoch := rfl

@[simp] theorem setPhase_cfg (p : Phase) (s : State) : (setPhase p s).cfg = s.cfg := rfl
@[simp] theorem setPhase_regs (p : Phase) (s : State) : (setPhase p s).regs = s.regs := rfl
@[simp] theorem setPhase_done (p : Phase) (s : State) : (setPhase p s).done = s.done := rfl
@[simp] theorem setPhase_fault (p : Phase) (s : State) : (setPhase p s).fault = s.fault := rfl
@[simp] theorem setPhase_faultCode (p : Phase) (s : State) : (setPhase p s).faultCode = s.faultCode := rfl
@[simp] theorem setPhase_irqEnable (p : Phase) (s : State) : (setPhase p s).irqEnable = s.irqEnable := rfl
@[simp] theorem setPhase_loLatch (p : Phase) (s : State) : (setPhase p s).loLatch = s.loLatch := rfl
@[simp] theorem setPhase_vqFaultCount (p : Phase) (s : State) : (setPhase p s).vqFaultCount = s.vqFaultCount := rfl
@[simp] theorem setPhase_fifo (p : Phase) (s : State) : (setPhase p s).fifo = s.fifo := rfl
@[simp] theorem setPhase_lock (p : Phase) (s : State) : (setPhase p s).lock = s.lock := rfl
@[simp] theorem setPhase_inflight (p : Phase) (s : State) : (setPhase p s).inflight = s.inflight := rfl
@[simp] theorem setPhase_vram (p : Phase) (s : State) : (setPhase p s).vram = s.vram := rfl
@[simp] theorem setPhase_vio (p : Phase) (s : State) : (setPhase p s).vio = s.vio := rfl
@[simp] theorem setPhase_q0 (p : Phase) (s : State) : (setPhase p s).q0 = s.q0 := rfl
@[simp] theorem setPhase_q1 (p : Phase) (s : State) : (setPhase p s).q1 = s.q1 := rfl
@[simp] theorem setPhase_vqp (p : Phase) (s : State) : (setPhase p s).vqp = { s.vqp with phase := p } := rfl
@[simp] theorem setPhase_resources (p : Phase) (s : State) : (setPhase p s).resources = s.resources := rfl
@[simp] theorem setPhase_scanout (p : Phase) (s : State) : (setPhase p s).scanout = s.scanout := rfl
@[simp] theorem setPhase_out (p : Phase) (s : State) : (setPhase p s).out = s.out := rfl
@[simp] theorem setPhase_guest (p : Phase) (s : State) : (setPhase p s).guest = s.guest := rfl
@[simp] theorem setPhase_hostOps (p : Phase) (s : State) : (setPhase p s).hostOps = s.hostOps := rfl
@[simp] theorem setPhase_bus (p : Phase) (s : State) : (setPhase p s).bus = s.bus := rfl
@[simp] theorem setPhase_hostRead (p : Phase) (s : State) : (setPhase p s).hostRead = s.hostRead := rfl
@[simp] theorem setPhase_display (p : Phase) (s : State) : (setPhase p s).display = s.display := rfl
@[simp] theorem setPhase_sched (p : Phase) (s : State) : (setPhase p s).sched = s.sched := rfl
@[simp] theorem setPhase_tick (p : Phase) (s : State) : (setPhase p s).tick = s.tick := rfl
@[simp] theorem setPhase_draws (p : Phase) (s : State) : (setPhase p s).draws = s.draws := rfl
@[simp] theorem setPhase_epoch (p : Phase) (s : State) : (setPhase p s).epoch = s.epoch := rfl

@[simp] theorem goIdle_cfg (s : State) : (goIdle s).cfg = s.cfg := rfl
@[simp] theorem goIdle_regs (s : State) : (goIdle s).regs = s.regs := rfl
@[simp] theorem goIdle_done (s : State) : (goIdle s).done = s.done := rfl
@[simp] theorem goIdle_fault (s : State) : (goIdle s).fault = s.fault := rfl
@[simp] theorem goIdle_faultCode (s : State) : (goIdle s).faultCode = s.faultCode := rfl
@[simp] theorem goIdle_irqEnable (s : State) : (goIdle s).irqEnable = s.irqEnable := rfl
@[simp] theorem goIdle_loLatch (s : State) : (goIdle s).loLatch = s.loLatch := rfl
@[simp] theorem goIdle_vqFaultCount (s : State) : (goIdle s).vqFaultCount = s.vqFaultCount := rfl
@[simp] theorem goIdle_fifo (s : State) : (goIdle s).fifo = s.fifo := rfl
@[simp] theorem goIdle_lock (s : State) : (goIdle s).lock = s.lock := rfl
@[simp] theorem goIdle_inflight (s : State) : (goIdle s).inflight = s.inflight := rfl
@[simp] theorem goIdle_vram (s : State) : (goIdle s).vram = s.vram := rfl
@[simp] theorem goIdle_vio (s : State) : (goIdle s).vio = s.vio := rfl
@[simp] theorem goIdle_q0 (s : State) : (goIdle s).q0 = s.q0 := rfl
@[simp] theorem goIdle_q1 (s : State) : (goIdle s).q1 = s.q1 := rfl
@[simp] theorem goIdle_vqp (s : State) : (goIdle s).vqp = Vqp.idle := rfl
@[simp] theorem goIdle_resources (s : State) : (goIdle s).resources = s.resources := rfl
@[simp] theorem goIdle_scanout (s : State) : (goIdle s).scanout = s.scanout := rfl
@[simp] theorem goIdle_out (s : State) : (goIdle s).out = s.out := rfl
@[simp] theorem goIdle_guest (s : State) : (goIdle s).guest = s.guest := rfl
@[simp] theorem goIdle_hostOps (s : State) : (goIdle s).hostOps = s.hostOps := rfl
@[simp] theorem goIdle_bus (s : State) : (goIdle s).bus = s.bus := rfl
@[simp] theorem goIdle_hostRead (s : State) : (goIdle s).hostRead = s.hostRead := rfl
@[simp] theorem goIdle_display (s : State) : (goIdle s).display = s.display := rfl
@[simp] theorem goIdle_sched (s : State) : (goIdle s).sched = s.sched := rfl
@[simp] theorem goIdle_tick (s : State) : (goIdle s).tick = s.tick := rfl
@[simp] theorem goIdle_draws (s : State) : (goIdle s).draws = s.draws := rfl
@[simp] theorem goIdle_epoch (s : State) : (goIdle s).epoch = s.epoch := rfl

@[simp] theorem setQueue_cfg (q : QueueId) (v : Queue) (s : State) : (setQueue q v s).cfg = s.cfg := by
  cases q <;> rfl
@[simp] theorem setQueue_regs (q : QueueId) (v : Queue) (s : State) : (setQueue q v s).regs = s.regs := by
  cases q <;> rfl
@[simp] theorem setQueue_done (q : QueueId) (v : Queue) (s : State) : (setQueue q v s).done = s.done := by
  cases q <;> rfl
@[simp] theorem setQueue_fault (q : QueueId) (v : Queue) (s : State) : (setQueue q v s).fault = s.fault := by
  cases q <;> rfl
@[simp] theorem setQueue_faultCode (q : QueueId) (v : Queue) (s : State) : (setQueue q v s).faultCode = s.faultCode := by
  cases q <;> rfl
@[simp] theorem setQueue_irqEnable (q : QueueId) (v : Queue) (s : State) : (setQueue q v s).irqEnable = s.irqEnable := by
  cases q <;> rfl
@[simp] theorem setQueue_loLatch (q : QueueId) (v : Queue) (s : State) : (setQueue q v s).loLatch = s.loLatch := by
  cases q <;> rfl
@[simp] theorem setQueue_vqFaultCount (q : QueueId) (v : Queue) (s : State) : (setQueue q v s).vqFaultCount = s.vqFaultCount := by
  cases q <;> rfl
@[simp] theorem setQueue_fifo (q : QueueId) (v : Queue) (s : State) : (setQueue q v s).fifo = s.fifo := by
  cases q <;> rfl
@[simp] theorem setQueue_lock (q : QueueId) (v : Queue) (s : State) : (setQueue q v s).lock = s.lock := by
  cases q <;> rfl
@[simp] theorem setQueue_inflight (q : QueueId) (v : Queue) (s : State) : (setQueue q v s).inflight = s.inflight := by
  cases q <;> rfl
@[simp] theorem setQueue_vram (q : QueueId) (v : Queue) (s : State) : (setQueue q v s).vram = s.vram := by
  cases q <;> rfl
@[simp] theorem setQueue_vio (q : QueueId) (v : Queue) (s : State) : (setQueue q v s).vio = s.vio := by
  cases q <;> rfl
@[simp] theorem setQueue_vqp (q : QueueId) (v : Queue) (s : State) : (setQueue q v s).vqp = s.vqp := by
  cases q <;> rfl
@[simp] theorem setQueue_resources (q : QueueId) (v : Queue) (s : State) : (setQueue q v s).resources = s.resources := by
  cases q <;> rfl
@[simp] theorem setQueue_scanout (q : QueueId) (v : Queue) (s : State) : (setQueue q v s).scanout = s.scanout := by
  cases q <;> rfl
@[simp] theorem setQueue_out (q : QueueId) (v : Queue) (s : State) : (setQueue q v s).out = s.out := by
  cases q <;> rfl
@[simp] theorem setQueue_guest (q : QueueId) (v : Queue) (s : State) : (setQueue q v s).guest = s.guest := by
  cases q <;> rfl
@[simp] theorem setQueue_hostOps (q : QueueId) (v : Queue) (s : State) : (setQueue q v s).hostOps = s.hostOps := by
  cases q <;> rfl
@[simp] theorem setQueue_bus (q : QueueId) (v : Queue) (s : State) : (setQueue q v s).bus = s.bus := by
  cases q <;> rfl
@[simp] theorem setQueue_hostRead (q : QueueId) (v : Queue) (s : State) : (setQueue q v s).hostRead = s.hostRead := by
  cases q <;> rfl
@[simp] theorem setQueue_display (q : QueueId) (v : Queue) (s : State) : (setQueue q v s).display = s.display := by
  cases q <;> rfl
@[simp] theorem setQueue_sched (q : QueueId) (v : Queue) (s : State) : (setQueue q v s).sched = s.sched := by
  cases q <;> rfl
@[simp] theorem setQueue_tick (q : QueueId) (v : Queue) (s : State) : (setQueue q v s).tick = s.tick := by
  cases q <;> rfl
@[simp] theorem setQueue_draws (q : QueueId) (v : Queue) (s : State) : (setQueue q v s).draws = s.draws := by
  cases q <;> rfl
@[simp] theorem setQueue_epoch (q : QueueId) (v : Queue) (s : State) : (setQueue q v s).epoch = s.epoch := by
  cases q <;> rfl
@[simp] theorem setQueue_ctrl_q0 (v : Queue) (s : State) : (setQueue .ctrl v s).q0 = v := rfl
@[simp] theorem setQueue_ctrl_q1 (v : Queue) (s : State) : (setQueue .ctrl v s).q1 = s.q1 := rfl
@[simp] theorem setQueue_cursor_q0 (v : Queue) (s : State) : (setQueue .cursor v s).q0 = s.q0 := rfl
@[simp] theorem setQueue_cursor_q1 (v : Queue) (s : State) : (setQueue .cursor v s).q1 = v := rfl

@[simp] theorem getQueue_setQueue (q : QueueId) (v : Queue) (s : State) :
    getQueue (setQueue q v s) q = v := by
  cases q <;> rfl

theorem getQueue_setQueue_ne (q q' : QueueId) (v : Queue) (s : State) (h : q ≠ q') :
    getQueue (setQueue q v s) q' = getQueue s q' := by
  cases q <;> cases q' <;> first | rfl | exact absurd rfl h

end Sys2Proof.Machine
end

