-- ==== Sys2Proof/Laws/Memory.lean ====
section
/-! SUPPORT. The laws of finite maps, of byte memories and of address sets: a read after a write, and the
canonical form that every operation keeps. -/
namespace Sys2Proof.Machine

/-! ### Finite maps -/

theorem keysRising_iff {α : Type} (m : List (Nat × α)) :
    keysRising m = true ↔ (m.map Prod.fst).Pairwise (· < ·) := by simp [keysRising]

@[simp] theorem assocGet_assocPut_eq {α : Type} (k : Nat) (v : α) (m : List (Nat × α)) :
    assocGet k (assocPut k v m) = some v := by
  induction m with
  | nil => simp [assocPut, assocGet]
  | cons c r ih =>
    obtain ⟨k', v'⟩ := c
    simp only [assocPut]
    split
    · simp [assocGet]
    · split
      · simp [assocGet]
      · next h => simp [assocGet, h, ih]

theorem assocGet_assocPut_ne {α : Type} (k j : Nat) (v : α) (m : List (Nat × α)) (h : j ≠ k) :
    assocGet j (assocPut k v m) = assocGet j m := by
  induction m with
  | nil => simp [assocPut, assocGet, h]
  | cons c r ih =>
    obtain ⟨k', v'⟩ := c
    simp only [assocPut]
    split
    · simp [assocGet, h]
    · split
      · next e => subst e; simp [assocGet, h]
      · simp [assocGet, ih]

/-- A key below every listed one is not listed. -/
theorem assocGet_of_lt {α : Type} (k : Nat) (m : List (Nat × α)) (h : ∀ c ∈ m, k < c.1) :
    assocGet k m = none := by
  induction m with
  | nil => rfl
  | cons c r ih =>
    obtain ⟨k', v'⟩ := c
    have : k < k' := h (k', v') (by simp)
    simp only [assocGet, if_neg (Nat.ne_of_lt this)]
    exact ih fun c hc => h c (by simp [hc])

theorem assocGet_assocErase_eq {α : Type} (k : Nat) (m : List (Nat × α)) (hm : keysRising m = true) :
    assocGet k (assocErase k m) = none := by
  rw [keysRising_iff] at hm
  induction m with
  | nil => rfl
  | cons c r ih =>
    obtain ⟨k', v'⟩ := c
    rw [List.map_cons, List.pairwise_cons] at hm
    simp only [assocErase]
    split
    · next e => subst e; exact assocGet_of_lt _ _ fun c hc => hm.1 _ (List.mem_map_of_mem hc)
    · next e => simp only [assocGet, if_neg e]; exact ih hm.2

theorem assocGet_assocErase_ne {α : Type} (k j : Nat) (m : List (Nat × α)) (h : j ≠ k) :
    assocGet j (assocErase k m) = assocGet j m := by
  induction m with
  | nil => rfl
  | cons c r ih =>
    obtain ⟨k', v'⟩ := c
    simp only [assocErase]
    split
    · next e => subst e; simp [assocGet, h]
    · simp [assocGet, ih]

/-- Every entry after setting a key is the new one or an old one. -/
theorem mem_assocPut {α : Type} (k : Nat) (v : α) (m : List (Nat × α)) (c : Nat × α)
    (h : c ∈ assocPut k v m) : c = (k, v) ∨ c ∈ m := by
  induction m with
  | nil => exact .inl (by simpa [assocPut] using h)
  | cons c' r ih =>
    obtain ⟨k', v'⟩ := c'
    simp only [assocPut] at h
    split at h
    · simpa using h
    · split at h
      · rcases List.mem_cons.1 h with h | h
        · exact .inl h
        · exact .inr (by simp [h])
      · rcases List.mem_cons.1 h with h | h
        · exact .inr (by simp [h])
        · rcases ih h with h | h
          · exact .inl h
          · exact .inr (by simp [h])

theorem mem_assocErase {α : Type} (k : Nat) (m : List (Nat × α)) (c : Nat × α)
    (h : c ∈ assocErase k m) : c ∈ m := by
  induction m with
  | nil => exact h
  | cons c' r ih =>
    obtain ⟨k', v'⟩ := c'
    simp only [assocErase] at h
    split at h
    · exact List.mem_cons_of_mem _ h
    · rcases List.mem_cons.1 h with h | h
      · simp [h]
      · exact List.mem_cons_of_mem _ (ih h)

theorem keysRising_assocPut {α : Type} (k : Nat) (v : α) (m : List (Nat × α))
    (hm : keysRising m = true) : keysRising (assocPut k v m) = true := by
  rw [keysRising_iff] at hm ⊢
  induction m with
  | nil => simp [assocPut]
  | cons c r ih =>
    obtain ⟨k', v'⟩ := c
    rw [List.map_cons, List.pairwise_cons] at hm
    simp only [assocPut]
    split
    · next h =>
      simp only [List.map_cons, List.pairwise_cons]
      refine ⟨?_, hm.1, hm.2⟩
      intro j hj
      rcases List.mem_cons.1 hj with rfl | hj
      · exact h
      · exact Nat.lt_trans h (hm.1 j hj)
    · split
      · next e => subst e; exact List.pairwise_cons.2 hm
      · next h1 h2 =>
        simp only [List.map_cons, List.pairwise_cons]
        refine ⟨?_, ih hm.2⟩
        intro j hj
        obtain ⟨c, hc, rfl⟩ := List.mem_map.1 hj
        rcases mem_assocPut k v r c hc with rfl | hc
        · have : k' ≠ k := fun e => h2 e.symm
          simp only at *
          omega
        · exact hm.1 _ (List.mem_map_of_mem hc)

theorem keysRising_assocErase {α : Type} (k : Nat) (m : List (Nat × α))
    (hm : keysRising m = true) : keysRising (assocErase k m) = true := by
  rw [keysRising_iff] at hm ⊢
  induction m with
  | nil => exact hm
  | cons c r ih =>
    obtain ⟨k', v'⟩ := c
    rw [List.map_cons, List.pairwise_cons] at hm
    simp only [assocErase]
    split
    · exact hm.2
    · simp only [List.map_cons, List.pairwise_cons]
      refine ⟨?_, ih hm.2⟩
      intro j hj
      obtain ⟨c, hc, rfl⟩ := List.mem_map.1 hj
      exact hm.1 _ (List.mem_map_of_mem (mem_assocErase k r c hc))

/-- In a canonical map an entry is what its key reads as. -/
theorem assocGet_of_mem {α : Type} (k : Nat) (v : α) (m : List (Nat × α)) (hm : keysRising m = true)
    (h : (k, v) ∈ m) : assocGet k m = some v := by
  rw [keysRising_iff] at hm
  induction m with
  | nil => cases h
  | cons c r ih =>
    obtain ⟨k', v'⟩ := c
    rw [List.map_cons, List.pairwise_cons] at hm
    rcases List.mem_cons.1 h with h | h
    · cases h; simp [assocGet]
    · have : k' < k := hm.1 k (List.mem_map_of_mem (f := Prod.fst) h)
      simp only [assocGet, if_neg (show ¬ k = k' by omega)]
      exact ih hm.2 h

theorem mem_of_assocGet {α : Type} (k : Nat) (v : α) (m : List (Nat × α))
    (h : assocGet k m = some v) : (k, v) ∈ m := by
  induction m with
  | nil => cases h
  | cons c r ih =>
    obtain ⟨k', v'⟩ := c
    simp only [assocGet] at h
    split at h
    · next e => cases h; subst e; simp
    · exact List.mem_cons_of_mem _ (ih h)

/-! ### Byte memories -/

theorem memBelow_iff (b : Nat) (m : Memory) : memBelow b m = true ↔ ∀ c ∈ m, c.1 < b := by
  simp [memBelow]

theorem memBelow_assocPut (b a : Nat) (v : Byte) (m : Memory) (hm : memBelow b m = true) (ha : a < b) :
    memBelow b (assocPut a v m) = true := by
  rw [memBelow_iff] at hm ⊢
  intro c hc
  rcases mem_assocPut a v m c hc with rfl | hc
  · exact ha
  · exact hm c hc

/-- A byte outside the stored ones is as before. -/
theorem assocGet_storeBytes_out (m : Memory) (a : Nat) (bs : List Byte) (j : Nat)
    (h : j < a ∨ a + bs.length ≤ j) : assocGet j (storeBytes m a bs) = assocGet j m := by
  induction bs generalizing m a with
  | nil => rfl
  | cons b bs ih =>
    simp only [List.length_cons] at h
    simp only [storeBytes]
    rw [ih _ _ (by omega), assocGet_assocPut_ne _ _ _ _ (by omega)]

/-- The `i`-th stored byte reads back. -/
theorem assocGet_storeBytes_in (m : Memory) (a : Nat) (bs : List Byte) (i : Nat) (h : i < bs.length) :
    assocGet (a + i) (storeBytes m a bs) = some bs[i] := by
  induction bs generalizing m a i with
  | nil => simp at h
  | cons b bs ih =>
    simp only [storeBytes]
    cases i with
    | zero => rw [assocGet_storeBytes_out _ _ _ _ (by omega)]; simp
    | succ i =>
      have := ih (assocPut a b m) (a + 1) i (by simpa using h)
      rw [show a + (i + 1) = a + 1 + i by omega, this]
      simp

/-- Storing keeps the canonical form. -/
theorem storeBytes_wf (m : Memory) (a : Nat) (bs : List Byte) (hm : Memory.wf m = true) :
    Memory.wf (storeBytes m a bs) = true := by
  induction bs generalizing m a with
  | nil => exact hm
  | cons b bs ih => exact ih _ _ (keysRising_assocPut _ _ _ hm)

theorem memBelow_storeBytes (b : Nat) (m : Memory) (a : Nat) (bs : List Byte)
    (hm : memBelow b m = true) (h : a + bs.length ≤ b) : memBelow b (storeBytes m a bs) = true := by
  induction bs generalizing m a with
  | nil => exact hm
  | cons x bs ih =>
    simp only [List.length_cons] at h
    exact ih _ _ (memBelow_assocPut b a x m hm (by omega)) (by omega)

/-- Power-on reset's memories are canonical. -/
theorem reset_memory_wf :
    Memory.wf State.reset.vram = true ∧ Memory.wf State.reset.guest = true := by decide

/-! ### Sets of addresses -/

theorem addrsRising_iff (l : List Nat) : addrsRising l = true ↔ l.Pairwise (· < ·) := by
  simp [addrsRising]

theorem mem_setInsert (a x : Nat) (t : List Nat) : x ∈ setInsert a t ↔ x = a ∨ x ∈ t := by
  induction t with
  | nil => simp [setInsert]
  | cons b r ih =>
    simp only [setInsert]
    split
    · simp
    · split
      · next e => subst e; simp
      · simp only [List.mem_cons, ih]; tauto

theorem mem_setInsertRange (a n x : Nat) (t : List Nat) :
    x ∈ setInsertRange a n t ↔ (a ≤ x ∧ x < a + n) ∨ x ∈ t := by
  induction n generalizing a t with
  | zero => simp [setInsertRange]
  | succ n ih =>
    simp only [setInsertRange, ih, mem_setInsert]
    constructor
    · rintro (h | h | h)
      · exact .inl (by omega)
      · exact .inl (by omega)
      · exact .inr h
    · rintro (h | h)
      · by_cases e : x = a
        · exact .inr (.inl e)
        · exact .inl (by omega)
      · exact .inr (.inr h)

theorem addrsRising_setInsert (a : Nat) (t : List Nat) (h : addrsRising t = true) :
    addrsRising (setInsert a t) = true := by
  rw [addrsRising_iff] at h ⊢
  induction t with
  | nil => simp [setInsert]
  | cons b r ih =>
    rw [List.pairwise_cons] at h
    simp only [setInsert]
    split
    · next hb =>
      rw [List.pairwise_cons]
      refine ⟨?_, List.pairwise_cons.2 h⟩
      intro x hx
      rcases List.mem_cons.1 hx with rfl | hx
      · exact hb
      · exact Nat.lt_trans hb (h.1 x hx)
    · split
      · exact List.pairwise_cons.2 h
      · rw [List.pairwise_cons]
        refine ⟨?_, ih h.2⟩
        intro x hx
        rcases (mem_setInsert a x r).1 hx with rfl | hx
        · omega
        · exact h.1 x hx

theorem addrsRising_setInsertRange (a n : Nat) (t : List Nat) (h : addrsRising t = true) :
    addrsRising (setInsertRange a n t) = true := by
  induction n generalizing a t with
  | zero => exact h
  | succ n ih => exact ih _ _ (addrsRising_setInsert a t h)

/-! ### The bytes of VRAM and of guest memory -/

theorem vramByte_of_vram (s t : State) (a : Nat) (h : t.vram = s.vram) (he : t.epoch = s.epoch) :
    vramByte t a = vramByte s a := by simp [vramByte, h, he]

/-- A byte of VRAM that a store does not reach is as before. -/
theorem vramByte_vramStore_out (s : State) (a : Nat) (bs : List Byte) (j : Nat)
    (h : j < a ∨ a + bs.length ≤ j) : vramByte (vramStore s a bs) j = vramByte s j := by
  simp [vramByte, assocGet_storeBytes_out _ _ _ _ h]

/-- A stored byte of VRAM reads back. -/
theorem vramByte_vramStore_in (s : State) (a : Nat) (bs : List Byte) (i : Nat) (h : i < bs.length) :
    vramByte (vramStore s a bs) (a + i) = bs[i] := by
  simp [vramByte, assocGet_storeBytes_in _ _ _ _ h]

theorem guestByte_guestStore_out (s : State) (a : Nat) (bs : List Byte) (j : Nat)
    (h : j < a ∨ a + bs.length ≤ j) : guestByte (guestStore a bs s) j = guestByte s j := by
  simp [guestByte, assocGet_storeBytes_out _ _ _ _ h]

theorem guestByte_guestStore_in (s : State) (a : Nat) (bs : List Byte) (i : Nat) (h : i < bs.length) :
    guestByte (guestStore a bs s) (a + i) = bs[i] := by
  simp [guestByte, assocGet_storeBytes_in _ _ _ _ h]

@[simp] theorem vramBytes_length (s : State) (a n : Nat) : (vramBytes s a n).length = n := by
  simp [vramBytes]

@[simp] theorem guestBytes_length (s : State) (a n : Nat) : (guestBytes s a n).length = n := by
  simp [guestBytes]

/-! ### Maps, entry by entry -/

/-- Setting a new key adds one entry. -/
theorem assocPut_length_none {α : Type} (k : Nat) (v : α) (m : List (Nat × α)) (h : assocGet k m = none) :
    (assocPut k v m).length = m.length + 1 := by
  induction m with
  | nil => rfl
  | cons c r ih =>
    obtain ⟨k', v'⟩ := c
    simp only [assocGet] at h
    split at h
    · cases h
    · next hk =>
      simp only [assocPut, if_neg hk]
      split
      · rfl
      · simp [ih h]

/-- In a canonical map, setting a listed key replaces its value in place. -/
theorem assocPut_some {α : Type} (k : Nat) (v v0 : α) (m : List (Nat × α)) (hm : keysRising m = true)
    (h : assocGet k m = some v0) : 
    ∃ l r, m = l ++ (k, v0) :: r ∧ assocPut k v m = l ++ (k, v) :: r := by
  rw [keysRising_iff] at hm
  induction m with
  | nil => cases h
  | cons c r ih =>
    obtain ⟨k', v'⟩ := c
    rw [List.map_cons, List.pairwise_cons] at hm
    simp only [assocGet] at h
    split at h
    · next hk =>
      subst hk
      cases h
      exact ⟨[], r, rfl, by simp [assocPut]⟩
    · next hk =>
      obtain ⟨l, r', rfl, e⟩ := ih hm.2 h
      have : k' < k := hm.1 k (by simp)
      refine ⟨(k', v') :: l, r', rfl, ?_⟩
      simp only [assocPut, if_neg hk, if_neg (show ¬ k < k' by omega), e]
      rfl

/-- A symmetric relation between all entries is kept by an entry that relates to all of them. -/
theorem assocPut_pairwise {α : Type} (R : Nat × α → Nat × α → Prop) (k : Nat) (v : α) (m : List (Nat × α))
    (hm : m.Pairwise R) (h : ∀ c ∈ m, R (k, v) c ∧ R c (k, v)) : (assocPut k v m).Pairwise R := by
  induction m with
  | nil => simp [assocPut]
  | cons c r ih =>
    obtain ⟨k', v'⟩ := c
    have hc := List.pairwise_cons.1 hm
    simp only [assocPut]
    split
    · exact List.pairwise_cons.2 ⟨fun d hd => (h d hd).1, hm⟩
    · split
      · exact List.pairwise_cons.2 ⟨fun d hd => (h d (List.mem_cons_of_mem _ hd)).1, hc.2⟩
      · refine List.pairwise_cons.2 ⟨fun d hd => ?_, ih hc.2 fun d hd => h d (List.mem_cons_of_mem _ hd)⟩
        rcases mem_assocPut k v r d hd with rfl | hd
        · exact (h _ List.mem_cons_self).2
        · exact hc.1 d hd

/-- Erasing a key leaves the other entries in order. -/
theorem assocErase_sublist {α : Type} (k : Nat) (m : List (Nat × α)) : (assocErase k m).Sublist m := by
  induction m with
  | nil => exact List.Sublist.refl _
  | cons c r ih =>
    obtain ⟨k', v'⟩ := c
    simp only [assocErase]
    split
    · exact List.sublist_cons_self _ _
    · exact ih.cons_cons _

end Sys2Proof.Machine
end

