-- ==== Sys2Proof/Laws/Ops.lean ====
section
/-! SUPPORT. Each shared operation, once: everything it can do. -/
namespace Sys2Proof.Machine

/-! ### VRAM and its window -/

/-- `VramWrite` answers exactly when the access is inside VRAM, and then stores the bytes. -/
theorem vramWrite_cases (s : State) (a n v : Nat) :
    (a + n ≤ s.cfg.vramSize ∧ vramWrite s a n v = some (vramStore s a (leBytes n v))) ∨
      (s.cfg.vramSize < a + n ∧ vramWrite s a n v = none) := by
  by_cases h : a + n ≤ s.cfg.vramSize
  · exact .inl ⟨h, by simp [vramWrite, vramInRange, h]⟩
  · exact .inr ⟨by omega, by simp [vramWrite, vramInRange, h]⟩

theorem vramRead_cases (s : State) (a n : Nat) :
    (a + n ≤ s.cfg.vramSize ∧ vramRead s a n = some (leNat (vramBytes s a n))) ∨
      (s.cfg.vramSize < a + n ∧ vramRead s a n = none) := by
  by_cases h : a + n ≤ s.cfg.vramSize
  · exact .inl ⟨h, by simp [vramRead, vramInRange, h]⟩
  · exact .inr ⟨by omega, by simp [vramRead, vramInRange, h]⟩

/-- What a window write can do. -/
theorem windowWrite_cases (a n : Nat) (data : Word32) (s : State) :
    (∃ e, windowWrite a n data s = respond (.err e) s) ∨
      (a + n ≤ s.cfg.vramSize ∧ (n = 1 ∨ n = 2 ∨ n = 4) ∧ a % n = 0 ∧
        windowWrite a n data s =
          respond .ok (taintAll a n (vramStore s a (leBytes n data.toNat)))) := by
  unfold windowWrite
  cases hw : windowAligned a n with
  | false => exact .inl ⟨_, rfl⟩
  | true =>
    have hn : (n = 1 ∨ n = 2 ∨ n = 4) ∧ a % n = 0 := by simpa [windowAligned] using hw
    rcases vramWrite_cases s a n data.toNat with ⟨h, e⟩ | ⟨h, e⟩
    · exact .inr ⟨h, hn.1, hn.2, by simp [e]⟩
    · exact .inl ⟨.outOfRange, by simp [e]⟩

/-- A window read only answers. -/
theorem windowRead_cases (a n : Nat) (s : State) : ∃ r, windowRead a n s = respond r s := by
  unfold windowRead
  split
  · exact ⟨_, rfl⟩
  · split <;> exact ⟨_, rfl⟩

/-! ### Sets of addresses in flight -/

theorem mem_taintOps (a n : Nat) (ops : List Operation) (op : Operation) (h : op ∈ taintOps a n ops) :
    ∃ o ∈ ops, op = { o with tainted := setInsertRange a n o.tainted } := by
  obtain ⟨o, ho, rfl⟩ := List.mem_map.1 h
  exact ⟨o, ho, rfl⟩

@[simp] theorem taintOps_length (a n : Nat) (ops : List Operation) :
    (taintOps a n ops).length = ops.length := by simp [taintOps]

/-- Tainting keeps an operation legal. -/
theorem operationOk_taint (b a n : Nat) (o : Operation) (h : operationOk b o = true) :
    operationOk b { o with tainted := setInsertRange a n o.tainted } = true := by
  simp only [operationOk, Bool.and_eq_true] at h ⊢
  exact ⟨addrsRising_setInsertRange _ _ _ h.1, h.2⟩

theorem operationsOk_taint (b a n : Nat) (ops : List Operation) (h : ops.all (operationOk b) = true) :
    (taintOps a n ops).all (operationOk b) = true := by
  rw [List.all_eq_true] at h ⊢
  intro op hop
  obtain ⟨o, ho, rfl⟩ := mem_taintOps a n ops op hop
  exact operationOk_taint b a n o (h o ho)

/-! ### DMA -/

/-- An admitted access ends below 2^64. -/
theorem guestAdmits_le (p : Params) (a n : Nat) (h : guestAdmits p a n = true) : a + n ≤ 2 ^ 64 := by
  simp only [guestAdmits, Bool.and_eq_true, decide_eq_true_eq] at h
  exact h.1

/-- What one step of a DMA read can do: hold, read one more byte, or be complete with `n` bytes or more. -/
theorem dmaRead_cases (a n : Nat) (s : State) :
    (s.vqp.dma = [] ∧ guestAdmits s.cfg a n = false ∧ dmaRead a n s = .held) ∨
      (∃ got base, got ≠ [] ∧ dmaRead a n s = .more (setDma got base s)) ∨
      (s.vqp.dma = [] ∧ dmaRead a n s = .done s (guestBytes s a n)) ∨
      (∃ got, dmaRead a n s = .done (setDma [] 0 s) got) := by
  unfold dmaRead
  split
  · next h =>
    simp only [Bool.and_eq_true, List.isEmpty_iff, Bool.not_eq_true'] at h
    exact .inl ⟨h.1, h.2, rfl⟩
  · split
    · next h =>
      simp only [Bool.and_eq_true, List.isEmpty_iff] at h
      exact .inr (.inr (.inl ⟨h.1, rfl⟩))
    · generalize (if s.vqp.dma.isEmpty then a else s.vqp.dmaAddr) = base
      dsimp only
      by_cases hl : (s.vqp.dma ++ [guestByte s (base + s.vqp.dma.length)]).length < n
      · rw [if_pos hl]; exact .inr (.inl ⟨_, _, by simp, rfl⟩)
      · rw [if_neg hl]; exact .inr (.inr (.inr ⟨_, rfl⟩))

/-- An aligned read of at most 8 admitted bytes is one step and reads what is there. -/
theorem dmaRead_atomic (a n : Nat) (s : State) (hd : s.vqp.dma = []) (hg : guestAdmits s.cfg a n = true)
    (ha : dmaAtomic a n = true) : dmaRead a n s = .done s (guestBytes s a n) := by
  simp [dmaRead, hd, hg, ha]

/-- A read that is not admitted holds. -/
theorem dmaRead_held (a n : Nat) (s : State) (hd : s.vqp.dma = []) (hg : guestAdmits s.cfg a n = false) :
    dmaRead a n s = .held := by
  simp [dmaRead, hd, hg]

/-- What one step of a DMA write can do: hold; write the first byte of what is left; be complete. -/
theorem dmaWrite_cases (a : Nat) (bytes : List Byte) (s : State) :
    (s.vqp.dma = [] ∧ guestAdmits s.cfg a bytes.length = false ∧ dmaWrite a bytes s = .held) ∨
      (s.vqp.dma = [] ∧ guestAdmits s.cfg a bytes.length = true ∧
        dmaWrite a bytes s = .done (guestStore a bytes s) bytes) ∨
      (∃ base left, 
        ((s.vqp.dma = [] ∧ base = a ∧ left = bytes ∧ guestAdmits s.cfg a bytes.length = true) ∨
          (s.vqp.dma ≠ [] ∧ base = s.vqp.dmaAddr ∧ left = s.vqp.dma)) ∧
        ((1 < left.length ∧ dmaWrite a bytes s =
            .more (setDma (left.drop 1) (base + 1) (guestStore base (left.take 1) s))) ∨
          (left.length ≤ 1 ∧ dmaWrite a bytes s =
            .done (setDma [] 0 (guestStore base (left.take 1) s)) bytes))) := by
  by_cases hd : s.vqp.dma = []
  · cases hg : guestAdmits s.cfg a bytes.length with
    | false => exact .inl ⟨hd, rfl, by simp [dmaWrite, hd, hg]⟩
    | true =>
      cases ha : dmaAtomic a bytes.length with
      | true => exact .inr (.inl ⟨hd, rfl, by simp [dmaWrite, hd, hg, ha]⟩)
      | false =>
        refine .inr (.inr ⟨a, bytes, .inl ⟨hd, rfl, rfl, rfl⟩, ?_⟩)
        by_cases hl : bytes.length ≤ 1
        · exact .inr ⟨hl, by simp [dmaWrite, hd, hg, ha, hl]⟩
        · exact .inl ⟨by omega, by simp [dmaWrite, hd, hg, ha, hl]⟩
  · refine .inr (.inr ⟨s.vqp.dmaAddr, s.vqp.dma, .inr ⟨hd, rfl, rfl⟩, ?_⟩)
    by_cases hl : s.vqp.dma.length ≤ 1
    · exact .inr ⟨hl, by simp [dmaWrite, hd, hl]⟩
    · exact .inl ⟨by omega, by simp [dmaWrite, hd, hl]⟩

/-! ### FIFO and legacy operations -/

/-- What a legacy push can do. -/
theorem legacyPush_cases (data : Word32) (s : State) :
    (pushBlocked s = true ∧ legacyPush data s = respond (.err .fifoFull) s) ∨
      (pushBlocked s = false ∧
        legacyPush data s = respond .ok { pushFifo (data ++ s.loLatch) .legacy s with loLatch := 0 }) := by
  unfold legacyPush
  cases h : pushBlocked s <;> simp

theorem pushBlocked_iff (s : State) :
    pushBlocked s = false ↔ s.lock = .free ∧ s.fifo.length < s.cfg.fifoDepth := by
  cases hl : s.lock <;> simp [pushBlocked, hl]

/-! ### Segments -/

/-- A byte number below the total length has an address. -/
theorem segAddr_isSome (l : List (Nat × Nat)) (t : Nat) (h : t < segLength l) :
    ∃ a, segAddr l t = some a := by
  induction l generalizing t with
  | nil => simp [segLength] at h
  | cons c r ih =>
    obtain ⟨a, n⟩ := c
    simp only [segLength] at h
    simp only [segAddr]
    split
    · exact ⟨_, rfl⟩
    · exact ih _ (by omega)

/-! ### Translator -/

/-- What the lookup of a resource can answer. -/
theorem lookupResource_some (s : State) (id : Word32) (r : Resource) (h : lookupResource s id = some r) :
    id ≠ 0 ∧ assocGet id.toNat s.resources = some r := by
  unfold lookupResource at h
  split at h
  · cases h
  · next h0 => exact ⟨h0, h⟩

/-- First fit from candidate `m` answers a candidate that fits the heap and overlaps no resource. -/
theorem allocFrom_spec (p : Params) (rs : List (Nat × Resource)) (size fuel m b : Nat)
    (h : allocFrom p rs size fuel m = some b) :
    (∃ k, b = p.resHeapBase + k * p.allocAlign) ∧ b + size ≤ p.stagingBase ∧
      ∀ r ∈ rs, overlapsResource b size r.2 = false := by
  induction fuel generalizing m with
  | zero => cases h
  | succ fuel ih =>
    simp only [allocFrom] at h
    split at h
    · cases h
    · split at h
      · exact ih _ h
      · next h1 h2 =>
        cases h
        refine ⟨⟨m, rfl⟩, by omega, ?_⟩
        intro r hr
        simp only [List.any_eq_true, not_exists, not_and, Bool.not_eq_true] at h2
        exact h2 r hr

/-- Overlap of two regions is symmetric. -/
theorem overlaps_symm (a b : Resource) (h : overlapsResource a.base a.size b = false) : 
   overlapsResource b.base b.size a = false := by
  simp only [overlapsResource, Bool.and_eq_false_iff, decide_eq_false_iff_not] at h ⊢
  tauto

/-- The bits of the VirtIO status that the device looks at. -/
theorem hasStatus_driverOk (a : BitVec 8) : hasStatus a statusDriverOk = a.getLsbD 2 := by revert a; decide

theorem hasStatus_featuresOk (a : BitVec 8) : hasStatus a statusFeaturesOk = a.getLsbD 3 := by revert a; decide

theorem hasStatus_needsReset (a : BitVec 8) : hasStatus a statusNeedsReset = a.getLsbD 6 := by revert a; decide

end Sys2Proof.Machine
end

