-- ==== Sys2Proof/Laws/Steps.lean ====
section
/-! SUPPORT. What each meaning can do: one inversion lemma for each kind of instruction. -/
namespace Sys2Proof

/-! ### The carrier decides the format -/

theorem lookup_mem {α β : Type} [BEq α] [LawfulBEq α] (k : α) (v : β) (rows : List (α × β))
    (h : rows.lookup k = some v) : (k, v) ∈ rows := by
  induction rows with
  | nil => cases h
  | cons c r ih =>
    obtain ⟨k', v'⟩ := c
    simp only [List.lookup] at h
    split at h
    · next e => cases h; rw [beq_iff_eq.1 e]; simp
    · exact List.mem_cons_of_mem _ (ih h)

/-- A command word decodes to a native command. -/
theorem source_of_command (w : Word64) (i : Instr) (h : decode (.command w) = .instr i) :
    source i = .fifo := by
  simp only [decode, decodeCommand] at h
  split_ifs at h <;> cases h <;> rfl

/-- A request decodes to a VirtIO-GPU command. -/
theorem source_of_request (bs : List Byte) (i : Instr) (h : decode (.request bs) = .instr i) :
    source i = .request := by
  simp only [decode, decodeRequest] at h
  split at h
  · cases h
  · split at h
    · next len j hs =>
      split at h
      · cases h
      · cases h
        unfold decodeSupported at hs
        split at hs <;> cases hs <;> rfl
    · split at h
      · next j hu =>
        cases h
        unfold decodeUnsupported at hu
        split at hu
        all_goals first
          | (cases hu; rfl)
          | (split at hu <;> cases hu; rfl)
      · cases h

/-- A bus access decodes to a register access. -/
theorem source_of_access (a : BusAccess) (i : Instr) (h : decode (.access a) = .instr i) :
    source i = .access := by
  have h1 : ∀ p ∈ legReadRows, source p.2 = .access := by decide
  have h2 : ∀ p ∈ legWriteRows, ∀ d, source (p.2 d) = .access := by simp [legWriteRows, source]
  have h3 : ∀ p ∈ vioReadRows, source p.2 = .access := by decide
  have h4 : ∀ p ∈ vioWriteRows, ∀ d, source (p.2 d) = .access := by simp [vioWriteRows, source]
  cases a with
  | legRead off n =>
    simp only [decode, decodeAccess] at h
    split at h
    · cases h
    · split at h
      · next e => cases h; exact h1 _ (lookup_mem _ _ _ e)
      · cases h
  | legWrite off n d =>
    simp only [decode, decodeAccess] at h
    split at h
    · cases h
    · split at h
      · next e => cases h; exact h2 _ (lookup_mem _ _ _ e) d
      · cases h
  | vioRead off n =>
    simp only [decode, decodeAccess] at h
    split at h
    · cases h
    · split at h
      · next e => cases h; exact h3 _ (lookup_mem _ _ _ e)
      · cases h; rfl
  | vioWrite off n d =>
    simp only [decode, decodeAccess] at h
    split at h
    · cases h
    · split at h
      · next e => cases h; exact h4 _ (lookup_mem _ _ _ e) d
      · cases h; rfl

end Sys2Proof

namespace Sys2Proof.Machine

/-! ### Native commands -/

/-- What the Parse of a valid word does (41_fifo_decoder.md R180). -/
inductive CommandEffect (s : State) : State → Prop where
  | skip : CommandEffect s (popFifo s)
  | enter (p : Producer) : CommandEffect s (startOperation .eol p Regs.zero (popFifo s))
  | reg (r : RegId) (v : Word32) : CommandEffect s (setReg r v (popFifo s))
  | fault (c : BitVec 8) (hc : c = codeInvalidRegister ∨ c = codeOutOfRange) :
      CommandEffect s (raiseFault c (popFifo s))
  | draw (k : OpKind) (p : Producer) (hk : k ≠ .eol)
      (h : drawInBounds k s.regs s.cfg.vramSize = true) :
      CommandEffect s (startOperation k p s.regs (popFifo s))

theorem parseDraw_effect (k : OpKind) (s : State) (hk : k ≠ .eol) : CommandEffect s (parseDraw k s) := by
  unfold parseDraw
  split
  · next h => exact .draw k _ hk h
  · exact .fault _ (.inr rfl)

theorem exec_command (i : Instr) (s : State) (hi : source i = .fifo) :
    ∃ t, exec i s = .next t ∧ CommandEffect s t := by
  cases i with
  | nop => exact ⟨_, rfl, .skip⟩
  | eol => exact ⟨_, rfl, .enter _⟩
  | setReg sel val =>
    refine ⟨_, rfl, ?_⟩
    unfold setRegEffect
    split
    · exact .reg _ _
    · exact .fault _ (.inl rfl)
  | fill => exact ⟨_, rfl, parseDraw_effect _ s (by decide)⟩
  | blit => exact ⟨_, rfl, parseDraw_effect _ s (by decide)⟩
  | _ => cases hi

/-! ### Register accesses -/

/-- What a valid register access does before it is answered. -/
inductive AccessEffect (s : State) : State → Prop where
  | same : AccessEffect s s
  | reg (r : RegId) (v : Word32) : AccessEffect s (setReg r v s)
  | irqEnable (v : BitVec 2) : AccessEffect s { s with irqEnable := v }
  | loLatch (v : Word32) : AccessEffect s { s with loLatch := v }
  | push (w : Word64) (h : pushBlocked s = false) :
      AccessEffect s { pushFifo w .legacy s with loLatch := 0 }
  | ctrl (flush done fault : Bool) :
      AccessEffect s
        { s with
          fifo := if flush then s.fifo.filter (fun e => e.producer == .virtio) else s.fifo
          loLatch := if flush then 0 else s.loLatch
          done := if done then false else s.done
          fault := if fault then false else s.fault
          faultCode := if fault then 0 else s.faultCode }
  | deviceSel (d : Word32) : AccessEffect s { s with vio := { s.vio with devFeaturesSel := d } }
  | driverSel (d : Word32) : AccessEffect s { s with vio := { s.vio with drvFeaturesSel := d } }
  | queueSel (d : Word32) : AccessEffect s { s with vio := { s.vio with queueSel := d } }
  | features (w : Word64) (h : hasStatus s.vio.status statusFeaturesOk = false) :
      AccessEffect s { s with vio := { s.vio with driverFeatures := w } }
  | ack (d : Word32) : AccessEffect s (interruptAck d s)
  | events (d : Word32) : AccessEffect s (eventsClear d s)
  | status (v : BitVec 8) (h : v ≠ 0) :
      AccessEffect s
        { s with vio := { s.vio with
            negFailed := negFailedAfter v s.vio
            status := statusAfter v s.vio.status (negFailedAfter v s.vio) } }
  | reset : AccessEffect s (deviceReset s)
  | error : AccessEffect s (deviceError s)
  | configure (q : QueueId) (v : Queue) (h : (getQueue s q).ready = false) (hr : v.ready = false)
      (hp : v.pending = (getQueue s q).pending) : AccessEffect s (setQueue q v s)
  | enable (q : QueueId) (h : queueSizeOk s (getQueue s q).num = true) :
      AccessEffect s
        (setQueue q { getQueue s q with ready := true, lastAvail := 0, usedIdx := 0, pending := false } s)
  | disable (q : QueueId) :
      AccessEffect s (setQueue q { getQueue s q with ready := false, pending := false } s)
  | notify (q : QueueId) (h : serviceable s (getQueue s q) = true) :
      AccessEffect s (setQueue q { getQueue s q with pending := true } s)

theorem ctrl_effect (data : Word32) (s : State) :
    ∃ u, ctrlWrite data s = respond .ok u ∧ AccessEffect s u := by
  have h := AccessEffect.ctrl (s := s) (data.getLsbD 0) (data.getLsbD 1) (data.getLsbD 2)
  refine ⟨_, rfl, ?_⟩
  cases h0 : data.getLsbD 0 <;> cases h1 : data.getLsbD 1 <;> cases h2 : data.getLsbD 2 <;>
    (rw [h0, h1, h2] at h; exact h)

theorem push_effect (data : Word32) (s : State) :
    ∃ r u, legacyPush data s = respond r u ∧ AccessEffect s u := by
  rcases legacyPush_cases data s with ⟨_, e⟩ | ⟨h, e⟩
  · exact ⟨_, _, e, .same⟩
  · exact ⟨_, _, e, .push _ h⟩

theorem configure_effect (f : Queue → Queue) (s : State) (hr : ∀ q, (f q).ready = q.ready)
    (hp : ∀ q, (f q).pending = q.pending) : AccessEffect s (configureQueue f s) := by
  unfold configureQueue
  split
  · exact .same
  · next q _ =>
    split
    · exact .same
    · next h =>
      exact .configure q _ (by simpa using h) (by rw [hr]; simpa using h) (hp _)

theorem queueReady_effect (data : Word32) (s : State) : AccessEffect s (queueReadyWrite data s) := by
  unfold queueReadyWrite
  split
  · exact .same
  · next q _ =>
    split
    · unfold enableQueue
      dsimp only
      split
      · exact .same
      · split
        · next h => exact .enable q h
        · exact .error
    · exact .disable q

theorem notify_effect (data : Word32) (s : State) : AccessEffect s (queueNotify data s) := by
  unfold queueNotify
  split
  · exact .same
  · next q _ =>
    split
    · next h => exact .notify q h
    · exact .same

theorem features_effect (data : Word32) (s : State) : AccessEffect s (driverFeaturesWrite data s) := by
  unfold driverFeaturesWrite
  split
  · exact .same
  · next h =>
    have h' : hasStatus s.vio.status statusFeaturesOk = false := by simpa using h
    split
    · exact .features _ h'
    · split
      · exact .features _ h'
      · exact .same

theorem status_effect (data : Word32) (s : State) : AccessEffect s (statusWrite data s) := by
  unfold statusWrite
  dsimp only
  split
  · exact .reset
  · next h => exact .status _ h

/-- A register access answers, after one of the effects above. -/
theorem exec_access (i : Instr) (s : State) (hi : source i = .access) :
    ∃ r u, exec i s = .next (respond r u) ∧ AccessEffect s u := by
  cases i with
  | legWriteIrqEnable d => exact ⟨_, _, rfl, .irqEnable _⟩
  | legWriteFifoDataLo d => exact ⟨_, _, rfl, .loLatch _⟩
  | legWriteFifoPush d =>
    obtain ⟨r, u, e, h⟩ := push_effect d s
    exact ⟨r, u, congrArg _ e, h⟩
  | legWriteCtrl d =>
    obtain ⟨u, e, h⟩ := ctrl_effect d s
    exact ⟨_, u, congrArg _ e, h⟩
  | vioWriteDeviceFeaturesSel d => exact ⟨_, _, rfl, .deviceSel d⟩
  | vioWriteDriverFeaturesSel d => exact ⟨_, _, rfl, .driverSel d⟩
  | vioWriteQueueSel d => exact ⟨_, _, rfl, .queueSel d⟩
  | vioWriteDriverFeatures d => exact ⟨_, _, rfl, features_effect d s⟩
  | vioWriteQueueReady d => exact ⟨_, _, rfl, queueReady_effect d s⟩
  | vioWriteQueueNotify d => exact ⟨_, _, rfl, notify_effect d s⟩
  | vioWriteInterruptACK d => exact ⟨_, _, rfl, .ack d⟩
  | vioWriteStatus d => exact ⟨_, _, rfl, status_effect d s⟩
  | vioWriteEventsClear d => exact ⟨_, _, rfl, .events d⟩
  | vioOther off data => cases data <;> exact ⟨_, _, rfl, .same⟩
  | nop | eol | setReg _ _ | fill | blit => cases hi
  | cmdGetDisplayInfo _ | cmdResourceCreate2d _ _ _ _ _ | cmdResourceUnref _ _
  | cmdSetScanout _ _ _ _ | cmdResourceFlush _ _ _ | cmdTransferToHost2d _ _ _ _
  | cmdResourceAttachBacking _ _ _ _ | cmdResourceDetachBacking _ _ | cmdGetCapsetInfo _
  | cmdGetCapset _ | cmdGetEdid _ | cmdResourceAssignUuid _ | cmdResourceCreateBlob _
  | cmdSetScanoutBlob _ | cmdUpdateCursor _ | cmdMoveCursor _ | cmd3dRange _ _ => cases hi
  | _ =>
    first
      | exact ⟨_, _, rfl, .same⟩
      | exact ⟨_, _, rfl, .reg _ _⟩
      | exact ⟨_, _, rfl, configure_effect _ s (fun _ => rfl) (fun _ => rfl)⟩

/-! ### VirtIO-GPU commands -/

/-- What a request does to the resource table, the scan-out and the fault latches. -/
inductive TableEffect (s : State) : State → Prop where
  | same : TableEffect s s
  | fault : TableEffect s (raiseFault codeUnknownResource s)
  | create (id format w h : Word32) (b : Nat) (hid : id ≠ 0) (hn : assocGet id.toNat s.resources = none)
      (hf : formatAccepted format = true) (hw : 1 ≤ w.toNat ∧ w.toNat ≤ s.cfg.maxResW)
      (hh : 1 ≤ h.toNat ∧ h.toNat ≤ s.cfg.maxResH) (hl : s.resources.length < s.cfg.maxResources)
      (hb : allocRegion s.cfg s.resources (4 * w.toNat * h.toNat) = some b) :
      TableEffect s (putResource id
        { format, width := w.toNat, height := h.toNat, stride := 4 * w.toNat, base := b,
          size := 4 * w.toNat * h.toNat, backing := none } s)
  | backing (id : Word32) (r : Resource) (b : Option (List BackingEntry))
      (h : lookupResource s id = some r) : TableEffect s (putResource id { r with backing := b } s)
  | remove (id : Word32) (r : Resource) (h : lookupResource s id = some r) :
      TableEffect s (removeResource id s)
  | scanoutOff : TableEffect s { s with scanout := Scanout.off }
  | scanoutOn (id : Word32) (res : Resource) (r : Rect) (h : lookupResource s id = some res)
      (hw : r.width ≠ 0) (hh : r.height ≠ 0) (hi : rectInside r res.width res.height = true) :
      TableEffect s { s with scanout := { enabled := true, resourceId := id, rect := r,
                                          base := resourceAddr res r.x r.y, stride := res.stride } }

/-- The staging plan a request leaves: none, or the copy of a transfer that passed its checks. -/
inductive PlanEffect (s : State) : List Word64 → Option StagingPlan → Prop where
  | none (group : List Word64) : PlanEffect s group .none
  | transfer (group : List Word64) (id : Word32) (res : Resource) (backing : List BackingEntry) (r : Rect)
      (offset : Nat) (hg : group ≠ []) (h : lookupResource s id = some res)
      (hi : rectInside r res.width res.height = true) (hw : r.width ≠ 0) (hh : r.height ≠ 0)
      (hl : offset + (r.height.toNat - 1) * res.stride + 4 * r.width.toNat ≤
        segLength (backingSegs backing)) :
      PlanEffect s group (some { backing, stride := res.stride, width := r.width.toNat,
                                 height := r.height.toNat, offset })

/-- The outcome of a request's meaning. -/
def RequestOutcome (s t : State) : Prop :=
  ∃ u resp group plan, t = finishTranslate resp group plan u ∧ TableEffect s u ∧ PlanEffect s group plan

theorem answerError_outcome (c : Nat) (h : CtrlHdr) (s : State) : RequestOutcome s (answerError c h s) :=
  ⟨s, _, _, _, rfl, .same, .none _⟩

theorem unknownResource_outcome (h : CtrlHdr) (s : State) : RequestOutcome s (unknownResource h s) :=
  ⟨_, _, _, _, rfl, .fault, .none _⟩

theorem answerOk_outcome (h : CtrlHdr) (g : List Word64) (s u : State) (hu : TableEffect s u) :
    RequestOutcome s (answerOk h g u) := ⟨u, _, _, _, rfl, hu, .none _⟩

theorem createResource_outcome (h : CtrlHdr) (id f w l : Word32) (s : State) :
    RequestOutcome s (createResource h id f w l s) := by
  unfold createResource
  split
  · exact answerError_outcome ..
  · next h1 =>
    split
    · exact answerError_outcome ..
    · next h2 =>
      split
      · exact answerError_outcome ..
      · next h3 =>
        split
        · exact answerError_outcome ..
        · next h4 =>
          split
          · exact answerError_outcome ..
          · next b hb =>
            simp only [Bool.or_eq_true, decide_eq_true_eq, not_or, Bool.not_eq_true,
              Option.isSome_eq_false_iff, Option.isNone_iff_eq_none] at h1
            simp only [Bool.or_eq_true, decide_eq_true_eq, not_or, Nat.not_lt] at h3
            have hw : w.toNat ≠ 0 := fun e => h3.1.1.1 (BitVec.eq_of_toNat_eq e)
            have hh : l.toNat ≠ 0 := fun e => h3.1.1.2 (BitVec.eq_of_toNat_eq e)
            exact answerOk_outcome _ _ _ _ (.create id f w l b h1.1 h1.2 (by simpa using h2)
              ⟨by omega, h3.1.2⟩ ⟨by omega, h3.2⟩ (by omega) hb)

theorem setScanout_outcome (h : CtrlHdr) (r : Rect) (sc id : Word32) (s : State) :
    RequestOutcome s (setScanout h r sc id s) := by
  unfold setScanout
  split
  · exact answerError_outcome ..
  · split
    · exact answerOk_outcome _ _ _ _ .scanoutOff
    · split
      · exact unknownResource_outcome ..
      · next res hr =>
        split
        · exact answerError_outcome ..
        · next hc =>
          simp only [Bool.or_eq_true, decide_eq_true_eq, not_or, Bool.not_eq_true,
            Bool.not_eq_false'] at hc
          exact answerOk_outcome _ _ _ _ (.scanoutOn id res r hr hc.1.1 hc.1.2 hc.2)

theorem transferGroup_ne_nil (p : Params) (r : Rect) (res : Resource) (sc : Scanout) :
    transferGroup p r res sc ≠ [] := by simp [transferGroup, blitGroup]

theorem transferToHost_outcome (h : CtrlHdr) (r : Rect) (off : Word64) (id : Word32) (s : State) :
    RequestOutcome s (transferToHost h r off id s) := by
  unfold transferToHost
  split
  · exact unknownResource_outcome ..
  · next res hr =>
    split
    · exact answerError_outcome ..
    · next backing hb =>
      split
      · exact answerError_outcome ..
      · next hi =>
        split
        · exact answerOk_outcome _ _ _ _ .same
        · next hz =>
          split
          · exact answerError_outcome ..
          · next hl =>
            simp only [Bool.or_eq_true, decide_eq_true_eq, not_or] at hz
            exact ⟨s, _, _, _, rfl, .same, .transfer _ id res backing r off.toNat
              (transferGroup_ne_nil _ _ _ _) hr (by simpa using hi) hz.1 hz.2 (by omega)⟩

theorem attachBacking_outcome (h : CtrlHdr) (id n : Word32) (es : List BackingEntry) (s : State) :
    RequestOutcome s (attachBacking h id n es s) := by
  unfold attachBacking
  split
  · exact answerError_outcome ..
  · split
    · exact unknownResource_outcome ..
    · next res hr =>
      split
      · exact answerError_outcome ..
      · exact answerOk_outcome _ _ _ _ (.backing id res (some es) hr)

/-- A VirtIO-GPU command leaves a response, a group and a plan, after one of the effects above. -/
theorem exec_request (i : Instr) (s : State) (hi : source i = .request) :
    ∃ t, exec i s = .next t ∧ RequestOutcome s t := by
  cases i with
  | cmdGetDisplayInfo h => exact ⟨_, rfl, s, _, _, _, rfl, .same, .none _⟩
  | cmdResourceCreate2d h id f w l => exact ⟨_, rfl, createResource_outcome ..⟩
  | cmdResourceUnref h id =>
    simp only [exec, execCmdResourceUnref]
    split
    · exact ⟨_, rfl, unknownResource_outcome ..⟩
    · next r hr => exact ⟨_, rfl, answerOk_outcome _ _ _ _ (.remove id r hr)⟩
  | cmdSetScanout h r sc id => exact ⟨_, rfl, setScanout_outcome ..⟩
  | cmdResourceFlush h r id =>
    simp only [exec, execCmdResourceFlush]
    split
    · exact ⟨_, rfl, unknownResource_outcome ..⟩
    · split
      · exact ⟨_, rfl, answerError_outcome ..⟩
      · exact ⟨_, rfl, answerOk_outcome _ _ _ _ .same⟩
  | cmdTransferToHost2d h r off id => exact ⟨_, rfl, transferToHost_outcome ..⟩
  | cmdResourceAttachBacking h id n es => exact ⟨_, rfl, attachBacking_outcome ..⟩
  | cmdResourceDetachBacking h id =>
    simp only [exec, execCmdResourceDetachBacking]
    split
    · exact ⟨_, rfl, unknownResource_outcome ..⟩
    · next r hr =>
      split
      · exact ⟨_, rfl, answerOk_outcome _ _ _ _ (.backing id r none hr)⟩
      · exact ⟨_, rfl, answerError_outcome ..⟩
  | cmdGetCapsetInfo h | cmdGetCapset h | cmdGetEdid h | cmdResourceAssignUuid h
  | cmdResourceCreateBlob h | cmdSetScanoutBlob h | cmdUpdateCursor h | cmdMoveCursor h
  | cmd3dRange h _ => exact ⟨_, rfl, answerError_outcome ..⟩
  | _ => cases hi

end Sys2Proof.Machine
end

