-- ==== Sys2Proof/Laws/Agents.lean ====
section
/-! SUPPORT. What each agent's turn can do: one inversion lemma an agent, and one for a step. -/
namespace Sys2Proof.Machine

/-! ### Host -/

/-- A turn of the host. -/
inductive HostEffect (s : State) : State → Prop where
  | idle (h : s.hostOps = []) : HostEffect s s
  | access (a : BusAccess) (rest : List HostOp) (h : s.hostOps = .access a :: rest) (r : BusResponse)
      (u : State) (hu : AccessEffect { s with hostOps := rest } u) : HostEffect s (respond r u)
  | answer (op : HostOp) (rest : List HostOp) (h : s.hostOps = op :: rest) (r : BusResponse) :
      HostEffect s (respond r { s with hostOps := rest })
  | vram (a n : Nat) (data : Word32) (rest : List HostOp) (h : s.hostOps = .vramWrite a n data :: rest)
      (hv : a + n ≤ s.cfg.vramSize) :
      HostEffect s
        (respond .ok (taintAll a n (vramStore { s with hostOps := rest } a (leBytes n data.toNat))))
  | read (a : Word64) (n : Nat) (rest : List HostOp) (h : s.hostOps = .guestRead a n :: rest)
      (bytes : List Byte) : HostEffect s { s with hostOps := rest, hostRead := bytes }
  | guest (a : Word64) (bytes : List Byte) (rest : List HostOp)
      (h : s.hostOps = .guestWrite a bytes :: rest) :
      HostEffect s (guestStore a.toNat (bytes.take (2 ^ 64 - a.toNat)) { s with hostOps := rest })

theorem hostStep_effect (s : State) : ∃ t, hostStep s = .next t ∧ HostEffect s t := by
  unfold hostStep
  split
  · next h => exact ⟨_, rfl, .idle h⟩
  · next op rest h =>
    cases op with
    | access a =>
      dsimp only [accessStep, fetchAccess]
      split
      · next i hd =>
        obtain ⟨r, u, e, hu⟩ := exec_access i { s with hostOps := rest } (source_of_access a i hd)
        exact ⟨_, e, .access a rest h r u hu⟩
      all_goals exact ⟨_, rfl, .answer _ rest h _⟩
    | vramRead a n =>
      obtain ⟨r, e⟩ := windowRead_cases a n { s with hostOps := rest }
      exact ⟨_, rfl, e ▸ .answer _ rest h r⟩
    | vramWrite a n d =>
      rcases windowWrite_cases a n d { s with hostOps := rest } with ⟨e, he⟩ | ⟨hv, _, _, he⟩
      · exact ⟨_, rfl, he ▸ .answer _ rest h _⟩
      · exact ⟨_, rfl, he ▸ .vram a n d rest h hv⟩
    | guestRead a n => exact ⟨_, rfl, .read a n rest h _⟩
    | guestWrite a bytes => exact ⟨_, rfl, .guest a bytes rest h⟩

/-! ### Pipeline -/

/-- A turn of Parse. -/
inductive ParseEffect (s : State) : State → Prop where
  | idle (h : parseEnabled s = false) : ParseEffect s s
  | invalid (h : parseEnabled s = true) (hd : ∀ i, decode (fetchCommand s) ≠ .instr i) :
      ParseEffect s (raiseFault codeInvalidOpcode (popFifo s))
  | command (h : parseEnabled s = true) (t : State) (ht : CommandEffect s t) : ParseEffect s t

theorem fetchCommand_eq (s : State) : ∃ w, fetchCommand s = .command w := by
  unfold fetchCommand
  split <;> exact ⟨_, rfl⟩

theorem parseEnabled_iff (s : State) :
    parseEnabled s = true ↔ s.fifo ≠ [] ∧ s.inflight.length < s.cfg.pipeDepth := by
  simp [parseEnabled]

theorem parseStep_effect (s : State) : ∃ t, parseStep s = .next t ∧ ParseEffect s t := by
  unfold parseStep
  split
  · next h =>
    split
    · next i hd =>
      obtain ⟨w, hw⟩ := fetchCommand_eq s
      obtain ⟨t, e, ht⟩ := exec_command i s (source_of_command w i (hw ▸ hd))
      exact ⟨t, e, .command h t ht⟩
    all_goals next hd => exact ⟨_, rfl, .invalid h (by intro i; rw [hd]; exact fun e => by cases e)⟩
  · next h => exact ⟨_, rfl, .idle (by simpa using h)⟩

/-- A turn of the head of the in-flight list. -/
inductive HeadEffect (s : State) : State → Prop where
  | idle (h : s.inflight = []) : HeadEffect s s
  | skip (op : Operation) (rest : List Operation) (h : s.inflight = op :: rest) (hk : op.kind ≠ .eol)
      (hn : op.k < pixelCount op.snap) (draws : Nat) :
      HeadEffect s { s with inflight := nextPixel op :: rest, draws := draws }
  | write (op : Operation) (rest : List Operation) (h : s.inflight = op :: rest) (hk : op.kind ≠ .eol)
      (hn : op.k < pixelCount op.snap)
      (hv : dstAddr op.snap op.k + bytesPerPixel op.snap.pixelFmt ≤ s.cfg.vramSize) (out : Word32)
      (draws : Nat) : HeadEffect s (writePixel op rest out draws s)
  | retireEol (op : Operation) (rest : List Operation) (h : s.inflight = op :: rest)
      (hk : op.kind = .eol) : HeadEffect s (retireEol rest s)
  | retireDraw (op : Operation) (rest : List Operation) (h : s.inflight = op :: rest)
      (hk : op.kind ≠ .eol) (hn : pixelCount op.snap ≤ op.k) : HeadEffect s (retireDraw rest s)

theorem headStep_effect (s t : State) (e : headStep s = .next t) : HeadEffect s t := by
  unfold headStep at e
  split at e
  · next h => cases e; exact .idle h
  · next op rest h =>
    split at e
    · next hk => cases e; exact .retireEol op rest h hk
    · next hk =>
      split at e
      · next hn =>
        unfold pixelStep at e
        split at e
        · next hv =>
          simp only [pixelInVram, vramInRange, Bool.and_eq_true, decide_eq_true_eq] at hv
          dsimp only at e
          split at e
          · cases e; exact .skip op rest h hk hn _
          · cases e; exact .write op rest h hk hn hv.1 _ _
        · cases e
      · next hn => cases e; exact .retireDraw op rest h hk (by omega)

/-! ### Virtqueue processor -/

/-- Whether the processor is in one of the three phases of a group's push. -/
def atArbiter (p : Phase) : Bool := p == .acquire || p == .push || p == .release

/-- Where the processor writes guest memory in one step: `n` bytes from `a` (45_virtqueue.md R308, R309,
R310); of a write in parts, one byte at the address it has reached. -/
def guestWriteAt (s : State) (a n : Nat) : Prop :=
  (s.vqp.phase = .respond ∧ segAddr (writableSegs s.vqp.chain) s.vqp.written = some a ∧ n ≤ 1) ∨
  (s.vqp.phase = .usedElem ∧ (s.vqp.dma = [] → a = usedSlotAddr (servedQueue s) ∧ n ≤ 8) ∧
    (s.vqp.dma ≠ [] → a = s.vqp.dmaAddr ∧ n ≤ 1)) ∨
  (s.vqp.phase = .usedIdx ∧ (s.vqp.dma = [] → a = (servedQueue s).deviceAddr.toNat + 2 ∧ n ≤ 2) ∧
    (s.vqp.dma ≠ [] → a = s.vqp.dmaAddr ∧ n ≤ 1))

/-- A turn of the virtqueue processor. `position` covers every step that changes VQP alone. -/
inductive VqpEffect (s : State) : State → Prop where
  | hold : VqpEffect s s
  | position (v : Vqp) (h0 : atArbiter s.vqp.phase = false)
      (h1 : atArbiter v.phase = true → v.phase = .acquire ∧ v.group ≠ [])
      (h2 : v.phase ≠ .stage) (hd : dmaOk s.vqp = true → dmaOk v = true) :
      VqpEffect s { s with vqp := v }
  | select (q : QueueId) (h : s.vqp.phase = .idle)
      (hq : (getQueue s q).pending = true ∧ serviceable s (getQueue s q) = true) :
      VqpEffect s { setQueue q { getQueue s q with pending := false } s with
        vqp := { Vqp.idle with phase := .readIdx, queue := q } }
  | overrun (h : s.vqp.phase = .readIdx) : VqpEffect s (goIdle (deviceError s))
  | malformed (h : s.vqp.phase = .walk) (v : Vqp) (hp : v.phase = .usedElem) (hw : v.written = 0)
      (hd : v.dma = []) :
      VqpEffect s { raiseFault codeMalformedChain s with
        vqFaultCount := s.vqFaultCount + 1
        vqp := v }
  | translate (h : s.vqp.phase = .translate) (t : State) (ht : RequestOutcome s t) : VqpEffect s t
  | stage (p : StagingPlan) (b : Byte) (h : s.vqp.phase = .stage) (hp : s.vqp.plan = some p)
      (hc : s.vqp.copied < stagingTotal p)
      (hv : s.cfg.stagingBase + s.vqp.copied + 1 ≤ s.cfg.vramSize) : VqpEffect s (stageByte p b s)
  | acquire (h : s.vqp.phase = .acquire) (hl : s.lock = .free) :
      VqpEffect s { setPhase .push s with lock := .heldVirtio }
  | push (w : Word64) (ws : List Word64) (h : s.vqp.phase = .push) (hg : s.vqp.group = w :: ws)
      (hl : s.lock = .heldVirtio) (hf : s.fifo.length < s.cfg.fifoDepth) :
      VqpEffect s { pushFifo w .virtio s with
        vqp := { s.vqp with group := ws, phase := if ws.isEmpty then .release else .push } }
  | pushEnd (h : s.vqp.phase = .push) (hg : s.vqp.group = []) : VqpEffect s (setPhase .release s)
  | release (h : s.vqp.phase = .release) : VqpEffect s { setPhase .wait s with lock := .free }
  | guestWrite (q : QueueId) (u : BitVec 16) (a : Nat) (bytes : List Byte) (v : Vqp)
      (h : s.vqp.phase = .respond ∨ s.vqp.phase = .usedElem ∨ s.vqp.phase = .usedIdx)
      (hv : v.phase = .respond ∨ v.phase = .usedElem ∨ v.phase = .usedIdx ∨ v.phase = .notify)
      (hb : dmaOk s.vqp = true → a + bytes.length ≤ 2 ^ 64) (hd : dmaOk s.vqp = true → dmaOk v = true)
      (hw : guestWriteAt s a bytes.length) :
      VqpEffect s { guestStore a bytes (setQueue q { getQueue s q with usedIdx := u } s) with vqp := v }
  | notify (h : s.vqp.phase = .notify) (v : Vqp) (hv : v.phase = .readIdx ∨ v.phase = .idle)
      (hd : v.dma = []) : VqpEffect s { entryDone s with vqp := v }

/-- A step that moves the processor between phases that make no DMA write and hold no lock. -/
theorem position_effect (s : State) (v : Vqp) (h0 : atArbiter s.vqp.phase = false)
    (h1 : atArbiter v.phase = false) (h2 : v.phase ≠ .stage) (hd : dmaOk s.vqp = true → dmaOk v = true) :
    VqpEffect s { s with vqp := v } :=
  .position v h0 (fun h => by rw [h1] at h; cases h) h2 hd

/-- What a DMA read of a reading phase leaves, whatever the phase does with the bytes: the state with
the same position, or with the access's progress. -/
theorem dmaRead_state (a n : Nat) (s : State) :
    dmaRead a n s = .held ∨ (∃ got base, dmaRead a n s = .more (setDma got base s)) ∨
      (∃ v bs, dmaRead a n s = .done { s with vqp := v } bs ∧ v.dma = [] ∧
        v = { s.vqp with dma := [], dmaAddr := v.dmaAddr }) := by
  rcases dmaRead_cases a n s with ⟨_, _, e⟩ | ⟨g, b, _, e⟩ | ⟨hd, e⟩ | ⟨g, e⟩
  · exact .inl e
  · exact .inr (.inl ⟨g, b, e⟩)
  · exact .inr (.inr ⟨s.vqp, _, e, hd, by rw [← hd]⟩)
  · exact .inr (.inr ⟨_, g, e, rfl, rfl⟩)

theorem selectStep_effect (s : State) (h : s.vqp.phase = .idle) : VqpEffect s (selectStep s) := by
  unfold selectStep
  split
  · next hq => exact .select .ctrl h (by simpa [getQueue] using hq)
  · split
    · next hq => exact .select .cursor h (by simpa [getQueue] using hq)
    · exact .hold

theorem readIdxStep_unserviceable (s : State) (h : serviceable s (servedQueue s) = false) :
    readIdxStep s = goIdle s := by
  simp [readIdxStep, h]

theorem readIdxStep_effect (s : State) (h : s.vqp.phase = .readIdx) : VqpEffect s (readIdxStep s) := by
  have idle : VqpEffect s (goIdle s) :=
    position_effect s _ (by rw [h]; rfl) rfl (by decide) (fun _ => by decide)
  unfold readIdxStep
  split
  · rcases dmaRead_state ((servedQueue s).driverAddr.toNat + 2) 2 s with
      e | ⟨g, b, e⟩ | ⟨v, bs, e, hd, hv⟩ <;> rw [e]
    · exact .hold
    · exact position_effect s _ (by rw [h]; rfl) (by rw [h]; rfl) (by rw [h]; decide)
        (fun _ => by simp [dmaOk, h])
    · dsimp only [idxRead]
      split
      · exact idle
      · split
        · exact .overrun h
        · exact position_effect s _ (by rw [h]; rfl) rfl (by simp) (fun _ => by simp [dmaOk])
  · exact idle

theorem readSlotStep_effect (s : State) (h : s.vqp.phase = .readSlot) :
    VqpEffect s (readSlotStep s) := by
  unfold readSlotStep
  rcases dmaRead_state (availSlotAddr (servedQueue s)) 2 s with
    e | ⟨g, b, e⟩ | ⟨v, bs, e, hd, hv⟩ <;> rw [e]
  · exact .hold
  · exact position_effect s _ (by rw [h]; rfl) (by rw [h]; rfl) (by rw [h]; decide)
      (fun _ => by simp [dmaOk, h])
  · exact position_effect s _ (by rw [h]; rfl) rfl (by simp) (fun _ => by simp [dmaOk])

/-- A malformed chain, from a walking processor whose other fields are given. -/
theorem malformed_effect (s : State) (v : Vqp) (h : s.vqp.phase = .walk) :
    VqpEffect s (malformedChain { s with vqp := v }) :=
  .malformed h { v with phase := .usedElem, written := 0, dma := [] } rfl rfl rfl

theorem fieldRead_effect (bs : List Byte) (s : State) (v : Vqp) (h : s.vqp.phase = .walk)
    (hp : v.phase = .walk) (hd : v.dma = []) : VqpEffect s (fieldRead bs { s with vqp := v }) := by
  unfold fieldRead
  dsimp only
  split
  all_goals try
    exact position_effect s _ (by rw [h]; rfl) (by simp [hp, atArbiter]) (by simp [hp])
      (fun _ => by simp [dmaOk, hp])
  unfold descRead
  split
  · exact malformed_effect s v h
  · refine position_effect s _ (by rw [h]; rfl) ?_ ?_ ?_
    · dsimp only; split <;> rfl
    · dsimp only; split <;> decide
    · intro _
      dsimp only [dmaOk]
      split <;> simp_all

theorem walkStep_effect (s : State) (h : s.vqp.phase = .walk) : VqpEffect s (walkStep s) := by
  unfold walkStep
  split
  · exact malformed_effect s s.vqp h
  · obtain ⟨v0, hk, hp0⟩ : ∃ v0 : Vqp, keepDescBase s = { s with vqp := v0 } ∧ v0.phase = .walk := by
      unfold keepDescBase
      split
      · exact ⟨_, rfl, h⟩
      · exact ⟨s.vqp, rfl, h⟩
    dsimp only
    rw [hk]
    rcases dmaRead_state (v0.descBase + (descFieldAt s.vqp.curField).1) (descFieldAt s.vqp.curField).2
        { s with vqp := v0 } with e | ⟨g, b, e⟩ | ⟨v, bs, e, hd, hv⟩ <;> rw [e]
    · exact .hold
    · exact position_effect s _ (by rw [h]; rfl) (by simp [hp0, atArbiter])
        (by simp [hp0]) (fun _ => by simp [dmaOk, hp0])
    · refine fieldRead_effect bs s v h ?_ hd
      rw [hv]; exact hp0

theorem gatherStep_effect (s : State) (h : s.vqp.phase = .gather) : VqpEffect s (gatherStep s) := by
  have hd : dmaOk s.vqp = true → s.vqp.dma = [] := by simp [dmaOk, h]
  unfold gatherStep
  split
  · split
    · exact .hold
    · dsimp only
      split
      · refine position_effect s _ (by rw [h]; rfl) ?_ ?_ ?_
        · dsimp only; split <;> rfl
        · dsimp only; split <;> decide
        · intro hok
          have := hd hok
          dsimp only [dmaOk]
          split <;> simp_all
      · exact .hold
  · exact position_effect s _ (by rw [h]; rfl) rfl (by simp) (fun hok => by simp [dmaOk, hd hok])

/-- The phase after the staging copy is at the arbiter only with a group to push. -/
theorem phaseAfterStage_arbiter (g : List Word64) (h : atArbiter (phaseAfterStage g) = true) :
    phaseAfterStage g = .acquire ∧ g ≠ [] := by
  unfold phaseAfterStage at h ⊢
  cases g with
  | nil => cases h
  | cons w ws => exact ⟨rfl, by simp⟩

theorem dmaOk_phaseAfterStage (v : Vqp) (g : List Word64) (hd : v.dma = []) :
    dmaOk { v with phase := phaseAfterStage g } = true := by
  unfold phaseAfterStage
  split <;> simp [dmaOk, hd]

theorem stageStep_effect (s t : State) (h : s.vqp.phase = .stage) (e : stageStep s = .next t) :
    VqpEffect s t := by
  have hd : dmaOk s.vqp = true → s.vqp.dma = [] := by simp [dmaOk, h]
  have end_effect : VqpEffect s (setPhase (phaseAfterStage s.vqp.group) s) := by
    refine .position _ (by rw [h]; rfl) (phaseAfterStage_arbiter _) ?_
      (fun hok => dmaOk_phaseAfterStage _ _ (hd hok))
    dsimp only [phaseAfterStage]
    split <;> decide
  unfold stageStep at e
  split at e
  · cases e; exact end_effect
  · next p hp =>
    split at e
    · next hc =>
      split at e
      · cases e; exact .hold
      · split at e
        · split at e
          · next hv =>
            cases e
            exact .stage p _ h hp hc (by simpa [vramInRange] using hv)
          · cases e
        · cases e; exact .hold
    · cases e; exact end_effect

theorem setQueue_self (q : QueueId) (s : State) :
    setQueue q { getQueue s q with usedIdx := (getQueue s q).usedIdx } s = s := by
  cases q <;> rfl

/-- A write of guest memory that leaves the queues alone. -/
theorem guestWrite_effect (s : State) (a : Nat) (bytes : List Byte) (v : Vqp)
    (h : s.vqp.phase = .respond ∨ s.vqp.phase = .usedElem ∨ s.vqp.phase = .usedIdx)
    (hv : v.phase = .respond ∨ v.phase = .usedElem ∨ v.phase = .usedIdx ∨ v.phase = .notify)
    (hb : dmaOk s.vqp = true → a + bytes.length ≤ 2 ^ 64) (hd : dmaOk s.vqp = true → dmaOk v = true)
    (hw : guestWriteAt s a bytes.length) :
    VqpEffect s { guestStore a bytes s with vqp := v } := by
  have := VqpEffect.guestWrite (s := s) .ctrl (getQueue s .ctrl).usedIdx a bytes v h hv hb hd hw
  rwa [setQueue_self] at this

theorem respondStep_effect (s : State) (h : s.vqp.phase = .respond) : VqpEffect s (respondStep s) := by
  have hd : dmaOk s.vqp = true → s.vqp.dma = [] := by simp [dmaOk, h]
  unfold respondStep
  split
  · split
    · exact .hold
    · next a _ =>
      split
      · next hg =>
        refine guestWrite_effect s a _ _ (.inl h) ?_ (fun _ => guestAdmits_le _ _ _ hg) ?_ ?_
        · dsimp only; split <;> simp
        · intro hok
          have := hd hok
          dsimp only [dmaOk]
          split <;> simp_all
        · exact .inl ⟨h, ‹_›, Nat.le_refl 1⟩
      · exact .hold
  · exact position_effect s _ (by rw [h]; rfl) rfl (by simp) (fun hok => by simp [dmaOk, hd hok])

/-- The bytes of an access in parts that are under way. -/
theorem dmaOk_writing (v : Vqp) (h : v.phase = .usedElem ∨ v.phase = .usedIdx)
    (hok : dmaOk v = true) (hd : v.dma ≠ []) : v.dmaAddr + v.dma.length ≤ 2 ^ 64 := by
  rcases h with h | h <;> simpa [dmaOk, h, hd] using hok

/-- A phase that writes an element: hold, one more byte, or on to the next phase. -/
theorem dmaWrite_effect (s : State) (q : QueueId) (u : BitVec 16) (a : Nat) (bytes : List Byte)
    (p : Phase) (h : s.vqp.phase = .usedElem ∨ s.vqp.phase = .usedIdx)
    (hp : p = .usedIdx ∨ p = .notify)
    (hw : ∀ b n, (s.vqp.dma = [] → b = a ∧ n ≤ bytes.length) →
      (s.vqp.dma ≠ [] → b = s.vqp.dmaAddr ∧ n ≤ 1) → guestWriteAt s b n) :
    let s1 := setQueue q { getQueue s q with usedIdx := u } s
    dmaWrite a bytes s1 = .held ∨ (∃ t, dmaWrite a bytes s1 = .more t ∧ VqpEffect s t) ∨
      (∃ t, dmaWrite a bytes s1 = .done t bytes ∧ VqpEffect s (setPhase p t)) := by
  intro s1
  have hv1 : s1.vqp = s.vqp := by simp [s1]
  have hph : s.vqp.phase = .respond ∨ s.vqp.phase = .usedElem ∨ s.vqp.phase = .usedIdx := .inr h
  have hparts : ∀ (base : Nat) (left : List Byte),
      ((s1.vqp.dma = [] ∧ base = a ∧ left = bytes ∧ guestAdmits s1.cfg a bytes.length = true) ∨
        (s1.vqp.dma ≠ [] ∧ base = s1.vqp.dmaAddr ∧ left = s1.vqp.dma)) →
      (s.vqp.dma = [] → base = a ∧ (left.take 1).length ≤ bytes.length) ∧
        (s.vqp.dma ≠ [] → base = s.vqp.dmaAddr ∧ (left.take 1).length ≤ 1) := by
    intro base left hb
    rw [hv1] at hb
    rcases hb with ⟨hd, rfl, rfl, _⟩ | ⟨hd, rfl, rfl⟩
    · exact ⟨fun _ => ⟨rfl, by simp⟩, fun h => absurd hd h⟩
    · exact ⟨fun h => absurd h hd, fun _ => ⟨rfl, by simp⟩⟩
  have hnext : p = .respond ∨ p = .usedElem ∨ p = .usedIdx ∨ p = .notify := by
    rcases hp with rfl | rfl <;> simp
  rcases dmaWrite_cases a bytes s1 with ⟨_, _, e⟩ | ⟨hd, hg, e⟩ | ⟨base, left, hb, ⟨hl, e⟩ | ⟨hl, e⟩⟩
  · exact .inl e
  · refine .inr (.inr ⟨_, e, ?_⟩)
    rw [hv1] at hd
    have hle := guestAdmits_le _ _ _ hg
    have := VqpEffect.guestWrite (s := s) q u a bytes { s.vqp with phase := p } hph hnext
      (fun _ => hle) (fun _ => by rcases hp with rfl | rfl <;> simp [dmaOk, hd])
      (hw _ _ (fun _ => ⟨rfl, Nat.le_refl _⟩) (fun h => absurd hd h))
    simpa [setPhase, guestStore, s1] using this
  · refine .inr (.inl ⟨_, e, ?_⟩)
    have hle : dmaOk s.vqp = true → base + left.length ≤ 2 ^ 64 := by
      intro hok
      rcases hb with ⟨_, rfl, rfl, hg⟩ | ⟨hd, rfl, rfl⟩
      · exact guestAdmits_le _ _ _ hg
      · rw [hv1] at hd ⊢
        exact dmaOk_writing _ h hok hd
    have := VqpEffect.guestWrite (s := s) q u base (left.take 1)
      { s.vqp with dma := left.drop 1, dmaAddr := base + 1 } hph
      (by rcases h with h | h <;> simp [h])
      (fun hok => by have := hle hok; rw [List.length_take]; omega)
      (fun hok => by
        have := hle hok
        rcases h with h | h <;> simp [dmaOk, h] <;> exact .inr (by omega))
      (hw _ _ (hparts base left hb).1 (hparts base left hb).2)
    simpa [setDma, guestStore, s1] using this
  · refine .inr (.inr ⟨_, e, ?_⟩)
    have hle : dmaOk s.vqp = true → base + left.length ≤ 2 ^ 64 := by
      intro hok
      rcases hb with ⟨_, rfl, rfl, hg⟩ | ⟨hd, rfl, rfl⟩
      · exact guestAdmits_le _ _ _ hg
      · rw [hv1] at hd ⊢
        exact dmaOk_writing _ h hok hd
    have := VqpEffect.guestWrite (s := s) q u base (left.take 1)
      { s.vqp with dma := [], dmaAddr := 0, phase := p } hph hnext
      (fun hok => by have := hle hok; rw [List.length_take]; omega)
      (fun _ => by rcases hp with rfl | rfl <;> simp [dmaOk])
      (hw _ _ (hparts base left hb).1 (hparts base left hb).2)
    simpa [setDma, setPhase, guestStore, s1] using this

theorem usedElemStep_effect (s : State) (h : s.vqp.phase = .usedElem) :
    VqpEffect s (usedElemStep s) := by
  have := dmaWrite_effect s .ctrl (getQueue s .ctrl).usedIdx (usedSlotAddr (servedQueue s))
    (usedElement s.vqp) .usedIdx (.inl h) (.inl rfl)
    (fun b n h1 h2 => .inr (.inl ⟨h, fun hd => by simpa [usedElement] using h1 hd, h2⟩))
  rw [setQueue_self] at this
  unfold usedElemStep
  rcases this with e | ⟨t, e, ht⟩ | ⟨t, e, ht⟩ <;> rw [e]
  · exact .hold
  · exact ht
  · exact ht

theorem bumpUsedIdx_eq (s : State) : ∃ u, bumpUsedIdx s =
    setQueue s.vqp.queue { getQueue s s.vqp.queue with usedIdx := u } s := by
  unfold bumpUsedIdx servedQueue
  split
  · exact ⟨_, rfl⟩
  · exact ⟨_, (setQueue_self s.vqp.queue s).symm⟩

theorem usedIdxStep_effect (s : State) (h : s.vqp.phase = .usedIdx) : VqpEffect s (usedIdxStep s) := by
  obtain ⟨u, hu⟩ := bumpUsedIdx_eq s
  unfold usedIdxStep
  rw [hu]
  dsimp only
  rcases dmaWrite_effect s s.vqp.queue u
      ((servedQueue (setQueue s.vqp.queue { getQueue s s.vqp.queue with usedIdx := u } s)).deviceAddr.toNat + 2)
      (leBytes 2 (servedQueue (setQueue s.vqp.queue { getQueue s s.vqp.queue with usedIdx := u } s)).usedIdx.toNat)
      .notify (.inr h) (.inr rfl)
      (fun b n h1 h2 => .inr (.inr ⟨h, fun hd => by simpa [servedQueue] using h1 hd, h2⟩)) with e | ⟨t, e, ht⟩ | ⟨t, e, ht⟩ <;> rw [e]
  · exact .hold
  · exact ht
  · exact ht

theorem notifyStep_effect (s : State) (h : s.vqp.phase = .notify) : VqpEffect s (notifyStep s) := by
  unfold notifyStep
  dsimp only
  split
  · exact .notify h _ (.inl rfl) rfl
  · exact .notify h _ (.inr rfl) rfl

theorem rejectRequest_outcome (s : State) : RequestOutcome s (rejectRequest s) := answerError_outcome ..

theorem translateStep_effect (s : State) (h : s.vqp.phase = .translate) :
    ∃ t, translateStep s = .next t ∧ VqpEffect s t := by
  unfold translateStep fetchRequest
  split
  · next i hd =>
    obtain ⟨t, e, ht⟩ := exec_request i s (source_of_request _ i hd)
    exact ⟨t, e, .translate h t ht⟩
  all_goals exact ⟨_, rfl, .translate h _ (rejectRequest_outcome s)⟩

theorem vqpStep_effect (s t : State) (e : vqpStep s = .next t) : VqpEffect s t := by
  unfold vqpStep at e
  split at e
  · next h =>
    obtain ⟨u, hu, hv⟩ := translateStep_effect s h
    rw [hu] at e
    cases e
    exact hv
  · unfold vqpPhaseStep at e
    split at e
    · next h => cases e; exact selectStep_effect s h
    · next h => cases e; exact readIdxStep_effect s h
    · next h => cases e; exact readSlotStep_effect s h
    · next h => cases e; exact walkStep_effect s h
    · next h => cases e; exact gatherStep_effect s h
    · cases e; exact .hold
    · next h => exact stageStep_effect s t h e
    · next h =>
      cases e
      unfold acquireStep
      split
      · next hl => exact .acquire h hl
      · exact .hold
    · next h =>
      cases e
      unfold pushStep
      split
      · next hg => exact .pushEnd h hg
      · next w ws hg =>
        split
        · next hl =>
          simp only [Bool.and_eq_true, decide_eq_true_eq] at hl
          exact .push w ws h hg hl.1 hl.2
        · exact .hold
    · next h => cases e; exact .release h
    · next h =>
      cases e
      unfold waitStep
      split
      · exact .hold
      · exact position_effect s _ (by rw [h]; rfl) rfl (by simp)
          (fun hok => by
            have : s.vqp.dma = [] := by simpa [dmaOk, h] using hok
            simp [dmaOk, this])
    · next h => cases e; exact respondStep_effect s h
    · next h => cases e; exact usedElemStep_effect s h
    · next h => cases e; exact usedIdxStep_effect s h
    · next h => cases e; exact notifyStep_effect s h

/-! ### A step -/

/-- A step, from the state whose turn is taken. -/
inductive StepEffect (s : State) : Turn → State → Prop where
  | powerOn : StepEffect s .powerOn (powerOn s)
  | host (t : State) (h : HostEffect s t) : StepEffect s (.agent .host) t
  | parse (t : State) (h : ParseEffect s t) : StepEffect s (.agent .parse) t
  | head (t : State) (h : HeadEffect s t) : StepEffect s (.agent .head) t
  | vqp (t : State) (h : VqpEffect s t) : StepEffect s (.agent .vqp) t
  | display (x y : Nat) (d : Option Sample) : StepEffect s (.agent (.display x y)) { s with display := d }

theorem agentStep_effect (a : Agent) (s t : State) (e : agentStep a s = .next t) :
    StepEffect s (.agent a) t := by
  cases a with
  | host =>
    obtain ⟨u, hu, h⟩ := hostStep_effect s
    rw [agentStep, hu] at e
    cases e
    exact .host t h
  | parse =>
    obtain ⟨u, hu, h⟩ := parseStep_effect s
    rw [agentStep, hu] at e
    cases e
    exact .parse t h
  | head => exact .head t (headStep_effect s t e)
  | vqp => exact .vqp t (vqpStep_effect s t e)
  | display x y =>
    cases e
    unfold displayStep
    split
    · exact .display x y _
    · exact .display x y s.display

theorem step_effect (s t : State) (e : step s = .next t) : StepEffect (takeTurn s) (nextTurn s) t := by
  unfold step turnStep at e
  split at e
  · next a h => rw [h]; exact agentStep_effect a _ t e
  · next h => rw [h]; cases e; exact .powerOn

/-- No turn writes the parameters. -/
theorem stepEffect_cfg (s t : State) (trn : Turn) (e : StepEffect s trn t) : t.cfg = s.cfg := by
  cases e with
  | powerOn => rfl
  | host t h =>
    cases h with
    | access a rest h r u hu => cases hu <;> first | rfl | simp
    | _ => rfl
  | parse t h =>
    cases h with
    | command h t ht => cases ht <;> rfl
    | _ => rfl
  | head t h =>
    cases h with
    | retireDraw => unfold retireDraw; split <;> rfl
    | _ => rfl
  | vqp t h =>
    cases h with
    | select q h hq => cases q <;> rfl
    | translate h t ht =>
      obtain ⟨u, resp, group, plan, rfl, hu, hp⟩ := ht
      cases hu <;> rfl
    | guestWrite q u a bytes v h hv hb hd hw => cases q <;> rfl
    | notify h v hv hd => simp [entryDone]
    | _ => rfl
  | display => rfl

/-- No step writes the parameters. -/
theorem step_cfg (s t : State) (e : step s = .next t) : t.cfg = s.cfg :=
  stepEffect_cfg (takeTurn s) t _ (step_effect s t e)

end Sys2Proof.Machine
end

