-- ==== Sys2Proof/Laws/Fields.lean ====
section
/-! SUPPORT. Fields of byte strings, request layouts, and the fields of words, one lemma each. -/
namespace Sys2Proof

/-- The value of a concatenation. -/
theorem app_toNat {n m : Nat} (x : BitVec n) (y : BitVec m) : (x ++ y).toNat = x.toNat * 2 ^ m + y.toNat := by
  rw [BitVec.toNat_append, ← Nat.shiftLeft_add_eq_or_of_lt y.isLt, Nat.shiftLeft_eq]

/-- A field's bytes are the bytes it was read from. -/
theorem leBytes_leField (bs : List Byte) (off n : Nat) (h : off + n ≤ bs.length) :
    leBytes n (leField bs off n) = (bs.drop off).take n := by
  have e : ((bs.drop off).take n).length = n := by simp; omega
  unfold leField
  have := leBytes_leNat ((bs.drop off).take n)
  rwa [e] at this

/-- A field fits its width. -/
theorem leField_lt (bs : List Byte) (off n : Nat) : leField bs off n < 256 ^ n := by
  unfold leField
  refine Nat.lt_of_lt_of_le (leNat_lt _) (Nat.pow_le_pow_right (by decide) (by simp))

/-- The value of a `le32` field. -/
theorem le32_toNat (bs : List Byte) (off : Nat) : (le32 bs off).toNat = leField bs off 4 :=
  Nat.mod_eq_of_lt (leField_lt bs off 4)

/-- The value of a `le64` field. -/
theorem le64_toNat (bs : List Byte) (off : Nat) : (le64 bs off).toNat = leField bs off 8 :=
  Nat.mod_eq_of_lt (leField_lt bs off 8)

/-- The bytes of a `le32` field. -/
theorem leBytes_le32 (bs : List Byte) (off : Nat) (h : off + 4 ≤ bs.length) :
    leBytes 4 (le32 bs off).toNat = (bs.drop off).take 4 := by rw [le32_toNat, leBytes_leField _ _ _ h]

/-- The bytes of a `le64` field. -/
theorem leBytes_le64 (bs : List Byte) (off : Nat) (h : off + 8 ≤ bs.length) :
    leBytes 8 (le64 bs off).toNat = (bs.drop off).take 8 := by rw [le64_toNat, leBytes_leField _ _ _ h]

/-- The byte of a header's ring index. -/
theorem leBytes_ring (bs : List Byte) (h : 24 ≤ bs.length) :
    leBytes 1 (decodeHdr bs).ringIdx.toNat = (bs.drop 20).take 1 := by
  rw [← leBytes_leField bs 20 1 (by omega)]
  exact congrArg _ (Nat.mod_eq_of_lt (leField_lt bs 20 1))

/-- The bytes of a header's padding. -/
theorem leBytes_pad (bs : List Byte) (h : 24 ≤ bs.length) :
    leBytes 3 (decodeHdr bs).padding.toNat = (bs.drop 21).take 3 := by
  rw [← leBytes_leField bs 21 3 (by omega)]
  exact congrArg _ (Nat.mod_eq_of_lt (leField_lt bs 21 3))

/-- Consecutive pieces of a list. -/
theorem take_append_piece (bs : List Byte) (a n : Nat) : bs.take a ++ (bs.drop a).take n = bs.take (a + n) := by
  rw [List.take_add]

/-- The header's fields after the type are bytes 4 to 23 of the request. -/
theorem hdr_bytes (bs : List Byte) (h : 24 ≤ bs.length) :
   leBytes 4 (decodeHdr bs).flags.toNat ++ leBytes 8 (decodeHdr bs).fenceId.toNat ++
       leBytes 4 (decodeHdr bs).ctxId.toNat ++
        leBytes 1 (decodeHdr bs).ringIdx.toNat ++ leBytes 3 (decodeHdr bs).padding.toNat =
            (bs.drop 4).take 20 := by
  rw [leBytes_ring bs h, leBytes_pad bs h]
  simp only [decodeHdr]
  rw [leBytes_le32 _ _ (by omega), leBytes_le64 _ _ (by omega), leBytes_le32 _ _ (by omega)]
  have key : ∀ n m, (bs.drop 4).take n ++ (bs.drop (4+n)).take m = (bs.drop 4).take (n+m) := by
    intro n m; rw [← take_append_piece (bs.drop 4) n m, List.drop_drop]
  rw [key 4 8, key 12 4, key 16 1, key 17 3]

/-- How many complete entries are read. -/
theorem decodeEntries_length (k n : Nat) (bs : List Byte) (hk : bs.length / 16 ≤ k) :
    (decodeEntries k n bs).length = min n (bs.length / 16) := by
  induction k generalizing n bs with
  | zero => simp [decodeEntries]; omega
  | succ k ih =>
    cases n with
    | zero => simp [decodeEntries]
    | succ n =>
      simp only [decodeEntries]
      split
      · next h => simp; omega
      · next h =>
        simp only [List.length_cons]
        rw [ih n _ (by simp; omega)]
        simp
        omega

/-- Entry `j` is read from the 12 bytes at 16 j. -/
theorem decodeEntries_get (k n : Nat) (bs : List Byte) (j : Nat) (e : BackingEntry)
    (h : (decodeEntries k n bs)[j]? = some e) :
   leBytes 8 e.addr.toNat ++ leBytes 4 e.length.toNat = (bs.drop (16 * j)).take 12 := by
  induction k generalizing n bs j with
  | zero => simp [decodeEntries] at h
  | succ k ih =>
    cases n with
    | zero => simp [decodeEntries] at h
    | succ n =>
      simp only [decodeEntries] at h
      split at h
      · simp at h
      · next hl =>
        cases j with
        | zero =>
          simp at h
          subst h
          rw [leBytes_le64 _ _ (by omega), leBytes_le32 _ _ (by omega)]
          rw [show bs.drop 0 = bs from rfl, take_append_piece]; try rfl
        | succ j =>
          rw [List.getElem?_cons_succ] at h
          rw [ih n _ j h, List.drop_drop]
          congr 2; omega

/-- The rows of `decodeSupported`. -/
theorem supported_cases (t : Nat) (bs : List Byte) :
  (t = 0x100 ∧ decodeSupported t bs = some (24, .cmdGetDisplayInfo (decodeHdr bs))) ∨
  (t = 0x101 ∧ decodeSupported t bs = some (40,
      .cmdResourceCreate2d (decodeHdr bs) (le32 bs 24) (le32 bs 28) (le32 bs 32) (le32 bs 36))) ∨
  (t = 0x102 ∧ decodeSupported t bs = some (32, .cmdResourceUnref (decodeHdr bs) (le32 bs 24))) ∨
  (t = 0x103 ∧ decodeSupported t bs = some (48,
      .cmdSetScanout (decodeHdr bs) (decodeRect bs 24) (le32 bs 40) (le32 bs 44))) ∨
  (t = 0x104 ∧ decodeSupported t bs = some (48,
      .cmdResourceFlush (decodeHdr bs) (decodeRect bs 24) (le32 bs 40))) ∨
  (t = 0x105 ∧ decodeSupported t bs = some (56,
      .cmdTransferToHost2d (decodeHdr bs) (decodeRect bs 24) (le64 bs 40) (le32 bs 48))) ∨
  (t = 0x106 ∧ decodeSupported t bs = some (32,
      .cmdResourceAttachBacking (decodeHdr bs) (le32 bs 24) (le32 bs 28)
      (decodeEntries (bs.length / 16) (le32 bs 28).toNat (bs.drop 32)))) ∨
  (t = 0x107 ∧ decodeSupported t bs = some (32, .cmdResourceDetachBacking (decodeHdr bs) (le32 bs 24))) ∨
  ((t < 0x100 ∨ 0x107 < t) ∧ decodeSupported t bs = none) := by
  by_cases h : t < 0x100 ∨ 0x107 < t
  · refine Or.inr (Or.inr (Or.inr (Or.inr (Or.inr (Or.inr (Or.inr (Or.inr ⟨h, ?_⟩)))))))
    unfold decodeSupported
    split <;> first | omega | rfl
  · obtain ⟨q, rfl⟩ : ∃ q, t = 0x100 + q := ⟨t - 0x100, by omega⟩
    have : q < 8 := by omega
    interval_cases q <;> simp [decodeSupported]

/-- The rows of `decodeUnsupported`. -/
theorem unsupported_none (t : Nat) (h : CtrlHdr) : decodeUnsupported t h = none ↔
   t ∉ [0x108, 0x109, 0x10A, 0x10B, 0x10C, 0x10D, 0x300, 0x301] ∧ ¬(0x200 ≤ t ∧ t ≤ 0x2FF) := by
  unfold decodeUnsupported
  split
  all_goals try (simp; done)
  next h1 h2 h3 h4 h5 h6 h7 h8 =>
  split
  · next h => constructor
              · intro e; cases e
              · rintro ⟨_, h'⟩; exact absurd h h'
  · next h => simp at h1 h2 h3 h4 h5 h6 h7 h8 ⊢; refine ⟨⟨h1,h2,h3,h4,h5,h6,h7,h8⟩, ?_⟩; omega

/-- The row a decoded request comes from. -/
theorem request_row (bs : List Byte) (i : Instr) (h : decode (.request bs) = .instr i) : 24 ≤ bs.length ∧
  ((∃ l, decodeSupported (leField bs 0 4) bs = some (l, i) ∧ l ≤ bs.length) ∨
      decodeUnsupported (leField bs 0 4) (decodeHdr bs) = some i) := by
  simp only [decode, decodeRequest] at h
  split at h
  · cases h
  · next h24 =>
    refine ⟨by omega, ?_⟩
    split at h
    · next l j hj =>
      split at h
      · cases h
      · cases h; left; exact ⟨l, hj, by omega⟩
    · split at h
      · cases h; right; assumption
      · cases h

/-- As `request_row`, for a constructor of a supported row. -/
theorem request_supported (bs : List Byte) (i : Instr) (h : decode (.request bs) = .instr i)
   (hne : ∀ t hd, decodeUnsupported t hd ≠ some i) : ∃ l, decodeSupported (leField bs 0 4) bs = some (l,
       i) ∧ l ≤ bs.length ∧ 24 ≤ bs.length := by
  obtain ⟨h24, ⟨l, h1, h2⟩ | h1⟩ := request_row bs i h
  · exact ⟨l, h1, h2, h24⟩
  · exact absurd h1 (hne _ _)

/-- Byte `i` of a little-endian string. -/
theorem leBytes_get (n v i : Nat) (h : i < n) : (leBytes n v)[i]? = some (BitVec.ofNat 8 (v / 256 ^ i)) := by
  induction n generalizing v i with
  | zero => omega
  | succ n ih =>
    cases i with
    | zero => simp [leBytes]
    | succ i =>
      rw [leBytes, List.getElem?_cons_succ, ih _ _ (by omega), Nat.div_div_eq_div_mul, Nat.pow_succ,
          Nat.mul_comm]

/-- Byte `i` of a little-endian string, with a default. -/
theorem leBytes_getD (n v i : Nat) (h : i < n) : (leBytes n v).getD i 0 = BitVec.ofNat 8 (v / 256 ^ i) := by
  rw [List.getD_eq_getElem?_getD, leBytes_get n v i h]; rfl

/-- Byte `i` of the value of a string. -/
theorem leNat_byte (bs : List Byte) (i : Nat) (h : i < bs.length) :
    BitVec.ofNat 8 (leNat bs / 256 ^ i) = bs[i] := by
  have := leBytes_get bs.length (leNat bs) i h
  rw [leBytes_leNat] at this
  rw [List.getElem?_eq_getElem h] at this
  exact (Option.some.inj this).symm

/-- Byte `i` of the value of a string, as a number. -/
theorem leNat_get (bs : List Byte) (i : Nat) (h : i < bs.length) :
    leNat bs / 256 ^ i % 256 = (bs[i]).toNat := by
  induction bs generalizing i with
  | nil => simp at h
  | cons b bs ih =>
    cases i with
    | zero => have := b.isLt; simp [leNat]; omega
    | succ i =>
      have e : leNat (b :: bs) / 256 ^ (i + 1) = leNat bs / 256 ^ i := by
        rw [Nat.pow_succ, Nat.mul_comm, ← Nat.div_div_eq_div_mul]
        congr 1
        have := b.isLt
        simp only [leNat]; omega
      rw [e]; simpa using ih i (by simpa using h)

/-- A string read as a number and written wider is padded with zeros. -/
theorem leBytes_leNat_pad (n : Nat) (l : List Byte) (h : l.length ≤ n) :
    leBytes n (leNat l) = l ++ List.replicate (n - l.length) 0 := by
  induction n generalizing l with
  | zero => have : l = [] := List.length_eq_zero_iff.1 (by omega); subst this; rfl
  | succ n ih =>
    cases l with
    | nil =>
      have := ih [] (by simp)
      simp only [leNat, List.nil_append, List.length_nil, Nat.sub_zero] at this ⊢
      rw [leBytes, Nat.zero_div, this, List.replicate_succ]; rfl
    | cons b l =>
      have hb := b.isLt
      simp only [leNat, leBytes, List.length_cons, List.cons_append]
      have h1 : (b.toNat + 256 * leNat l) / 256 = leNat l := by omega
      have h2 : BitVec.ofNat 8 (b.toNat + 256 * leNat l) = b := by
        apply BitVec.eq_of_toNat_eq; simp only [BitVec.toNat_ofNat]; omega
      rw [h1, h2, ih l (by simpa using h), Nat.add_sub_add_right]

/-- A field read at the end of a short string is padded with zeros. -/
theorem leField_piece (bs : List Byte) (off n : Nat) :
    leBytes n (leField bs off n) = (bs.drop off).take n ++ List.replicate (n - (bs.length - off)) 0 := by
  unfold leField
  rw [leBytes_leNat_pad _ _ (by simp)]
  congr 2
  simp; omega

/-- A bit of a 32-bit word as a remainder. -/
theorem bit_mod (d : Word32) (c : Nat) : d.getLsbD c = decide (d.toNat / 2 ^ c % 2 = 1) := by
  rw [BitVec.getLsbD, Nat.testBit_eq_decide_div_mod_eq]

/-- A bit of a byte as a remainder. -/
theorem bit8 (v : BitVec 8) (c : Nat) : v.getLsbD c = decide (v.toNat / 2 ^ c % 2 = 1) := by
  rw [BitVec.getLsbD, Nat.testBit_eq_decide_div_mod_eq]

/-- A bit of a 16-bit word as a remainder. -/
theorem bitW (v : BitVec 16) (c : Nat) : v.getLsbD c = decide (v.toNat / 2 ^ c % 2 = 1) := by
  rw [BitVec.getLsbD, Nat.testBit_eq_decide_div_mod_eq]

end Sys2Proof
end

