-- ==== Sys2Proof/Laws/Draws.lean ====
section
/-! SUPPORT. The pixels of a draw, stored bytes read back, runs of turns, and the small lemmas of the transport, the segments and the allocator. -/
namespace Sys2Proof.Machine

/-- A byte of a memory after a store. -/
theorem store_byte (m : Memory) (d : Byte) (a : Nat) (bs : List Byte) (b : Nat) :
    (assocGet b (storeBytes m a bs)).getD d = if a ≤ b ∧
        b < a + bs.length then bs.getD (b - a) 0 else (assocGet b m).getD d := by
  split
  · next h =>
    obtain ⟨i, rfl⟩ : ∃ i, b = a + i := ⟨b - a, by omega⟩
    rw [assocGet_storeBytes_in _ _ _ i (by omega)]
    have : i < bs.length := by omega
    simp [this]
  · next h => rw [assocGet_storeBytes_out]; omega

/-- A byte of VRAM after a store. -/
theorem storeBytes_byte (s : State) (m : Memory) (a : Nat) (bs : List Byte) (b : Nat) :
   (assocGet b (storeBytes m a bs)).getD (Config.vramByte s.epoch b) =
   if h : a ≤ b ∧ b < a + bs.length then bs[b - a] else (assocGet b m).getD (Config.vramByte s.epoch b) := by
  split
  · next h =>
    obtain ⟨i, rfl⟩ : ∃ i, b = a + i := ⟨b - a, by omega⟩
    rw [assocGet_storeBytes_in _ _ _ _ (show i < bs.length by omega)]
    simp
  · next h => rw [assocGet_storeBytes_out _ _ _ _ (by omega)]

/-- A byte of VRAM after a pixel is written. -/
theorem writePixel_byte (op : Operation) (rest : List Operation) (out : Word32) (d : Nat) (s : State)
    (b : Nat) :
   vramByte (writePixel op rest out d s) b = if dstAddr op.snap op.k ≤ b ∧
       b < dstAddr op.snap op.k + bytesPerPixel op.snap.pixelFmt then
      BitVec.ofNat 8 (out.toNat / 256 ^ (b - dstAddr op.snap op.k)) else vramByte s b := by
  have := storeBytes_byte s s.vram (dstAddr op.snap op.k) (narrowPixel op.snap.pixelFmt out) b
  refine this.trans ?_
  have hl : (narrowPixel op.snap.pixelFmt out).length = bytesPerPixel op.snap.pixelFmt := leBytes_length _ _
  by_cases h : dstAddr op.snap op.k ≤ b ∧ b < dstAddr op.snap op.k + bytesPerPixel op.snap.pixelFmt
  · rw [dif_pos (by rw [hl]; exact h), if_pos h]
    have := leBytes_get (bytesPerPixel op.snap.pixelFmt) out.toNat (b - dstAddr op.snap op.k) (by omega)
    exact Option.some.inj (by rw [← this, ← List.getElem?_eq_getElem]; rfl)
  · rw [dif_neg (by rw [hl]; exact h), if_neg h]; rfl

/-- Byte `i` of a VRAM read. -/
theorem vramBytes_get (s : State) (a n i : Nat) (h : i < n) :
    (vramBytes s a n)[i]? = some (vramByte s (a + i)) := by
  simp [vramBytes, h]

/-- A read of which no byte is free. -/
theorem readDraw_defined (s : State) (op : Operation) (a n d : Nat)
    (h : ∀ b, a ≤ b → b < a + n → readsFree op b = false) :
   readDraw s op a n d = (vramBytes s a n, d) := by
  induction n generalizing a d with
  | zero => rfl
  | succ n ih =>
    rw [readDraw, h a (Nat.le_refl a) (by omega), ih (a+1) d (fun b h1 h2 => h b (by omega) (by omega))]
    simp [vramBytes, List.range_succ_eq_map]
    intro x _; congr 1; omega

/-- Whether an earlier pixel writes a byte. -/
theorem inEarlier_iff (g : Regs) (k b : Nat) :
    inEarlierBytes g k b = true ↔ ∃ k' < k, inDstBytes g k' b = true := by
  induction k with
  | zero => simp [inEarlierBytes]
  | succ k ih =>
    simp only [inEarlierBytes, Bool.or_eq_true, ih]
    constructor
    · rintro (h | ⟨k', h, h'⟩)
      · exact ⟨k, by omega, h⟩
      · exact ⟨k', by omega, h'⟩
    · rintro ⟨k', h, h'⟩
      by_cases e : k' = k
      · left; rw [← e]; exact h'
      · right; exact ⟨k', by omega, h'⟩

/-- When a byte is not free. -/
theorem readsFree_false (op : Operation) (b : Nat)
    (h : b ∉ op.tainted ∧ ∀ k < op.k, inDstBytes op.snap k b = false) : readsFree op b = false := by
  simp only [readsFree, Bool.or_eq_false_iff]
  refine ⟨by simpa using h.1, ?_⟩
  rw [Bool.eq_false_iff]
  intro hc
  obtain ⟨k, hk, hb⟩ := (inEarlier_iff _ _ _).1 hc
  rw [h.2 k hk] at hb; cases hb

/-- The two pixel sizes. -/
theorem bpp_le (f : BitVec 1) : bytesPerPixel f = 3 ∧ f ≠ 0 ∨ bytesPerPixel f = 4 ∧ f = 0 := by
  revert f; decide

/-- The value of a widened pixel. -/
theorem widen_toNat (f : BitVec 1) (bs : List Byte) (h : bs.length = bytesPerPixel f) : 
   (widenPixel f bs).toNat = leNat bs + (if f = 0 then 0 else 0xFF000000) := by
  have hl := leNat_lt bs
  unfold widenPixel
  rcases bpp_le f with ⟨h1, h2⟩ | ⟨h1, h2⟩
  · rw [if_neg h2, if_neg h2, BitVec.toNat_append, ← Nat.shiftLeft_add_eq_or_of_lt (BitVec.isLt _)]
    rw [h, h1] at hl
    simp [Nat.shiftLeft_eq]; omega
  · rw [if_pos h2, if_pos h2]
    rw [h, h1] at hl
    simp; omega

/-- The bytes of a widened pixel are those it was read from. -/
theorem widen_byte (f : BitVec 1) (bs : List Byte) (h : bs.length = bytesPerPixel f) (i : Nat)
    (hi : i < bs.length) :
   BitVec.ofNat 8 ((widenPixel f bs).toNat / 256 ^ i) = bs[i] := by
  rw [widen_toNat f bs h, ← leNat_byte bs i hi]
  split
  · rfl
  · next hf =>
    rcases bpp_le f with ⟨h1, h2⟩ | ⟨h1, h2⟩
    · apply BitVec.eq_of_toNat_eq
      simp only [BitVec.toNat_ofNat]
      have : i < 3 := by omega
      interval_cases i <;> omega
    · exact absurd h2 hf

/-- The bounds test of the last pixel covers every pixel. -/
theorem drawInBounds_spec (k : OpKind) (g : Regs) (n : Nat) (h : drawInBounds k g n = true) (i : Nat)
    (hi : i < pixelCount g) :
   dstAddr g i + bytesPerPixel g.pixelFmt ≤ n ∧ (k = .blit → srcAddr g i + bytesPerPixel g.pixelFmt ≤ n) := by
  simp only [drawInBounds, Bool.or_eq_true, beq_iff_eq, Bool.and_eq_true, decide_eq_true_eq, bne_iff_ne] at h
  have hW : 0 < g.drawW.toNat := by
    rcases Nat.eq_zero_or_pos g.drawW.toNat with e | e
    · simp [pixelCount, e] at hi
    · exact e
  rcases h with h | ⟨h, h'⟩
  · omega
  have hN : pixelCount g = g.drawW.toNat * g.drawH.toNat := rfl
  have hdiv : i / g.drawW.toNat ≤ (pixelCount g - 1) / g.drawW.toNat := Nat.div_le_div_right (by omega)
  have hlast : (pixelCount g - 1) % g.drawW.toNat = g.drawW.toNat - 1 := by
    have : 0 < g.drawH.toNat := by
      rcases Nat.eq_zero_or_pos g.drawH.toNat with e | e
      · simp [pixelCount, e] at hi
      · exact e
    obtain ⟨w, hw⟩ : ∃ w, g.drawW.toNat = w + 1 := ⟨_, (Nat.succ_pred_eq_of_pos hW).symm⟩
    obtain ⟨l, hl⟩ : ∃ l, g.drawH.toNat = l + 1 := ⟨_, (Nat.succ_pred_eq_of_pos this).symm⟩
    rw [hN, hw, hl]
    have : (w + 1) * (l + 1) - 1 = w + (w + 1) * l := by ring_nf; omega
    rw [this, Nat.add_mul_mod_self_left, Nat.mod_eq_of_lt (by omega)]; omega
  have hmod : i % g.drawW.toNat ≤ (pixelCount g - 1) % g.drawW.toNat := by
    rw [hlast]; have := Nat.mod_lt i hW; omega
  refine ⟨?_, fun hk => ?_⟩
  · refine Nat.le_trans ?_ h
    unfold dstAddr
    gcongr
  · rcases h' with h' | h'
    · exact absurd hk h'
    · refine Nat.le_trans ?_ h'
      unfold srcAddr
      gcongr

/-- Pixels of a draw whose rows do not overlap are written in rising order. -/
theorem dst_disjoint (g : Regs) (j k : Nat) (hjk : j < k) (hk : k < g.drawW.toNat * g.drawH.toNat)
   (hs : g.drawH.toNat ≤ 1 ∨ g.drawW.toNat * bytesPerPixel g.pixelFmt ≤ g.fbStride.toNat) :
   dstAddr g j + bytesPerPixel g.pixelFmt ≤ dstAddr g k := by
  have hW : 0 < g.drawW.toNat := by
    rcases Nat.eq_zero_or_pos g.drawW.toNat with e | e
    · simp [e] at hk
    · exact e
  have hkH : k / g.drawW.toNat < g.drawH.toNat := by rwa [Nat.div_lt_iff_lt_mul hW, Nat.mul_comm]
  have e1 := Nat.div_add_mod j g.drawW.toNat
  have e2 := Nat.div_add_mod k g.drawW.toNat
  have m1 := Nat.mod_lt j hW
  have m2 := Nat.mod_lt k hW
  have hle : j / g.drawW.toNat ≤ k / g.drawW.toNat := Nat.div_le_div_right (by omega)
  unfold dstAddr
  generalize g.drawW.toNat = W at *
  generalize g.fbStride.toNat = S at *
  generalize bytesPerPixel g.pixelFmt = p at *
  generalize g.drawX.toNat = X at *
  generalize g.drawY.toNat = Y at *
  generalize hA : j / W = A at *
  generalize hB : k / W = B at *
  generalize hC : j % W = C at *
  generalize hD : k % W = D at *
  rcases Nat.lt_or_eq_of_le hle with hlt | heq
  · have hS : W * p ≤ S := by rcases hs with h | h; omega; exact h
    have h1 : (Y + (A + 1)) * S ≤ (Y + B) * S := Nat.mul_le_mul_right _ (by omega)
    have h2 : (Y + (A + 1)) * S = (Y + A) * S + S := by ring
    have h3 : (X + C) * p + p ≤ X * p + W * p := by
      have : (X + C) * p + p = (X + (C + 1)) * p := by ring
      rw [this, ← Nat.add_mul]; exact Nat.mul_le_mul_right _ (by omega)
    have h4 : X * p ≤ (X + D) * p := Nat.mul_le_mul_right _ (by omega)
    omega
  · subst heq
    have : C < D := by omega
    have h3 : (X + C) * p + p ≤ (X + D) * p := by
      have : (X + C) * p + p = (X + (C + 1)) * p := by ring
      rw [this]; exact Nat.mul_le_mul_right _ (by omega)
    omega

/-- A run in two parts. -/
theorem runAgents_append (l m : List Agent) (s t : State) (h : runAgents l s = .next t) :
    runAgents (l ++ m) s = runAgents m t := by
  induction l generalizing s with
  | nil => cases h; rfl
  | cons a l ih =>
    simp only [List.cons_append, runAgents] at h ⊢
    split at h
    · next s' e => exact ih s' h
    · cases h
    · cases h

/-- `natIsPow2` is what its name says. -/
theorem pow2_iff (n : Nat) : natIsPow2 n = true ↔ ∃ k, n = 2 ^ k := by
  unfold natIsPow2
  simp only [Bool.and_eq_true, bne_iff_ne, ne_eq, beq_iff_eq]
  constructor
  · rintro ⟨h0, h⟩
    refine ⟨Nat.log2 n, ?_⟩
    have h1 : 2 ^ Nat.log2 n ≤ n := Nat.log2_self_le h0
    have h2 : n < 2 ^ (Nat.log2 n + 1) := Nat.lt_log2_self
    by_contra hne
    have key : ∀ m, 2 ^ Nat.log2 n ≤ m → m < 2 ^ (Nat.log2 n + 1) → m.testBit (Nat.log2 n) = true := by
      intro m a b
      have : m / 2 ^ Nat.log2 n = 1 := by
        rw [Nat.div_eq_iff (Nat.two_pow_pos _)]
        rw [Nat.pow_succ] at b; constructor <;> omega
      rw [Nat.testBit_eq_decide_div_mod_eq, this]; rfl
    have := congrArg (fun x => x.testBit (Nat.log2 n)) h
    simp only [Nat.testBit_and, Nat.zero_testBit] at this
    rw [key n h1 h2, key (n - 1) (by omega) (by omega)] at this
    cases this
  · rintro ⟨k, rfl⟩
    refine ⟨by positivity, ?_⟩
    rw [Nat.and_two_pow_sub_one_eq_mod, Nat.mod_self]

/-- The value with its low word replaced. -/
theorem lowWord (v : Word64) (d : Word32) : (withLow v d).toNat = v.toNat / 2 ^ 32 * 2 ^ 32 + d.toNat := by
  unfold withLow
  rw [app_toNat]
  have := v.isLt
  simp [BitVec.extractLsb'_toNat, Nat.shiftRight_eq_div_pow]
  omega

/-- The value with its high word replaced. -/
theorem highWord (v : Word64) (d : Word32) : (withHigh v d).toNat = d.toNat * 2 ^ 32 + v.toNat % 2 ^ 32 := by
  unfold withHigh
  rw [app_toNat]
  simp [BitVec.extractLsb'_toNat]

/-- Which features are refused. -/
theorem features_refused (f : Word64) : featuresRefused f = true ↔ ∃ b < 64, f.getLsbD b = true ∧ b ≠ 32 := by
  unfold featuresRefused
  simp only [bne_iff_ne, ne_eq]
  have hd : ∀ b < 64, Config.deviceFeatures.getLsbD b = decide (b = 32) := by decide
  constructor
  · intro h
    by_contra hn
    apply h
    apply BitVec.eq_of_getLsbD_eq
    intro b hb
    simp only [BitVec.getLsbD_and, BitVec.getLsbD_not, hb, decide_true, Bool.true_and, hd b hb]
    by_cases hx : b = 32
    · simp [hx]
    · have : f.getLsbD b = false := by
        cases hf : f.getLsbD b with
        | true => exact absurd ⟨b, hb, hf, hx⟩ hn
        | false => rfl
      simp [this]
  · rintro ⟨b, hb, hf, hx⟩ h
    have := congrArg (fun x => x.getLsbD b) h
    simp only [BitVec.getLsbD_and, BitVec.getLsbD_not, hb, decide_true, Bool.true_and, hd b hb, hf, hx] at this
    simp at this

/-- The stored status bit by bit. -/
theorem status_bits (v old : BitVec 8) (n : Bool) : 
   (statusAfter v old n).getLsbD 3 = (v.getLsbD 3 && !n) ∧
   (statusAfter v old n).getLsbD 2 = (v.getLsbD 2 && v.getLsbD 3 && !n) ∧
   (statusAfter v old n).getLsbD 6 = old.getLsbD 6 ∧ ∀ b ∈ [0,1,4,5,7], (statusAfter v old n).getLsbD b =
       v.getLsbD b := by
  unfold statusAfter
  dsimp only
  rw [hasStatus_featuresOk]
  have c0 : ∀ i < 8, statusNeedsReset.getLsbD i = decide (i = 6) := by decide
  have c1 : ∀ i < 8, statusFeaturesOk.getLsbD i = decide (i = 3) := by decide
  have c2 : ∀ i < 8, statusDriverOk.getLsbD i = decide (i = 2) := by decide
  have c3 : statusDriverOk = 0x04#8 := rfl
  cases n <;> cases h3 : v.getLsbD 3 <;>
    simp [BitVec.getLsbD_or, BitVec.getLsbD_and, BitVec.getLsbD_not, c0, c1, c2, h3, -BitVec.getLsbD_eq_getElem]

/-- The processor's step outside TRANSLATE. -/
theorem vqpStep_phase (s : State) (h : s.vqp.phase ≠ .translate) : vqpStep s = vqpPhaseStep s := by
  unfold vqpStep; rw [if_neg h]

/-- The length of a list of segments. -/
theorem seg_sum (l : List (Nat × Nat)) : segLength l = (l.map Prod.snd).sum := by
  induction l with
  | nil => rfl
  | cons a l ih => simp [segLength, ih]

/-- The length of a backing list. -/
theorem seg_back (l : List BackingEntry) : segLength (backingSegs l) = (l.map fun e => e.length.toNat).sum := by
  induction l with
  | nil => rfl
  | cons x l ih => simp only [backingSegs, List.map_cons, segLength, List.sum_cons] at ih ⊢; rw [ih]

/-- Two regions that are not empty overlap when they share an address. -/
theorem overlaps_iff (b size : Nat) (r : Resource) (h1 : 0 < size) (h2 : 0 < r.size) :
    overlapsResource b size r = true ↔ ∃ x, (b ≤ x ∧ x < b + size) ∧ (r.base ≤ x ∧ x < r.base + r.size) := by
  unfold overlapsResource
  simp only [Bool.and_eq_true, decide_eq_true_eq]
  constructor
  · intro h; exact ⟨max b r.base, ⟨(by omega), (by omega)⟩, ⟨(by omega), (by omega)⟩⟩
  · rintro ⟨x, h, h'⟩; omega

/-- A mapped id other than 0 is found. -/
theorem lookup_some (s : State) (id : Word32) (res : Resource) (h0 : id ≠ 0)
    (h : assocGet id.toNat s.resources = some res) : lookupResource s id = some res := by
  unfold lookupResource; rw [if_neg h0, h]

/-- An id that is 0 or not mapped is not found. -/
theorem lookup_none (s : State) (id : Word32) (h : id = 0 ∨ assocGet id.toNat s.resources = none) :
    lookupResource s id = none := by
  unfold lookupResource; split
  · rfl
  · next h0 => exact h.resolve_left h0

end Sys2Proof.Machine
end

