-- ==== Sys2Proof/Laws/PerInstr.lean ====
section
/-! SUPPORT. For each instruction: its encoding decodes to it. -/
set_option linter.unusedSimpArgs false

namespace Sys2Proof.Laws.RoundTrip

/-- The encoding of a well-formed instruction decodes to the instruction. -/
def Statement (i : Instr) : Prop := WellFormed i = true → decode (encode i) = .instr i

end Sys2Proof.Laws.RoundTrip

namespace Sys2Proof

/-- The value of a command word. -/
theorem commandWord_toNat (opc sel : BitVec 8) (val : Word32) :
    (commandWord opc sel val).toNat = opc.toNat * 2 ^ 56 + sel.toNat * 2 ^ 48 + val.toNat := by
  have h1 : (commandWord opc sel val).toNat = (opc ++ sel ++ 0#16).toNat <<< 32 ||| val.toNat :=
    BitVec.toNat_append _ _
  have h2 : (opc ++ sel ++ 0#16).toNat = (opc ++ sel).toNat <<< 16 ||| (0#16).toNat :=
    BitVec.toNat_append _ _
  rw [h1, h2, BitVec.toNat_append, ← Nat.shiftLeft_add_eq_or_of_lt val.isLt,
    ← Nat.shiftLeft_add_eq_or_of_lt (0#16).isLt, ← Nat.shiftLeft_add_eq_or_of_lt sel.isLt]
  simp only [Nat.shiftLeft_eq, BitVec.toNat_ofNat]
  omega

theorem wordOpc_commandWord (opc sel : BitVec 8) (val : Word32) : wordOpc (commandWord opc sel val) = opc := by
  have ho := opc.isLt; have hs := sel.isLt; have hv := val.isLt
  apply BitVec.eq_of_toNat_eq
  simp only [wordOpc, BitVec.extractLsb'_toNat, commandWord_toNat, Nat.shiftRight_eq_div_pow]
  omega

theorem wordSel_commandWord (opc sel : BitVec 8) (val : Word32) : wordSel (commandWord opc sel val) = sel := by
  have ho := opc.isLt; have hs := sel.isLt; have hv := val.isLt
  apply BitVec.eq_of_toNat_eq
  simp only [wordSel, BitVec.extractLsb'_toNat, commandWord_toNat, Nat.shiftRight_eq_div_pow]
  omega

theorem wordRsv_commandWord (opc sel : BitVec 8) (val : Word32) : wordRsv (commandWord opc sel val) = 0 := by
  have ho := opc.isLt; have hs := sel.isLt; have hv := val.isLt
  apply BitVec.eq_of_toNat_eq
  simp only [wordRsv, BitVec.extractLsb'_toNat, commandWord_toNat, Nat.shiftRight_eq_div_pow]
  show _ = 0
  omega

theorem wordVal_commandWord (opc sel : BitVec 8) (val : Word32) : wordVal (commandWord opc sel val) = val := by
  have ho := opc.isLt; have hs := sel.isLt; have hv := val.isLt
  apply BitVec.eq_of_toNat_eq
  simp only [wordVal, BitVec.extractLsb'_toNat, commandWord_toNat, Nat.shiftRight_eq_div_pow]
  omega

/-- A request of a supported type, long enough, decodes to its row. -/
theorem decodeRequest_of_supported (bs : List Byte) (len : Nat) (i : Instr) (h24 : ¬ bs.length < 24)
    (h : decodeSupported (leField bs 0 4) bs = some (len, i)) (hl : ¬ bs.length < len) :
    decodeRequest bs = .instr i := by
  simp [decodeRequest, h24, h, hl]

/-- A request of a listed type that is not supported decodes to its row. -/
theorem decodeRequest_of_unsupported (bs : List Byte) (i : Instr) (h24 : ¬ bs.length < 24)
    (h : decodeSupported (leField bs 0 4) bs = none)
    (h' : decodeUnsupported (leField bs 0 4) (decodeHdr bs) = some i) :
    decodeRequest bs = .instr i := by
  simp [decodeRequest, h24, h, h']

end Sys2Proof

namespace Sys2Proof.Laws.RoundTrip

theorem nop : Statement .nop := fun _ => by decide
theorem eol : Statement .eol := fun _ => by decide
theorem fill : Statement .fill := fun _ => by decide
theorem blit : Statement .blit := fun _ => by decide

theorem setReg (sel : BitVec 8) (val : Word32) : Statement (.setReg sel val) := fun _ => by
  simp [encode, decode, decodeCommand, wordOpc_commandWord, wordSel_commandWord, wordRsv_commandWord,
    wordVal_commandWord]

theorem cmdGetDisplayInfo (h : CtrlHdr) : Statement (.cmdGetDisplayInfo h) := fun _ => by
  refine decodeRequest_of_supported _ 24 _ (by simp) ?_ (by simp)
  rw [leField_type _ _ _ (by decide)]
  simp only [decodeSupported, decodeHdr_hdrBytes]

theorem cmdResourceCreate2d (h : CtrlHdr) (a : Word32) (b : Word32) (c : Word32) (d : Word32) : Statement (.cmdResourceCreate2d h a b c d) := fun _ => by
  simp (disch := decide) [encode, requestOf, decode, decodeRequest, decodeSupported, leField_type,
    decodeHdr_hdrBytes, leField_body, decodeRect, le32, le64, rectBytes, leField_skip, leField_here,
    leField_last, ofNat_toNat_mod]

theorem cmdResourceUnref (h : CtrlHdr) (a : Word32) : Statement (.cmdResourceUnref h a) := fun _ => by
  simp (disch := decide) [encode, requestOf, decode, decodeRequest, decodeSupported, leField_type,
    decodeHdr_hdrBytes, leField_body, decodeRect, le32, le64, rectBytes, leField_skip, leField_here,
    leField_last, ofNat_toNat_mod]

theorem cmdSetScanout (h : CtrlHdr) (r : Rect) (a : Word32) (b : Word32) : Statement (.cmdSetScanout h r a b) := fun _ => by
  simp (disch := decide) [encode, requestOf, decode, decodeRequest, decodeSupported, leField_type,
    decodeHdr_hdrBytes, leField_body, decodeRect, le32, le64, rectBytes, leField_skip, leField_here,
    leField_last, ofNat_toNat_mod]

theorem cmdResourceFlush (h : CtrlHdr) (r : Rect) (a : Word32) : Statement (.cmdResourceFlush h r a) := fun _ => by
  simp (disch := decide) [encode, requestOf, decode, decodeRequest, decodeSupported, leField_type,
    decodeHdr_hdrBytes, leField_body, decodeRect, le32, le64, rectBytes, leField_skip, leField_here,
    leField_last, ofNat_toNat_mod]

theorem cmdTransferToHost2d (h : CtrlHdr) (r : Rect) (a : Word64) (b : Word32) : Statement (.cmdTransferToHost2d h r a b) := fun _ => by
  simp (disch := decide) [encode, requestOf, decode, decodeRequest, decodeSupported, leField_type,
    decodeHdr_hdrBytes, leField_body, decodeRect, le32, le64, rectBytes, leField_skip, leField_here,
    leField_last, ofNat_toNat_mod]

theorem cmdResourceDetachBacking (h : CtrlHdr) (a : Word32) : Statement (.cmdResourceDetachBacking h a) := fun _ => by
  simp (disch := decide) [encode, requestOf, decode, decodeRequest, decodeSupported, leField_type,
    decodeHdr_hdrBytes, leField_body, decodeRect, le32, le64, rectBytes, leField_skip, leField_here,
    leField_last, ofNat_toNat_mod]

theorem cmdResourceAttachBacking (h : CtrlHdr) (a n : Word32) (es : List BackingEntry) :
    Statement (.cmdResourceAttachBacking h a n es) := fun hw => by
  have hn : es.length ≤ n.toNat := by simpa [WellFormed] using hw
  have hd : (hdrBytes 0x106 h ++ (leBytes 4 a.toNat ++ (leBytes 4 n.toNat ++ entriesBytes es))).drop 32
      = entriesBytes es := by
    simp [List.drop_append, List.drop_of_length_le]
  have he : decodeEntries ((hdrBytes 0x106 h ++ (leBytes 4 a.toNat ++ (leBytes 4 n.toNat ++
      entriesBytes es))).length / 16) n.toNat (entriesBytes es) = es :=
    decodeEntries_entriesBytes es _ _ (by simp; omega) hn
  refine decodeRequest_of_supported _ 32 _ (by simp) ?_ (by simp; omega)
  rw [leField_type _ _ _ (by decide)]
  have h1 : le32 (hdrBytes 0x106 h ++ (leBytes 4 a.toNat ++ (leBytes 4 n.toNat ++ entriesBytes es))) 24
      = a := by
    simp (disch := decide) [le32, leField_body, leField_here, ofNat_toNat_mod]
  have h2 : le32 (hdrBytes 0x106 h ++ (leBytes 4 a.toNat ++ (leBytes 4 n.toNat ++ entriesBytes es))) 28
      = n := by
    simp (disch := decide) [le32, leField_body, leField_skip, leField_here, ofNat_toNat_mod]
  simp only [decodeSupported, decodeHdr_hdrBytes, h1, h2, hd, he]

theorem cmdGetCapsetInfo (h : CtrlHdr) : Statement (.cmdGetCapsetInfo h) := fun _ => by
  refine decodeRequest_of_unsupported _ _ (by simp) ?_ ?_
  · rw [leField_type _ _ _ (by decide)]; rfl
  · rw [leField_type _ _ _ (by decide), decodeHdr_hdrBytes]; rfl

theorem cmdGetCapset (h : CtrlHdr) : Statement (.cmdGetCapset h) := fun _ => by
  refine decodeRequest_of_unsupported _ _ (by simp) ?_ ?_
  · rw [leField_type _ _ _ (by decide)]; rfl
  · rw [leField_type _ _ _ (by decide), decodeHdr_hdrBytes]; rfl

theorem cmdGetEdid (h : CtrlHdr) : Statement (.cmdGetEdid h) := fun _ => by
  refine decodeRequest_of_unsupported _ _ (by simp) ?_ ?_
  · rw [leField_type _ _ _ (by decide)]; rfl
  · rw [leField_type _ _ _ (by decide), decodeHdr_hdrBytes]; rfl

theorem cmdResourceAssignUuid (h : CtrlHdr) : Statement (.cmdResourceAssignUuid h) := fun _ => by
  refine decodeRequest_of_unsupported _ _ (by simp) ?_ ?_
  · rw [leField_type _ _ _ (by decide)]; rfl
  · rw [leField_type _ _ _ (by decide), decodeHdr_hdrBytes]; rfl

theorem cmdResourceCreateBlob (h : CtrlHdr) : Statement (.cmdResourceCreateBlob h) := fun _ => by
  refine decodeRequest_of_unsupported _ _ (by simp) ?_ ?_
  · rw [leField_type _ _ _ (by decide)]; rfl
  · rw [leField_type _ _ _ (by decide), decodeHdr_hdrBytes]; rfl

theorem cmdSetScanoutBlob (h : CtrlHdr) : Statement (.cmdSetScanoutBlob h) := fun _ => by
  refine decodeRequest_of_unsupported _ _ (by simp) ?_ ?_
  · rw [leField_type _ _ _ (by decide)]; rfl
  · rw [leField_type _ _ _ (by decide), decodeHdr_hdrBytes]; rfl

theorem cmdUpdateCursor (h : CtrlHdr) : Statement (.cmdUpdateCursor h) := fun _ => by
  refine decodeRequest_of_unsupported _ _ (by simp) ?_ ?_
  · rw [leField_type _ _ _ (by decide)]; rfl
  · rw [leField_type _ _ _ (by decide), decodeHdr_hdrBytes]; rfl

theorem cmdMoveCursor (h : CtrlHdr) : Statement (.cmdMoveCursor h) := fun _ => by
  refine decodeRequest_of_unsupported _ _ (by simp) ?_ ?_
  · rw [leField_type _ _ _ (by decide)]; rfl
  · rw [leField_type _ _ _ (by decide), decodeHdr_hdrBytes]; rfl

theorem cmd3dRange (h : CtrlHdr) (low : BitVec 8) : Statement (.cmd3dRange h low) := fun _ => by
  have hl := low.isLt
  refine decodeRequest_of_unsupported _ _ (by simp) ?_ ?_
  · rw [leField_type _ _ _ (by omega)]
    unfold decodeSupported
    split <;> first | omega | rfl
  · rw [leField_type _ _ _ (by omega), decodeHdr_hdrBytes]
    unfold decodeUnsupported
    split <;> first
      | omega
      | (rw [if_pos (by omega)]
         have : BitVec.ofNat 8 (0x200 + low.toNat) = low := by
           apply BitVec.eq_of_toNat_eq; simp only [BitVec.toNat_ofNat]; omega
         rw [this])

theorem legReadFbAddr : Statement .legReadFbAddr := fun _ => by decide
theorem legReadFbStride : Statement .legReadFbStride := fun _ => by decide
theorem legReadDrawX : Statement .legReadDrawX := fun _ => by decide
theorem legReadDrawY : Statement .legReadDrawY := fun _ => by decide
theorem legReadDrawW : Statement .legReadDrawW := fun _ => by decide
theorem legReadDrawH : Statement .legReadDrawH := fun _ => by decide
theorem legReadFillColor : Statement .legReadFillColor := fun _ => by decide
theorem legReadSrcAddr : Statement .legReadSrcAddr := fun _ => by decide
theorem legReadSrcStride : Statement .legReadSrcStride := fun _ => by decide
theorem legReadStencilKey : Statement .legReadStencilKey := fun _ => by decide
theorem legReadAlphaMode : Statement .legReadAlphaMode := fun _ => by decide
theorem legReadPixelFmt : Statement .legReadPixelFmt := fun _ => by decide
theorem legReadStatus : Statement .legReadStatus := fun _ => by decide
theorem legReadIrqEnable : Statement .legReadIrqEnable := fun _ => by decide
theorem legReadFifoDataLo : Statement .legReadFifoDataLo := fun _ => by decide
theorem legReadFifoPush : Statement .legReadFifoPush := fun _ => by decide
theorem legReadCtrl : Statement .legReadCtrl := fun _ => by decide
theorem legReadVqFaultCount : Statement .legReadVqFaultCount := fun _ => by decide

theorem legWriteFbAddr (d : Word32) : Statement (.legWriteFbAddr d) := fun _ => rfl
theorem legWriteFbStride (d : Word32) : Statement (.legWriteFbStride d) := fun _ => rfl
theorem legWriteDrawX (d : Word32) : Statement (.legWriteDrawX d) := fun _ => rfl
theorem legWriteDrawY (d : Word32) : Statement (.legWriteDrawY d) := fun _ => rfl
theorem legWriteDrawW (d : Word32) : Statement (.legWriteDrawW d) := fun _ => rfl
theorem legWriteDrawH (d : Word32) : Statement (.legWriteDrawH d) := fun _ => rfl
theorem legWriteFillColor (d : Word32) : Statement (.legWriteFillColor d) := fun _ => rfl
theorem legWriteSrcAddr (d : Word32) : Statement (.legWriteSrcAddr d) := fun _ => rfl
theorem legWriteSrcStride (d : Word32) : Statement (.legWriteSrcStride d) := fun _ => rfl
theorem legWriteStencilKey (d : Word32) : Statement (.legWriteStencilKey d) := fun _ => rfl
theorem legWriteAlphaMode (d : Word32) : Statement (.legWriteAlphaMode d) := fun _ => rfl
theorem legWritePixelFmt (d : Word32) : Statement (.legWritePixelFmt d) := fun _ => rfl
theorem legWriteStatus (d : Word32) : Statement (.legWriteStatus d) := fun _ => rfl
theorem legWriteIrqEnable (d : Word32) : Statement (.legWriteIrqEnable d) := fun _ => rfl
theorem legWriteFifoDataLo (d : Word32) : Statement (.legWriteFifoDataLo d) := fun _ => rfl
theorem legWriteFifoPush (d : Word32) : Statement (.legWriteFifoPush d) := fun _ => rfl
theorem legWriteCtrl (d : Word32) : Statement (.legWriteCtrl d) := fun _ => rfl
theorem legWriteVqFaultCount (d : Word32) : Statement (.legWriteVqFaultCount d) := fun _ => rfl

theorem vioReadMagicValue : Statement .vioReadMagicValue := fun _ => by decide
theorem vioReadVersion : Statement .vioReadVersion := fun _ => by decide
theorem vioReadDeviceID : Statement .vioReadDeviceID := fun _ => by decide
theorem vioReadVendorID : Statement .vioReadVendorID := fun _ => by decide
theorem vioReadDeviceFeatures : Statement .vioReadDeviceFeatures := fun _ => by decide
theorem vioReadQueueNumMax : Statement .vioReadQueueNumMax := fun _ => by decide
theorem vioReadQueueReady : Statement .vioReadQueueReady := fun _ => by decide
theorem vioReadInterruptStatus : Statement .vioReadInterruptStatus := fun _ => by decide
theorem vioReadStatus : Statement .vioReadStatus := fun _ => by decide
theorem vioReadConfigGeneration : Statement .vioReadConfigGeneration := fun _ => by decide
theorem vioReadEventsRead : Statement .vioReadEventsRead := fun _ => by decide
theorem vioReadNumScanouts : Statement .vioReadNumScanouts := fun _ => by decide
theorem vioReadNumCapsets : Statement .vioReadNumCapsets := fun _ => by decide

theorem vioWriteDeviceFeaturesSel (d : Word32) : Statement (.vioWriteDeviceFeaturesSel d) := fun _ => rfl
theorem vioWriteDriverFeatures (d : Word32) : Statement (.vioWriteDriverFeatures d) := fun _ => rfl
theorem vioWriteDriverFeaturesSel (d : Word32) : Statement (.vioWriteDriverFeaturesSel d) := fun _ => rfl
theorem vioWriteQueueSel (d : Word32) : Statement (.vioWriteQueueSel d) := fun _ => rfl
theorem vioWriteQueueNum (d : Word32) : Statement (.vioWriteQueueNum d) := fun _ => rfl
theorem vioWriteQueueReady (d : Word32) : Statement (.vioWriteQueueReady d) := fun _ => rfl
theorem vioWriteQueueNotify (d : Word32) : Statement (.vioWriteQueueNotify d) := fun _ => rfl
theorem vioWriteInterruptACK (d : Word32) : Statement (.vioWriteInterruptACK d) := fun _ => rfl
theorem vioWriteStatus (d : Word32) : Statement (.vioWriteStatus d) := fun _ => rfl
theorem vioWriteQueueDescLow (d : Word32) : Statement (.vioWriteQueueDescLow d) := fun _ => rfl
theorem vioWriteQueueDescHigh (d : Word32) : Statement (.vioWriteQueueDescHigh d) := fun _ => rfl
theorem vioWriteQueueDriverLow (d : Word32) : Statement (.vioWriteQueueDriverLow d) := fun _ => rfl
theorem vioWriteQueueDriverHigh (d : Word32) : Statement (.vioWriteQueueDriverHigh d) := fun _ => rfl
theorem vioWriteQueueDeviceLow (d : Word32) : Statement (.vioWriteQueueDeviceLow d) := fun _ => rfl
theorem vioWriteQueueDeviceHigh (d : Word32) : Statement (.vioWriteQueueDeviceHigh d) := fun _ => rfl
theorem vioWriteEventsClear (d : Word32) : Statement (.vioWriteEventsClear d) := fun _ => rfl

theorem lookup_none {α β : Type} [BEq α] [LawfulBEq α] (k : α) (rows : List (α × β))
    (h : (rows.map Prod.fst).contains k = false) : rows.lookup k = none := by
  induction rows with
  | nil => rfl
  | cons c r ih =>
    obtain ⟨k', v⟩ := c
    simp only [List.map_cons, List.contains_cons, Bool.or_eq_false_iff] at h
    simp only [List.lookup, h.1]
    exact ih h.2

theorem lookup_none_of_read (off : BitVec 9) (h : vioReadOffsets.contains off = false) :
    vioReadRows.lookup off = none := lookup_none off vioReadRows h

theorem lookup_none_of_write (off : BitVec 9) (h : vioWriteOffsets.contains off = false) :
    vioWriteRows.lookup off = none := lookup_none off vioWriteRows h

theorem vioOther (off : BitVec 9) (data : Option Word32) : Statement (.vioOther off data) := fun hw => by
  cases data with
  | none =>
    simp only [WellFormed, vioOtherOk, Bool.and_eq_true, beq_iff_eq, Bool.not_eq_true'] at hw
    simp [encode, decode, decodeAccess, hw.1, lookup_none_of_read off hw.2]
  | some d =>
    simp only [WellFormed, vioOtherOk, Bool.and_eq_true, beq_iff_eq, Bool.not_eq_true'] at hw
    simp [encode, decode, decodeAccess, hw.1, lookup_none_of_write off hw.2]

end Sys2Proof.Laws.RoundTrip
end

