-- ==== Sys2Proof/Tests/Slice0.lean ====
section
/-! SUPPORT. Tests of the model against words and vectors of the spec, and a witness for the hypotheses
of each obligation. A state is `bench` with a few fields changed; the parameters are small so that each
step is cheap to check, and every byte a test reads is listed. -/

namespace Sys2Proof.Tests

open Sys2Proof Sys2Proof.Machine

/-! ### The bench -/

/-- Small parameters that meet the constraints of 00_scope.md R7. -/
def benchParams : Params where
  fifoDepth := 4
  pipeDepth := 2
  vramSize := 0x1000
  stagingSize := 0x400
  resHeapBase := 0
  allocAlign := 256
  maxResources := 4
  maxResW := 16
  maxResH := 16
  maxBackingEntries := 8
  displayW := 4
  displayH := 2
  queueNumMax := 8
  vendorId := 0x1AF4
  guestRegions := [{ base := 0, size := 0x10000, widths := [1, 2, 4, 8] }]

/-- The machine after reset, with the small parameters. -/
def bench : State := { State.reset with cfg := benchParams }

/-- A FIFO entry of the legacy path. -/
def leg (w : Word64) : FifoEntry := { word := w, producer := .legacy }

/-- A FIFO entry of the translator. -/
def virt (w : Word64) : FifoEntry := { word := w, producer := .virtio }

/-- The bench with one legacy word queued. -/
def queued (w : Word64) : State := { bench with fifo := [leg w] }

/-- The bench with an operation of the legacy path in flight. -/
def flying (kind : OpKind) (g : Regs) : State :=
  { bench with inflight := [{ kind, producer := .legacy, snap := g, k := 0, tainted := [] }] }

/-- The bench with the processor in a phase. -/
def serving (v : Vqp) : State := { bench with vqp := v }

/-- The bench with the host's turn on one operation. -/
def hostTurn (op : HostOp) (s : State) : State := { s with hostOps := [op], sched := [.agent .host] }

/-- The state of a completed step; reset when the step stopped. -/
def after (o : Host.Outcome State Fault Refusal) : State :=
  match o with
  | .next s => s
  | .fault _ => State.reset
  | .refused _ => State.reset

/-- A header with flags 1 (FENCE) and fence 9, as vector V136 has it. -/
def fenced : CtrlHdr := { flags := 1, fenceId := 9, ctxId := 0, ringIdx := 0, padding := 0 }

/-- The 24 header bytes of a request of type `lo`, `hi` with that header (30_encoding.md R116). -/
def head24 (lo hi : Byte) : List Byte :=
  [lo, hi, 0, 0, 1, 0, 0, 0, 9, 0, 0, 0, 0, 0, 0, 0, 0, 0, 0, 0, 0, 0, 0, 0]

/-! ### Well-formedness -/

theorem test_wellFormed_attach_refused :
    WellFormed (.cmdResourceAttachBacking fenced 1 0 [{ addr := 0, length := 0 }]) = false := by decide

theorem test_wellFormed_vioOther_refused :
    WellFormed (.vioOther 0x000 none) = false ∧ WellFormed (.vioOther 0x070 (some 1)) = false ∧
      WellFormed (.vioOther 0x0F2 none) = false := by decide

theorem test_wellFormed_accepts :
    WellFormed (.cmdResourceAttachBacking fenced 1 1 [{ addr := 0, length := 0 }]) = true ∧
      WellFormed (.vioOther 0x000 (some 1)) = true ∧ WellFormed (.vioOther 0x0F0 none) = true := by decide

/-! ### Decoding of words written out from the encodings -/

/-- The command words of 30_encoding.md R100, R101, and the INVALID words of vectors V22 to V26. -/
theorem test_decode_commands :
    [0x0000000000000000#64, 0x0100000000000000, 0x100A000000000003, 0x2000000000000000,
      0x2100000000000000].map (fun w => decode (.command w)) =
      [.instr .nop, .instr .eol, .instr (.setReg 10 3), .instr .fill, .instr .blit] ∧
    [0xFF00000000000000#64, 0x0200000000000000, 0x0000000000000001, 0x1000000100000005,
      0x2001000000000000].map (fun w => decode (.command w)) = List.replicate 5 .invalidCommand := by
  decide

/-- A rectangle (1, 2, 3, 4) on the wire (30_encoding.md R120). -/
def rect1234 : List Byte := [1, 0, 0, 0, 2, 0, 0, 0, 3, 0, 0, 0, 4, 0, 0, 0]

/-- The eight supported requests of 30_encoding.md R120, their bytes written out. -/
theorem test_decode_requests :
    decode (.request (head24 0x00 0x01)) = .instr (.cmdGetDisplayInfo fenced) ∧
    decode (.request (head24 0x01 0x01 ++ [5, 0, 0, 0, 67, 0, 0, 0, 0x80, 2, 0, 0, 0xE0, 1, 0, 0])) =
      .instr (.cmdResourceCreate2d fenced 5 67 640 480) ∧
    decode (.request (head24 0x02 0x01 ++ [5, 0, 0, 0x80, 0, 0, 0, 0])) =
      .instr (.cmdResourceUnref fenced 0x80000005) ∧
    decode (.request (head24 0x03 0x01 ++ rect1234 ++ [7, 0, 0, 0, 5, 0, 0, 0])) =
      .instr (.cmdSetScanout fenced { x := 1, y := 2, width := 3, height := 4 } 7 5) ∧
    decode (.request (head24 0x04 0x01 ++ rect1234 ++ [5, 0, 0, 0, 0, 0, 0, 0])) =
      .instr (.cmdResourceFlush fenced { x := 1, y := 2, width := 3, height := 4 } 5) ∧
    decode (.request (head24 0x05 0x01 ++ rect1234 ++ [6, 0, 0, 0, 1, 0, 0, 0, 5, 0, 0, 0, 0, 0, 0, 0])) =
      .instr (.cmdTransferToHost2d fenced { x := 1, y := 2, width := 3, height := 4 } 0x100000006 5) ∧
    decode (.request (head24 0x06 0x01 ++ [5, 0, 0, 0, 1, 0, 0, 0, 0, 0, 4, 0, 0, 0, 0, 0, 16, 0, 0, 0,
      0, 0, 0, 0])) =
      .instr (.cmdResourceAttachBacking fenced 5 1 [{ addr := 0x40000, length := 16 }]) ∧
    decode (.request (head24 0x07 0x01 ++ [5, 0, 0, 0, 0, 0, 0, 0])) =
      .instr (.cmdResourceDetachBacking fenced 5) := by decide

/-- The types of 30_encoding.md R117 that are listed and not supported, a 3D type at each end of its
range, an unlisted type, and requests too short (46_gpu_translator.md R340). -/
theorem test_decode_unsupported :
    [(0x08#8, 0x01#8), (0x09, 0x01), (0x0A, 0x01), (0x0B, 0x01), (0x0C, 0x01), (0x0D, 0x01), (0x00, 0x03),
      (0x01, 0x03), (0x00, 0x02), (0xFF, 0x02)].map (fun t => decode (.request (head24 t.1 t.2))) =
      [.instr (.cmdGetCapsetInfo fenced), .instr (.cmdGetCapset fenced), .instr (.cmdGetEdid fenced),
        .instr (.cmdResourceAssignUuid fenced), .instr (.cmdResourceCreateBlob fenced),
        .instr (.cmdSetScanoutBlob fenced), .instr (.cmdUpdateCursor fenced),
        .instr (.cmdMoveCursor fenced), .instr (.cmd3dRange fenced 0x00), .instr (.cmd3dRange fenced 0xFF)] ∧
    decode (.request (head24 0x0E 0x01)) = .unlistedRequest ∧
    decode (.request (head24 0x00 0x04)) = .unlistedRequest ∧
    decode (.request (head24 0x01 0x01)) = .shortRequest ∧
    decode (.request ((head24 0x00 0x01).take 20)) = .shortRequest := by decide

/-- Legacy reads (30_encoding.md R110), and the invalid ones of vectors V5 and V6. -/
theorem test_decode_legacy_reads :
    [0x000#12, 0x004, 0x008, 0x00C, 0x010, 0x014, 0x018, 0x01C, 0x020, 0x024, 0x028, 0x02C, 0x030, 0x034,
      0x038, 0x03C, 0x040, 0x044].map (fun o => decodedInstr (decode (.access (.legRead o 4)))) =
      [Instr.legReadFbAddr, .legReadFbStride, .legReadDrawX, .legReadDrawY, .legReadDrawW, .legReadDrawH,
        .legReadFillColor, .legReadSrcAddr, .legReadSrcStride, .legReadStencilKey, .legReadAlphaMode,
        .legReadPixelFmt, .legReadStatus, .legReadIrqEnable, .legReadFifoDataLo, .legReadFifoPush,
        .legReadCtrl, .legReadVqFaultCount].map some ∧
    decode (.access (.legRead 0x048 4)) = .invalidAccess ∧ decode (.access (.legRead 0x000 2)) = .invalidAccess ∧
    decode (.access (.legRead 0x002 4)) = .invalidAccess := by decide

/-- Legacy writes (30_encoding.md R110). -/
theorem test_decode_legacy_writes :
    [0x000#12, 0x004, 0x008, 0x00C, 0x010, 0x014, 0x018, 0x01C, 0x020, 0x024, 0x028, 0x02C, 0x030, 0x034,
      0x038, 0x03C, 0x040, 0x044].map (fun o => decodedInstr (decode (.access (.legWrite o 4 0xABCD1234)))) =
      [Instr.legWriteFbAddr 0xABCD1234, .legWriteFbStride 0xABCD1234, .legWriteDrawX 0xABCD1234,
        .legWriteDrawY 0xABCD1234, .legWriteDrawW 0xABCD1234, .legWriteDrawH 0xABCD1234,
        .legWriteFillColor 0xABCD1234, .legWriteSrcAddr 0xABCD1234, .legWriteSrcStride 0xABCD1234,
        .legWriteStencilKey 0xABCD1234, .legWriteAlphaMode 0xABCD1234, .legWritePixelFmt 0xABCD1234,
        .legWriteStatus 0xABCD1234, .legWriteIrqEnable 0xABCD1234, .legWriteFifoDataLo 0xABCD1234,
        .legWriteFifoPush 0xABCD1234, .legWriteCtrl 0xABCD1234, .legWriteVqFaultCount 0xABCD1234].map some ∧
    decode (.access (.legWrite 0x048 4 0)) = .invalidAccess ∧
    decode (.access (.legWrite 0x041 4 0)) = .invalidAccess := by decide

/-- VirtIO reads (30_encoding.md R111, R112), VIO_OTHER and the invalid one of vector V84. -/
theorem test_decode_virtio_reads :
    [0x000#9, 0x004, 0x008, 0x00C, 0x010, 0x034, 0x044, 0x060, 0x070, 0x0FC, 0x100, 0x108, 0x10C].map
      (fun o => decodedInstr (decode (.access (.vioRead o 4)))) =
      [Instr.vioReadMagicValue, .vioReadVersion, .vioReadDeviceID, .vioReadVendorID, .vioReadDeviceFeatures,
        .vioReadQueueNumMax, .vioReadQueueReady, .vioReadInterruptStatus, .vioReadStatus,
        .vioReadConfigGeneration, .vioReadEventsRead, .vioReadNumScanouts, .vioReadNumCapsets].map some ∧
    decode (.access (.vioRead 0x0F0 4)) = .instr (.vioOther 0x0F0 none) ∧
    decode (.access (.vioRead 0x050 4)) = .instr (.vioOther 0x050 none) ∧
    decode (.access (.vioRead 0x002 4)) = .invalidAccess ∧ decode (.access (.vioRead 0x000 1)) = .invalidAccess := by
  decide

/-- VirtIO writes (30_encoding.md R111, R112). -/
theorem test_decode_virtio_writes :
    [0x014#9, 0x020, 0x024, 0x030, 0x038, 0x044, 0x050, 0x064, 0x070, 0x080, 0x084, 0x090, 0x094, 0x0A0,
      0x0A4, 0x104].map (fun o => decodedInstr (decode (.access (.vioWrite o 4 0x89ABCDEF)))) =
      [Instr.vioWriteDeviceFeaturesSel 0x89ABCDEF, .vioWriteDriverFeatures 0x89ABCDEF,
        .vioWriteDriverFeaturesSel 0x89ABCDEF, .vioWriteQueueSel 0x89ABCDEF, .vioWriteQueueNum 0x89ABCDEF,
        .vioWriteQueueReady 0x89ABCDEF, .vioWriteQueueNotify 0x89ABCDEF, .vioWriteInterruptACK 0x89ABCDEF,
        .vioWriteStatus 0x89ABCDEF, .vioWriteQueueDescLow 0x89ABCDEF, .vioWriteQueueDescHigh 0x89ABCDEF,
        .vioWriteQueueDriverLow 0x89ABCDEF, .vioWriteQueueDriverHigh 0x89ABCDEF,
        .vioWriteQueueDeviceLow 0x89ABCDEF, .vioWriteQueueDeviceHigh 0x89ABCDEF,
        .vioWriteEventsClear 0x89ABCDEF].map some ∧
    decode (.access (.vioWrite 0x000 4 1)) = .instr (.vioOther 0x000 (some 1)) ∧
    decode (.access (.vioWrite 0x015 4 1)) = .invalidAccess := by decide

/-- The words of spec/opcode_table.json as the table numbers them: a command word, a request type, an
offset; and the first step after reset runs what was placed. -/
theorem test_table_words :
    decodeTableWord 64 0x1004000000000040 = some (.setReg 4 0x40) ∧
    decodeTableWord 64 0xFF00000000000000 = none ∧
    (decodeTableWord 32 0x00000301).isSome = true ∧ decodeTableWord 16 0x0070 = some .vioReadStatus := by
  decide

theorem test_table_word_runs :
    step (State.reset.withFetchWord 64 0x1004000000000040) =
        exec (.setReg 4 0x40) (takeTurn (State.reset.withFetchWord 64 0x1004000000000040)) ∧
      step (State.reset.withFetchWord 16 0x0030) =
        exec .legReadStatus { takeTurn (State.reset.withFetchWord 16 0x0030) with hostOps := [] } := by
  constructor <;> rfl

/-! ### The legacy register block (vectors V1 to V16) -/

/-- V1, V2, V3, V4, V16: reads after reset, and the masks of 40_register_interface.md R142. -/
theorem test_legacy_reads :
    (after (exec .legReadStatus bench)).bus = .okData 0x00000004 ∧
    (after (exec .legReadVqFaultCount bench)).bus = .okData 0 ∧
    [Instr.legReadFbAddr, .legReadFbStride, .legReadDrawX, .legReadDrawY, .legReadDrawW, .legReadDrawH,
      .legReadFillColor, .legReadSrcAddr, .legReadSrcStride, .legReadStencilKey, .legReadAlphaMode,
      .legReadPixelFmt].map (fun i => (after (exec i { bench with regs :=
        { fbAddr := 0x10, fbStride := 0x11, drawX := 0x12, drawY := 0x13, drawW := 0x14, drawH := 0x15,
          fillColor := 0x16, srcAddr := 0x17, srcStride := 0x18, stencilKey := 0x19, alphaMode := 2,
          pixelFmt := 1 } })).bus) =
      [0x10, 0x11, 0x12, 0x13, 0x14, 0x15, 0x16, 0x17, 0x18, 0x19, 2, 1].map BusResponse.okData := by decide

/-- V8: the write-only registers read 0. -/
theorem test_legacy_write_only :
    [Instr.legReadFifoDataLo, .legReadFifoPush, .legReadCtrl].map
      (fun i => (after (exec i { bench with loLatch := 0x55 })).bus) = List.replicate 3 (.okData 0) ∧
    (after (exec .legReadIrqEnable { bench with irqEnable := 2 })).bus = .okData 2 := by decide

/-- V2, V3, V4 for all twelve: a write of all ones stores the register's width. -/
theorem test_legacy_write_masks :
    [Instr.legWriteFbAddr, .legWriteFbStride, .legWriteDrawX, .legWriteDrawY, .legWriteDrawW, .legWriteDrawH,
      .legWriteFillColor, .legWriteSrcAddr, .legWriteSrcStride, .legWriteStencilKey, .legWriteAlphaMode,
      .legWritePixelFmt].map (fun f => (after (exec (f 0xFFFFFFFF) bench)).regs) =
      [{ Regs.zero with fbAddr := 0xFFFFFFFF }, { Regs.zero with fbStride := 0xFFFF },
        { Regs.zero with drawX := 0xFFFF }, { Regs.zero with drawY := 0xFFFF },
        { Regs.zero with drawW := 0xFFFF }, { Regs.zero with drawH := 0xFFFF },
        { Regs.zero with fillColor := 0xFFFFFFFF }, { Regs.zero with srcAddr := 0xFFFFFFFF },
        { Regs.zero with srcStride := 0xFFFF }, { Regs.zero with stencilKey := 0xFFFFFFFF },
        { Regs.zero with alphaMode := 3 }, { Regs.zero with pixelFmt := 1 }] ∧
    (after (exec (.legWritePixelFmt 0xFFFFFFFE) bench)).regs.pixelFmt = 0 := by decide

/-- V7, V15: writes of read-only registers, and of IRQ_ENABLE with DONE already set. -/
theorem test_legacy_write_ignored :
    exec (.legWriteStatus 0xFFFFFFFF) bench = .next { bench with bus := .ok } ∧
    exec (.legWriteVqFaultCount 0xFFFFFFFF) bench = .next { bench with bus := .ok } ∧
    (after (exec (.legWriteIrqEnable 1) { bench with done := true })).irqEnable = 1 ∧
    (after (exec (.legWriteIrqEnable 1) { bench with done := true })).out = [] := by
  refine ⟨rfl, rfl, ?_⟩; decide

/-- V9, V10: FIFO_DATA_LO, then FIFO_PUSH. -/
theorem test_legacy_push :
    (after (exec (.legWriteFifoDataLo 0x40) { bench with loLatch := 0x1234 })).loLatch = 0x40 ∧
    (after (exec (.legWriteFifoPush 0x10040000) { bench with loLatch := 0x40 })).fifo =
      [leg 0x1004000000000040] ∧
    (after (exec (.legWriteFifoPush 0x10040000) { bench with loLatch := 0x40 })).loLatch = 0 ∧
    (after (exec .legReadStatus (queued 0x1004000000000040))).bus = .okData 0x00010002 := by decide

/-- V11, V12: a push into a full FIFO, and while the translator holds the lock. -/
theorem test_legacy_push_refused :
    exec (.legWriteFifoPush 0) { bench with fifo := List.replicate 4 (leg 0) } =
      .next { bench with fifo := List.replicate 4 (leg 0), bus := .err .fifoFull } ∧
    exec (.legWriteFifoPush 0x20000000) { bench with fifo := [leg 0], lock := .heldVirtio } =
      .next { bench with fifo := [leg 0], lock := .heldVirtio, bus := .err .fifoFull } := by
  constructor <;> rfl

/-- V13, V14: CTRL. -/
theorem test_legacy_ctrl :
    exec (.legWriteCtrl 3) { bench with
        fifo := [leg 0x2000000000000000, virt 7, leg 0x0100000000000000], done := true, loLatch := 5 } =
      .next { bench with fifo := [virt 7], bus := .ok } ∧
    exec (.legWriteCtrl 4) { bench with fault := true, faultCode := 3 } = .next { bench with bus := .ok } := by
  constructor <;> rfl

/-! ### Command words (vectors V20 to V36, V50 to V62) -/

/-- V20 and V21. -/
theorem test_nop_eol :
    exec .nop (queued 0) = .next bench ∧
    (after (exec .eol (queued 0x0100000000000000))).fifo = [] ∧
    ((after (exec .eol (queued 0x0100000000000000))).inflight.map fun o => (o.kind, o.producer)) =
      [(.eol, .legacy)] := by
  refine ⟨rfl, ?_⟩; decide

/-- V30 to V32: SET_REG masks to the width. -/
theorem test_setReg :
    (after (exec (.setReg 2 0x10010) (queued 0))).regs = { Regs.zero with drawX := 0x10 } ∧
    (after (exec (.setReg 10 7) (queued 0))).regs = { Regs.zero with alphaMode := 3 } ∧
    (after (exec (.setReg 11 3) (queued 0))).regs = { Regs.zero with pixelFmt := 1 } := by decide

/-- V33, V34 and the kept first code of V28. -/
theorem test_setReg_invalid :
    exec (.setReg 12 0) (queued 0) = .next { bench with fault := true, faultCode := 2 } ∧
    exec (.setReg 0xFF 0xFFFFFFFF) { queued 0 with fault := true, faultCode := 1, irqEnable := 3 } =
      .next { bench with fault := true, faultCode := 1, irqEnable := 3, out := [.eng] } := by
  constructor <;> rfl

/-- V22: an INVALID word is consumed with INVALID_OPCODE. -/
theorem test_invalid_word :
    step { bench with fifo := [leg 0xFF00000000000000, leg 0x0100000000000000], sched := [.agent .parse] } =
      .next { bench with
        fifo := [leg 0x0100000000000000], fault := true, faultCode := 1, tick := 1 } := by rfl

/-- V52, V53 scaled to the bench: the last pixel that fits, and one byte further. -/
theorem test_fill_bounds :
    (after (exec .fill { queued 0 with regs :=
      { Regs.zero with fbAddr := 0xFFC, drawW := 1, drawH := 1 } })).inflight.length = 1 ∧
    (after (exec .fill { queued 0 with regs :=
      { Regs.zero with fbAddr := 0xFFD, drawW := 1, drawH := 1 } })).faultCode = 3 ∧
    (after (exec .fill { queued 0 with regs :=
      { Regs.zero with fbAddr := 0xFFD, drawW := 1, drawH := 1 } })).inflight = [] := by decide

/-- V55, V61 scaled: a BLIT without pixels enters anywhere, one whose source alone leaves VRAM faults. -/
theorem test_blit_bounds :
    (after (exec .blit { queued 0 with regs :=
      { Regs.zero with fbAddr := 0xFFFFFFFF, drawW := 0, drawH := 3 } })).inflight.length = 1 ∧
    (after (exec .blit { queued 0 with regs :=
      { Regs.zero with srcAddr := 0xFFD, drawW := 1, drawH := 1 } })).faultCode = 3 := by decide

/-- V54: the last address of a draw is computed beyond 32 bits. -/
theorem test_draw_address :
    dstAddr { Regs.zero with fbStride := 0xFFFF, drawX := 0xFFFF, drawY := 0xFFFF, drawW := 1, drawH := 1 } 0 =
      0x10001FFFD := by decide

/-- V50, V51: the first pixel step of a FILL in both formats. -/
theorem test_fill_pixel :
    (after (headStep (flying .fill { Regs.zero with
      fbAddr := 0x100, fbStride := 16, drawX := 1, drawY := 1, drawW := 2, drawH := 1,
      fillColor := 0xFF112233 }))).vram = [(0x114, 0x33), (0x115, 0x22), (0x116, 0x11), (0x117, 0xFF)] ∧
    (after (headStep (flying .fill { Regs.zero with
      fbAddr := 0x100, fbStride := 16, drawX := 1, drawY := 1, drawW := 2, drawH := 1,
      fillColor := 0xFF112233, pixelFmt := 1 }))).vram = [(0x113, 0x33), (0x114, 0x22), (0x115, 0x11)] := by
  decide

/-- Memory of vector V58: the source pixel 0x00000000 at 0x200. -/
def keyedVram : Memory := [(0x200, 0), (0x201, 0), (0x202, 0), (0x203, 0)]

/-- V58, V59: a keyed BLIT drops the pixel equal to the key; without KEY_EN it is copied. -/
theorem test_blit_pixel :
    (after (headStep { flying .blit { Regs.zero with
        srcAddr := 0x200, fbAddr := 0x300, drawW := 1, drawH := 1, alphaMode := 2 } with
      vram := keyedVram })).vram = keyedVram ∧
    (after (headStep { flying .blit { Regs.zero with
        srcAddr := 0x200, fbAddr := 0x300, drawW := 1, drawH := 1 } with vram := keyedVram })).vram =
      keyedVram ++ [(0x300, 0), (0x301, 0), (0x302, 0), (0x303, 0)] := by decide

/-- V60: an RGB888 source widens to alpha 0xFF, so the key 0x00332211 does not match it. V62: the source
is read at SRC_ADDR, whatever DRAW_X is. -/
theorem test_blit_rgb :
    (after (headStep { flying .blit { Regs.zero with
        srcAddr := 0x400, fbAddr := 0x500, drawX := 3, drawW := 1, drawH := 1, alphaMode := 2,
        stencilKey := 0x00332211, pixelFmt := 1 } with
      vram := [(0x400, 0x11), (0x401, 0x22), (0x402, 0x33)] })).vram =
      [(0x400, 0x11), (0x401, 0x22), (0x402, 0x33), (0x509, 0x11), (0x50A, 0x22), (0x50B, 0x33)] := by decide

/-- V56: a blended FILL, its first pixel. -/
theorem test_blend_pixel :
    (after (headStep { flying .fill { Regs.zero with
        fbAddr := 0x200, fbStride := 4, drawW := 1, drawH := 2, alphaMode := 1, fillColor := 0x40102030 } with
      vram := [(0x200, 0x60), (0x201, 0x50), (0x202, 0x40), (0x203, 0x80)] })).vram =
      [(0x200, 0x77), (0x201, 0x5B), (0x202, 0x3F), (0x203, 0x9F)] := by decide

/-- V40 to V48. -/
theorem test_over :
    overPixel 0x40102030 0x80405060 = 0x9F3F5B77 ∧ overPixel 0x80FF0000 0x000000FF = 0x80FF007F ∧
    overPixel 0x00FFFFFF 0xFFFFFFFF = 0xFFFFFFFF ∧ overPixel 0xFF123456 0xABCDEF01 = 0xFF123456 ∧
    overPixel 0x00000000 0x12345678 = 0x12345678 ∧ overPixel 0x7F7F7F7F 0xFFFFFFFF = 0xFFFFFFFF ∧
    overPixel 0x80808080 0x80808080 = 0xBFBFBFBF ∧ overPixel 0x01000000 0x00FF00FF = 0x01FE00FE ∧
    overPixel 0x80800000 0xFF0000FF = 0xFF80007F := by decide

/-- V21, V27, V140, V141: retirement. -/
theorem test_retire :
    headStep { flying .eol Regs.zero with irqEnable := 1, done := true } =
      .next { bench with irqEnable := 1, done := true, out := [.eng] } ∧
    headStep (flying .blit Regs.zero) = .next { bench with done := true } ∧
    headStep { flying .blit Regs.zero with fifo := [leg 0] } = .next { bench with fifo := [leg 0] } := by
  refine ⟨rfl, rfl, rfl⟩

/-- V29: Parse is not enabled while the in-flight list is full. -/
theorem test_parse_waits :
    parseEnabled { flying .fill Regs.zero with
      fifo := [leg 0x0100000000000000], cfg := { benchParams with pipeDepth := 1 } } = false := by decide

/-! ### The VirtIO transport (vectors V70 to V84) -/

/-- V70, V78, V83: the identification registers, QueueNumMax and the configuration space. -/
theorem test_virtio_reads :
    [Instr.vioReadMagicValue, .vioReadVersion, .vioReadDeviceID, .vioReadVendorID, .vioReadConfigGeneration,
      .vioReadNumScanouts, .vioReadNumCapsets, .vioReadEventsRead, .vioReadQueueNumMax].map
      (fun i => (after (exec i bench)).bus) =
      [0x74726976, 2, 16, 0x1AF4, 0, 1, 0, 0, 8].map BusResponse.okData ∧
    (after (exec .vioReadQueueNumMax { bench with vio := { Vio.zero with queueSel := 2 } })).bus =
      .okData 0 := by decide

/-- V71: the device features by selector. -/
theorem test_virtio_device_features :
    [0#32, 1, 2].map (fun d =>
      (after (exec .vioReadDeviceFeatures (after (exec (.vioWriteDeviceFeaturesSel d) bench)))).bus) =
      [.okData 0, .okData 1, .okData 0] := by decide

/-- V72, V75, V76, V77: the status handshake. -/
theorem test_virtio_status :
    (after (exec (.vioWriteStatus 0x0B) { bench with
      vio := { Vio.zero with status := 0x03, driverFeatures := 1 } })).vio =
      { Vio.zero with status := 0x03, driverFeatures := 1, negFailed := true } ∧
    (after (exec (.vioWriteStatus 0x0B) { bench with
      vio := { Vio.zero with status := 0x03, driverFeatures := 0x100000000 } })).vio.status = 0x0B ∧
    (after (exec (.vioWriteStatus 0x07) bench)).vio.status = 0x03 ∧
    (after (exec (.vioWriteStatus 0x4B) { bench with vio := { Vio.zero with status := 0x0B } })).vio.status =
      0x0B ∧
    (after (exec .vioReadStatus { bench with vio := { Vio.zero with status := 0x4B } })).bus =
      .okData 0x4B := by decide

/-- V144, V145: the device reset frees the lock and keeps the engine. -/
theorem test_virtio_device_reset :
    exec (.vioWriteStatus 0) { bench with
        regs := { Regs.zero with drawX := 5 }, fifo := [leg 1, virt 2], lock := .heldVirtio, done := true,
        vio := { Vio.zero with status := 0x0F }, vqp := { Vqp.idle with phase := .push, group := [3] } } =
      .next { bench with
        regs := { Regs.zero with drawX := 5 }, fifo := [leg 1, virt 2], done := true, bus := .ok } := by rfl

/-- The driver's features, by halves, and after FEATURES_OK (44_virtio_transport.md R262). -/
theorem test_virtio_driver_features :
    (after (exec (.vioWriteDriverFeatures 1) (after (exec (.vioWriteDriverFeaturesSel 1) bench)))).vio =
      { Vio.zero with drvFeaturesSel := 1, driverFeatures := 0x100000000 } ∧
    (after (exec (.vioWriteDriverFeatures 5) bench)).vio.driverFeatures = 5 ∧
    (after (exec (.vioWriteDriverFeatures 5) { bench with vio := { Vio.zero with status := 0x0B } })).vio =
      { Vio.zero with status := 0x0B } := by decide

/-- V79: an illegal size made ready is a transport error. -/
theorem test_virtio_queue_error :
    exec (.vioWriteQueueReady 1) { bench with q0 := { Queue.zero with num := 3 } } =
      .next { bench with
        q0 := { Queue.zero with num := 3 }
        vio := { Vio.zero with status := 0x40, interruptStatus := 2 }
        out := [.vio], bus := .ok } ∧
    (after (exec .vioReadQueueReady bench)).bus = .okData 0 ∧
    (after (exec .vioReadQueueReady { bench with q0 := { Queue.zero with ready := true } })).bus =
      .okData 1 := by
  refine ⟨rfl, ?_⟩; decide

/-- The queue addresses by halves, in the queue QueueSel names (44_virtio_transport.md R264, R265). -/
theorem test_virtio_queue_config :
    (after (exec (.vioWriteQueueSel 1) bench)).vio.queueSel = 1 ∧
    ([Instr.vioWriteQueueNum, .vioWriteQueueDescLow, .vioWriteQueueDescHigh, .vioWriteQueueDriverLow,
      .vioWriteQueueDriverHigh, .vioWriteQueueDeviceLow, .vioWriteQueueDeviceHigh].foldl
      (fun s f => after (exec (f 8) s)) { bench with vio := { Vio.zero with queueSel := 1 } }).q1 =
      { Queue.zero with
        num := 8, descAddr := 0x800000008, driverAddr := 0x800000008, deviceAddr := 0x800000008 } ∧
    (after (exec (.vioWriteQueueReady 1) { bench with q0 := { Queue.zero with num := 8, usedIdx := 3 } })).q0 =
      { Queue.zero with num := 8, ready := true } := by decide

/-- V80: configuration of a ready queue is ignored. -/
theorem test_virtio_queue_config_ignored :
    [Instr.vioWriteQueueNum, .vioWriteQueueDescLow, .vioWriteQueueDescHigh, .vioWriteQueueDriverLow,
      .vioWriteQueueDriverHigh, .vioWriteQueueDeviceLow, .vioWriteQueueDeviceHigh].map
      (fun f => (after (exec (f 16) { bench with q0 := { Queue.zero with num := 8, ready := true } })).q0) =
      List.replicate 7 { Queue.zero with num := 8, ready := true } := by decide

/-- V81: a notification needs DRIVER_OK. -/
theorem test_virtio_notify :
    (after (exec (.vioWriteQueueNotify 0) { bench with
      q0 := { Queue.zero with num := 8, ready := true }, vio := { Vio.zero with status := 0x0B } })).q0.pending =
      false ∧
    (after (exec (.vioWriteQueueNotify 0) { bench with
      q0 := { Queue.zero with num := 8, ready := true }, vio := { Vio.zero with status := 0x0F } })).q0.pending =
      true := by decide

/-- V82: InterruptACK; V83: events_clear. -/
theorem test_virtio_acknowledge :
    (after (exec (.vioWriteInterruptACK 1) { bench with
      vio := { Vio.zero with interruptStatus := 3 } })).vio.interruptStatus = 2 ∧
    (after (exec .vioReadInterruptStatus { bench with
      vio := { Vio.zero with interruptStatus := 2 } })).bus = .okData 2 ∧
    (after (exec (.vioWriteEventsClear 0xFFFFFFFF) bench)).vio.eventsRead = 0 := by decide

/-- V83, V84: other offsets read 0 and ignore writes. -/
theorem test_virtio_other :
    exec (.vioOther 0x0F0 none) bench = .next { bench with bus := .okData 0 } ∧
    exec (.vioOther 0x100 (some 5)) bench = .next { bench with bus := .ok } := by
  constructor <;> rfl

/-! ### The translator (vectors V111 to V136), on a table of the bench -/

/-- Resource 1: 16 x 2 at 0, stride 64, 128 bytes. -/
def res1 : Resource :=
  { format := 1, width := 16, height := 2, stride := 64, base := 0, size := 128, backing := none }

/-- Resource 2: 8 x 8 at 256, stride 32, 256 bytes, with a backing of 256 bytes. -/
def res2 : Resource :=
  { format := 2, width := 8, height := 8, stride := 32, base := 256, size := 256,
    backing := some [{ addr := 0x8000, length := 256 }] }

/-- A processor in TRANSLATE with a table of two resources and resource 1 on the scan-out, its rectangle
(0, 0, 8, 2). -/
def translating : State :=
  { bench with
    vqp := { Vqp.idle with phase := .translate }
    resources := [(1, res1), (2, res2)]
    scanout := { enabled := true, resourceId := 1, rect := { x := 0, y := 0, width := 8, height := 2 },
                 base := 0, stride := 64 } }

/-- The first four response bytes, the group and the phase that a request leaves. -/
def answer (i : Instr) (s : State) : Nat × List Word64 × Phase :=
  let v := (after (exec i s)).vqp
  (leNat (v.resp.take 4), v.group, v.phase)

/-- V136: GET_DISPLAY_INFO mirrors flags and fence; the first mode is the display (4 x 2 here). -/
theorem test_get_display_info :
    (after (exec (.cmdGetDisplayInfo fenced) translating)).vqp.resp =
      [0x01, 0x11, 0, 0, 1, 0, 0, 0, 9, 0, 0, 0, 0, 0, 0, 0, 0, 0, 0, 0, 0, 0, 0, 0] ++
        [0, 0, 0, 0, 0, 0, 0, 0, 4, 0, 0, 0, 2, 0, 0, 0, 1, 0, 0, 0, 0, 0, 0, 0] ++
        List.replicate 360 0 := by rfl

/-- V113, V114 scaled: CREATE_2D places a resource at the first aligned gap. -/
theorem test_create :
    answer (.cmdResourceCreate2d fenced 3 1 4 4) translating = (0x1100, [], .wait) ∧
    assocGet 3 (after (exec (.cmdResourceCreate2d fenced 3 1 4 4) translating)).resources =
      some { format := 1, width := 4, height := 4, stride := 16, base := 512, size := 64, backing := none } := by
  decide

/-- V115 to V120 scaled: the checks of CREATE_2D in their order. -/
theorem test_create_errors :
    [Instr.cmdResourceCreate2d fenced 1 99 0 0, .cmdResourceCreate2d fenced 0 1 4 4,
      .cmdResourceCreate2d fenced 3 99 4 4, .cmdResourceCreate2d fenced 3 1 17 1].map
      (fun i => answer i translating) =
      [(0x1203, [], .wait), (0x1203, [], .wait), (0x1205, [], .wait), (0x1205, [], .wait)] ∧
    answer (.cmdResourceCreate2d fenced 9 1 1 1) { translating with
      resources := [(1, res1), (2, res2), (3, { res1 with base := 512 }), (4, { res1 with base := 768 })] } =
      (0x1201, [], .wait) ∧
    answer (.cmdResourceCreate2d fenced 9 1 1 1) { translating with
      resources := [(1, { res1 with size := 0xC00 })] } = (0x1201, [], .wait) := by decide

/-- V121, V122: UNREF of an unknown resource, and of the one on the scan-out. -/
theorem test_unref :
    answer (.cmdResourceUnref fenced 5) translating = (0x1203, [], .wait) ∧
    (after (exec (.cmdResourceUnref fenced 5) translating)).faultCode = 5 ∧
    answer (.cmdResourceUnref fenced 1) translating = (0x1100, [], .wait) ∧
    (after (exec (.cmdResourceUnref fenced 1) translating)).scanout = Scanout.off ∧
    (after (exec (.cmdResourceUnref fenced 1) translating)).resources = [(2, res2)] := by decide

/-- V123 to V126: SET_SCANOUT. -/
theorem test_set_scanout :
    answer (.cmdSetScanout fenced { x := 0, y := 0, width := 1, height := 1 } 1 1) translating =
      (0x1202, [], .wait) ∧
    answer (.cmdSetScanout fenced { x := 0, y := 0, width := 8, height := 8 } 0 2) translating =
      (0x1100, [0x1000000000000100, 0x1001000000000020, 0x100B000000000000], .acquire) ∧
    answer (.cmdSetScanout fenced { x := 0xFFFFFFFF, y := 0, width := 2, height := 1 } 0 1) translating =
      (0x1205, [], .wait) := by decide

theorem test_set_scanout_off :
    answer (.cmdSetScanout fenced { x := 0, y := 0, width := 8, height := 8 } 0 0) translating =
      (0x1100, [], .wait) ∧
    (after (exec (.cmdSetScanout fenced { x := 0, y := 0, width := 8, height := 8 } 0 0) translating)).scanout =
      Scanout.off := by decide

/-- V133, V134: FLUSH clips to the scan-out's rectangle; of the resource on the scan-out it does nothing. -/
theorem test_flush :
    answer (.cmdResourceFlush fenced { x := 5, y := 1, width := 3, height := 3 } 2) translating =
      (0x1100, [0x1007000000000134, 0x1008000000000020, 0x1000000000000000, 0x1001000000000040,
        0x1002000000000005, 0x1003000000000001, 0x1004000000000003, 0x1005000000000001,
        0x100A000000000000, 0x100B000000000000, 0x2100000000000000], .acquire) ∧
    answer (.cmdResourceFlush fenced { x := 0, y := 0, width := 1, height := 1 } 1) translating =
      (0x1100, [], .wait) := by decide

/-- V127, V128, V129: TRANSFER without a backing, with one too short, and of an empty rectangle. -/
theorem test_transfer_checks :
    answer (.cmdTransferToHost2d fenced { x := 0, y := 0, width := 1, height := 1 } 0 1) translating =
      (0x1200, [], .wait) ∧
    answer (.cmdTransferToHost2d fenced { x := 0, y := 0, width := 8, height := 8 } 1 2) translating =
      (0x1205, [], .wait) ∧
    answer (.cmdTransferToHost2d fenced { x := 0, y := 0, width := 0, height := 5 } 0 2) translating =
      (0x1100, [], .wait) := by decide

/-- R350: the group of a transfer, with the scan-out's FB registers put back. -/
theorem test_transfer :
    answer (.cmdTransferToHost2d fenced { x := 0, y := 0, width := 8, height := 8 } 0 2) translating =
      (0x1100, [0x1007000000000C00, 0x1008000000000020, 0x1000000000000100, 0x1001000000000020,
        0x1002000000000000, 0x1003000000000000, 0x1004000000000008, 0x1005000000000008,
        0x100A000000000000, 0x100B000000000000, 0x2100000000000000, 0x1000000000000000,
        0x1001000000000040], .stage) := by decide

/-- V130, V131: ATTACH_BACKING of an attached resource, and of a request too short. -/
theorem test_attach :
    answer (.cmdResourceAttachBacking fenced 2 1 [{ addr := 0, length := 1 }]) translating =
      (0x1200, [], .wait) ∧
    answer (.cmdResourceAttachBacking fenced 1 2 [{ addr := 0, length := 1 }]) translating =
      (0x1200, [], .wait) ∧
    assocGet 1 (after (exec (.cmdResourceAttachBacking fenced 1 1 [{ addr := 0x40000, length := 16 }])
      translating)).resources = some { res1 with backing := some [{ addr := 0x40000, length := 16 }] } := by
  decide

/-- V132: DETACH_BACKING. -/
theorem test_detach :
    answer (.cmdResourceDetachBacking fenced 1) translating = (0x1200, [], .wait) ∧
    assocGet 2 (after (exec (.cmdResourceDetachBacking fenced 2) translating)).resources =
      some { res2 with backing := none } := by decide

/-- V111: the nine unsupported forms, without a fault. -/
theorem test_unsupported :
    [Instr.cmdGetCapsetInfo fenced, .cmdGetCapset fenced, .cmdGetEdid fenced, .cmdResourceAssignUuid fenced,
      .cmdResourceCreateBlob fenced, .cmdSetScanoutBlob fenced, .cmdUpdateCursor fenced, .cmdMoveCursor fenced,
      .cmd3dRange fenced 7].map (fun i => (answer i translating, (after (exec i translating)).fault)) =
      List.replicate 9 ((0x1200, [], .wait), false) := by decide

/-- V110: a request of 20 bytes; its missing header bytes are mirrored as 0 (46_gpu_translator.md R344). -/
theorem test_short_request :
    (after (step { bench with
      vqp := { Vqp.idle with phase := .translate, req := (head24 0x00 0x01).take 20 }
      sched := [.agent .vqp] })).vqp.resp = head24 0x00 0x12 := by decide

/-! ### Witnesses: decoding and the step

Each theorem below names the obligation whose hypotheses it meets, clause by clause, at boundary values
where a clause has a range. -/

theorem witness_DecodeEncodeRoundTrip :
    WellFormed (.cmdResourceAttachBacking fenced 1 1 [{ addr := 0, length := 0 }]) = true ∧
      WellFormed (.setReg 0xFF 0xFFFFFFFF) = true ∧ WellFormed (.vioOther 0x1FC (some 0)) = true := by decide

theorem witness_DecodedReencodes :
    decode (.request (head24 0xFF 0x02)) = .instr (.cmd3dRange fenced 0xFF) ∧
      decode (.command 0x10FF0000FFFFFFFF) = .instr (.setReg 0xFF 0xFFFFFFFF) ∧
      decode (.access (.vioWrite 0x1FC 4 1)) = .instr (.vioOther 0x1FC (some 1)) := by decide

theorem witness_CommandWordDecode : 11 < (12#8).toNat ∧ 11 < (0xFF#8).toNat := by decide

/-- The seven clauses on decoded fields are met by the requests of `test_decode_requests`; an attach
that announces more entries than it holds decodes too, and so do a header alone and the unsupported
forms, at both ends of their ranges. -/
theorem witness_RequestDecode :
    decode (.request (head24 0x00 0x01)) ≠ .shortRequest ∧
      decode (.request ((head24 0x00 0x01).take 23)) = .shortRequest ∧
      decode (.request (head24 0xFF 0x01)) = .unlistedRequest ∧
      decode (.request (head24 0x06 0x01 ++ [5, 0, 0, 0, 2, 0, 0, 0] ++ List.replicate 31 0)) =
        .instr (.cmdResourceAttachBacking fenced 5 2 [{ addr := 0, length := 0 }]) ∧
      decode (.request (head24 0x00 0x01)) = .instr (.cmdGetDisplayInfo fenced) ∧
      decode (.request (head24 0x08 0x01)) = .instr (.cmdGetCapsetInfo fenced) ∧
      decode (.request (head24 0x01 0x03)) = .instr (.cmdMoveCursor fenced) ∧
      decode (.request (head24 0x00 0x02)) = .instr (.cmd3dRange fenced 0x00) ∧
      decode (.request (head24 0xFF 0x02)) = .instr (.cmd3dRange fenced 0xFF) := by decide

/-- An access beyond the legacy registers (vector V5). -/
def badAccess : BusAccess := .legRead 0x048 4

theorem witness_AccessValidity :
    (hostTurn (.access badAccess) bench).hostOps = .access badAccess :: [] ∧
      ∀ i, decode (.access badAccess) ≠ .instr i := by
  refine ⟨rfl, fun i h => ?_⟩
  have : decode (.access badAccess) = .invalidAccess := by decide
  rw [this] at h
  cases h

theorem witness_StepRunsDecodedInstruction :
    (WellFormed (.setReg 4 0x40) = true ∧
      nextTurn { queued 0x1004000000000040 with sched := [.agent .parse] } = .agent .parse ∧
      (queued 0x1004000000000040).fifo = leg 0x1004000000000040 :: [] ∧
      (queued 0x1004000000000040).inflight.length < (queued 0).cfg.pipeDepth ∧
      decode (.command 0x1004000000000040) = .instr (.setReg 4 0x40)) ∧
    (WellFormed .legReadStatus = true ∧
      nextTurn (hostTurn (.access (.legRead 0x030 4)) bench) = .agent .host ∧
      (hostTurn (.access (.legRead 0x030 4)) bench).hostOps = .access (.legRead 0x030 4) :: [] ∧
      decode (.access (.legRead 0x030 4)) = .instr .legReadStatus) ∧
    (WellFormed (.cmdGetDisplayInfo fenced) = true ∧
      nextTurn { translating with sched := [.agent .vqp] } = .agent .vqp ∧
      translating.vqp.phase = .translate ∧
      decode (.request { translating.vqp with req := head24 0x00 0x01 }.req) =
        .instr (.cmdGetDisplayInfo fenced)) := by decide

theorem witness_UndecodedSteps :
    (nextTurn { queued 0xFF00000000000000 with sched := [.agent .parse] } = .agent .parse ∧
      (queued 0xFF00000000000000).fifo = leg 0xFF00000000000000 :: [] ∧
      (queued 0xFF00000000000000).inflight.length < (queued 0).cfg.pipeDepth ∧
      decode (.command 0xFF00000000000000) = .invalidCommand) ∧
    (nextTurn { translating with sched := [.agent .vqp] } = .agent .vqp ∧
      translating.vqp.phase = .translate ∧ decode (.request translating.vqp.req) = .shortRequest ∧
      decode (.request (head24 0xFF 0x01)) = .unlistedRequest) := by decide

/-! ### Witnesses: invariants and footprints -/

/-- A state in the middle of things: a FILL in flight and an EOL queued by the legacy path, a queue
ready with DRIVER_OK, the processor in the middle of a staging copy, a table of two resources. -/
def busy : State :=
  { translating with
    inflight := [{ kind := .fill, producer := .legacy, k := 1, tainted := [5, 9],
                   snap := { Regs.zero with drawW := 2, drawH := 1, fbStride := 8 } }]
    fifo := [leg 0x0100000000000000]
    vram := [(5, 1)]
    guest := [(0x8000, 0x10), (0x8001, 0x20)]
    vio := { Vio.zero with status := 0x0F, driverFeatures := 0x100000000 }
    q0 := { Queue.zero with num := 4, ready := true, descAddr := 0x1000, driverAddr := 0x2000,
                            deviceAddr := 0x3000 }
    vqp := { Vqp.idle with
      phase := .stage, copied := 1
      plan := some { backing := [{ addr := 0x8000, length := 256 }], stride := 32, width := 8, height := 8,
                     offset := 0 } } }

/-- `busy` with an agent's turn. -/
def busyTurn (a : Agent) : State := { busy with sched := [.agent a] }

theorem witness_MemoryInvariant :
    memoryOk (busyTurn .vqp) = true ∧ ∃ t, step (busyTurn .vqp) = .next t := ⟨by decide, _, rfl⟩

theorem witness_EngineInvariant :
    engineOk (busyTurn .head) = true ∧ ∃ t, step (busyTurn .head) = .next t := ⟨by decide, _, rfl⟩

theorem witness_ArbiterInvariant :
    arbiterOk (busyTurn .vqp) = true ∧ ∃ t, step (busyTurn .vqp) = .next t := ⟨by decide, _, rfl⟩

theorem witness_TransportInvariant :
    transportOk (hostTurn (.access (.vioWrite 0x070 4 0x0F)) busy) = true ∧
      queuesOk (hostTurn (.access (.vioWrite 0x070 4 0x0F)) busy) = true ∧
      ∃ t, step (hostTurn (.access (.vioWrite 0x070 4 0x0F)) busy) = .next t := ⟨by decide, by decide, _, rfl⟩

theorem witness_TranslatorInvariant :
    (busyTurn .vqp).cfg.ok = true ∧ translatorOk (busyTurn .vqp) = true ∧
      ∃ t, step (busyTurn .vqp) = .next t := ⟨by decide, by decide, _, rfl⟩

theorem witness_StepNeverStops :
    (busyTurn .parse).cfg.ok = true ∧ engineOk (busyTurn .parse) = true ∧
      translatorOk (busyTurn .parse) = true := by decide

theorem witness_PulsesAppendOnly :
    ∃ t, step { flying .eol Regs.zero with irqEnable := 1, sched := [.agent .head] } = .next t ∧
      t.out = [.eng] := ⟨_, rfl, rfl⟩

/-- A push by the host. -/
theorem witness_FifoDiscipline :
    nextTurn (hostTurn (.access (.legWrite 0x03C 4 0x20000000)) bench) ≠ .powerOn ∧
      ∃ t, step (hostTurn (.access (.legWrite 0x03C 4 0x20000000)) bench) = .next t ∧
        t.fifo = [leg 0x2000000000000000] :=
  ⟨by decide, _, rfl, rfl⟩

theorem witness_AgentFootprints :
    (∃ t, agentStep .parse busy = .next t) ∧ (∃ t, agentStep .head busy = .next t) ∧
      (∃ t, agentStep .vqp busy = .next t) ∧
      (∃ t, agentStep .host (hostTurn (.access (.vioWrite 0x070 4 0)) busy) = .next t) ∧
      ∃ t, agentStep (.display 3 1) busy = .next t :=
  ⟨⟨_, rfl⟩, ⟨_, rfl⟩, ⟨_, rfl⟩, ⟨_, rfl⟩, ⟨_, rfl⟩⟩

/-- VramWrittenOnlyBy: a pixel, a staged byte and a host write each change a byte that VRAM lists. -/
theorem witness_VramWrittenOnlyBy :
    vramByte (after (step { busyTurn .head with vram := [(4, 7)] })) 4 ≠
        vramByte { busyTurn .head with vram := [(4, 7)] } 4 ∧
      vramByte (after (step { busyTurn .vqp with vram := [(0xC01, 0)] })) 0xC01 ≠
        vramByte { busyTurn .vqp with vram := [(0xC01, 0)] } 0xC01 ∧
      vramByte (after (step (hostTurn (.vramWrite 0xFFF 1 9) { bench with vram := [(0xFFF, 1)] }))) 0xFFF ≠
        vramByte (hostTurn (.vramWrite 0xFFF 1 9) { bench with vram := [(0xFFF, 1)] }) 0xFFF := by decide

/-- A processor that serves queue 0 of `busy` in a phase, with its turn. -/
def queueTurn (v : Vqp) (g : Memory) : State := { busyTurn .vqp with vqp := v, guest := g, fifo := [] }

/-- GuestWrittenOnlyBy: a response byte, a used element in one access, a byte of a split one, a used
index and a host write each change a listed byte. The host's read and write at the top of the address
space. -/
theorem witness_GuestWrittenOnlyBy :
    guestByte (after (step (queueTurn { Vqp.idle with
        phase := .respond, resp := [0x11], chain := [{ addr := 0x500, len := 1, flags := 2, next := 0 }] }
        [(0x500, 0)]))) 0x500 ≠ 0 ∧
      (let s := { queueTurn { Vqp.idle with phase := .usedElem, head := 3 } [(0x3008, 0)] with
                    q0 := { busy.q0 with deviceAddr := 0x3004 } }
       s.vqp.dma = [] ∧ guestByte (after (step s)) 0x3008 ≠ guestByte s 0x3008) ∧
      guestByte (after (step (queueTurn { Vqp.idle with phase := .usedElem, dma := [5, 6], dmaAddr := 0x3001 }
        [(0x3001, 0)]))) 0x3001 ≠ 0 ∧
      guestByte (after (step (queueTurn { Vqp.idle with phase := .usedIdx } [(0x3002, 0)]))) 0x3002 ≠ 0 ∧
      guestByte (after (step (hostTurn (.guestWrite 0x40 [1, 2]) { bench with guest := [(0x41, 0)] }))) 0x41 ≠ 0 ∧
      (hostTurn (.guestRead 0xFFFFFFFFFFFFFFFF 2) bench).hostOps = .guestRead 0xFFFFFFFFFFFFFFFF 2 :: [] ∧
      (hostTurn (.guestWrite 0xFFFFFFFFFFFFFFFF [1, 2]) bench).hostOps =
        .guestWrite 0xFFFFFFFFFFFFFFFF [1, 2] :: [] := by
  decide

theorem witness_ExecFrames :
    (∃ t, exec (.setReg 4 0x40) (queued 0) = .next t) ∧ source (.setReg 4 0x40) = .fifo ∧
      (∃ t, exec (.cmdResourceUnref fenced 5) translating = .next t) ∧
      source (.cmdResourceUnref fenced 5) = .request ∧
      (∃ t, exec (.vioWriteStatus 0) busy = .next t) ∧ source (.vioWriteStatus 0) = .access :=
  ⟨⟨_, rfl⟩, rfl, ⟨_, rfl⟩, rfl, ⟨_, rfl⟩, rfl⟩

/-! ### Witnesses: native commands and the pipeline -/

theorem witness_NopParse : (queued 0).fifo = { word := 0, producer := .legacy } :: [] := rfl

theorem witness_EolParse :
    { bench with fifo := [virt 0x0100000000000000] }.fifo =
      { word := 0x0100000000000000, producer := .virtio } :: [] := rfl

theorem witness_SetRegParse :
    (queued 0x100B000000000001).fifo = { word := 0x100B000000000001, producer := .legacy } :: [] ∧
      (11#8).toNat ≤ 11 ∧ (0#8).toNat ≤ 11 ∧ 12 ≤ (12#8).toNat ∧ 12 ≤ (0xFF#8).toNat := by decide

/-- One pixel at the last address of the bench's VRAM, or one byte further. -/
def lastPixel (a : Word32) : Regs := { Regs.zero with fbAddr := a, srcAddr := a, drawW := 1, drawH := 1 }

theorem witness_DrawParse :
    let n := fun g : Regs => g.drawW.toNat * g.drawH.toNat
    (queued 0x2000000000000000).fifo = { word := 0x2000000000000000, producer := .legacy } :: [] ∧
      (n (lastPixel 0xFFD) > 0 ∧ dstAddr (lastPixel 0xFFD) (n (lastPixel 0xFFD) - 1) + 4 > 0x1000) ∧
      ¬(n (lastPixel 0xFFC) > 0 ∧ dstAddr (lastPixel 0xFFC) (n (lastPixel 0xFFC) - 1) + 4 > 0x1000) ∧
      (n { lastPixel 0xFFD with fbAddr := 0 } > 0 ∧ srcAddr { lastPixel 0xFFD with fbAddr := 0 } 0 + 4 > 0x1000) ∧
      ¬(n (lastPixel 0xFFC) > 0 ∧ (dstAddr (lastPixel 0xFFC) 0 + 4 > 0x1000 ∨
        srcAddr (lastPixel 0xFFC) 0 + 4 > 0x1000)) ∧
      ¬(n { lastPixel 0xFFFFFFFF with drawW := 0 } > 0) := by decide

theorem witness_DrawGeometry :
    5 < (6#16).toNat * (1#16).toNat ∧
      dstAddr { Regs.zero with drawW := 2, drawH := 3, fbStride := 16, drawY := 1 } 5 = 3 * 16 + 4 := by decide

/-- The second and last pixel of a FILL in `busy`. -/
theorem witness_FillPixelStep :
    ∃ op rest, busy.inflight = op :: rest ∧ op.kind = .fill ∧
      op.k < op.snap.drawW.toNat * op.snap.drawH.toNat ∧
      dstAddr op.snap op.k + bytesPerPixel op.snap.pixelFmt ≤ busy.cfg.vramSize ∧
      op.snap.alphaMode.getLsbD 0 = false :=
  ⟨_, _, rfl, by decide⟩

/-- A 2 x 1 BLIT at its second pixel, from 0xFF8 to 0x300, with a pixel of 0x00000000 at 0xFFC. -/
def copying (mode : BitVec 2) (key : Word32) : Operation where
  kind := .blit
  producer := .legacy
  snap := { Regs.zero with srcAddr := 0xFF8, fbAddr := 0x300, drawW := 2, drawH := 1, alphaMode := mode,
                           stencilKey := key }
  k := 1
  tainted := [0xFFB]

/-- The bench with that BLIT in flight. -/
def copyState (mode : BitVec 2) (key : Word32) : State :=
  { bench with
    inflight := [copying mode key]
    vram := [(0x304, 1), (0x305, 2), (0x306, 3), (0x307, 4), (0xFFC, 0), (0xFFD, 0), (0xFFE, 0), (0xFFF, 0)] }

/-- No byte of the pixel is tainted or written by the first pixel. -/
theorem copying_reads (mode : BitVec 2) (key : Word32) (b : Nat)
    (h : (0x304 ≤ b ∧ b < 0x308) ∨ (0xFFC ≤ b ∧ b < 0x1000)) :
    b ∉ (copying mode key).tainted ∧ ∀ k < 1, inDstBytes (copying mode key).snap k b = false := by
  constructor
  · simp [copying]
    omega
  · intro k hk
    obtain rfl : k = 0 := by omega
    have e : dstAddr (copying mode key).snap 0 = 0x300 := by simp [copying, dstAddr, Regs.zero]
    have w : bytesPerPixel (copying mode key).snap.pixelFmt = 4 := rfl
    simp [inDstBytes, e, w]
    omega

/-- BlitPixelStep: the key matches with key 0, with blending too, and does not with key 1. -/
theorem witness_BlitPixelStep :
    (copyState 2 0).inflight = copying 2 0 :: [] ∧ (copying 2 0).kind = .blit ∧
      (copying 2 0).k < (copying 2 0).snap.drawW.toNat * (copying 2 0).snap.drawH.toNat ∧
      dstAddr (copying 2 0).snap 1 + bytesPerPixel (copying 2 0).snap.pixelFmt ≤ bench.cfg.vramSize ∧
      srcAddr (copying 2 0).snap 1 + bytesPerPixel (copying 2 0).snap.pixelFmt ≤ bench.cfg.vramSize ∧
      (copying 2 0).snap.alphaMode.getLsbD 0 = false ∧
      (∀ b, srcAddr (copying 2 0).snap 1 ≤ b → b < srcAddr (copying 2 0).snap 1 + 4 →
        b ∉ (copying 2 0).tainted ∧ ∀ k < 1, inDstBytes (copying 2 0).snap k b = false) ∧
      leNat (vramBytes (copyState 2 0) (srcAddr (copying 2 0).snap 1) 4) = (0#32).toNat ∧
      leNat (vramBytes (copyState 2 1) (srcAddr (copying 2 1).snap 1) 4) ≠ (1#32).toNat ∧
      ((copyState 3 0).inflight = copying 3 0 :: [] ∧ (copying 3 0).snap.alphaMode.getLsbD 0 = true ∧
        (copying 3 0).snap.alphaMode.getLsbD 1 = true ∧
        leNat (vramBytes (copyState 3 0) (srcAddr (copying 3 0).snap 1) 4) + 0 =
          (copying 3 0).snap.stencilKey.toNat) := by
  refine ⟨rfl, rfl, by decide, by decide, by decide, by decide, ?_, by decide, by decide, rfl, by decide,
    by decide, by decide⟩
  intro b h1 h2
  have e : srcAddr (copying 2 0).snap 1 = 0xFFC := by decide
  exact copying_reads 2 0 b (by omega)

/-- BlendPixelStep: the same BLIT with blending, and a blended FILL. -/
theorem witness_BlendPixelStep :
    (copyState 1 0).inflight = copying 1 0 :: [] ∧ (copying 1 0).kind ≠ .eol ∧
      (copying 1 0).k < (copying 1 0).snap.drawW.toNat * (copying 1 0).snap.drawH.toNat ∧
      dstAddr (copying 1 0).snap 1 + bytesPerPixel (copying 1 0).snap.pixelFmt ≤ bench.cfg.vramSize ∧
      srcAddr (copying 1 0).snap 1 + bytesPerPixel (copying 1 0).snap.pixelFmt ≤ bench.cfg.vramSize ∧
      (copying 1 0).snap.alphaMode.getLsbD 0 = true ∧ (copying 1 0).snap.alphaMode.getLsbD 1 = false ∧
      (∀ b, (dstAddr (copying 1 0).snap 1 ≤ b ∧ b < dstAddr (copying 1 0).snap 1 + 4) ∨
          ((copying 1 0).kind = .blit ∧ srcAddr (copying 1 0).snap 1 ≤ b ∧
            b < srcAddr (copying 1 0).snap 1 + 4) →
        b ∉ (copying 1 0).tainted ∧ ∀ k < 1, inDstBytes (copying 1 0).snap k b = false) ∧
      (∃ op rest, { flying .fill { lastPixel 0xFFC with alphaMode := 3 } with vram := [] }.inflight = op :: rest ∧
        op.kind = .fill ∧ op.k = 0 ∧ op.tainted = [] ∧ op.snap.alphaMode.getLsbD 0 = true) := by
  refine ⟨rfl, by decide, by decide, by decide, by decide, by decide, by decide, ?_, _, _, rfl, rfl, rfl, rfl,
    by decide⟩
  intro b h
  have e1 : srcAddr (copying 1 0).snap 1 = 0xFFC := by decide
  have e2 : dstAddr (copying 1 0).snap 1 = 0x304 := by decide
  exact copying_reads 1 0 b (by omega)

/-- FreeReads: byte 0xFFB is tainted, byte 0x303 is of the first pixel, byte 0x304 is neither; and an
operation of a list. -/
theorem witness_FreeReads :
    readsFree (copying 1 0) 0xFFB = true ∧ readsFree (copying 1 0) 0x303 = true ∧
      readsFree (copying 1 0) 0x304 = false ∧ [copying 1 0][0]? = some (copying 1 0) := by decide

theorem witness_BlendFormula :
    (0xFF123456#32).toNat / 2 ^ 24 = 255 ∧ (0x00FFFFFF#32).toNat / 2 ^ 24 = 0 := by decide

/-- RetireSteps: an EOL, a draw with nothing behind it, one with a queued word behind it. -/
theorem witness_RetireSteps :
    (∃ op rest, (flying .eol Regs.zero).inflight = op :: rest ∧ op.kind = .eol) ∧
      (∃ op rest, (flying .fill Regs.zero).inflight = op :: rest ∧ op.kind = .fill ∧
        op.k = op.snap.drawW.toNat * op.snap.drawH.toNat ∧ (flying .fill Regs.zero).fifo = [] ∧ rest = []) ∧
      ∃ op rest, { flying .blit Regs.zero with fifo := [leg 0] }.inflight = op :: rest ∧ op.kind = .blit ∧
        op.k = op.snap.drawW.toNat * op.snap.drawH.toNat ∧
        ¬({ flying .blit Regs.zero with fifo := [leg 0] }.fifo = [] ∧ rest = []) :=
  ⟨⟨_, _, rfl, rfl⟩, ⟨_, _, rfl, rfl, rfl, rfl, rfl⟩, ⟨_, _, rfl, rfl, rfl, by decide⟩⟩

/-- The rectangle of the spec's example S1, 2 x 2 pixels with stride 16, as a FILL at its start. -/
def exampleS1 : Operation where
  kind := .fill
  producer := .legacy
  snap := { Regs.zero with fbAddr := 0x100, fbStride := 16, drawX := 1, drawY := 1, drawW := 2, drawH := 2,
                           fillColor := 0xFF112233 }
  k := 0
  tainted := []

theorem witness_FillRectangle :
    { bench with inflight := [exampleS1] }.fifo = [] ∧ exampleS1.kind = .fill ∧ exampleS1.k = 0 ∧
      exampleS1.snap.alphaMode.getLsbD 0 = false ∧
      exampleS1.snap.drawW.toNat * bytesPerPixel exampleS1.snap.pixelFmt ≤ exampleS1.snap.fbStride.toNat ∧
      ∀ k < exampleS1.snap.drawW.toNat * exampleS1.snap.drawH.toNat,
        dstAddr exampleS1.snap k + bytesPerPixel exampleS1.snap.pixelFmt ≤ bench.cfg.vramSize := by decide

/-- `busy`, and a state with only a queued word. -/
theorem witness_PipelineProgress :
    busy.cfg.ok = true ∧ engineOk busy = true ∧ busy.inflight ≠ [] ∧ (queued 0).cfg.ok = true ∧
      engineOk (queued 0) = true ∧ (queued 0).inflight = [] ∧ (queued 0).fifo ≠ [] ∧
      parseEnabled (queued 0) = true := by decide

/-- PipelineDrains: `busy` drains; the bench is final. -/
theorem witness_PipelineDrains :
    busy.cfg.ok = true ∧ engineOk busy = true ∧ isFinal bench = true := by decide

/-- A state in which the host has a step left is not final (70_reset_and_hazards.md R446). -/
theorem test_final_needs_host_done : isFinal (hostTurn (.guestRead 0x40 1) bench) = false := by decide

/-! ### Witnesses: the register blocks -/

theorem witness_LegacyReads :
    (queued 0).fifo.length ≤ (queued 0).cfg.fifoDepth ∧ (queued 0).cfg.fifoDepth ≤ 511 ∧
      { bench with fifo := List.replicate 4 (leg 0) }.fifo.length ≤ bench.cfg.fifoDepth := by decide

/-- FifoPush: refused by the lock, refused by a full FIFO, accepted with one place left, and the two host
writes of a word. -/
theorem witness_FifoPush :
    ({ bench with lock := .heldVirtio }.lock = .heldVirtio ∧
      { bench with lock := .heldVirtio }.fifo.length ≤ bench.cfg.fifoDepth) ∧
    (List.replicate 4 (leg 0)).length = bench.cfg.fifoDepth ∧
    (¬({ bench with fifo := List.replicate 3 (leg 0) }.lock = .heldVirtio ∨
      { bench with fifo := List.replicate 3 (leg 0) }.fifo.length = bench.cfg.fifoDepth)) ∧
    ({ bench with hostOps := pushOps 0x1004000000000040 }.hostOps = pushOps 0x1004000000000040 ++ [] ∧
      bench.lock = .free ∧ bench.fifo.length < bench.cfg.fifoDepth) := by decide

theorem witness_ControlAndFaults :
    (7#32).toNat % 2 = 1 ∧ (7#32).toNat / 2 % 2 = 1 ∧ (7#32).toNat / 4 % 2 = 1 ∧ (8#32).toNat % 2 = 0 ∧
      (8#32).toNat / 2 % 2 = 0 ∧ (8#32).toNat / 4 % 2 = 0 := by decide

/-- FaultInvariant: a Parse, a walk and a translation that each record a fault, from states whose FAULT
and code agree. -/
theorem witness_FaultInvariant :
    ((bench.fault = false ↔ bench.faultCode = 0) ∧ bench.faultCode.toNat ≤ 5) ∧
    (∃ t, step { queued 0xFF00000000000000 with sched := [.agent .parse] } = .next t ∧ t.fault = true) ∧
    (∃ t, step (queueTurn { Vqp.idle with phase := .walk, walkIdx := 4 } []) = .next t ∧ t.fault = true) ∧
    ∃ t, step { translating with
      vqp := { translating.vqp with req := head24 0x02 0x01 ++ [9, 0, 0, 0, 0, 0, 0, 0] }
      sched := [.agent .vqp] } = .next t ∧ t.fault = true :=
  ⟨by decide, ⟨_, rfl, rfl⟩, ⟨_, rfl, rfl⟩, ⟨_, rfl, rfl⟩⟩

/-- WindowAccess: for each width an aligned access that ends at VRAM_SIZE, one beyond it, and a
misaligned one. -/
theorem witness_WindowAccess :
    (hostTurn (.vramRead 0xFFC 4) bench).hostOps = .vramRead 0xFFC 4 :: [] ∧
      (hostTurn (.vramWrite 0xFFC 4 7) bench).hostOps = .vramWrite 0xFFC 4 7 :: [] ∧
      (0xFFC % 4 = 0 ∧ 0xFFC + 4 ≤ bench.cfg.vramSize) ∧ (0x1000 % 4 = 0 ∧ bench.cfg.vramSize < 0x1000 + 4) ∧
      0xFFE % 4 ≠ 0 ∧ (0xFFE % 2 = 0 ∧ 0xFFE + 2 ≤ bench.cfg.vramSize) ∧ 0xFFF % 2 ≠ 0 ∧
      (0x1000 % 1 = 0 ∧ bench.cfg.vramSize < 0x1000 + 1) ∧ (0xFFF % 1 = 0 ∧ 0xFFF + 1 ≤ bench.cfg.vramSize) := by
  decide

/-- TransportAccesses: selectors at the ends of their ranges. -/
theorem witness_TransportAccesses :
    { Vio.zero with queueSel := 1 }.queueSel.toNat < 2 ∧ 2 ≤ { Vio.zero with queueSel := 2 }.queueSel.toNat := by
  decide

/-- DriverFeaturesWrite: FEATURES_OK clear with selector 0 and 1, FEATURES_OK set, selector 2. -/
theorem witness_DriverFeaturesWrite :
    { Vio.zero with status := 0x07 }.status.toNat / 8 % 2 = 0 ∧ Vio.zero.drvFeaturesSel = 0 ∧
      { Vio.zero with drvFeaturesSel := 1 }.drvFeaturesSel = 1 ∧
      { Vio.zero with status := 0x08 }.status.toNat / 8 % 2 = 1 ∧
      2 ≤ { Vio.zero with drvFeaturesSel := 2 }.drvFeaturesSel.toNat := by decide

/-- QueueConfigWrites: the cursor queue selected, not ready, then ready; a selector that names none. -/
theorem witness_QueueConfigWrites :
    ({ Vio.zero with queueSel := 1 }.queueSel.toNat = (if QueueId.cursor = .ctrl then 0 else 1) ∧
      (getQueue bench .cursor).ready = false) ∧
    (Vio.zero.queueSel.toNat = (if QueueId.ctrl = .ctrl then 0 else 1) ∧ (getQueue busy .ctrl).ready = true) ∧
    2 ≤ { Vio.zero with queueSel := 2 }.queueSel.toNat := by decide

/-- QueueReadyRegister: bit 0 clear; set on a ready queue; on one of the largest legal size; on one of a
size that is no power of two, of size 0, and of a size above the maximum. -/
theorem witness_QueueReadyRegister :
    busy.vio.queueSel.toNat = (if QueueId.ctrl = .ctrl then 0 else 1) ∧ (2#32).toNat % 2 = 0 ∧
      (1#32).toNat % 2 = 1 ∧ (getQueue busy .ctrl).ready = true ∧ (getQueue bench .ctrl).ready = false ∧
      ((∃ k, (8#32).toNat = 2 ^ k) ∧ (8#32).toNat ≤ bench.cfg.queueNumMax) ∧
      (∀ n ∈ [0#32, 3], ¬∃ k, n.toNat = 2 ^ k) ∧ ¬(16#32).toNat ≤ bench.cfg.queueNumMax := by
  refine ⟨by decide, by decide, by decide, by decide, by decide, ⟨⟨3, by decide⟩, by decide⟩, ?_, by decide⟩
  intro n hn ⟨k, hk⟩
  simp only [List.mem_cons, List.not_mem_nil, or_false] at hn
  rcases hn with rfl | rfl
  · have := Nat.two_pow_pos k
    have e : (0#32).toNat = 0 := rfl
    omega
  · rcases k with _ | _ | k
    · simp at hk
    · simp at hk
    · have := Nat.two_pow_pos k
      rw [Nat.pow_add] at hk
      simp at hk
      omega

/-- NotifyAndAcknowledge: a queue that can be served, one that cannot, and no queue. -/
theorem witness_NotifyAndAcknowledge :
    ((0#32).toNat = (if QueueId.ctrl = .ctrl then 0 else 1) ∧ (getQueue busy .ctrl).ready = true ∧
      busy.vio.status.toNat / 4 % 2 = 1 ∧ busy.vio.status.toNat / 64 % 2 = 0) ∧
    ((1#32).toNat = (if QueueId.cursor = .ctrl then 0 else 1) ∧
      ¬((getQueue busy .cursor).ready = true ∧ busy.vio.status.toNat / 4 % 2 = 1 ∧
        busy.vio.status.toNat / 64 % 2 = 0)) ∧ 2 ≤ (2#32).toNat := by decide

/-- StatusRegister: a reset by a word whose bits 7:0 are 0, and a handshake write. -/
theorem witness_StatusRegister : (0xFFFFFF00#32).toNat % 256 = 0 ∧ (0x0B#32).toNat % 256 ≠ 0 := by decide

theorem witness_PowerOnReset : nextTurn { busy with sched := [.powerOn] } = .powerOn := rfl

/-! ### Witnesses: the virtqueue processor -/

/-- Available index 1 and head 2 in the ring of `busy`'s queue 0. -/
def availMem (idx : Byte) : Memory := [(0x2002, idx), (0x2003, 0), (0x2004, 2), (0x2005, 0)]

/-- ServiceSteps: a queue no longer serviceable; SELECT of either queue and of none; the indices of a
caught-up, an overrun and a served ring; the head; WAIT held and not held. -/
theorem witness_ServiceSteps :
    (let s := { queueTurn { Vqp.idle with phase := .readIdx } [] with q0 := { busy.q0 with ready := false } }
     s.vqp.phase = .readIdx ∧ serviceable s (getQueue s s.vqp.queue) = false) ∧
    (Vqp.idle.phase = .idle ∧
      { busy with q0 := { busy.q0 with pending := true } }.q0.pending = true ∧ serviceable busy busy.q0 = true) ∧
    (¬(busy.q0.pending = true ∧ serviceable busy busy.q0 = true) ∧
      serviceable { busy with q1 := { busy.q0 with pending := true } } { busy.q0 with pending := true } = true) ∧
    (∀ idx ∈ [0#8, 1, 4, 5],
      let s := queueTurn { Vqp.idle with phase := .readIdx } (availMem idx)
      serviceable s s.q0 = true ∧
        guestAdmits s.cfg (s.q0.driverAddr.toNat + 2) 2 = true ∧ s.q0.driverAddr.toNat % 2 = 0 ∧
        ((guestByte s 0x2002).toNat + 256 * (guestByte s 0x2003).toNat + 2 ^ 16 - s.q0.lastAvail.toNat) %
          2 ^ 16 = idx.toNat) ∧ busy.q0.num.toNat = 4 ∧
    (busy.q0.num ≠ 0 ∧ guestAdmits busy.cfg (busy.q0.driverAddr.toNat + 4) 2 = true ∧
      (busy.q0.driverAddr.toNat + 4) % 2 = 0) ∧
    (∃ e ∈ { busy with fifo := [virt 0] }.fifo, e.producer = .virtio) ∧
    ((∀ e ∈ busy.fifo, e.producer = .legacy) ∧ ∀ o ∈ busy.inflight, o.producer = .legacy) := by decide

/-- The processor leaves a queue whose QueueReady was cleared during step 2 (45_virtqueue.md R311). -/
theorem test_readIdx_unserviceable :
    (after (vqpStep { queueTurn { Vqp.idle with phase := .readIdx, dma := [1], dmaAddr := 0x2003 } (availMem 1) with
      q0 := { busy.q0 with ready := false } })).vqp = Vqp.idle := by decide

/-- The host reads the bytes memory holds (60_exceptions.md R418). -/
theorem test_host_reads_guest :
    (after (step (hostTurn (.guestRead 0x40 2) { bench with guest := [(0x40, 7), (0x41, 8)] }))).hostRead = [7, 8] := by
  decide

/-- The eight places of DmaAccesses' first clause: the addresses are beyond the bench's guest region. -/
theorem witness_DmaAccesses_held :
    let far : Queue := { busy.q0 with descAddr := 0x20000, driverAddr := 0x20000, deviceAddr := 0x20000 }
    serviceable { busy with q0 := far } far = true ∧
      guestAdmits bench.cfg (far.driverAddr.toNat + 2) 2 = false ∧ guestAdmits bench.cfg (availSlotAddr far) 2 = false ∧
      ((0#16).toNat < far.num.toNat ∧ 0#16 ∉ Vqp.idle.visited ∧
        guestAdmits bench.cfg (far.descAddr.toNat + 16 * (0#16).toNat) 8 = false) ∧
      guestAdmits bench.cfg (0x20000 + 8) 4 = false ∧ guestAdmits bench.cfg (0x20000 + 12) 2 = false ∧
      guestAdmits bench.cfg (0x20000 + 14) 2 = false ∧ guestAdmits bench.cfg (usedSlotAddr far) 8 = false ∧
      guestAdmits bench.cfg (far.deviceAddr.toNat + 2) 2 = false ∧ 2 ^ 64 < 2 ^ 64 - 1 + 2 := by decide

/-- DmaAccesses' other clauses: an atomic and a split access, the first and the last byte of a split one. -/
theorem witness_DmaAccesses :
    (Vqp.idle.dma = [] ∧ guestAdmits bench.cfg 0x100 8 = true ∧ 1 ≤ 8 ∧ 8 ≤ 8 ∧ 0x100 % 8 = 0) ∧
    (guestAdmits bench.cfg 0x101 2 = true ∧ ¬(2 ≤ 8 ∧ 0x101 % 2 = 0) ∧ 2 ≤ 2) ∧
    (let v : Vqp := { Vqp.idle with dma := [7], dmaAddr := 0x101 }
     v.dma ≠ [] ∧ (v.dma ++ [0#8]).length < 4 ∧ 2 ≤ (v.dma ++ [0#8]).length) ∧
    (guestAdmits bench.cfg 0x104 ([2#8, 3, 4].length + 1) = true ∧ [2#8, 3, 4].length + 1 ≤ 8 ∧
      0x104 % ([2#8, 3, 4].length + 1) = 0) ∧
    (guestAdmits bench.cfg 0x103 ([2#8].length + 1) = true ∧ ¬([2#8].length + 1 ≤ 8 ∧ 0x103 % ([2#8].length + 1) = 0) ∧
      [2#8] ≠ []) ∧
    ({ Vqp.idle with dma := [1#8, 2] }.dma = 1#8 :: [2] ∧ { Vqp.idle with dma := [1#8] }.dma = 1#8 :: []) := by
  decide

/-- The walk of queue 0 of `busy` at an index, before a field. -/
def walking (idx : BitVec 16) (f : DescField) (d : Desc) : State :=
  queueTurn { Vqp.idle with phase := .walk, walkIdx := idx, curField := f, cur := d, descBase := 0x1030,
                            seenWritable := true }
    [(0x103E, 0), (0x103F, 0)]

/-- ChainWalk: a dangling index and the last one inside the table, a repeated one; each field's access;
an indirect descriptor, a readable one after a writable one, and one that joins the chain. -/
theorem witness_ChainWalk :
    (walking 4 .addr Desc.zero).vqp.dma = [] ∧ busy.q0.num.toNat ≤ (4#16).toNat ∧
      3#16 ∈ { Vqp.idle with visited := [3#16] }.visited ∧
      ¬(busy.q0.num.toNat ≤ (3#16).toNat ∨ 3#16 ∈ (walking 3 .addr Desc.zero).vqp.visited) ∧
      (guestAdmits bench.cfg (busy.q0.descAddr.toNat + 16 * (3#16).toNat) 8 = true ∧
        (busy.q0.descAddr.toNat + 16 * (3#16).toNat) % 8 = 0) ∧
      (guestAdmits bench.cfg (0x1030 + 8) 4 = true ∧ 0x1030 % 4 = 0) ∧
      (guestAdmits bench.cfg (0x1030 + 12) 2 = true ∧ 0x1030 % 2 = 0) ∧
      (guestAdmits bench.cfg (0x1030 + 14) 2 = true ∧ leNat ((List.range 2).map fun i =>
        guestByte (walking 3 .next Desc.zero) (0x1030 + 14 + i)) = 0) ∧
      { Desc.zero with flags := 4 }.flags.toNat / 4 % 2 = 1 ∧
      (Desc.zero.flags.toNat / 2 % 2 = 0 ∧ (walking 3 .next Desc.zero).vqp.seenWritable = true) ∧
      ¬({ Desc.zero with flags := 3 }.flags.toNat / 4 % 2 = 1 ∨
        { Desc.zero with flags := 3 }.flags.toNat / 2 % 2 = 0) := by decide

/-- A chain of 24 readable and 16 writable bytes. -/
def shortChain : List Desc :=
  [{ addr := 0x500, len := 24, flags := 1, next := 1 }, { addr := 0x600, len := 16, flags := 2, next := 0 }]

/-- GatherAndRespond: a gather before its last byte and one that is complete, a response with and without
room left, at addresses the bench admits and does not admit. -/
theorem witness_GatherAndRespond :
    ((readableSegs shortChain).map Prod.snd).sum = 24 ∧ ((writableSegs shortChain).map Prod.snd).sum = 16 ∧
      (List.replicate 23 0#8).length < min 24 (32 + 16 * bench.cfg.maxBackingEntries) ∧
      min 24 (32 + 16 * bench.cfg.maxBackingEntries) ≤ (List.replicate 24 0#8).length ∧
      15 < min 16 (List.replicate 24 0#8).length ∧ min 16 (List.replicate 24 0#8).length ≤ 16 ∧
      guestAdmits bench.cfg 0x517 1 = true ∧ guestAdmits bench.cfg 0x10000 1 = false := by decide

/-- CompletionSteps: the used element at slot 3 of 4, in one access and (in an 8-aligned ring, R316) byte by
byte, the last byte of a split one, the used index. -/
theorem witness_CompletionSteps :
    let q : Queue := { busy.q0 with deviceAddr := 0x3004, usedIdx := 7 }
    let a := q.deviceAddr.toNat + 4 + 8 * (q.usedIdx.toNat % q.num.toNat)
    q.num ≠ 0 ∧ guestAdmits bench.cfg a 8 = true ∧ a % 8 = 0 ∧
      guestAdmits bench.cfg (q.deviceAddr.toNat + 2) 2 = true ∧ q.deviceAddr.toNat % 2 = 0 ∧
      (queueTurn { Vqp.idle with phase := .usedElem } []).vqp.dma = [] ∧
      (queueTurn { Vqp.idle with phase := .notify } []).vqp.phase = .notify ∧
      (let b := busy.q0.deviceAddr.toNat + 4 + 8 * ((7#16).toNat % busy.q0.num.toNat)
       guestAdmits bench.cfg b 8 = true ∧ b % 8 ≠ 0) ∧
      (queueTurn { Vqp.idle with phase := .usedElem, dma := [0], dmaAddr := 0x300B } []).vqp.dma = 0 :: [] := by
  decide

/-- The first byte of a used element at an address 4 modulo 8 is a step of its own: the low byte of the
head is written, the seven others are left (20_memory.md R77). -/
theorem test_used_element_split :
    let s := queueTurn { Vqp.idle with phase := .usedElem, head := 0x0203, written := 24 } [(0x3004, 0xAA)]
    guestByte (after (vqpStep s)) 0x3004 = 0x03 ∧ (after (vqpStep s)).vqp.dma = [2, 0, 0, 24, 0, 0, 0] ∧
      (after (vqpStep s)).vqp.dmaAddr = 0x3005 := by decide

/-- ArbiterSteps: the lock free, held with one place left in the FIFO, and held with a full FIFO. -/
theorem witness_ArbiterSteps :
    ({ bench with vqp := { Vqp.idle with phase := .acquire } }.lock = .free) ∧
    (let s := { bench with vqp := { Vqp.idle with phase := .push, group := [5] }, lock := .heldVirtio,
                           fifo := List.replicate 3 (leg 0) }
     s.vqp.phase = .push ∧ s.lock = .heldVirtio ∧ s.vqp.group = 5 :: [] ∧ s.fifo.length < s.cfg.fifoDepth) ∧
    bench.cfg.fifoDepth ≤ (List.replicate 4 (leg 0)).length ∧
    { bench with vqp := { Vqp.idle with phase := .release } }.vqp.phase = .release := by decide

/-- StagingCopy: the second byte of `busy`'s copy, from an admitted backing byte; the last byte of a
list of segments and the first one beyond it. -/
theorem witness_StagingCopy :
    (∃ p, busy.vqp.plan = some p ∧ busy.vqp.phase = .stage ∧ busy.vqp.copied < p.height * (4 * p.width) ∧
      busy.cfg.stagingBase + busy.vqp.copied < busy.cfg.vramSize ∧ 0 < p.height ∧ 1 < 4 * p.width ∧
      busy.vqp.copied = 0 * (4 * p.width) + 1 ∧
      segAddr (p.backing.map fun e => (e.addr.toNat, e.length.toNat)) (p.offset + 0 * p.stride + 1) = some 0x8001 ∧
      guestAdmits busy.cfg 0x8001 1 = true) ∧
    4 < ([(0x500, 3), (0x600, 2)].map Prod.snd).sum ∧ ([(0x500, 3), (0x600, 2)].map Prod.snd).sum ≤ 5 ∧
    segAddr [(0x500, 3), (0x600, 2)] 4 = some 0x601 ∧ segAddr [(0x500, 3), (0x600, 2)] 5 = none :=
  ⟨⟨_, rfl, by decide⟩, by decide⟩

/-! ### Witnesses: the translator -/

/-- TranslateOutcomes has no hypothesis but that the form is one of nine; its outcomes on the bench. -/
theorem witness_TranslateOutcomes :
    Instr.cmdMoveCursor fenced ∈ [Instr.cmdGetCapsetInfo fenced, .cmdGetCapset fenced, .cmdGetEdid fenced,
      .cmdResourceAssignUuid fenced, .cmdResourceCreateBlob fenced, .cmdSetScanoutBlob fenced,
      .cmdUpdateCursor fenced, .cmdMoveCursor fenced, .cmd3dRange fenced 7] := by decide

/-- CreateResource: the allocator on the bench's table; an id in use and id 0, a bad format, a width above
the maximum, a full table, a region that does not fit, and a resource that is created. -/
theorem witness_CreateResource :
    (0 < bench.cfg.allocAlign ∧ 0 < 64 ∧ ∀ r ∈ translating.resources, 0 < r.2.size) ∧
      translating.resources.length ≤ translating.cfg.maxResources ∧
      (assocGet (1#32).toNat translating.resources).isSome = true ∧
      (assocGet (3#32).toNat translating.resources).isSome = false ∧
      (99#32).toNat ∉ [1, 2, 3, 4, 67, 68, 121, 134] ∧ (134#32).toNat ∈ [1, 2, 3, 4, 67, 68, 121, 134] ∧
      translating.cfg.maxResW < (17#32).toNat ∧ ¬translating.cfg.maxResW < (16#32).toNat ∧
      [(1, res1), (2, res2), (3, res1), (4, res1)].length = translating.cfg.maxResources ∧
      allocRegion bench.cfg [(1, { res1 with size := 0xC00 })] 4 = none ∧
      allocRegion bench.cfg translating.resources 1024 = some 512 := by decide

/-- ResourceCommands: an id not mapped and id 0; an attach of as many entries as allowed, of more, and
one with an entry missing; resources without and with a backing. -/
theorem witness_ResourceCommands :
    keysRising translating.resources = true ∧ assocGet (5#32).toNat translating.resources = none ∧
      ((8#32).toNat ≤ bench.cfg.maxBackingEntries ∧
        (8#32).toNat ≤ (List.replicate 8 { addr := 0, length := 1 : BackingEntry }).length) ∧
      bench.cfg.maxBackingEntries < (9#32).toNat ∧
      (List.replicate 7 { addr := 0, length := 1 : BackingEntry }).length < (8#32).toNat ∧
      (assocGet (1#32).toNat translating.resources = some res1 ∧ res1.backing = none) ∧
      (assocGet (2#32).toNat translating.resources = some res2 ∧ res2.backing ≠ none) := by decide

/-- DisplayCommands: rectangles inside up to the edge, beyond it and empty; a flush clipped to a part and
to nothing; a transfer whose backing is just long enough and one byte short. -/
theorem witness_DisplayCommands :
    assocGet (2#32).toNat translating.resources = some res2 ∧ (1#32) ≠ 0 ∧
      ((0#32).toNat + (8#32).toNat ≤ res2.width ∧ (7#32).toNat + (1#32).toNat ≤ res2.height) ∧
      ¬((0xFFFFFFFF#32).toNat + (2#32).toNat ≤ res2.width) ∧
      (translating.scanout.enabled = true ∧ (2#32) ≠ translating.scanout.resourceId) ∧
      (min ((5#32).toNat + (3#32).toNat) translating.scanout.rect.width.toNat - (5#32).toNat = 3 ∧
        min ((1#32).toNat + (3#32).toNat) translating.scanout.rect.height.toNat - (1#32).toNat = 1) ∧
      min ((2#32).toNat + (3#32).toNat) translating.scanout.rect.height.toNat - (2#32).toNat = 0 ∧
      (res1.backing = none ∧ res2.backing = some [{ addr := 0x8000, length := 256 }]) ∧
      ¬(([{ addr := 0x8000, length := 256 : BackingEntry }].map fun e => e.length.toNat).sum <
        0 + (8 - 1) * res2.stride + 4 * 8) ∧
      ([{ addr := 0x8000, length := 256 : BackingEntry }].map fun e => e.length.toNat).sum <
        1 + (8 - 1) * res2.stride + 4 * 8 := by decide

theorem witness_GroupWordsFit :
    translating.cfg.ok = true ∧ translatorOk translating = true ∧
      source (.cmdSetScanout fenced { x := 0, y := 0, width := 8, height := 8 } 0 2) = .request ∧
      ∃ t, exec (.cmdSetScanout fenced { x := 0, y := 0, width := 8, height := 8 } 0 2) translating = .next t ∧
        t.vqp.group ≠ [] :=
  ⟨by decide, by decide, rfl, _, rfl, by decide⟩

end Sys2Proof.Tests
end

section
/-! PROOFS. The engine's invariant (O10): one rule for each operation on the FIFO and the in-flight list,
then one lemma for each agent's turn. -/
namespace Sys2Proof.Machine

/-! ### The invariant, clause by clause -/

theorem engineOk_iff (s : State) :
    engineOk s = true ↔ s.fifo.length ≤ s.cfg.fifoDepth ∧ s.inflight.length ≤ s.cfg.pipeDepth ∧
      s.inflight.all (operationOk s.cfg.vramSize) = true := by
  simp [engineOk, and_assoc]

/-- A state with the same parameters and in-flight list and no longer a FIFO keeps the invariant. -/
theorem engineOk_of_fifo_le (s t : State) (hs : engineOk s = true) (hc : t.cfg = s.cfg)
    (hf : t.fifo.length ≤ s.fifo.length) (hi : t.inflight = s.inflight) : engineOk t = true := by
  obtain ⟨hfifo, hlen, hops⟩ := (engineOk_iff s).1 hs
  rw [engineOk_iff, hc, hi]
  exact ⟨hf.trans hfifo, hlen, hops⟩

/-- A state with the same parameters and FIFO keeps the invariant when its in-flight list does. -/
theorem engineOk_of_inflight (s t : State) (hs : engineOk s = true) (hc : t.cfg = s.cfg)
    (hf : t.fifo = s.fifo) (hl : t.inflight.length ≤ s.cfg.pipeDepth)
    (ho : t.inflight.all (operationOk s.cfg.vramSize) = true) : engineOk t = true := by
  rw [engineOk_iff, hc, hf]
  exact ⟨((engineOk_iff s).1 hs).1, hl, ho⟩

/-- What the invariant says of a list with a head: its operation, the rest, and the room they take. -/
theorem engineOk_head (s : State) (op : Operation) (rest : List Operation) (hs : engineOk s = true)
    (hi : s.inflight = op :: rest) :
    operationOk s.cfg.vramSize op = true ∧ rest.all (operationOk s.cfg.vramSize) = true ∧
      rest.length < s.cfg.pipeDepth := by
  obtain ⟨-, hlen, hops⟩ := (engineOk_iff s).1 hs
  rw [hi] at hlen hops
  rw [List.all_cons, Bool.and_eq_true] at hops
  exact ⟨hops.1, hops.2, hlen⟩

/-! ### One rule an operation -/

/-- An operation that starts is in bounds when its draw is; an EOL always is (43_draw.md R211). -/
theorem operationOk_start (b : Nat) (kind : OpKind) (p : Producer) (snap : Regs)
    (h : kind = .eol ∨ drawInBounds kind snap b = true) :
    operationOk b { kind, producer := p, snap, k := 0, tainted := [] } = true := by
  rcases h with rfl | h
  · simp [operationOk, addrsRising]
  · simp [operationOk, addrsRising, h]

/-- A processed pixel keeps an operation legal while pixels are left (43_draw.md R213). -/
theorem operationOk_nextPixel (b : Nat) (op : Operation) (h : operationOk b op = true)
    (hk : op.k < pixelCount op.snap) : operationOk b (nextPixel op) = true := by
  simp only [operationOk, nextPixel, Bool.and_eq_true, Bool.or_eq_true, decide_eq_true_eq] at h ⊢
  exact ⟨h.1, h.2.imp_right fun hd => ⟨hd.1, decide_eq_true hk⟩⟩

theorem engineOk_popFifo (s : State) (hs : engineOk s = true) : engineOk (popFifo s) = true :=
  engineOk_of_fifo_le s _ hs rfl (by simp) rfl

/-- A push needs a place left (10_state.md R31). -/
theorem engineOk_pushFifo (w : Word64) (p : Producer) (s : State) (hs : engineOk s = true)
    (hf : s.fifo.length < s.cfg.fifoDepth) : engineOk (pushFifo w p s) = true := by
  obtain ⟨-, hlen, hops⟩ := (engineOk_iff s).1 hs
  exact (engineOk_iff _).2 ⟨by simpa using hf, hlen, hops⟩

/-- A start needs a place left and a draw in bounds (10_state.md R33, 43_draw.md R211). -/
theorem engineOk_startOperation (kind : OpKind) (p : Producer) (snap : Regs) (s : State)
    (hs : engineOk s = true) (hl : s.inflight.length < s.cfg.pipeDepth)
    (h : kind = .eol ∨ drawInBounds kind snap s.cfg.vramSize = true) :
    engineOk (startOperation kind p snap s) = true := by
  refine engineOk_of_inflight s _ hs rfl rfl (by simpa using hl) ?_
  rw [startOperation_inflight, List.all_append, ((engineOk_iff s).1 hs).2.2]
  simpa using operationOk_start s.cfg.vramSize kind p snap h

theorem engineOk_taintAll (a n : Nat) (s : State) (hs : engineOk s = true) :
    engineOk (taintAll a n s) = true := by
  obtain ⟨-, hlen, hops⟩ := (engineOk_iff s).1 hs
  exact engineOk_of_inflight s _ hs rfl rfl (by simpa using hlen) (operationsOk_taint _ a n _ hops)

/-! ### One lemma an effect -/

theorem accessEffect_engineOk (s u : State) (hs : engineOk s = true) (hu : AccessEffect s u) :
    engineOk u = true := by
  cases hu with
  | push w hb => exact engineOk_pushFifo w .legacy s hs ((pushBlocked_iff s).1 hb).2
  | ctrl flush done fault =>
    refine engineOk_of_fifo_le s _ hs rfl ?_ rfl
    dsimp only
    split
    · exact List.length_filter_le _ _
    · exact Nat.le_refl _
  | configure q | enable q | disable q | notify q => cases q <;> exact hs
  | _ => exact hs

theorem hostEffect_engineOk (s t : State) (hs : engineOk s = true) (ht : HostEffect s t) :
    engineOk t = true := by
  cases ht with
  | access a rest h r u hu => exact accessEffect_engineOk { s with hostOps := rest } u hs hu
  | vram a n data rest => exact engineOk_taintAll a n s hs
  | _ => exact hs

/-- A command is consumed, and what it starts has room while Parse is enabled (41_fifo_decoder.md
R180). -/
theorem commandEffect_engineOk (s t : State) (hs : engineOk s = true)
    (hl : s.inflight.length < s.cfg.pipeDepth) (ht : CommandEffect s t) : engineOk t = true := by
  have hp : engineOk (popFifo s) = true := engineOk_popFifo s hs
  cases ht with
  | enter p => exact engineOk_startOperation .eol p _ _ hp hl (.inl rfl)
  | draw k p hk hb => exact engineOk_startOperation k p _ _ hp hl (.inr hb)
  | _ => exact hp

theorem parseEffect_engineOk (s t : State) (hs : engineOk s = true) (ht : ParseEffect s t) :
    engineOk t = true := by
  cases ht with
  | idle => exact hs
  | invalid => exact engineOk_popFifo s hs
  | command he t ht => exact commandEffect_engineOk s t hs ((parseEnabled_iff s).1 he).2 ht

theorem headEffect_engineOk (s t : State) (hs : engineOk s = true) (ht : HeadEffect s t) :
    engineOk t = true := by
  cases ht with
  | idle => exact hs
  | skip op rest hi hk hn draws =>
    obtain ⟨hop, hrest, hlen⟩ := engineOk_head s op rest hs hi
    refine engineOk_of_inflight s _ hs rfl rfl hlen ?_
    rw [List.all_cons, operationOk_nextPixel _ op hop hn, hrest, Bool.and_self]
  | write op rest hi hk hn hv out draws =>
    obtain ⟨hop, hrest, hlen⟩ := engineOk_head s op rest hs hi
    refine engineOk_of_inflight s _ hs rfl rfl (by simpa [writePixel] using hlen) ?_
    dsimp only [writePixel]
    rw [List.all_cons, operationOk_nextPixel _ op hop hn, operationsOk_taint _ _ _ rest hrest,
      Bool.and_self]
  | retireEol op rest hi =>
    obtain ⟨-, hrest, hlen⟩ := engineOk_head s op rest hs hi
    exact engineOk_of_inflight s _ hs rfl rfl hlen.le hrest
  | retireDraw op rest hi =>
    obtain ⟨-, hrest, hlen⟩ := engineOk_head s op rest hs hi
    unfold retireDraw
    split <;> exact engineOk_of_inflight s _ hs rfl rfl hlen.le hrest

theorem vqpEffect_engineOk (s t : State) (hs : engineOk s = true) (ht : VqpEffect s t) :
    engineOk t = true := by
  cases ht with
  | push w ws h hg hl hf => exact engineOk_pushFifo w .virtio s hs hf
  | stage p b => exact engineOk_taintAll _ 1 (vramStore s _ [b]) hs
  | translate h t ht =>
    obtain ⟨u, resp, group, plan, rfl, hu, -⟩ := ht
    cases hu <;> exact hs
  | select q | guestWrite q => cases q <;> exact hs
  | notify h v =>
    exact engineOk_of_fifo_le s _ hs (by simp [entryDone]) (by simp [entryDone]) (by simp [entryDone])
  | _ => exact hs

theorem powerOn_engineOk (s : State) : engineOk (powerOn s) = true :=
  (engineOk_iff _).2 ⟨Nat.zero_le _, Nat.zero_le _, rfl⟩

theorem stepEffect_engineOk (s t : State) (trn : Turn) (hs : engineOk s = true)
    (ht : StepEffect s trn t) : engineOk t = true := by
  cases ht with
  | powerOn => exact powerOn_engineOk s
  | host t h => exact hostEffect_engineOk s t hs h
  | parse t h => exact parseEffect_engineOk s t hs h
  | head t h => exact headEffect_engineOk s t hs h
  | vqp t h => exact vqpEffect_engineOk s t hs h
  | display => exact hs

/-- Settles O10: the invariant is kept by what each agent's turn can do. -/
theorem engineInvariant : Obligations.EngineInvariant := by
  intro s t hs ht
  exact stepEffect_engineOk (takeTurn s) t (nextTurn s) hs (step_effect s t ht)

end Sys2Proof.Machine
end

section
/-! PROOFS. The pulse list (O17): every effect appends one pulse or none. -/
namespace Sys2Proof.Machine

/-- The pulse list of `t` is that of `s` with at most one pulse more (10_state.md R44). -/
def AtMostOnePulse (s t : State) : Prop := ∃ p : List IrqLine, t.out = s.out ++ p ∧ p.length ≤ 1

theorem atMostOnePulse_of_eq (s t : State) (h : t.out = s.out) : AtMostOnePulse s t :=
  ⟨[], by simpa using h, by simp⟩

theorem atMostOnePulse_of_append (s t : State) (line : IrqLine) (h : t.out = s.out ++ [line]) :
    AtMostOnePulse s t :=
  ⟨[line], h, Nat.le_refl 1⟩

/-- A fault pulses when FAULT_IE is set (60_exceptions.md R403). -/
theorem atMostOnePulse_raiseFault (c : BitVec 8) (s : State) : AtMostOnePulse s (raiseFault c s) := by
  cases h : faultIe s with
  | true => exact atMostOnePulse_of_append _ _ .eng (by simp [h])
  | false => exact atMostOnePulse_of_eq _ _ (by simp [h])

/-- DONE pulses when DONE_IE is set (41_fifo_decoder.md R187). -/
theorem atMostOnePulse_setDone (s : State) : AtMostOnePulse s (setDone s) := by
  cases h : doneIe s with
  | true => exact atMostOnePulse_of_append _ _ .eng (by simp [h])
  | false => exact atMostOnePulse_of_eq _ _ (by simp [h])

/-- A completed entry pulses (45_virtqueue.md R313). -/
@[simp] theorem entryDone_out (s : State) : (entryDone s).out = s.out ++ [.vio] := by simp [entryDone]

theorem accessEffect_pulse (s u : State) (hu : AccessEffect s u) : AtMostOnePulse s u := by
  cases hu with
  | error => exact atMostOnePulse_of_append s _ .vio rfl
  | configure | enable | disable | notify => exact atMostOnePulse_of_eq s _ (setQueue_out _ _ _)
  | _ => exact atMostOnePulse_of_eq s _ rfl

theorem hostEffect_pulse (s t : State) (ht : HostEffect s t) : AtMostOnePulse s t := by
  cases ht with
  | access a rest h r u hu => exact accessEffect_pulse { s with hostOps := rest } u hu
  | _ => exact atMostOnePulse_of_eq s _ rfl

theorem parseEffect_pulse (s t : State) (ht : ParseEffect s t) : AtMostOnePulse s t := by
  cases ht with
  | idle => exact atMostOnePulse_of_eq s _ rfl
  | invalid => exact atMostOnePulse_raiseFault _ (popFifo s)
  | command h t ht =>
    cases ht with
    | fault c => exact atMostOnePulse_raiseFault c (popFifo s)
    | _ => exact atMostOnePulse_of_eq s _ rfl

theorem headEffect_pulse (s t : State) (ht : HeadEffect s t) : AtMostOnePulse s t := by
  cases ht with
  | retireEol op rest => exact atMostOnePulse_setDone { s with inflight := rest }
  | retireDraw op rest =>
    unfold retireDraw
    split
    · exact atMostOnePulse_setDone { s with inflight := rest }
    · exact atMostOnePulse_of_eq s _ rfl
  | _ => exact atMostOnePulse_of_eq s _ rfl

theorem requestOutcome_pulse (s t : State) (ht : RequestOutcome s t) : AtMostOnePulse s t := by
  obtain ⟨u, resp, group, plan, rfl, hu, -⟩ := ht
  cases hu with
  | fault => exact atMostOnePulse_raiseFault codeUnknownResource s
  | _ => exact atMostOnePulse_of_eq s _ rfl

theorem vqpEffect_pulse (s t : State) (ht : VqpEffect s t) : AtMostOnePulse s t := by
  cases ht with
  | overrun => exact atMostOnePulse_of_append s _ .vio rfl
  | malformed => exact atMostOnePulse_raiseFault codeMalformedChain s
  | translate h t ht => exact requestOutcome_pulse s t ht
  | notify => exact atMostOnePulse_of_append s _ .vio (entryDone_out s)
  | select | guestWrite => exact atMostOnePulse_of_eq s _ (setQueue_out _ _ _)
  | _ => exact atMostOnePulse_of_eq s _ rfl

theorem stepEffect_pulse (s t : State) (trn : Turn) (ht : StepEffect s trn t) : AtMostOnePulse s t := by
  cases ht with
  | powerOn | display => exact atMostOnePulse_of_eq s _ rfl
  | host t h => exact hostEffect_pulse s t h
  | parse t h => exact parseEffect_pulse s t h
  | head t h => exact headEffect_pulse s t h
  | vqp t h => exact vqpEffect_pulse s t h

/-- Settles O17: each agent's turn, and the power-on reset, adds one pulse or none. -/
theorem pulsesAppendOnly : Obligations.PulsesAppendOnly := by
  intro s t ht
  exact stepEffect_pulse (takeTurn s) t (nextTurn s) (step_effect s t ht)

end Sys2Proof.Machine
end

section
/-! PROOFS. Footprints (O18): for each agent, the fields its turn may write, and what it keeps of those. -/
namespace Sys2Proof.Machine

/-! ### The fields a turn may write -/

/-- Parse writes the registers, the FIFO, the in-flight list, the fault and the pulses
(41_fifo_decoder.md R180). -/
theorem parseEffect_frame (s t : State) (ht : ParseEffect s t) :
    t = { s with regs := t.regs, fifo := t.fifo, inflight := t.inflight, fault := t.fault,
                 faultCode := t.faultCode, out := t.out } := by
  cases ht with
  | command h t ht => cases ht <;> rfl
  | _ => rfl

/-- The head writes DONE, the in-flight list, VRAM, the pulses and the count of free bytes
(41_fifo_decoder.md R185 to R188). -/
theorem headEffect_frame (s t : State) (ht : HeadEffect s t) :
    t = { s with done := t.done, inflight := t.inflight, vram := t.vram, out := t.out,
                 draws := t.draws } := by
  cases ht with
  | retireDraw => unfold retireDraw; split <;> rfl
  | _ => rfl

/-- A request writes the table, the scan-out, the fault, the pulses and the processor's position. -/
theorem requestOutcome_frame (s t : State) (ht : RequestOutcome s t) :
    t = { s with resources := t.resources, scanout := t.scanout, fault := t.fault,
                 faultCode := t.faultCode, out := t.out, vqp := t.vqp } := by
  obtain ⟨u, resp, group, plan, rfl, hu, -⟩ := ht
  cases hu <;> rfl

/-- The end of an entry writes the transport, the served queue and the pulses. -/
theorem entryDone_frame (s : State) :
    entryDone s = { s with vio := (entryDone s).vio, q0 := (entryDone s).q0, q1 := (entryDone s).q1,
                           out := (entryDone s).out } := by
  unfold entryDone
  cases s.vqp.queue <;> rfl

/-- The processor writes no drawing register, no DONE, no IRQ_ENABLE, no LO_LATCH, and nothing of the
host's (10_state.md R24, R27, R28). -/
theorem vqpEffect_frame (s t : State) (ht : VqpEffect s t) :
    t.regs = s.regs ∧ t.done = s.done ∧ t.irqEnable = s.irqEnable ∧ t.loLatch = s.loLatch ∧
      t.hostOps = s.hostOps ∧ t.bus = s.bus := by
  cases ht with
  | select | guestWrite => simp
  | translate h t ht => rw [requestOutcome_frame s t ht]; simp
  | notify => rw [entryDone_frame]; simp
  | _ => exact ⟨rfl, rfl, rfl, rfl, rfl, rfl⟩

/-! ### What is kept of a field a turn writes -/

/-- An operation without its set of tainted addresses. -/
def operationCore (o : Operation) : OpKind × Producer × Regs × Nat := (o.kind, o.producer, o.snap, o.k)

/-- Tainting writes nothing else of an operation (43_draw.md R222). -/
@[simp] theorem taintOps_map_core (a n : Nat) (ops : List Operation) :
    (taintOps a n ops).map operationCore = ops.map operationCore := by
  simp [taintOps, operationCore, Function.comp_def]

theorem vqpEffect_inflight (s t : State) (ht : VqpEffect s t) :
    t.inflight.map operationCore = s.inflight.map operationCore := by
  cases ht with
  | stage => simp [stageByte]
  | select | guestWrite => simp
  | translate h t ht => rw [requestOutcome_frame s t ht]
  | notify => rw [entryDone_frame]
  | _ => rfl

/-- The processor writes `status` and `interruptStatus` of the transport only (10_state.md R25). -/
theorem vqpEffect_vio (s t : State) (ht : VqpEffect s t) :
    t.vio = { s.vio with status := t.vio.status, interruptStatus := t.vio.interruptStatus } := by
  cases ht with
  | select | guestWrite => simp
  | translate h t ht => rw [requestOutcome_frame s t ht]
  | notify => simp [entryDone]
  | _ => rfl

/-- A queue keeps the configuration its driver gave it: size, readiness and addresses. -/
def KeepsQueueConfig (v w : Queue) : Prop :=
  w = { v with lastAvail := w.lastAvail, usedIdx := w.usedIdx, pending := w.pending }

/-- Replacing a queue by one of the same configuration keeps the configuration of every queue. -/
theorem setQueue_keepsQueueConfig (q q' : QueueId) (v : Queue) (s : State)
    (h : KeepsQueueConfig (getQueue s q) v) :
    KeepsQueueConfig (getQueue s q') (getQueue (setQueue q v s) q') := by
  by_cases e : q = q'
  · subst e; rwa [getQueue_setQueue]
  · rw [getQueue_setQueue_ne q q' v s e]; rfl

theorem vqpEffect_keepsQueueConfig (s t : State) (q' : QueueId) (ht : VqpEffect s t) :
    KeepsQueueConfig (getQueue s q') (getQueue t q') := by
  cases ht with
  | select q => exact setQueue_keepsQueueConfig q q' _ s rfl
  | guestWrite q => exact setQueue_keepsQueueConfig q q' _ s rfl
  | notify => exact setQueue_keepsQueueConfig s.vqp.queue q' _ { s with vio := _ } rfl
  | translate h t ht => rw [requestOutcome_frame s t ht]; rfl
  | _ => rfl

/-- An access starts and removes no operation in flight, counts no malformed chain, sets neither DONE
nor the fault, and leaves the table or, by a device reset, empties it (70_reset_and_hazards.md R441). -/
theorem accessEffect_frame (s u : State) (hu : AccessEffect s u) :
    u.inflight = s.inflight ∧ u.vqFaultCount = s.vqFaultCount ∧ (u.done = true → s.done = true) ∧
      (u.fault = true → s.fault = true) ∧ (u.resources = s.resources ∨ u.resources = []) := by
  cases hu with
  | ctrl flush done fault => cases done <;> cases fault <;> simp
  | reset => exact ⟨rfl, rfl, id, id, .inr rfl⟩
  | configure | enable | disable | notify => simp
  | _ => exact ⟨rfl, rfl, id, id, .inl rfl⟩

theorem hostEffect_frame (s t : State) (ht : HostEffect s t) :
    t.inflight.map operationCore = s.inflight.map operationCore ∧ t.vqFaultCount = s.vqFaultCount ∧
      (t.done = true → s.done = true) ∧ (t.fault = true → s.fault = true) ∧
      (t.resources = s.resources ∨ t.resources = []) := by
  cases ht with
  | access a rest h r u hu =>
    obtain ⟨hi, hrest⟩ := accessEffect_frame { s with hostOps := rest } u hu
    exact ⟨congrArg _ hi, hrest⟩
  | vram a n => exact ⟨taintOps_map_core a n s.inflight, rfl, id, id, .inl rfl⟩
  | _ => exact ⟨rfl, rfl, id, id, .inl rfl⟩

/-- Settles O18: each clause is the footprint of one agent's turn. -/
theorem agentFootprints : Obligations.AgentFootprints := by
  intro s t
  refine ⟨fun e => ?parse, fun e => ?head, fun e => ?vqp, fun e => ?host, fun x y e => ?display⟩
  case parse =>
    cases agentStep_effect .parse s t e with
    | parse _ h => rw [parseEffect_frame s t h]; simp
  case head =>
    cases agentStep_effect .head s t e with
    | head _ h => rw [headEffect_frame s t h]; simp
  case vqp =>
    cases agentStep_effect .vqp s t e with
    | vqp _ h =>
      obtain ⟨hregs, hdone, hirq, hlatch, hops, hbus⟩ := vqpEffect_frame s t h
      exact ⟨hregs, hdone, hirq, hlatch, vqpEffect_inflight s t h, vqpEffect_vio s t h,
        vqpEffect_keepsQueueConfig s t .ctrl h, vqpEffect_keepsQueueConfig s t .cursor h, hops, hbus⟩
  case host =>
    cases agentStep_effect .host s t e with
    | host _ h => exact hostEffect_frame s t h
  case display =>
    cases agentStep_effect (.display x y) s t e
    rfl

end Sys2Proof.Machine
end

section
/-! PROOFS. The legacy reads and the layout of STATUS (O36), and the invariants at reset (O14). -/
namespace Sys2Proof.Machine

/-! ### Legacy reads -/

theorem decode_legRead_rows :
    ((List.range 18).map fun k => decode (.access (.legRead (BitVec.ofNat 12 (4 * k)) 4))) =
      [Instr.legReadFbAddr, .legReadFbStride, .legReadDrawX, .legReadDrawY, .legReadDrawW, .legReadDrawH,
        .legReadFillColor, .legReadSrcAddr, .legReadSrcStride, .legReadStencilKey, .legReadAlphaMode,
        .legReadPixelFmt, .legReadStatus, .legReadIrqEnable, .legReadFifoDataLo, .legReadFifoPush,
        .legReadCtrl, .legReadVqFaultCount].map Decoded.instr := by decide

/-! ### STATUS, bit by bit -/

/-- A flag of STATUS as the number 0 or 1 of its condition. -/
theorem toNat_eq_ite_of_iff (b : Bool) (p : Prop) [Decidable p] (h : b = true ↔ p) :
    b.toNat = if p then 1 else 0 := by
  cases b <;> simp_all

theorem isBusy_iff (s : State) : isBusy s = true ↔ s.fifo ≠ [] ∨ s.inflight ≠ [] := by
  simp [isBusy]

theorem fifoFull_iff (s : State) : fifoFull s = true ↔ s.fifo.length = s.cfg.fifoDepth := by
  simp [fifoFull]

/-- STATUS as the sum of its fields, FIFO_COUNT taken on its nine bits (10_state.md R26). -/
theorem statusWord_toNat (s : State) : (statusWord s).toNat =
    s.done.toNat + 2 * (isBusy s).toNat + 4 * s.fifo.isEmpty.toNat + 8 * (fifoFull s).toNat +
      16 * s.fault.toNat + 32 * (s.lock == .heldVirtio).toNat + 2 ^ 8 * s.faultCode.toNat +
      2 ^ 16 * (s.fifo.length % 2 ^ 9) := by
  simp only [statusWord, app_toNat, BitVec.toNat_ofNat, BitVec.toNat_ofBool]
  omega

theorem statusWord_toNat_of_fifo_le (s : State) (hf : s.fifo.length ≤ s.cfg.fifoDepth)
    (hd : s.cfg.fifoDepth ≤ 511) : (statusWord s).toNat =
      (if s.done then 1 else 0) + 2 * (if s.fifo ≠ [] ∨ s.inflight ≠ [] then 1 else 0) +
      4 * (if s.fifo = [] then 1 else 0) + 8 * (if s.fifo.length = s.cfg.fifoDepth then 1 else 0) +
      16 * (if s.fault then 1 else 0) + 32 * (if s.lock = .heldVirtio then 1 else 0) +
      2 ^ 8 * s.faultCode.toNat + 2 ^ 16 * s.fifo.length := by
  rw [statusWord_toNat, Nat.mod_eq_of_lt (by omega : s.fifo.length < 2 ^ 9),
    toNat_eq_ite_of_iff s.done _ Iff.rfl, toNat_eq_ite_of_iff _ _ (isBusy_iff s),
    toNat_eq_ite_of_iff _ _ List.isEmpty_iff, toNat_eq_ite_of_iff _ _ (fifoFull_iff s),
    toNat_eq_ite_of_iff s.fault _ Iff.rfl, toNat_eq_ite_of_iff _ _ beq_iff_eq]

/-- Settles O36: the offsets by decoding, each read by its meaning, STATUS by the sum of its fields. -/
theorem legacyReads : Obligations.LegacyReads := by
  refine ⟨decode_legRead_rows, fun s => ⟨?drawing, rfl, ?irqEnable, rfl, rfl, rfl, rfl⟩,
    statusWord_toNat_of_fifo_le, by decide⟩
  case drawing =>
    simp only [List.forall_mem_cons]
    exact ⟨rfl, rfl, rfl, rfl, rfl, rfl, rfl, rfl, rfl, rfl, rfl, rfl, fun _ h => by cases h⟩
  case irqEnable =>
    rw [BitVec.ofNat_toNat]
    rfl

/-! ### Reset -/

/-- The reference configuration of 00_scope.md R7 meets the constraints of R7. -/
theorem reference_ok : Params.reference.ok = true := by decide

/-- Settles O14: memories, FIFO, in-flight list and table are empty, the lock is free, the processor is
idle, and the transport is at zero (10_state.md R47). -/
theorem invariantsAtReset : Obligations.InvariantsAtReset := by
  refine ⟨reference_ok, ?memory, ?engine, ?arbiter, ?transport, ?queues, ?translator⟩
  case memory => decide
  case engine => decide
  case arbiter => decide
  case transport => decide
  case queues => decide
  case translator => decide

end Sys2Proof.Machine
end

section
/-! PROOFS. The two memories (O9, O19): what a turn does to VRAM, to guest memory and to the processor's
access in parts, one lemma for each agent. -/
namespace Sys2Proof.Machine

/-! ### VRAM -/

/-- Every byte of VRAM reads as before: the same written bytes, the same power-on (10_state.md R34). -/
def KeepsVram (s t : State) : Prop := t.vram = s.vram ∧ t.epoch = s.epoch

/-- `t` holds the VRAM of `s` with `n` bytes stored from `a`, inside VRAM (20_memory.md R71). -/
def StoresVram (s t : State) (a n : Nat) : Prop :=
  t.epoch = s.epoch ∧ a + n ≤ s.cfg.vramSize ∧
    ∃ bytes : List Byte, bytes.length = n ∧ t.vram = storeBytes s.vram a bytes

/-- The turns that store in VRAM, and where: the head's pixel, the staging copy, the host's window
(20_memory.md R74, 43_draw.md R213, 46_gpu_translator.md R356). -/
inductive VramWriter (s : State) : Turn → (a n : Nat) → Prop where
  | pixel (op : Operation) (rest : List Operation) (h : s.inflight = op :: rest) (hk : op.kind ≠ .eol)
      (hn : op.k < pixelCount op.snap) :
      VramWriter s (.agent .head) (dstAddr op.snap op.k) (bytesPerPixel op.snap.pixelFmt)
  | staging (h : s.vqp.phase = .stage) :
      VramWriter s (.agent .vqp) (s.cfg.stagingBase + s.vqp.copied) 1
  | window (a n : Nat) (d : Word32) (rest : List HostOp) (h : s.hostOps = .vramWrite a n d :: rest) :
      VramWriter s (.agent .host) a n

/-- A register access stores in neither memory. -/
theorem accessEffect_memories (s u : State) (hu : AccessEffect s u) :
    KeepsVram s u ∧ u.guest = s.guest := by
  cases hu with
  | configure | enable | disable | notify => simp [KeepsVram]
  | _ => exact ⟨⟨rfl, rfl⟩, rfl⟩

theorem hostEffect_vram (s t : State) (ht : HostEffect s t) :
    KeepsVram s t ∨ ∃ a n, VramWriter s (.agent .host) a n ∧ StoresVram s t a n := by
  cases ht with
  | access a rest h r u hu => exact .inl (accessEffect_memories { s with hostOps := rest } u hu).1
  | vram a n data rest h hv =>
    exact .inr ⟨a, n, .window a n data rest h, rfl, hv, _, leBytes_length _ _, rfl⟩
  | _ => exact .inl ⟨rfl, rfl⟩

theorem headEffect_vram (s t : State) (ht : HeadEffect s t) :
    KeepsVram s t ∨ ∃ a n, VramWriter s (.agent .head) a n ∧ StoresVram s t a n := by
  cases ht with
  | write op rest h hk hn hv out draws =>
    exact .inr ⟨_, _, .pixel op rest h hk hn, rfl, hv, _, leBytes_length _ _, rfl⟩
  | retireDraw => left; unfold retireDraw; split <;> exact ⟨rfl, rfl⟩
  | _ => exact .inl ⟨rfl, rfl⟩

theorem vqpEffect_vram (s t : State) (ht : VqpEffect s t) :
    KeepsVram s t ∨ ∃ a n, VramWriter s (.agent .vqp) a n ∧ StoresVram s t a n := by
  cases ht with
  | stage p b h hp hc hv => exact .inr ⟨_, 1, .staging h, rfl, hv, [b], rfl, rfl⟩
  | select | guestWrite => left; simp [KeepsVram]
  | translate h t ht => left; rw [requestOutcome_frame s t ht]; exact ⟨rfl, rfl⟩
  | notify => left; rw [entryDone_frame]; exact ⟨rfl, rfl⟩
  | _ => exact .inl ⟨rfl, rfl⟩

/-- A turn empties VRAM by a power-on reset, keeps it, or stores in it as one of the writers. -/
theorem stepEffect_vram (s t : State) (trn : Turn) (ht : StepEffect s trn t) :
    (trn = .powerOn ∧ t.vram = []) ∨ KeepsVram s t ∨
      ∃ a n, VramWriter s trn a n ∧ StoresVram s t a n := by
  cases ht with
  | powerOn => exact .inl ⟨rfl, rfl⟩
  | host t h => exact .inr (hostEffect_vram s t h)
  | parse t h => right; left; rw [parseEffect_frame s t h]; exact ⟨rfl, rfl⟩
  | head t h => exact .inr (headEffect_vram s t h)
  | vqp t h => exact .inr (vqpEffect_vram s t h)
  | display => exact .inr (.inl ⟨rfl, rfl⟩)

theorem vramByte_of_keeps (s t : State) (h : KeepsVram s t) (b : Nat) : vramByte t b = vramByte s b :=
  vramByte_of_vram s t b h.1 h.2

/-- A byte that a store changes is one of those stored. -/
theorem StoresVram.mem_of_ne (s t : State) (a n b : Nat) (h : StoresVram s t a n)
    (hb : vramByte t b ≠ vramByte s b) : a ≤ b ∧ b < a + n := by
  obtain ⟨he, -, bytes, rfl, hv⟩ := h
  by_contra hout
  refine hb ?_
  unfold vramByte
  rw [hv, he, assocGet_storeBytes_out _ _ _ _ (by omega)]

/-- Settles O19: a byte that changes is one of those the turn's writer stores. -/
theorem vramWrittenOnlyBy : Obligations.VramWrittenOnlyBy := by
  intro s t b e hb
  rcases stepEffect_vram (takeTurn s) t (nextTurn s) (step_effect s t e) with
    ⟨hp, -⟩ | hk | ⟨a, n, hw, hst⟩
  · exact .inl hp
  · exact absurd (vramByte_of_keeps (takeTurn s) t hk b) hb
  · obtain ⟨hlo, hhi⟩ := hst.mem_of_ne (takeTurn s) t a n b hb
    have hsize : a + n ≤ s.cfg.vramSize := hst.2.1
    right
    generalize nextTurn s = trn at hw
    cases hw with
    | pixel op rest h hk hn => exact .inl ⟨rfl, op, rest, h, hk, hn, hlo, hhi⟩
    | staging h => exact .inr (.inl ⟨rfl, h, Nat.le_antisymm (Nat.le_of_lt_succ hhi) hlo⟩)
    | window a n d rest h => exact .inr (.inr ⟨rfl, a, n, d, rest, h, hlo, hhi, hsize⟩)

/-! ### Guest memory -/

/-- Guest memory is kept, or bytes are stored in it; while a write in parts ends below 2^64, so do they
(20_memory.md R73, R77). -/
def GuestStep (s t : State) : Prop :=
  t.guest = s.guest ∨ ∃ (a : Nat) (bytes : List Byte),
    t.guest = storeBytes s.guest a bytes ∧ (dmaOk s.vqp = true → a + bytes.length ≤ 2 ^ 64)

theorem hostEffect_guest (s t : State) (ht : HostEffect s t) : GuestStep s t := by
  cases ht with
  | access a rest h r u hu => exact .inl (accessEffect_memories { s with hostOps := rest } u hu).2
  | guest a bytes rest h =>
    refine .inr ⟨_, _, rfl, fun _ => ?_⟩
    have ha : a.toNat < 2 ^ 64 := a.isLt
    rw [List.length_take]
    omega
  | _ => exact .inl rfl

theorem vqpEffect_guest (s t : State) (ht : VqpEffect s t) : GuestStep s t := by
  cases ht with
  | guestWrite q u a bytes v h hv hb hd hw => exact .inr ⟨a, bytes, by simp, hb⟩
  | select => left; simp
  | translate h t ht => left; rw [requestOutcome_frame s t ht]
  | notify => left; rw [entryDone_frame]
  | _ => exact .inl rfl

theorem stepEffect_guest (s t : State) (trn : Turn) (ht : StepEffect s trn t) : GuestStep s t := by
  cases ht with
  | host t h => exact hostEffect_guest s t h
  | parse t h => left; rw [parseEffect_frame s t h]
  | head t h => left; rw [headEffect_frame s t h]
  | vqp t h => exact vqpEffect_guest s t h
  | powerOn | display => exact .inl rfl

/-! ### The access in parts -/

/-- A processor with no access under way keeps the rule for accesses in parts, in every phase. -/
theorem dmaOk_of_dma_nil (v : Vqp) (h : v.dma = []) : dmaOk v = true := by
  unfold dmaOk
  split <;> simp [h]

/-- In the phases of step 6 no access in parts is under way. -/
theorem dma_nil_of_dmaOk (v : Vqp) (hok : dmaOk v = true)
    (h : v.phase ∈ [Phase.translate, .stage, .acquire, .push, .release]) : v.dma = [] := by
  unfold dmaOk at hok
  split at hok <;> simp_all

theorem accessEffect_vqp (s u : State) (hu : AccessEffect s u) : u.vqp = s.vqp ∨ u.vqp = Vqp.idle := by
  cases hu with
  | reset => exact .inr rfl
  | configure | enable | disable | notify => left; simp
  | _ => exact .inl rfl

theorem hostEffect_dmaOk (s t : State) (hs : dmaOk s.vqp = true) (ht : HostEffect s t) :
    dmaOk t.vqp = true := by
  cases ht with
  | access a rest h r u hu =>
    rcases accessEffect_vqp { s with hostOps := rest } u hu with e | e <;> rw [respond_vqp, e]
    · exact hs
    · exact dmaOk_of_dma_nil _ rfl
  | _ => exact hs

theorem vqpEffect_dmaOk (s t : State) (hs : dmaOk s.vqp = true) (ht : VqpEffect s t) :
    dmaOk t.vqp = true := by
  cases ht with
  | hold => exact hs
  | position v h0 h1 h2 hd => exact hd hs
  | guestWrite q u a bytes v h hv hb hd => exact hd hs
  | select | overrun => exact dmaOk_of_dma_nil _ rfl
  | malformed h v hp hw hd => exact dmaOk_of_dma_nil _ hd
  | notify h v hv hd => exact dmaOk_of_dma_nil _ hd
  | translate h t ht =>
    obtain ⟨u, resp, group, plan, rfl, hu, -⟩ := ht
    have hd : s.vqp.dma = [] := dma_nil_of_dmaOk _ hs (by simp [h])
    exact dmaOk_of_dma_nil _ (by cases hu <;> exact hd)
  | stage _ _ h | acquire h | push _ _ h | pushEnd h | release h =>
    exact dmaOk_of_dma_nil _ (dma_nil_of_dmaOk s.vqp hs (by simp [h]))

theorem stepEffect_dmaOk (s t : State) (trn : Turn) (hs : dmaOk s.vqp = true)
    (ht : StepEffect s trn t) : dmaOk t.vqp = true := by
  cases ht with
  | powerOn => exact dmaOk_of_dma_nil _ rfl
  | host t h => exact hostEffect_dmaOk s t hs h
  | parse t h => rw [parseEffect_frame s t h]; exact hs
  | head t h => rw [headEffect_frame s t h]; exact hs
  | vqp t h => exact vqpEffect_dmaOk s t hs h
  | display => exact hs

/-! ### The invariant -/

theorem memoryOk_iff (s : State) :
    memoryOk s = true ↔ (Memory.wf s.vram = true ∧ memBelow s.cfg.vramSize s.vram = true) ∧
      (Memory.wf s.guest = true ∧ memBelow (2 ^ 64) s.guest = true) ∧ dmaOk s.vqp = true := by
  simp only [memoryOk, Bool.and_eq_true, and_assoc]

/-- A store that ends inside the address space keeps a memory canonical and inside it. -/
theorem storeBytes_within (bound : Nat) (m : Memory) (a : Nat) (bs : List Byte)
    (hm : Memory.wf m = true ∧ memBelow bound m = true) (h : a + bs.length ≤ bound) :
    Memory.wf (storeBytes m a bs) = true ∧ memBelow bound (storeBytes m a bs) = true :=
  ⟨storeBytes_wf m a bs hm.1, memBelow_storeBytes bound m a bs hm.2 h⟩

theorem stepEffect_vram_within (s t : State) (trn : Turn) (ht : StepEffect s trn t)
    (hs : Memory.wf s.vram = true ∧ memBelow s.cfg.vramSize s.vram = true) :
    Memory.wf t.vram = true ∧ memBelow s.cfg.vramSize t.vram = true := by
  rcases stepEffect_vram s t trn ht with ⟨-, hv⟩ | ⟨hv, -⟩ | ⟨a, n, -, -, hle, bytes, rfl, hv⟩ <;> rw [hv]
  · exact ⟨rfl, rfl⟩
  · exact hs
  · exact storeBytes_within _ _ a bytes hs hle

theorem stepEffect_guest_within (s t : State) (trn : Turn) (ht : StepEffect s trn t)
    (hs : Memory.wf s.guest = true ∧ memBelow (2 ^ 64) s.guest = true) (hd : dmaOk s.vqp = true) :
    Memory.wf t.guest = true ∧ memBelow (2 ^ 64) t.guest = true := by
  rcases stepEffect_guest s t trn ht with hg | ⟨a, bytes, hg, hle⟩ <;> rw [hg]
  · exact hs
  · exact storeBytes_within _ _ a bytes hs (hle hd)

/-- Settles O9: every store ends inside its memory, for guest memory because an access in parts does. -/
theorem memoryInvariant : Obligations.MemoryInvariant := by
  intro s t hs e
  obtain ⟨hv, hg, hd⟩ := (memoryOk_iff s).1 hs
  have ht := step_effect s t e
  rw [memoryOk_iff, step_cfg s t e]
  exact ⟨stepEffect_vram_within (takeTurn s) t _ ht hv, stepEffect_guest_within (takeTurn s) t _ ht hg hd,
    stepEffect_dmaOk (takeTurn s) t _ hd ht⟩

end Sys2Proof.Machine
end

section
/-! PROOFS. The host's VRAM window (O41): one rule for each answer of a read and of a write. -/
namespace Sys2Proof.Machine

theorem windowAligned_iff (a n : Nat) :
    windowAligned a n = true ↔ (n = 1 ∨ n = 2 ∨ n = 4) ∧ a % n = 0 := by
  simp [windowAligned]

/-! ### Reads -/

theorem windowRead_misaligned (a n : Nat) (s : State) (h : windowAligned a n = false) :
    windowRead a n s = respond (.err .invalidRegister) s := by
  simp [windowRead, h]

theorem windowRead_beyond (a n : Nat) (s : State) (h : windowAligned a n = true)
    (hr : s.cfg.vramSize < a + n) : windowRead a n s = respond (.err .outOfRange) s := by
  have hn : vramRead s a n = none := by simp [vramRead, vramInRange, hr]
  simp [windowRead, h, hn]

theorem windowRead_inside (a n : Nat) (s : State) (h : windowAligned a n = true)
    (hr : a + n ≤ s.cfg.vramSize) :
    windowRead a n s = respond (.okData (BitVec.ofNat 32 (leNat (vramBytes s a n)))) s := by
  have hn : vramRead s a n = some (leNat (vramBytes s a n)) := by simp [vramRead, vramInRange, hr]
  simp [windowRead, h, hn]

/-- A read of at most four bytes fits the word that answers it. -/
theorem vramBytes_word_toNat (s : State) (a n : Nat) (hn : n ≤ 4) :
    (BitVec.ofNat 32 (leNat (vramBytes s a n))).toNat = leNat (vramBytes s a n) := by
  have hlt : leNat (vramBytes s a n) < 256 ^ n := by simpa using leNat_lt (vramBytes s a n)
  rw [BitVec.toNat_ofNat]
  exact Nat.mod_eq_of_lt (hlt.trans_le (Nat.pow_le_pow_right (by decide) hn))

/-- Byte `c` of a read is the byte of VRAM `c` places on (20_memory.md R72). -/
theorem leNat_vramBytes_byte (s : State) (a n c : Nat) (hc : c < n) :
    leNat (vramBytes s a n) / 256 ^ c % 256 = (vramByte s (a + c)).toNat := by
  have hbyte := leNat_byte (vramBytes s a n) c (by simpa using hc)
  have hget : (vramBytes s a n)[c]'(by simpa using hc) = vramByte s (a + c) := by simp [vramBytes]
  rw [← hget, ← hbyte, BitVec.toNat_ofNat]

/-! ### Writes -/

theorem windowWrite_misaligned (a n : Nat) (d : Word32) (s : State) (h : windowAligned a n = false) :
    windowWrite a n d s = respond (.err .invalidRegister) s := by
  simp [windowWrite, h]

theorem windowWrite_beyond (a n : Nat) (d : Word32) (s : State) (h : windowAligned a n = true)
    (hr : s.cfg.vramSize < a + n) : windowWrite a n d s = respond (.err .outOfRange) s := by
  have hn : vramWrite s a n d.toNat = none := by simp [vramWrite, vramInRange, hr]
  simp [windowWrite, h, hn]

theorem windowWrite_inside (a n : Nat) (d : Word32) (s : State) (h : windowAligned a n = true)
    (hr : a + n ≤ s.cfg.vramSize) :
    windowWrite a n d s = respond .ok (taintAll a n (vramStore s a (leBytes n d.toNat))) := by
  have hn : vramWrite s a n d.toNat = some (vramStore s a (leBytes n d.toNat)) := by
    simp [vramWrite, vramInRange, hr]
  simp [windowWrite, h, hn]

/-- A value stored little-endian, byte by byte (20_memory.md R72). -/
theorem vramByte_vramStore_leBytes (s : State) (a n v b : Nat) :
    vramByte (vramStore s a (leBytes n v)) b =
      if a ≤ b ∧ b < a + n then BitVec.ofNat 8 (v / 256 ^ (b - a)) else vramByte s b := by
  refine (store_byte s.vram (Config.vramByte s.epoch b) a (leBytes n v) b).trans ?_
  rw [leBytes_length]
  split
  · next h => exact leBytes_getD n v (b - a) (by omega)
  · rfl

/-! ### The host's turn -/

theorem hostStep_vramRead (s : State) (rest : List HostOp) (a n : Nat)
    (h : s.hostOps = .vramRead a n :: rest) :
    hostStep s = .next (windowRead a n { s with hostOps := rest }) := by
  simp only [hostStep, h]

theorem hostStep_vramWrite (s : State) (rest : List HostOp) (a n : Nat) (d : Word32)
    (h : s.hostOps = .vramWrite a n d :: rest) :
    hostStep s = .next (windowWrite a n d { s with hostOps := rest }) := by
  simp only [hostStep, h]

/-- Settles O41: the three answers of a read, then those of a write. -/
theorem windowAccess : Obligations.WindowAccess := by
  intro s rest a n d hn
  have haligned (h : a % n = 0) : windowAligned a n = true := (windowAligned_iff a n).2 ⟨hn, h⟩
  have hmisaligned (h : a % n ≠ 0) : windowAligned a n = false :=
    Bool.eq_false_iff.2 fun hw => h ((windowAligned_iff a n).1 hw).2
  constructor
  · intro hop
    rw [hostStep_vramRead s rest a n hop]
    refine ⟨fun h => congrArg _ ?misaligned, fun h hr => congrArg _ ?beyond, fun h hr => ?inside⟩
    case misaligned => exact windowRead_misaligned a n { s with hostOps := rest } (hmisaligned h)
    case beyond => exact windowRead_beyond a n { s with hostOps := rest } (haligned h) hr
    case inside =>
      have hread := windowRead_inside a n { s with hostOps := rest } (haligned h) hr
      have hword := vramBytes_word_toNat s a n (by omega)
      refine ⟨_, congrArg _ hread, ?_, fun c hc => ?_⟩
      · exact hword.trans_lt (by simpa using leNat_lt (vramBytes s a n))
      · exact (congrArg (· / 256 ^ c % 256) hword).trans (leNat_vramBytes_byte s a n c hc)
  · intro hop
    rw [hostStep_vramWrite s rest a n d hop]
    refine ⟨fun h => congrArg _ ?misaligned, fun h hr => congrArg _ ?beyond, fun h hr => ?inside⟩
    case misaligned => exact windowWrite_misaligned a n d { s with hostOps := rest } (hmisaligned h)
    case beyond => exact windowWrite_beyond a n d { s with hostOps := rest } (haligned h) hr
    case inside =>
      have hwrite := windowWrite_inside a n d { s with hostOps := rest } (haligned h) hr
      refine ⟨_, congrArg _ hwrite, rfl, fun b => ?_⟩
      exact vramByte_vramStore_leBytes { s with hostOps := rest } a n d.toNat b

end Sys2Proof.Machine
end

section
/-! PROOFS. DMA accesses (O50): held at the first byte, in one step, or a byte a step. -/
namespace Sys2Proof.Machine

/-! ### One step of an access -/

/-- An access beyond 2^64 is not admitted (20_memory.md R73). -/
theorem guestAdmits_of_beyond (p : Params) (a n : Nat) (h : 2 ^ 64 < a + n) :
    guestAdmits p a n = false :=
  Bool.eq_false_iff.2 fun hg => absurd (guestAdmits_le p a n hg) (Nat.not_le.2 h)

theorem dmaAtomic_iff (a n : Nat) : dmaAtomic a n = true ↔ n ≤ 8 ∧ a % n = 0 := by simp [dmaAtomic]

/-- A read in parts begins with its first byte and keeps its address (log 12). -/
theorem dmaRead_first (a n : Nat) (s : State) (hd : s.vqp.dma = []) (hg : guestAdmits s.cfg a n = true)
    (ha : dmaAtomic a n = false) (hn : 2 ≤ n) :
    dmaRead a n s = .more (setDma [guestByte s a] a s) := by
  have hlt : 1 < n := hn
  simp [dmaRead, hd, hg, ha, hlt]

/-- A read under way takes the next byte, whatever the platform admits (log 12). -/
theorem dmaRead_next (a n : Nat) (s : State) (hd : s.vqp.dma ≠ []) :
    dmaRead a n s =
      let got := s.vqp.dma ++ [guestByte s (s.vqp.dmaAddr + s.vqp.dma.length)]
      if got.length < n then .more (setDma got s.vqp.dmaAddr s) else .done (setDma [] 0 s) got := by
  simp [dmaRead, hd]

theorem dmaWrite_held (a : Nat) (bytes : List Byte) (s : State) (hd : s.vqp.dma = [])
    (hg : guestAdmits s.cfg a bytes.length = false) : dmaWrite a bytes s = .held := by
  simp [dmaWrite, hd, hg]

theorem dmaWrite_atomic (a : Nat) (bytes : List Byte) (s : State) (hd : s.vqp.dma = [])
    (hg : guestAdmits s.cfg a bytes.length = true) (ha : dmaAtomic a bytes.length = true) :
    dmaWrite a bytes s = .done (guestStore a bytes s) bytes := by
  simp [dmaWrite, hd, hg, ha]

/-- A write in parts begins with its first byte and keeps the others (log 12). -/
theorem dmaWrite_first (a : Nat) (b : Byte) (bs : List Byte) (s : State) (hd : s.vqp.dma = [])
    (hg : guestAdmits s.cfg a (bs.length + 1) = true) (ha : dmaAtomic a (bs.length + 1) = false)
    (hbs : bs ≠ []) : dmaWrite a (b :: bs) s = .more (setDma bs (a + 1) (guestStore a [b] s)) := by
  simp [dmaWrite, hd, hg, ha, hbs]

/-- A write under way stores the next byte it kept; the last one completes it (log 12). -/
theorem dmaWrite_next (a : Nat) (bytes : List Byte) (b : Byte) (bs : List Byte) (s : State)
    (hd : s.vqp.dma = b :: bs) :
    dmaWrite a bytes s =
      if bs = [] then .done (setDma [] 0 (guestStore s.vqp.dmaAddr [b] s)) bytes
      else .more (setDma bs (s.vqp.dmaAddr + 1) (guestStore s.vqp.dmaAddr [b] s)) := by
  simp [dmaWrite, hd]

/-! ### The processor's turn in the phases that make an access -/

theorem vqpStep_readIdx (s : State) (h : s.vqp.phase = .readIdx) : vqpStep s = .next (readIdxStep s) := by
  simp [vqpStep, vqpPhaseStep, h]

theorem vqpStep_readSlot (s : State) (h : s.vqp.phase = .readSlot) : vqpStep s = .next (readSlotStep s) := by
  simp [vqpStep, vqpPhaseStep, h]

theorem vqpStep_walk (s : State) (h : s.vqp.phase = .walk) : vqpStep s = .next (walkStep s) := by
  simp [vqpStep, vqpPhaseStep, h]

theorem vqpStep_usedElem (s : State) (h : s.vqp.phase = .usedElem) : vqpStep s = .next (usedElemStep s) := by
  simp [vqpStep, vqpPhaseStep, h]

theorem vqpStep_usedIdx (s : State) (h : s.vqp.phase = .usedIdx) : vqpStep s = .next (usedIdxStep s) := by
  simp [vqpStep, vqpPhaseStep, h]

/-! ### Where an access is held -/

theorem readIdxStep_held (s : State) (hd : s.vqp.dma = []) (hs : serviceable s (servedQueue s) = true)
    (hg : guestAdmits s.cfg ((servedQueue s).driverAddr.toNat + 2) 2 = false) : readIdxStep s = s := by
  rw [readIdxStep, if_pos hs, dmaRead_held _ _ s hd hg]

theorem readSlotStep_held (s : State) (hd : s.vqp.dma = [])
    (hg : guestAdmits s.cfg (availSlotAddr (servedQueue s)) 2 = false) : readSlotStep s = s := by
  rw [readSlotStep, dmaRead_held _ _ s hd hg]

/-- The walk before a descriptor: its index is good, and the address field is not admitted. -/
theorem walkStep_addr_held (s : State) (hd : s.vqp.dma = []) (hf : s.vqp.curField = .addr)
    (hw : walkBroken s = false) (hg : guestAdmits s.cfg (descAddrOf s) 8 = false) : walkStep s = s := by
  have hk : keepDescBase s = { s with vqp := { s.vqp with descBase := descAddrOf s } } := by
    simp [keepDescBase, atDescStart, hf, hd]
  simp only [walkStep, hw, hk, hf, descFieldAt, Bool.and_false, Bool.false_eq_true, if_false]
  rw [dmaRead_held]
  · exact hd
  · exact hg

/-- The walk inside a descriptor: the field that is next is not admitted (log 33). -/
theorem walkStep_field_held (s : State) (hd : s.vqp.dma = []) (hf : s.vqp.curField ≠ .addr)
    (hg : guestAdmits s.cfg (s.vqp.descBase + (descFieldAt s.vqp.curField).1)
      (descFieldAt s.vqp.curField).2 = false) : walkStep s = s := by
  have hstart : atDescStart s = false := by simp [atDescStart, hf]
  have hk : keepDescBase s = s := by simp [keepDescBase, hstart]
  simp only [walkStep, hstart, hk, Bool.false_and, Bool.false_eq_true, if_false]
  rw [dmaRead_held _ _ s hd hg]

theorem walkBroken_eq_false (s : State) (hn : s.vqp.walkIdx.toNat < (servedQueue s).num.toNat)
    (hv : s.vqp.walkIdx ∉ s.vqp.visited) : walkBroken s = false := by
  simp [walkBroken, hn, hv]

theorem usedElemStep_held (s : State) (hd : s.vqp.dma = [])
    (hg : guestAdmits s.cfg (usedSlotAddr (servedQueue s)) 8 = false) : usedElemStep s = s := by
  rw [usedElemStep, dmaWrite_held _ _ s hd (by simpa [usedElement] using hg)]

/-- A held write of the used index leaves the index as it was (log 12). -/
theorem usedIdxStep_held (s : State) (hd : s.vqp.dma = [])
    (hg : guestAdmits s.cfg ((servedQueue s).deviceAddr.toNat + 2) 2 = false) : usedIdxStep s = s := by
  have hb : bumpUsedIdx s =
      setQueue s.vqp.queue { servedQueue s with usedIdx := (servedQueue s).usedIdx + 1 } s := by
    simp [bumpUsedIdx, hd]
  have haddr : (servedQueue (bumpUsedIdx s)).deviceAddr = (servedQueue s).deviceAddr := by
    rw [hb]; simp [servedQueue]
  dsimp only [usedIdxStep]
  rw [dmaWrite_held]
  · rw [hb]; simpa using hd
  · rw [haddr, leBytes_length, hb, setQueue_cfg]; exact hg

/-- Settles O50: the phases where an access is held, then one rule for each step of an access. -/
theorem dmaAccesses : Obligations.DmaAccesses := by
  refine ⟨?held, guestAdmits_of_beyond, ?readFirst, ?readNext, ?writeFirst, ?writeNext⟩
  case held =>
    rintro s q rfl hd (⟨hp, hs, hg⟩ | ⟨hp, hg⟩ | ⟨hp, hf, hn, hv, hg⟩ | ⟨hp, hf, hg⟩ | ⟨hp, hf, hg⟩ |
      ⟨hp, hf, hg⟩ | ⟨hp, hg⟩ | ⟨hp, hg⟩)
    · rw [vqpStep_readIdx s hp, readIdxStep_held s hd hs hg]
    · rw [vqpStep_readSlot s hp, readSlotStep_held s hd hg]
    · rw [vqpStep_walk s hp, walkStep_addr_held s hd hf (walkBroken_eq_false s hn hv) hg]
    · rw [vqpStep_walk s hp, walkStep_field_held s hd (by simp [hf]) (by rw [hf]; exact hg)]
    · rw [vqpStep_walk s hp, walkStep_field_held s hd (by simp [hf]) (by rw [hf]; exact hg)]
    · rw [vqpStep_walk s hp, walkStep_field_held s hd (by simp [hf]) (by rw [hf]; exact hg)]
    · rw [vqpStep_usedElem s hp, usedElemStep_held s hd hg]
    · rw [vqpStep_usedIdx s hp, usedIdxStep_held s hd hg]
  case readFirst =>
    intro s a n hd hg _
    refine ⟨fun ha => dmaRead_atomic a n s hd hg ((dmaAtomic_iff a n).2 ha), fun ha hn => ?_⟩
    exact dmaRead_first a n s hd hg (Bool.eq_false_iff.2 fun h => ha ((dmaAtomic_iff a n).1 h)) hn
  case readNext =>
    intro s a n hd
    refine ⟨fun hl => ?_, fun hl => ?_⟩ <;> rw [dmaRead_next a n s hd]
    · exact if_pos hl
    · exact if_neg (Nat.not_lt.2 hl)
  case writeFirst =>
    intro s a b bs hd hg
    refine ⟨fun ha => dmaWrite_atomic a (b :: bs) s hd hg ((dmaAtomic_iff _ _).2 ha), fun ha hbs => ?_⟩
    exact dmaWrite_first a b bs s hd hg (Bool.eq_false_iff.2 fun h => ha ((dmaAtomic_iff _ _).1 h)) hbs
  case writeNext =>
    intro s a bytes b bs hd
    refine ⟨fun hbs => ?_, fun hbs => ?_⟩ <;> rw [dmaWrite_next a bytes b bs s hd]
    · exact if_neg hbs
    · subst hbs; exact if_pos rfl

end Sys2Proof.Machine
end

section
/-! PROOFS. Decoding and encoding (O1 to O3): a well-formed instruction is what its encoding decodes to, and
the rows a command word, a request and a bus access can decode to. -/
namespace Sys2Proof.Laws.RoundTrip

/-- The rows of the opcode table, each by its own law. -/
theorem statement_of_instr : ∀ i : Instr, Statement i
  | .nop => nop
  | .eol => eol
  | .setReg sel val => setReg sel val
  | .fill => fill
  | .blit => blit
  | .cmdGetDisplayInfo h => cmdGetDisplayInfo h
  | .cmdResourceCreate2d h id format width height => cmdResourceCreate2d h id format width height
  | .cmdResourceUnref h id => cmdResourceUnref h id
  | .cmdSetScanout h r sc id => cmdSetScanout h r sc id
  | .cmdResourceFlush h r id => cmdResourceFlush h r id
  | .cmdTransferToHost2d h r off id => cmdTransferToHost2d h r off id
  | .cmdResourceAttachBacking h id n es => cmdResourceAttachBacking h id n es
  | .cmdResourceDetachBacking h id => cmdResourceDetachBacking h id
  | .cmdGetCapsetInfo h => cmdGetCapsetInfo h
  | .cmdGetCapset h => cmdGetCapset h
  | .cmdGetEdid h => cmdGetEdid h
  | .cmdResourceAssignUuid h => cmdResourceAssignUuid h
  | .cmdResourceCreateBlob h => cmdResourceCreateBlob h
  | .cmdSetScanoutBlob h => cmdSetScanoutBlob h
  | .cmdUpdateCursor h => cmdUpdateCursor h
  | .cmdMoveCursor h => cmdMoveCursor h
  | .cmd3dRange h low => cmd3dRange h low
  | .legReadFbAddr => legReadFbAddr
  | .legReadFbStride => legReadFbStride
  | .legReadDrawX => legReadDrawX
  | .legReadDrawY => legReadDrawY
  | .legReadDrawW => legReadDrawW
  | .legReadDrawH => legReadDrawH
  | .legReadFillColor => legReadFillColor
  | .legReadSrcAddr => legReadSrcAddr
  | .legReadSrcStride => legReadSrcStride
  | .legReadStencilKey => legReadStencilKey
  | .legReadAlphaMode => legReadAlphaMode
  | .legReadPixelFmt => legReadPixelFmt
  | .legReadStatus => legReadStatus
  | .legReadIrqEnable => legReadIrqEnable
  | .legReadFifoDataLo => legReadFifoDataLo
  | .legReadFifoPush => legReadFifoPush
  | .legReadCtrl => legReadCtrl
  | .legReadVqFaultCount => legReadVqFaultCount
  | .legWriteFbAddr d => legWriteFbAddr d
  | .legWriteFbStride d => legWriteFbStride d
  | .legWriteDrawX d => legWriteDrawX d
  | .legWriteDrawY d => legWriteDrawY d
  | .legWriteDrawW d => legWriteDrawW d
  | .legWriteDrawH d => legWriteDrawH d
  | .legWriteFillColor d => legWriteFillColor d
  | .legWriteSrcAddr d => legWriteSrcAddr d
  | .legWriteSrcStride d => legWriteSrcStride d
  | .legWriteStencilKey d => legWriteStencilKey d
  | .legWriteAlphaMode d => legWriteAlphaMode d
  | .legWritePixelFmt d => legWritePixelFmt d
  | .legWriteStatus d => legWriteStatus d
  | .legWriteIrqEnable d => legWriteIrqEnable d
  | .legWriteFifoDataLo d => legWriteFifoDataLo d
  | .legWriteFifoPush d => legWriteFifoPush d
  | .legWriteCtrl d => legWriteCtrl d
  | .legWriteVqFaultCount d => legWriteVqFaultCount d
  | .vioReadMagicValue => vioReadMagicValue
  | .vioReadVersion => vioReadVersion
  | .vioReadDeviceID => vioReadDeviceID
  | .vioReadVendorID => vioReadVendorID
  | .vioReadDeviceFeatures => vioReadDeviceFeatures
  | .vioReadQueueNumMax => vioReadQueueNumMax
  | .vioReadQueueReady => vioReadQueueReady
  | .vioReadInterruptStatus => vioReadInterruptStatus
  | .vioReadStatus => vioReadStatus
  | .vioReadConfigGeneration => vioReadConfigGeneration
  | .vioReadEventsRead => vioReadEventsRead
  | .vioReadNumScanouts => vioReadNumScanouts
  | .vioReadNumCapsets => vioReadNumCapsets
  | .vioWriteDeviceFeaturesSel d => vioWriteDeviceFeaturesSel d
  | .vioWriteDriverFeatures d => vioWriteDriverFeatures d
  | .vioWriteDriverFeaturesSel d => vioWriteDriverFeaturesSel d
  | .vioWriteQueueSel d => vioWriteQueueSel d
  | .vioWriteQueueNum d => vioWriteQueueNum d
  | .vioWriteQueueReady d => vioWriteQueueReady d
  | .vioWriteQueueNotify d => vioWriteQueueNotify d
  | .vioWriteInterruptACK d => vioWriteInterruptACK d
  | .vioWriteStatus d => vioWriteStatus d
  | .vioWriteQueueDescLow d => vioWriteQueueDescLow d
  | .vioWriteQueueDescHigh d => vioWriteQueueDescHigh d
  | .vioWriteQueueDriverLow d => vioWriteQueueDriverLow d
  | .vioWriteQueueDriverHigh d => vioWriteQueueDriverHigh d
  | .vioWriteQueueDeviceLow d => vioWriteQueueDeviceLow d
  | .vioWriteQueueDeviceHigh d => vioWriteQueueDeviceHigh d
  | .vioWriteEventsClear d => vioWriteEventsClear d
  | .vioOther off d => vioOther off d

end Sys2Proof.Laws.RoundTrip

namespace Sys2Proof

/-- Settles O1, row by row. -/
theorem decodeEncodeRoundTrip : Obligations.DecodeEncodeRoundTrip := Laws.RoundTrip.statement_of_instr

/-! ### Words and requests written out -/

/-- A carrier that is the encoding of a well-formed instruction decodes to it. -/
theorem decode_of_encode_eq {c : Carrier} {i : Instr} (hw : WellFormed i = true) (he : encode i = c) :
    decode c = .instr i :=
  he ▸ decodeEncodeRoundTrip i hw

/-- Settles O3: each carrier written out is the encoding of what it stands for. -/
theorem encodingsWrittenOut : Obligations.EncodingsWrittenOut :=
  ⟨decode_of_encode_eq rfl (by decide), decode_of_encode_eq rfl (by decide),
    decode_of_encode_eq rfl rfl, decode_of_encode_eq rfl rfl, decode_of_encode_eq rfl rfl,
    decode_of_encode_eq rfl rfl, decode_of_encode_eq (by decide) rfl,
    decode_of_encode_eq rfl (by decide)⟩

/-! ### Command words -/

/-- A command word without reserved bits is made of its other three fields (30_encoding.md R100). -/
theorem commandWord_fields (w : Word64) (hr : wordRsv w = 0) :
    commandWord (wordOpc w) (wordSel w) (wordVal w) = w := by
  have hw := w.isLt
  have hr : w.toNat / 2 ^ 32 % 2 ^ 16 = 0 := by
    simpa [wordRsv, Nat.shiftRight_eq_div_pow] using congrArg BitVec.toNat hr
  apply BitVec.eq_of_toNat_eq
  simp only [commandWord_toNat, wordOpc, wordSel, wordVal, BitVec.extractLsb'_toNat,
    Nat.shiftRight_eq_div_pow]
  omega

/-- What a command word that decodes holds in its fields (41_fifo_decoder.md R181). -/
theorem decode_command_inv (w : Word64) (i : Instr) (h : decode (.command w) = .instr i) :
    wordRsv w = 0 ∧
      (wordOpc w = 0x10 ∧ i = .setReg (wordSel w) (wordVal w) ∨
        (wordSel w = 0 ∧ wordVal w = 0) ∧
          (wordOpc w = 0x00 ∧ i = .nop ∨ wordOpc w = 0x01 ∧ i = .eol ∨ wordOpc w = 0x20 ∧ i = .fill ∨
            wordOpc w = 0x21 ∧ i = .blit)) := by
  simp only [decode, decodeCommand] at h
  split at h
  · cases h
  next hopc =>
  split at h
  · cases h
  next hrsv =>
  split at h
  · cases h
  next hzero =>
  have hempty : wordOpc w ≠ 0x10 → wordSel w = 0 ∧ wordVal w = 0 := by simpa using hzero
  have hlisted : wordOpc w ≠ 0x00 → wordOpc w ≠ 0x01 → wordOpc w ≠ 0x10 → wordOpc w ≠ 0x20 →
      wordOpc w = 0x21 := by simpa using hopc
  refine ⟨by simpa using hrsv, ?_⟩
  simp only [beq_iff_eq] at h
  split_ifs at h with hnop heol hset hfill <;> cases h
  · exact .inr ⟨hempty (by simp [hnop]), .inl ⟨hnop, rfl⟩⟩
  · exact .inr ⟨hempty (by simp [heol]), .inr (.inl ⟨heol, rfl⟩)⟩
  · exact .inl ⟨hset, rfl⟩
  · exact .inr ⟨hempty hset, .inr (.inr (.inl ⟨hfill, rfl⟩))⟩
  · exact .inr ⟨hempty hset, .inr (.inr (.inr ⟨hlisted hnop heol hset hfill, rfl⟩))⟩

/-- A command word is the encoding of what it decodes to. -/
theorem encode_of_decode_command (w : Word64) (i : Instr) (h : decode (.command w) = .instr i) :
    encode i = .command w := by
  obtain ⟨hrsv, hrow⟩ := decode_command_inv w i h
  rw [← commandWord_fields w hrsv]
  obtain ⟨hopc, rfl⟩ | ⟨⟨hsel, hval⟩, hrow⟩ := hrow
  · rw [hopc]; rfl
  · rw [hsel, hval]
    obtain ⟨hopc, rfl⟩ | ⟨hopc, rfl⟩ | ⟨hopc, rfl⟩ | ⟨hopc, rfl⟩ := hrow <;> rw [hopc] <;> rfl

/-! ### Bus accesses -/

/-- The rows a valid bus access can decode to: a row of its direction, or VIO_OTHER where no row lists
the offset (40_register_interface.md R140, 44_virtio_transport.md R260). -/
inductive AccessRow : BusAccess → Instr → Prop where
  | legRead (off : BitVec 12) (i : Instr) (h : (off, i) ∈ legReadRows) : AccessRow (.legRead off 4) i
  | legWrite (off : BitVec 12) (f : Word32 → Instr) (d : Word32) (h : (off, f) ∈ legWriteRows) :
    AccessRow (.legWrite off 4 d) (f d)
  | vioRead (off : BitVec 9) (i : Instr) (h : (off, i) ∈ vioReadRows) : AccessRow (.vioRead off 4) i
  | vioWrite (off : BitVec 9) (f : Word32 → Instr) (d : Word32) (h : (off, f) ∈ vioWriteRows) :
    AccessRow (.vioWrite off 4 d) (f d)
  | otherRead (off : BitVec 9) (ha : off.toNat % 4 = 0) (hn : vioReadRows.lookup off = none) :
    AccessRow (.vioRead off 4) (.vioOther off none)
  | otherWrite (off : BitVec 9) (d : Word32) (ha : off.toNat % 4 = 0)
      (hn : vioWriteRows.lookup off = none) : AccessRow (.vioWrite off 4 d) (.vioOther off (some d))

theorem accessRow_of_decode (a : BusAccess) (i : Instr) (h : decode (.access a) = .instr i) :
    AccessRow a i := by
  cases a <;> simp only [decode, decodeAccess] at h
  case legRead off n =>
    split at h
    · cases h
    next hn =>
    obtain rfl : n = 4 := by simpa using hn
    split at h <;> cases h
    next hl => exact .legRead off i (lookup_mem _ _ _ hl)
  case legWrite off n d =>
    split at h
    · cases h
    next hn =>
    obtain rfl : n = 4 := by simpa using hn
    split at h <;> cases h
    next f hl => exact .legWrite off f d (lookup_mem _ _ _ hl)
  case vioRead off n =>
    split at h
    · cases h
    next hn =>
    obtain ⟨rfl, ha⟩ : n = 4 ∧ off.toNat % 4 = 0 := by simpa using hn
    split at h <;> cases h
    next hl => exact .vioRead off i (lookup_mem _ _ _ hl)
    next hl => exact .otherRead off ha hl
  case vioWrite off n d =>
    split at h
    · cases h
    next hn =>
    obtain ⟨rfl, ha⟩ : n = 4 ∧ off.toNat % 4 = 0 := by simpa using hn
    split at h <;> cases h
    next f hl => exact .vioWrite off f d (lookup_mem _ _ _ hl)
    next hl => exact .otherWrite off d ha hl

/-! Each row of the four tables is encoded as an access to its offset, and is well-formed. -/

theorem legReadRows_encode : ∀ p ∈ legReadRows,
    encode p.2 = .access (.legRead p.1 4) ∧ WellFormed p.2 = true := by decide

theorem vioReadRows_encode : ∀ p ∈ vioReadRows,
    encode p.2 = .access (.vioRead p.1 4) ∧ WellFormed p.2 = true := by decide

theorem legWriteRows_encode (d : Word32) : ∀ p ∈ legWriteRows,
    encode (p.2 d) = .access (.legWrite p.1 4 d) ∧ WellFormed (p.2 d) = true := by
  simp [legWriteRows, encode, WellFormed]

theorem vioWriteRows_encode (d : Word32) : ∀ p ∈ vioWriteRows,
    encode (p.2 d) = .access (.vioWrite p.1 4 d) ∧ WellFormed (p.2 d) = true := by
  simp [vioWriteRows, encode, WellFormed]

/-- An offset without a row is not in the table's list of offsets. -/
theorem notMem_offsets_of_lookup_none {α β : Type} [BEq α] [LawfulBEq α] (k : α) (rows : List (α × β))
    (h : rows.lookup k = none) : k ∉ rows.map Prod.fst := by
  rw [List.lookup_eq_none_iff] at h
  intro hk
  obtain ⟨p, hp, rfl⟩ := List.mem_map.1 hk
  simpa using h p hp

/-- A row's access is the row's encoding, and the row is well-formed. -/
theorem AccessRow.encode_wellFormed {a : BusAccess} {i : Instr} (h : AccessRow a i) :
    encode i = .access a ∧ WellFormed i = true := by
  cases h with
  | legRead off i h => exact legReadRows_encode _ h
  | legWrite off f d h => exact legWriteRows_encode d _ h
  | vioRead off i h => exact vioReadRows_encode _ h
  | vioWrite off f d h => exact vioWriteRows_encode d _ h
  | otherRead off ha hn =>
    have hc : off ∉ vioReadOffsets := notMem_offsets_of_lookup_none off vioReadRows hn
    simp [encode, WellFormed, vioOtherOk, ha, hc]
  | otherWrite off d ha hn =>
    have hc : off ∉ vioWriteOffsets := notMem_offsets_of_lookup_none off vioWriteRows hn
    simp [encode, WellFormed, vioOtherOk, ha, hc]

/-! ### Well-formedness of what decodes -/

/-- Every native command is well-formed. -/
theorem wellFormed_of_source_fifo (i : Instr) (h : source i = .fifo) : WellFormed i = true := by
  cases i with
  | cmdResourceAttachBacking | vioOther => cases h
  | _ => rfl

/-- An attach request is read with no more entries than it announces (46_gpu_translator.md R351). -/
theorem attach_length_le (bs : List Byte) (h : CtrlHdr) (id n : Word32) (es : List BackingEntry)
    (hd : decode (.request bs) = .instr (.cmdResourceAttachBacking h id n es)) : es.length ≤ n.toNat := by
  have hne : ∀ t hd, decodeUnsupported t hd ≠ some (.cmdResourceAttachBacking h id n es) := by
    intro t hd
    unfold decodeUnsupported
    split
    case h_9 => split <;> simp
    all_goals simp
  obtain ⟨len, hrow, -, -⟩ := request_supported bs _ hd hne
  unfold decodeSupported at hrow
  split at hrow <;> cases hrow
  rw [decodeEntries_length _ _ _ (Nat.div_le_div_right (by simp))]
  exact Nat.min_le_left _ _

/-- A request decodes to a well-formed command: an attach is the only form with a condition. -/
theorem wellFormed_of_request (bs : List Byte) (i : Instr) (h : decode (.request bs) = .instr i) :
    WellFormed i = true := by
  cases i with
  | cmdResourceAttachBacking hd id n es => exact decide_eq_true (attach_length_le bs hd id n es h)
  | vioOther => cases source_of_request bs _ h
  | _ => rfl

/-- Settles O2, carrier by carrier. -/
theorem decodedReencodes : Obligations.DecodedReencodes := by
  refine ⟨?wellFormed, encode_of_decode_command,
    fun a i h => (accessRow_of_decode a i h).encode_wellFormed.1⟩
  rintro (w | bs | a) i h
  · exact wellFormed_of_source_fifo i (source_of_command w i h)
  · exact wellFormed_of_request bs i h
  · exact (accessRow_of_decode a i h).encode_wellFormed.2

end Sys2Proof
end

section
/-! PROOFS. The register interface (O6, O37 to O39): which accesses are valid, the legacy writes, the push
and CTRL, and a raised fault. -/
namespace Sys2Proof

/-! ### Valid accesses -/

/-- A table of rows has an entry exactly at the offsets it lists. -/
theorem exists_lookup_iff_mem_offsets {α β : Type} [BEq α] [LawfulBEq α] (k : α) (rows : List (α × β)) :
    (∃ v, rows.lookup k = some v) ↔ k ∈ rows.map Prod.fst := by
  constructor
  · rintro ⟨v, h⟩
    exact List.mem_map.2 ⟨(k, v), lookup_mem k v rows h, rfl⟩
  · intro h
    rw [← Option.isSome_iff_exists, Option.isSome_iff_ne_none]
    exact fun hn => notMem_offsets_of_lookup_none k rows hn h

/-- The offsets of the eighteen legacy registers are the word offsets up to 0x44
(40_register_interface.md R140). -/
theorem mem_legOffsets_iff (off : BitVec 12) :
    off ∈ (List.range 18).map (fun k => BitVec.ofNat 12 (4 * k)) ↔
      off.toNat % 4 = 0 ∧ off.toNat ≤ 0x44 := by
  simp only [List.mem_map, List.mem_range]
  constructor
  · rintro ⟨k, hk, rfl⟩
    rw [BitVec.toNat_ofNat]
    omega
  · rintro ⟨ha, hb⟩
    refine ⟨off.toNat / 4, by omega, ?_⟩
    rw [Nat.mul_div_cancel' (Nat.dvd_of_mod_eq_zero ha), BitVec.ofNat_toNat, BitVec.setWidth_eq]

theorem legReadRows_offsets :
    legReadRows.map Prod.fst = (List.range 18).map (fun k => BitVec.ofNat 12 (4 * k)) := by decide

theorem legWriteRows_offsets :
    legWriteRows.map Prod.fst = (List.range 18).map (fun k => BitVec.ofNat 12 (4 * k)) := by decide

theorem decode_legRead_iff (off : BitVec 12) (n : Nat) :
    (∃ i, decode (.access (.legRead off n)) = .instr i) ↔
      n = 4 ∧ ∃ i, legReadRows.lookup off = some i := by
  simp only [decode, decodeAccess]
  by_cases hn : n = 4
  · cases legReadRows.lookup off <;> simp [hn]
  · simp [hn]

theorem decode_legWrite_iff (off : BitVec 12) (n : Nat) (d : Word32) :
    (∃ i, decode (.access (.legWrite off n d)) = .instr i) ↔
      n = 4 ∧ ∃ f, legWriteRows.lookup off = some f := by
  simp only [decode, decodeAccess]
  by_cases hn : n = 4
  · cases legWriteRows.lookup off <;> simp [hn]
  · simp [hn]

/-- A legacy read is valid at width 4 and the eighteen word offsets (40_register_interface.md R140). -/
theorem legRead_valid_iff (off : BitVec 12) (n : Nat) :
    (∃ i, decode (.access (.legRead off n)) = .instr i) ↔
      n = 4 ∧ off.toNat % 4 = 0 ∧ off.toNat ≤ 0x44 := by
  rw [decode_legRead_iff, exists_lookup_iff_mem_offsets, legReadRows_offsets, mem_legOffsets_iff]

/-- So is a legacy write. -/
theorem legWrite_valid_iff (off : BitVec 12) (n : Nat) (d : Word32) :
    (∃ i, decode (.access (.legWrite off n d)) = .instr i) ↔
      n = 4 ∧ off.toNat % 4 = 0 ∧ off.toNat ≤ 0x44 := by
  rw [decode_legWrite_iff, exists_lookup_iff_mem_offsets, legWriteRows_offsets, mem_legOffsets_iff]

/-- A VirtIO read is valid at width 4 and every word offset: without a row it is VIO_OTHER
(44_virtio_transport.md R260). -/
theorem vioRead_valid_iff (off : BitVec 9) (n : Nat) :
    (∃ i, decode (.access (.vioRead off n)) = .instr i) ↔ n = 4 ∧ off.toNat % 4 = 0 := by
  simp only [decode, decodeAccess]
  by_cases hv : n = 4 ∧ off.toNat % 4 = 0
  · cases vioReadRows.lookup off <;> simp [hv]
  · simp [hv, ← not_and_or]

/-- So is a VirtIO write. -/
theorem vioWrite_valid_iff (off : BitVec 9) (n : Nat) (d : Word32) :
    (∃ i, decode (.access (.vioWrite off n d)) = .instr i) ↔ n = 4 ∧ off.toNat % 4 = 0 := by
  simp only [decode, decodeAccess]
  by_cases hv : n = 4 ∧ off.toNat % 4 = 0
  · cases vioWriteRows.lookup off <;> simp [hv]
  · simp [hv, ← not_and_or]

end Sys2Proof

namespace Sys2Proof.Machine

/-! ### The host's turn on a register access -/

/-- A valid access runs its row once it is taken from the host's operations. -/
theorem hostStep_access (s : State) (a : BusAccess) (rest : List HostOp) (i : Instr)
    (h : s.hostOps = .access a :: rest) (hd : decode (.access a) = .instr i) :
    hostStep s = exec i { s with hostOps := rest } := by
  simp only [hostStep, h, accessStep, fetchAccess, hd]

/-- An access that is not valid is answered ERR(InvalidRegister) (40_register_interface.md R140,
44_virtio_transport.md R260). -/
theorem hostStep_invalidAccess (s : State) (a : BusAccess) (rest : List HostOp)
    (h : s.hostOps = .access a :: rest) (hd : ∀ i, decode (.access a) ≠ .instr i) :
    hostStep s = .next (rejectAccess { s with hostOps := rest }) := by
  simp only [hostStep, h, accessStep, fetchAccess]
  split
  · next i hi => exact absurd hi (hd i)
  all_goals rfl

/-- Settles O6: validity by block and direction, then the answer to an access that is not valid. -/
theorem accessValidity : Obligations.AccessValidity :=
  ⟨fun off n => ⟨legRead_valid_iff off n, legWrite_valid_iff off n⟩,
    fun off n => ⟨vioRead_valid_iff off n, vioWrite_valid_iff off n⟩,
    fun a s rest h hd => ⟨hostStep_invalidAccess s a rest h hd, rfl⟩⟩

/-! ### Drawing registers -/

/-- A register reads as the value written, masked to its width (10_state.md R21,
40_register_interface.md R142). -/
theorem readReg_writeReg_same (r : RegId) (v : Word32) (g : Regs) :
    (readReg r (writeReg r v g)).toNat = v.toNat % 2 ^ regWidth r := by
  have hv := v.isLt
  cases r <;> simp only [readReg, writeReg, regWidth, BitVec.toNat_setWidth] <;> omega

/-- A register keeps its value when another one is written. -/
theorem readReg_writeReg_ne (q r : RegId) (v : Word32) (g : Regs) (h : r ≠ q) :
    readReg r (writeReg q v g) = readReg r g := by
  cases q <;> cases r <;> first | contradiction | rfl

theorem readReg_writeReg (q r : RegId) (v : Word32) (g : Regs) :
    (readReg r (writeReg q v g)).toNat =
      if r = q then v.toNat % 2 ^ regWidth r else (readReg r g).toNat := by
  split
  · next h => rw [h, readReg_writeReg_same]
  · next h => rw [readReg_writeReg_ne q r v g h]

/-! ### Legacy writes -/

theorem decode_legWrite_rows (d : Word32) :
    ((List.range 18).map fun k => decode (.access (.legWrite (BitVec.ofNat 12 (4 * k)) 4 d))) =
      [Instr.legWriteFbAddr d, .legWriteFbStride d, .legWriteDrawX d, .legWriteDrawY d, .legWriteDrawW d,
        .legWriteDrawH d, .legWriteFillColor d, .legWriteSrcAddr d, .legWriteSrcStride d,
        .legWriteStencilKey d, .legWriteAlphaMode d, .legWritePixelFmt d, .legWriteStatus d,
        .legWriteIrqEnable d, .legWriteFifoDataLo d, .legWriteFifoPush d, .legWriteCtrl d,
        .legWriteVqFaultCount d].map Decoded.instr := rfl

/-- A row that writes a drawing register stores the masked value in it and changes nothing else
(40_register_interface.md R142). -/
theorem exec_writeDrawing (i : Instr) (r : RegId) (d : Word32) (s : State)
    (h : exec i s = .next (writeDrawing r d s)) :
    ∃ g : Regs, exec i s = .next { s with regs := g, bus := .ok } ∧
      ∀ q : RegId, (readReg q g).toNat =
        if q = r then d.toNat % 2 ^ regWidth q else (readReg q s.regs).toNat :=
  ⟨writeReg r d s.regs, h, fun q => readReg_writeReg r q d s.regs⟩

/-- Settles O37: the offsets by decoding, a drawing register by the rule for a register write, the others
by their meaning. -/
theorem legacyRegisterWrites : Obligations.LegacyRegisterWrites := by
  intro s d
  refine ⟨decode_legWrite_rows d, ?drawing, ?irqEnable, rfl, rfl, rfl⟩
  case drawing =>
    have hrow (i : Instr) (r : RegId) := exec_writeDrawing i r d s
    simp only [List.forall_mem_cons]
    exact ⟨hrow _ _ rfl, hrow _ _ rfl, hrow _ _ rfl, hrow _ _ rfl, hrow _ _ rfl, hrow _ _ rfl,
      hrow _ _ rfl, hrow _ _ rfl, hrow _ _ rfl, hrow _ _ rfl, hrow _ _ rfl, hrow _ _ rfl,
      fun _ h => by cases h⟩
  case irqEnable =>
    have hmask : BitVec.ofNat 2 (d.toNat % 4) = d.setWidth 2 := by
      apply BitVec.eq_of_toNat_eq
      simp
    rw [hmask]
    rfl

/-! ### FIFO_PUSH -/

theorem legacyPush_blocked (d : Word32) (s : State) (h : pushBlocked s = true) :
    legacyPush d s = respond (.err .fifoFull) s :=
  ((legacyPush_cases d s).resolve_right (by simp [h])).2

theorem legacyPush_accepted (d : Word32) (s : State) (h : pushBlocked s = false) :
    legacyPush d s = respond .ok { pushFifo (d ++ s.loLatch) .legacy s with loLatch := 0 } :=
  ((legacyPush_cases d s).resolve_left (by simp [h])).2

/-- While the FIFO keeps its capacity, a push is turned away by the lock or by a full FIFO
(40_register_interface.md R144). -/
theorem pushBlocked_iff_full (s : State) (hf : s.fifo.length ≤ s.cfg.fifoDepth) :
    pushBlocked s = true ↔ s.lock = .heldVirtio ∨ s.fifo.length = s.cfg.fifoDepth := by
  simp only [pushBlocked, Bool.or_eq_true, beq_iff_eq, decide_eq_true_eq, hf.ge_iff_eq]

/-- The word of the written half and LO_LATCH as a number. -/
theorem halves_eq_ofNat (hi lo : Word32) : hi ++ lo = BitVec.ofNat 64 (hi.toNat * 2 ^ 32 + lo.toNat) := by
  rw [← app_toNat, BitVec.ofNat_toNat, BitVec.setWidth_eq]

/-- A word is its two halves (30_encoding.md R105). -/
theorem halves_append (w : Word64) : w.extractLsb' 32 32 ++ w.extractLsb' 0 32 = w := by
  have hw := w.isLt
  apply BitVec.eq_of_toNat_eq
  rw [app_toNat]
  simp only [BitVec.extractLsb'_toNat, Nat.shiftRight_eq_div_pow]
  omega

/-- A host write of FIFO_DATA_LO sets LO_LATCH (40_register_interface.md R143). -/
theorem hostStep_dataLo (s : State) (lo : Word32) (rest : List HostOp)
    (h : s.hostOps = .access (.legWrite 0x038 4 lo) :: rest) :
    hostStep s = .next (respond .ok { s with hostOps := rest, loLatch := lo }) :=
  hostStep_access s _ rest _ h rfl

/-- A host write of FIFO_PUSH, with a place left and the lock free, appends the word whose low half LO_LATCH
holds and clears the latch (40_register_interface.md R144). -/
theorem hostStep_push (s : State) (w : Word64) (rest : List HostOp)
    (h : s.hostOps = .access (.legWrite 0x03C 4 (w.extractLsb' 32 32)) :: rest)
    (hlo : s.loLatch = w.extractLsb' 0 32) (hl : s.lock = .free) (hf : s.fifo.length < s.cfg.fifoDepth) :
    hostStep s = .next (respond .ok { pushFifo w .legacy s with hostOps := rest, loLatch := 0 }) := by
  have hb : pushBlocked { s with hostOps := rest } = false := (pushBlocked_iff _).2 ⟨hl, hf⟩
  have hw : w.extractLsb' 32 32 ++ s.loLatch = w := by rw [hlo, halves_append]
  calc hostStep s
    _ = .next (legacyPush (w.extractLsb' 32 32) { s with hostOps := rest }) :=
      hostStep_access s _ rest _ h rfl
    _ = .next (respond .ok { pushFifo (w.extractLsb' 32 32 ++ s.loLatch) .legacy s with
          hostOps := rest, loLatch := 0 }) := congrArg _ (legacyPush_accepted _ _ hb)
    _ = _ := by rw [hw]

/-- Two turns of the host, one after the other. -/
theorem runAgents_host_host (s t u : State) (hst : hostStep s = .next t) (htu : hostStep t = .next u) :
    runAgents [.host, .host] s = .next u := by
  simp only [runAgents, agentStep, hst, htu]

/-- The two host writes of a push append the word they spell (30_encoding.md R105). -/
theorem runAgents_pushOps (s : State) (w : Word64) (rest : List HostOp)
    (ho : s.hostOps = pushOps w ++ rest) (hl : s.lock = .free) (hf : s.fifo.length < s.cfg.fifoDepth) :
    runAgents [.host, .host] s =
      .next (respond .ok { pushFifo w .legacy s with hostOps := rest, loLatch := 0 }) :=
  runAgents_host_host s _ _ (hostStep_dataLo s _ _ ho) (hostStep_push _ w rest rfl rfl hl hf)

/-- Settles O38: a push that is turned away, one that is accepted, and the two writes that spell one. -/
theorem fifoPush : Obligations.FifoPush := by
  refine ⟨fun s d hf => ⟨fun h => ?blocked, fun h => ?accepted⟩, runAgents_pushOps⟩
  case blocked =>
    exact congrArg _ (legacyPush_blocked d s ((pushBlocked_iff_full s hf).2 h))
  case accepted =>
    have hb : pushBlocked s = false := Bool.eq_false_iff.2 fun hb => h ((pushBlocked_iff_full s hf).1 hb)
    rw [← halves_eq_ofNat]
    exact congrArg _ (legacyPush_accepted d s hb)

/-! ### CTRL and faults -/

/-- CTRL as one update, each latch by its own bit (40_register_interface.md R146). -/
theorem ctrlWrite_eq (d : Word32) (s : State) :
    ctrlWrite d s =
      { s with
        fifo := if d.getLsbD 0 then s.fifo.filter (fun e => e.producer == .virtio) else s.fifo
        loLatch := if d.getLsbD 0 then 0 else s.loLatch
        done := if d.getLsbD 1 then false else s.done
        fault := if d.getLsbD 2 then false else s.fault
        faultCode := if d.getLsbD 2 then 0 else s.faultCode
        bus := .ok } := by
  unfold ctrlWrite
  cases d.getLsbD 0 <;> cases d.getLsbD 1 <;> cases d.getLsbD 2 <;> rfl

/-- A fault as one update (60_exceptions.md R403). -/
theorem raiseFault_eq (c : BitVec 8) (s : State) :
    raiseFault c s =
      { s with
        fault := true
        faultCode := if s.fault = false then c else s.faultCode
        out := if s.irqEnable.getLsbD 1 then s.out ++ [.eng] else s.out } := by
  unfold raiseFault
  cases s.fault <;> rfl

/-- Settles O39: CTRL by the bits it tests, and a fault as one update. -/
theorem controlAndFaults : Obligations.ControlAndFaults := by
  refine ⟨fun s d => ⟨ctrlWrite d s, rfl, ?_⟩, fun s c => raiseFault_eq c s⟩
  have h0 : d.getLsbD 0 = decide (d.toNat % 2 = 1) := by simpa using bit_mod d 0
  have h1 : d.getLsbD 1 = decide (d.toNat / 2 % 2 = 1) := bit_mod d 1
  have h2 : d.getLsbD 2 = decide (d.toNat / 4 % 2 = 1) := bit_mod d 2
  rw [ctrlWrite_eq, h0, h1, h2]
  refine ⟨rfl, ?_, ?_, ?_, ?_, ?_, ?_⟩ <;> intro h <;> simp [h]

end Sys2Proof.Machine
end

section
/-! PROOFS. The arbiter's invariant (O11): what it asks of each phase, then one lemma for each agent's
turn. -/
namespace Sys2Proof.Machine

/-! ### The invariant, phase by phase -/

/-- The lock may be free in every phase but those of the push, and at Acquire with a group to push
(41_fifo_decoder.md R172). -/
theorem arbiterOk_of_free (s : State) (hl : s.lock = .free)
    (hp : atArbiter s.vqp.phase = true → s.vqp.phase = .acquire ∧ s.vqp.group ≠ []) :
    arbiterOk s = true := by
  unfold arbiterOk
  cases h : s.vqp.phase <;> simp_all [atArbiter]

/-- The lock is free outside the push and Release (41_fifo_decoder.md R172). -/
theorem lock_free_of_arbiterOk (s : State) (hs : arbiterOk s = true)
    (h : s.vqp.phase ≠ .push ∧ s.vqp.phase ≠ .release) : s.lock = .free := by
  unfold arbiterOk at hs
  cases hp : s.vqp.phase <;> simp_all

theorem arbiterOk_acquire (s : State) (hs : arbiterOk s = true) (h : s.vqp.phase = .acquire) :
    s.vqp.group ≠ [] := by
  simp_all [arbiterOk]

theorem arbiterOk_push_iff (s : State) (h : s.vqp.phase = .push) :
    arbiterOk s = true ↔ s.lock = .heldVirtio ∧ s.vqp.group ≠ [] := by
  simp [arbiterOk, h]

theorem arbiterOk_release_iff (s : State) (h : s.vqp.phase = .release) :
    arbiterOk s = true ↔ s.lock = .heldVirtio ∧ s.vqp.group = [] := by
  simp [arbiterOk, h]

/-- The invariant speaks of the lock and the processor only. -/
theorem arbiterOk_of_eq (s t : State) (hs : arbiterOk s = true) (hl : t.lock = s.lock)
    (hv : t.vqp = s.vqp) : arbiterOk t = true := by
  unfold arbiterOk at hs ⊢
  rwa [hl, hv]

/-- A turn that keeps a free lock and leaves the processor away from the arbiter. -/
theorem arbiterOk_of_leaves (s t : State) (hs : arbiterOk s = true)
    (h : s.vqp.phase ≠ .push ∧ s.vqp.phase ≠ .release) (hl : t.lock = s.lock)
    (hp : atArbiter t.vqp.phase = false) : arbiterOk t = true :=
  arbiterOk_of_free t (hl.trans (lock_free_of_arbiterOk s hs h)) (by simp [hp])

/-! ### One lemma an effect -/

/-- A register access keeps the lock and the processor, or resets both (70_reset_and_hazards.md R441). -/
theorem accessEffect_arbiter (s u : State) (hu : AccessEffect s u) :
    (u.lock = s.lock ∧ u.vqp = s.vqp) ∨ (u.lock = .free ∧ u.vqp = Vqp.idle) := by
  cases hu with
  | reset => exact .inr ⟨rfl, rfl⟩
  | configure | enable | disable | notify => simp
  | _ => exact .inl ⟨rfl, rfl⟩

theorem hostEffect_arbiterOk (s t : State) (hs : arbiterOk s = true) (ht : HostEffect s t) :
    arbiterOk t = true := by
  cases ht with
  | access a rest h r u hu =>
    rcases accessEffect_arbiter { s with hostOps := rest } u hu with ⟨hl, hv⟩ | ⟨hl, hv⟩
    · exact arbiterOk_of_eq s _ hs hl hv
    · exact arbiterOk_of_free _ hl (by simp [hv, Vqp.idle, atArbiter])
  | _ => exact arbiterOk_of_eq s _ hs rfl rfl

/-- After TRANSLATE the processor stands at Acquire only with a group to push (45_virtqueue.md R306). -/
theorem phaseAfterTranslate_arbiter (g : List Word64) (p : Option StagingPlan)
    (h : atArbiter (phaseAfterTranslate g p) = true) :
    phaseAfterTranslate g p = .acquire ∧ g ≠ [] := by
  unfold phaseAfterTranslate at h ⊢
  cases p with
  | some p => cases h
  | none =>
    cases g with
    | nil => cases h
    | cons w ws => exact ⟨rfl, by simp⟩

theorem requestOutcome_arbiterOk (s t : State) (hl : s.lock = .free) (ht : RequestOutcome s t) :
    arbiterOk t = true := by
  obtain ⟨u, resp, group, plan, rfl, hu, -⟩ := ht
  refine arbiterOk_of_free _ ?_ (phaseAfterTranslate_arbiter group plan)
  cases hu <;> exact hl

/-- A staged byte leaves the processor in the copy, or where the copy's end leads. -/
theorem stageByte_arbiterOk (s : State) (p : StagingPlan) (b : Byte) (hl : s.lock = .free) :
    arbiterOk (stageByte p b s) = true := by
  refine arbiterOk_of_free _ hl ?_
  dsimp only [stageByte]
  split
  · simp [atArbiter]
  · exact phaseAfterStage_arbiter s.vqp.group

/-- A pushed word leaves the processor at the push with words left, or at Release with none
(41_fifo_decoder.md R173). -/
theorem pushed_arbiterOk (s : State) (w : Word64) (ws : List Word64) (hl : s.lock = .heldVirtio) :
    arbiterOk { pushFifo w .virtio s with
      vqp := { s.vqp with group := ws, phase := if ws.isEmpty then .release else .push } } = true := by
  cases ws with
  | nil => exact (arbiterOk_release_iff _ rfl).2 ⟨hl, rfl⟩
  | cons x xs => exact (arbiterOk_push_iff _ rfl).2 ⟨hl, List.cons_ne_nil x xs⟩

theorem vqpEffect_arbiterOk (s t : State) (hs : arbiterOk s = true) (ht : VqpEffect s t) :
    arbiterOk t = true := by
  have free (h : s.vqp.phase ≠ .push ∧ s.vqp.phase ≠ .release) := lock_free_of_arbiterOk s hs h
  cases ht with
  | hold => exact hs
  | position v h0 h1 =>
    exact arbiterOk_of_free _ (free (by constructor <;> intro h <;> simp [h, atArbiter] at h0)) h1
  | select q h =>
    exact arbiterOk_of_leaves s _ hs (by simp [h]) (setQueue_lock _ _ _) rfl
  | overrun h => exact arbiterOk_of_leaves s _ hs (by simp [h]) rfl rfl
  | malformed h v hp => exact arbiterOk_of_leaves s _ hs (by simp [h]) rfl (by simp [hp, atArbiter])
  | translate h t ht => exact requestOutcome_arbiterOk s t (free (by simp [h])) ht
  | stage p b h => exact stageByte_arbiterOk s p b (free (by simp [h]))
  | acquire h => exact (arbiterOk_push_iff _ rfl).2 ⟨rfl, arbiterOk_acquire s hs h⟩
  | push w ws h hg hl => exact pushed_arbiterOk s w ws hl
  | pushEnd h hg => exact absurd hg ((arbiterOk_push_iff s h).1 hs).2
  | release => exact arbiterOk_of_free _ rfl (by simp [atArbiter])
  | guestWrite q u a bytes v h hv =>
    refine arbiterOk_of_leaves s _ hs ?_ (setQueue_lock _ _ _) ?_
    · rcases h with h | h | h <;> simp [h]
    · rcases hv with h | h | h | h <;> simp [h, atArbiter]
  | notify h v hv =>
    refine arbiterOk_of_leaves s _ hs (by simp [h]) (by simp [entryDone]) ?_
    rcases hv with h | h <;> simp [h, atArbiter]

theorem stepEffect_arbiterOk (s t : State) (trn : Turn) (hs : arbiterOk s = true)
    (ht : StepEffect s trn t) : arbiterOk t = true := by
  cases ht with
  | powerOn => exact arbiterOk_of_free _ rfl (by simp [powerOn, State.reset, Vqp.idle, atArbiter])
  | host t h => exact hostEffect_arbiterOk s t hs h
  | parse t h => rw [parseEffect_frame s t h]; exact arbiterOk_of_eq s _ hs rfl rfl
  | head t h => rw [headEffect_frame s t h]; exact arbiterOk_of_eq s _ hs rfl rfl
  | vqp t h => exact vqpEffect_arbiterOk s t hs h
  | display => exact arbiterOk_of_eq s _ hs rfl rfl

/-- Settles O11: the lock and the processor's phase change together, at Acquire, Release and reset. -/
theorem arbiterInvariant : Obligations.ArbiterInvariant := by
  intro s t hs e
  exact stepEffect_arbiterOk (takeTurn s) t (nextTurn s) hs (step_effect s t e)

end Sys2Proof.Machine
end

section
/-! PROOFS. The FIFO (O16): what each agent's turn does to it. -/
namespace Sys2Proof.Machine

/-! ### Register accesses -/

theorem configureQueue_fifo (f : Queue → Queue) (s : State) : (configureQueue f s).fifo = s.fifo := by
  unfold configureQueue
  split
  · rfl
  · split
    · rfl
    · exact setQueue_fifo _ _ _

theorem queueReadyWrite_fifo (d : Word32) (s : State) : (queueReadyWrite d s).fifo = s.fifo := by
  unfold queueReadyWrite enableQueue disableQueue
  split
  · rfl
  · dsimp only
    split_ifs <;> simp

theorem queueNotify_fifo (d : Word32) (s : State) : (queueNotify d s).fifo = s.fifo := by
  unfold queueNotify
  split
  · rfl
  · split_ifs <;> simp

theorem driverFeaturesWrite_fifo (d : Word32) (s : State) :
    (driverFeaturesWrite d s).fifo = s.fifo := by
  unfold driverFeaturesWrite
  split_ifs <;> rfl

theorem statusWrite_fifo (d : Word32) (s : State) : (statusWrite d s).fifo = s.fifo := by
  unfold statusWrite
  dsimp only
  split_ifs <;> rfl

/-- Of the register accesses only FIFO_PUSH and CTRL touch the FIFO (40_register_interface.md R144,
R146). -/
theorem exec_access_fifo (i : Instr) (s t : State) (hi : source i = .access) (e : exec i s = .next t)
    (hpush : ∀ d, i ≠ .legWriteFifoPush d) (hctrl : ∀ d, i ≠ .legWriteCtrl d) : t.fifo = s.fifo := by
  cases i with
  | legWriteFifoPush d => exact absurd rfl (hpush d)
  | legWriteCtrl d => exact absurd rfl (hctrl d)
  | vioWriteDriverFeatures d => cases e; exact driverFeaturesWrite_fifo d s
  | vioWriteQueueReady d => cases e; exact queueReadyWrite_fifo d s
  | vioWriteQueueNotify d => cases e; exact queueNotify_fifo d s
  | vioWriteStatus d => cases e; exact statusWrite_fifo d s
  | vioWriteQueueNum _ | vioWriteQueueDescLow _ | vioWriteQueueDescHigh _ | vioWriteQueueDriverLow _
  | vioWriteQueueDriverHigh _ | vioWriteQueueDeviceLow _ | vioWriteQueueDeviceHigh _ =>
    cases e; exact configureQueue_fifo _ s
  | vioOther off data => cases data <;> cases e <;> rfl
  | nop | eol | setReg _ _ | fill | blit => cases hi
  | cmdGetDisplayInfo _ | cmdResourceCreate2d _ _ _ _ _ | cmdResourceUnref _ _
  | cmdSetScanout _ _ _ _ | cmdResourceFlush _ _ _ | cmdTransferToHost2d _ _ _ _
  | cmdResourceAttachBacking _ _ _ _ | cmdResourceDetachBacking _ _ | cmdGetCapsetInfo _
  | cmdGetCapset _ | cmdGetEdid _ | cmdResourceAssignUuid _ | cmdResourceCreateBlob _
  | cmdSetScanoutBlob _ | cmdUpdateCursor _ | cmdMoveCursor _ | cmd3dRange _ _ => cases hi
  | _ => cases e; rfl

/-! ### What each agent may do to the FIFO -/

/-- A step's effect on the FIFO, by the agent whose turn it is (41_fifo_decoder.md R170, R171). -/
inductive FifoEffect (s t : State) : Agent → Prop where
  | keep (a : Agent) (h : t.fifo = s.fifo) : FifoEffect s t a
  | pushLegacy (d : Word32) (rest : List HostOp) (w : Word64)
      (ho : s.hostOps = .access (.legWrite 0x03C 4 d) :: rest) (hb : pushBlocked s = false)
      (h : t.fifo = s.fifo ++ [{ word := w, producer := .legacy }]) : FifoEffect s t .host
  | flush (d : Word32) (rest : List HostOp) (ho : s.hostOps = .access (.legWrite 0x040 4 d) :: rest)
      (hd : d.getLsbD 0 = true) (h : t.fifo = s.fifo.filter fun e => e.producer == .virtio) :
      FifoEffect s t .host
  | pushVirtio (w : Word64) (hl : s.lock = .heldVirtio) (hf : s.fifo.length < s.cfg.fifoDepth)
      (h : t.fifo = s.fifo ++ [{ word := w, producer := .virtio }]) : FifoEffect s t .vqp
  | pop (e : FifoEntry) (h : s.fifo = e :: t.fifo) : FifoEffect s t .parse

/-- FIFO_PUSH and CTRL are the accesses their encodings say. -/
theorem access_fifoEffect (s t : State) (a : BusAccess) (rest : List HostOp) (i : Instr)
    (ho : s.hostOps = .access a :: rest) (hd : decode (.access a) = .instr i)
    (e : exec i { s with hostOps := rest } = .next t) : FifoEffect s t .host := by
  have ha : encode i = .access a := (accessRow_of_decode a i hd).encode_wellFormed.1
  by_cases hpush : ∃ d, i = .legWriteFifoPush d
  · obtain ⟨d, rfl⟩ := hpush
    cases ha
    cases e
    rcases legacyPush_cases d { s with hostOps := rest } with ⟨-, hp⟩ | ⟨hb, hp⟩ <;> rw [hp]
    · exact .keep _ rfl
    · exact .pushLegacy d rest _ ho hb rfl
  by_cases hctrl : ∃ d, i = .legWriteCtrl d
  · obtain ⟨d, rfl⟩ := hctrl
    cases ha
    cases e
    rw [ctrlWrite_eq]
    cases h0 : d.getLsbD 0 with
    | true => exact .flush d rest ho h0 rfl
    | false => exact .keep _ rfl
  exact .keep _ (exec_access_fifo i { s with hostOps := rest } t (source_of_access a i hd) e
    (fun d h => hpush ⟨d, h⟩) (fun d h => hctrl ⟨d, h⟩))

theorem host_fifoEffect (s t : State) (e : hostStep s = .next t) : FifoEffect s t .host := by
  obtain ⟨u, hu, ht⟩ := hostStep_effect s
  obtain rfl : u = t := by rw [hu] at e; cases e; rfl
  cases ht with
  | access a rest ho r u hu' =>
    by_cases hd : ∃ i, decode (.access a) = .instr i
    · obtain ⟨i, hd⟩ := hd
      exact access_fifoEffect s _ a rest i ho hd (by rw [← hostStep_access s a rest i ho hd, hu])
    · rw [hostStep_invalidAccess s a rest ho (fun i h => hd ⟨i, h⟩)] at e
      exact .keep _ (by rw [← Host.Outcome.next.inj e]; rfl)
  | _ => exact .keep _ rfl

/-- A command word that runs is consumed (41_fifo_decoder.md R180). -/
theorem commandEffect_fifo (s t : State) (ht : CommandEffect s t) : t.fifo = s.fifo.tail := by
  cases ht <;> rfl

/-- Parse consumes the oldest word when it is enabled (41_fifo_decoder.md R180, R184). -/
theorem parseEffect_fifo (s t : State) (ht : ParseEffect s t) (h : parseEnabled s = true) :
    t.fifo = s.fifo.tail := by
  cases ht with
  | idle h' => rw [h] at h'; cases h'
  | invalid => rfl
  | command _ t ht => exact commandEffect_fifo s t ht

theorem parse_fifoEffect (s t : State) (ht : ParseEffect s t) : FifoEffect s t .parse := by
  cases h : parseEnabled s with
  | true =>
    have hne : s.fifo ≠ [] := ((parseEnabled_iff s).1 h).1
    refine .pop (s.fifo.head hne) ?_
    rw [parseEffect_fifo s t ht h, List.cons_head_tail]
  | false =>
    cases ht with
    | idle => exact .keep _ rfl
    | invalid h' | command h' => rw [h] at h'; cases h'

/-- The processor appends with the lock held (41_fifo_decoder.md R173). -/
theorem vqp_fifoEffect (s t : State) (ht : VqpEffect s t) : FifoEffect s t .vqp := by
  cases ht with
  | push w ws h hg hl hf => exact .pushVirtio w hl hf rfl
  | select | guestWrite => exact .keep _ (setQueue_fifo _ _ _)
  | translate h t ht => rw [requestOutcome_frame s t ht]; exact .keep _ rfl
  | notify => exact .keep _ (by simp [entryDone])
  | _ => exact .keep _ rfl

theorem agentStep_fifoEffect (a : Agent) (s t : State) (e : agentStep a s = .next t) :
    FifoEffect s t a := by
  have ht := agentStep_effect a s t e
  cases a with
  | host => exact host_fifoEffect s t e
  | parse => cases ht with | parse _ h => exact parse_fifoEffect s t h
  | head => cases ht with | head _ h => rw [headEffect_frame s t h]; exact .keep _ rfl
  | vqp => cases ht with | vqp _ h => exact vqp_fifoEffect s t h
  | display x y => cases ht; exact .keep _ rfl

theorem step_agent (s : State) (a : Agent) (h : nextTurn s = .agent a) :
    step s = agentStep a (takeTurn s) := by
  rw [step, h]; rfl

/-- Settles O16: each agent's effect on the FIFO is one clause of the statement. -/
theorem fifoDiscipline : Obligations.FifoDiscipline := by
  intro s t e hne
  cases htrn : nextTurn s with
  | powerOn => exact absurd htrn hne
  | agent a =>
    rw [step_agent s a htrn] at e
    cases agentStep_fifoEffect a (takeTurn s) t e with
    | keep a h => exact .inl h
    | pushLegacy d rest w ho hb h =>
      obtain ⟨hl, hf⟩ := (pushBlocked_iff _).1 hb
      exact .inr (.inl ⟨rfl, hl, hf, ⟨d, rest, ho⟩, w, h⟩)
    | pushVirtio w hl hf h => exact .inr (.inr (.inl ⟨rfl, hl, hf, w, h⟩))
    | pop entry h => exact .inr (.inr (.inr (.inl ⟨rfl, entry, h⟩)))
    | flush d rest ho hd h => exact .inr (.inr (.inr (.inr ⟨rfl, ⟨d, rest, ho, hd⟩, h⟩)))

end Sys2Proof.Machine
end

section
/-! PROOFS. The pipeline (O32, O34, O35): retirement, the work that is left, and that its turns alone drain
the FIFO and the in-flight list. -/
namespace Sys2Proof.Machine

/-! ### The turn of the head -/

theorem headStep_eol (s : State) (op : Operation) (rest : List Operation)
    (h : s.inflight = op :: rest) (hk : op.kind = .eol) : headStep s = .next (retireEol rest s) := by
  simp only [headStep, h, hk, if_true]

theorem headStep_pixel (s : State) (op : Operation) (rest : List Operation)
    (h : s.inflight = op :: rest) (hk : op.kind ≠ .eol) (hn : op.k < pixelCount op.snap) :
    headStep s = pixelStep op rest s := by
  simp only [headStep, h, if_neg hk, if_pos hn]

theorem headStep_retireDraw (s : State) (op : Operation) (rest : List Operation)
    (h : s.inflight = op :: rest) (hk : op.kind ≠ .eol) (hn : pixelCount op.snap ≤ op.k) :
    headStep s = .next (retireDraw rest s) := by
  simp only [headStep, h, if_neg hk, if_neg (Nat.not_lt.2 hn)]

theorem headStep_idle (s : State) (h : s.inflight = []) : headStep s = .next s := by
  simp only [headStep, h]

/-- Settles O32: an EOL retires with DONE; a draw does when nothing is queued or in flight behind it. -/
theorem retireSteps : Obligations.RetireSteps := by
  intro s op rest h
  refine ⟨headStep_eol s op rest h, fun hk hn => ?_⟩
  have hkind : op.kind ≠ .eol := by rcases hk with hk | hk <;> simp [hk]
  rw [headStep_retireDraw s op rest h hkind hn.ge]
  refine ⟨fun hlast => ?_, fun hbehind => ?_⟩ <;> unfold retireDraw
  · rw [if_pos (by simp [hlast])]; rfl
  · rw [if_neg (by simpa using hbehind)]

/-! ### Work left -/

/-- The work left for all operations in flight. -/
def workLeft (ops : List Operation) : Nat := (ops.map operationWork).sum

theorem workLeft_cons (op : Operation) (ops : List Operation) :
    workLeft (op :: ops) = operationWork op + workLeft ops := List.sum_cons

/-- Every operation takes at least its retirement. -/
theorem operationWork_pos (op : Operation) : 0 < operationWork op := by
  unfold operationWork
  split <;> omega

theorem operationWork_draw (op : Operation) (hk : op.kind ≠ .eol) :
    operationWork op = pixelCount op.snap - op.k + 1 := if_neg hk

/-- A processed pixel is one turn less (43_draw.md R213). -/
theorem operationWork_nextPixel (op : Operation) (hk : op.kind ≠ .eol)
    (hn : op.k < pixelCount op.snap) : operationWork (nextPixel op) < operationWork op := by
  rw [operationWork_draw op hk, operationWork_draw (nextPixel op) hk]
  dsimp only [nextPixel]
  omega

theorem workLeft_taintOps (a n : Nat) (ops : List Operation) :
    workLeft (taintOps a n ops) = workLeft ops := by
  unfold workLeft taintOps
  rw [List.map_map]
  rfl

theorem retireDraw_inflight (rest : List Operation) (s : State) :
    (retireDraw rest s).inflight = rest := by
  unfold retireDraw
  split <;> rfl

/-- A turn of a head makes the work left smaller (41_fifo_decoder.md R190). -/
theorem headEffect_workLeft (s t : State) (ht : HeadEffect s t) (hne : s.inflight ≠ []) :
    workLeft t.inflight < workLeft s.inflight := by
  cases ht with
  | idle h => exact absurd h hne
  | skip op rest h hk hn =>
    have := operationWork_nextPixel op hk hn
    simpa only [h, workLeft_cons, Nat.add_lt_add_iff_right] using this
  | write op rest h hk hn =>
    have := operationWork_nextPixel op hk hn
    simpa only [writePixel, h, workLeft_cons, workLeft_taintOps, Nat.add_lt_add_iff_right] using this
  | retireEol op rest h =>
    rw [h, workLeft_cons]
    exact Nat.lt_add_of_pos_left (operationWork_pos op)
  | retireDraw op rest h =>
    rw [h, workLeft_cons, retireDraw_inflight]
    exact Nat.lt_add_of_pos_left (operationWork_pos op)

/-! ### Progress -/

theorem headEffect_fifo (s t : State) (ht : HeadEffect s t) : t.fifo = s.fifo := by
  rw [headEffect_frame s t ht]

/-- A draw in bounds reads and writes its pixels inside VRAM (43_draw.md R211). -/
theorem pixelInVram_of_operationOk (s : State) (op : Operation)
    (h : operationOk s.cfg.vramSize op = true) (hk : op.kind ≠ .eol)
    (hn : op.k < pixelCount op.snap) : pixelInVram s op = true := by
  simp only [operationOk, Bool.and_eq_true, Bool.or_eq_true, beq_iff_eq, hk, false_or] at h
  obtain ⟨hdst, hsrc⟩ := drawInBounds_spec op.kind op.snap _ h.2.1 op.k hn
  have hblit : op.kind ≠ .blit ∨ srcAddr op.snap op.k + bytesPerPixel op.snap.pixelFmt ≤
      s.cfg.vramSize := not_or_of_imp hsrc
  simpa [pixelInVram, vramInRange, hdst] using hblit

/-- The turn of the head never stops in a state that keeps the engine's invariant. -/
theorem headStep_next (s : State) (hs : engineOk s = true) : ∃ t, headStep s = .next t := by
  cases h : s.inflight with
  | nil => exact ⟨s, headStep_idle s h⟩
  | cons op rest =>
    by_cases hk : op.kind = .eol
    · exact ⟨_, headStep_eol s op rest h hk⟩
    rcases Nat.lt_or_ge op.k (pixelCount op.snap) with hn | hn
    · have hv := pixelInVram_of_operationOk s op (engineOk_head s op rest hs h).1 hk hn
      rw [headStep_pixel s op rest h hk hn, pixelStep, if_pos hv]
      dsimp only
      split <;> exact ⟨_, rfl⟩
    · exact ⟨_, headStep_retireDraw s op rest h hk hn⟩

theorem pipeDepth_pos (p : Params) (h : p.ok = true) : 0 < p.pipeDepth := by
  simp only [Params.ok, Bool.and_eq_true, decide_eq_true_eq] at h
  omega

/-- Parse is enabled while a word is queued and nothing is in flight (41_fifo_decoder.md R190). -/
theorem parseEnabled_of_inflight_nil (s : State) (hc : s.cfg.ok = true) (hi : s.inflight = [])
    (hf : s.fifo ≠ []) : parseEnabled s = true :=
  (parseEnabled_iff s).2 ⟨hf, by rw [hi]; exact pipeDepth_pos s.cfg hc⟩

/-- A turn of the head with something in flight: the FIFO stays and the work left gets smaller. -/
theorem head_progress (s : State) (hs : engineOk s = true) (hi : s.inflight ≠ []) :
    ∃ t, headStep s = .next t ∧ t.fifo = s.fifo ∧ workLeft t.inflight < workLeft s.inflight := by
  obtain ⟨t, e⟩ := headStep_next s hs
  have ht := headStep_effect s t e
  exact ⟨t, e, headEffect_fifo s t ht, headEffect_workLeft s t ht hi⟩

/-- A turn of an enabled Parse makes the FIFO shorter. -/
theorem parse_progress (s : State) (h : parseEnabled s = true) :
    ∃ t, parseStep s = .next t ∧ t.fifo = s.fifo.tail ∧ t.fifo.length < s.fifo.length := by
  obtain ⟨t, e, ht⟩ := parseStep_effect s
  have hf := parseEffect_fifo s t ht h
  refine ⟨t, e, hf, ?_⟩
  rw [hf, List.length_tail]
  exact Nat.sub_one_lt (List.length_pos_iff.2 ((parseEnabled_iff s).1 h).1).ne'

/-- Settles O34: the head's turn by the work left, Parse's by the length of the FIFO. -/
theorem pipelineProgress : Obligations.PipelineProgress := by
  intro s hc hs
  exact ⟨head_progress s hs, parseEnabled_of_inflight_nil s hc, parse_progress s⟩

/-! ### Runs of the pipeline -/

/-- Turns of the pipeline alone lead from `s` to `t`. -/
def PipelineReaches (s t : State) : Prop :=
  ∃ l : List Agent, (∀ a ∈ l, a = .parse ∨ a = .head) ∧ runAgents l s = .next t

theorem PipelineReaches.refl (s : State) : PipelineReaches s s := ⟨[], by simp, rfl⟩

theorem PipelineReaches.cons {s t u : State} {a : Agent} (ha : a = .parse ∨ a = .head)
    (e : agentStep a s = .next t) (h : PipelineReaches t u) : PipelineReaches s u := by
  obtain ⟨l, hl, hr⟩ := h
  refine ⟨a :: l, List.forall_mem_cons.2 ⟨ha, hl⟩, ?_⟩
  simpa only [runAgents, e] using hr

/-- What a turn of the pipeline keeps for the next one. -/
theorem agentStep_keeps_engineOk (a : Agent) (s t : State) (hs : engineOk s = true)
    (e : agentStep a s = .next t) : t.cfg = s.cfg ∧ engineOk t = true :=
  have ht := agentStep_effect a s t e
  ⟨stepEffect_cfg s t _ ht, stepEffect_engineOk s t _ hs ht⟩

/-- From every state that keeps the engine's invariant the pipeline empties the FIFO and the in-flight
list: first what is in flight by turns of the head, then the next word by Parse (41_fifo_decoder.md
R190). -/
theorem pipeline_drains (s : State) (hc : s.cfg.ok = true) (hs : engineOk s = true) :
    ∃ t, PipelineReaches s t ∧ t.fifo = [] ∧ t.inflight = [] := by
  by_cases hi : s.inflight = []
  · by_cases hf : s.fifo = []
    · exact ⟨s, .refl s, hf, hi⟩
    · obtain ⟨t, e, -, hlt⟩ := parse_progress s (parseEnabled_of_inflight_nil s hc hi hf)
      obtain ⟨hcfg, hok⟩ := agentStep_keeps_engineOk .parse s t hs e
      obtain ⟨u, hu, hempty⟩ := pipeline_drains t (hcfg ▸ hc) hok
      exact ⟨u, .cons (.inl rfl) e hu, hempty⟩
  · obtain ⟨t, e, hfifo, hlt⟩ := head_progress s hs hi
    obtain ⟨hcfg, hok⟩ := agentStep_keeps_engineOk .head s t hs e
    obtain ⟨u, hu, hempty⟩ := pipeline_drains t (hcfg ▸ hc) hok
    exact ⟨u, .cons (.inr rfl) e hu, hempty⟩
termination_by (s.fifo.length, workLeft s.inflight)
decreasing_by
  · exact Prod.Lex.left _ _ hlt
  · rw [hfifo]; exact Prod.Lex.right _ hlt

/-! ### Final states -/

theorem isFinal_iff (s : State) :
    isFinal s = true ↔ s.fifo = [] ∧ s.inflight = [] ∧ s.vqp.phase = .idle ∧ s.lock = .free ∧
      ¬(s.q0.pending = true ∧ serviceable s s.q0 = true) ∧
      ¬(s.q1.pending = true ∧ serviceable s s.q1 = true) ∧ s.hostOps = [] := by
  simp only [isFinal, Bool.and_eq_true, Bool.not_eq_true', Bool.eq_false_iff, List.isEmpty_iff,
    beq_iff_eq, ne_eq, and_assoc]

theorem hostStep_idle (s : State) (h : s.hostOps = []) : hostStep s = .next s := by
  simp only [hostStep, h]

theorem parseStep_idle (s : State) (h : parseEnabled s = false) : parseStep s = .next s := by
  simp [parseStep, h]

/-- An idle processor without a pending queue that it can serve has no step (45_virtqueue.md R311). -/
theorem vqpStep_idle (s : State) (h : s.vqp.phase = .idle)
    (h0 : ¬(s.q0.pending = true ∧ serviceable s s.q0 = true))
    (h1 : ¬(s.q1.pending = true ∧ serviceable s s.q1 = true)) : vqpStep s = .next s := by
  rw [vqpStep_phase s (by simp [h])]
  simp only [vqpPhaseStep, h, selectStep, Bool.and_eq_true, if_neg h0, if_neg h1]

/-- In a final state neither the host nor an agent of the block has a step (70_reset_and_hazards.md
R446). -/
theorem agentStep_of_isFinal (s : State) (h : isFinal s = true) :
    ∀ a ∈ [Agent.host, .parse, .head, .vqp], agentStep a s = .next s := by
  obtain ⟨hfifo, hinflight, hphase, -, h0, h1, hops⟩ := (isFinal_iff s).1 h
  simp only [List.forall_mem_cons]
  exact ⟨hostStep_idle s hops, parseStep_idle s (by simp [parseEnabled, hfifo]),
    headStep_idle s hinflight, vqpStep_idle s hphase h0 h1, by simp⟩

/-- Settles O35: the drain by its measure, final states by their definition. -/
theorem pipelineDrains : Obligations.PipelineDrains := by
  refine ⟨fun s hc hs => ?_, fun s => ⟨isFinal_iff s, agentStep_of_isFinal s⟩⟩
  obtain ⟨t, ⟨l, hl, hr⟩, hempty⟩ := pipeline_drains s hc hs
  exact ⟨l, t, hl, hr, hempty⟩

end Sys2Proof.Machine
end

section
/-! PROOFS. What an instruction leaves unchanged (O21), by the carrier it comes from. -/
namespace Sys2Proof.Machine

/-- A command word is consumed, and writes the registers, the in-flight list, the fault and the pulses
(41_fifo_decoder.md R180). -/
theorem commandEffect_frame (s t : State) (ht : CommandEffect s t) :
    t = { s with regs := t.regs, fifo := s.fifo.tail, inflight := t.inflight, fault := t.fault,
                 faultCode := t.faultCode, out := t.out } := by
  cases ht <;> rfl

/-- Replacing a queue writes the two queues only. -/
theorem setQueue_frame (q : QueueId) (v : Queue) (s : State) :
    setQueue q v s = { s with q0 := (setQueue q v s).q0, q1 := (setQueue q v s).q1 } := by
  cases q <;> rfl

/-- A register access leaves the in-flight list, both memories, the count of malformed chains and what is
not the block's (40_register_interface.md R140, 44_virtio_transport.md R260). -/
theorem accessEffect_unwritten (s u : State) (hu : AccessEffect s u) :
    u = { s with regs := u.regs, done := u.done, fault := u.fault, faultCode := u.faultCode,
                 irqEnable := u.irqEnable, loLatch := u.loLatch, fifo := u.fifo, lock := u.lock,
                 vio := u.vio, q0 := u.q0, q1 := u.q1, vqp := u.vqp, resources := u.resources,
                 scanout := u.scanout, out := u.out } := by
  cases hu with
  | configure | enable | disable | notify => rw [setQueue_frame]
  | _ => rfl

theorem respond_accessEffect_frame (r : BusResponse) (s u : State) (hu : AccessEffect s u) :
    respond r u =
      { s with regs := u.regs, done := u.done, fault := u.fault, faultCode := u.faultCode,
               irqEnable := u.irqEnable, loLatch := u.loLatch, fifo := u.fifo, lock := u.lock,
               vio := u.vio, q0 := u.q0, q1 := u.q1, vqp := u.vqp, resources := u.resources,
               scanout := u.scanout, out := u.out, bus := r } :=
  congrArg (respond r) (accessEffect_unwritten s u hu)

/-- Every byte of both memories reads as before. -/
theorem bytes_of_keeps (s t : State) (hv : KeepsVram s t) (hg : t.guest = s.guest) (a : Nat) :
    vramByte t a = vramByte s a ∧ guestByte t a = guestByte s a :=
  ⟨vramByte_of_keeps s t hv a, by simp only [guestByte, hg]⟩

/-- What an instruction that runs has done, by its carrier. -/
theorem exec_cases (i : Instr) (s t : State) (e : exec i s = .next t) :
    (source i = .fifo ∧ CommandEffect s t) ∨ (source i = .request ∧ RequestOutcome s t) ∨
      (source i = .access ∧ ∃ r u, t = respond r u ∧ AccessEffect s u) := by
  cases hi : source i with
  | fifo =>
    obtain ⟨t', e', ht⟩ := exec_command i s hi
    exact .inl ⟨rfl, Host.Outcome.next.inj (e'.symm.trans e) ▸ ht⟩
  | request =>
    obtain ⟨t', e', ht⟩ := exec_request i s hi
    exact .inr (.inl ⟨rfl, Host.Outcome.next.inj (e'.symm.trans e) ▸ ht⟩)
  | access =>
    obtain ⟨r, u, e', hu⟩ := exec_access i s hi
    exact .inr (.inr ⟨rfl, r, u, Host.Outcome.next.inj (e.symm.trans e'), hu⟩)

/-- No instruction stores in a memory: a draw's pixels, the staging copy and the responses are later
steps. -/
theorem exec_memories (i : Instr) (s t : State) (e : exec i s = .next t) :
    KeepsVram s t ∧ t.guest = s.guest := by
  rcases exec_cases i s t e with ⟨-, ht⟩ | ⟨-, ht⟩ | ⟨-, r, u, rfl, hu⟩
  · rw [commandEffect_frame s t ht]; exact ⟨⟨rfl, rfl⟩, rfl⟩
  · rw [requestOutcome_frame s t ht]; exact ⟨⟨rfl, rfl⟩, rfl⟩
  · exact accessEffect_memories s u hu

/-- Settles O21: the two memories, then the frame of each carrier. -/
theorem execFrames : Obligations.ExecFrames := by
  intro i s t e
  obtain ⟨hv, hg⟩ := exec_memories i s t e
  refine ⟨bytes_of_keeps s t hv hg, ?_⟩
  rcases exec_cases i s t e with ⟨hi, ht⟩ | ⟨hi, ht⟩ | ⟨hi, r, u, rfl, hu⟩ <;> rw [hi]
  · exact ⟨fun _ => commandEffect_frame s t ht, nofun, nofun⟩
  · exact ⟨nofun, fun _ => requestOutcome_frame s t ht, nofun⟩
  · exact ⟨nofun, nofun, fun _ => respond_accessEffect_frame r s u hu⟩

end Sys2Proof.Machine
end

section
/-! PROOFS. Command words and the step (O4, O7, O8, O22, O23, O54): decoding by the four fields, what a
turn fetches and runs, and the arbiter's steps. -/
namespace Sys2Proof

/-! ### The fields of a command word as numbers -/

theorem wordOpc_eq_iff (w : Word64) (n : BitVec 8) : wordOpc w = n ↔ w.toNat / 2 ^ 56 = n.toNat := by
  have hw := w.isLt
  rw [← BitVec.toNat_inj, wordOpc, BitVec.extractLsb'_toNat, Nat.shiftRight_eq_div_pow]
  omega

theorem wordSel_eq (w : Word64) : wordSel w = BitVec.ofNat 8 (w.toNat / 2 ^ 48 % 2 ^ 8) := by
  apply BitVec.eq_of_toNat_eq
  simp [wordSel, BitVec.extractLsb'_toNat, Nat.shiftRight_eq_div_pow]

theorem wordVal_eq (w : Word64) : wordVal w = BitVec.ofNat 32 (w.toNat % 2 ^ 32) := by
  apply BitVec.eq_of_toNat_eq
  simp [wordVal, BitVec.extractLsb'_toNat]

theorem wordSel_eq_zero_iff (w : Word64) : wordSel w = 0 ↔ w.toNat / 2 ^ 48 % 2 ^ 8 = 0 := by
  rw [← BitVec.toNat_inj, wordSel, BitVec.extractLsb'_toNat, Nat.shiftRight_eq_div_pow]
  rfl

theorem wordRsv_eq_zero_iff (w : Word64) : wordRsv w = 0 ↔ w.toNat / 2 ^ 32 % 2 ^ 16 = 0 := by
  rw [← BitVec.toNat_inj, wordRsv, BitVec.extractLsb'_toNat, Nat.shiftRight_eq_div_pow]
  rfl

theorem wordVal_eq_zero_iff (w : Word64) : wordVal w = 0 ↔ w.toNat % 2 ^ 32 = 0 := by
  rw [← BitVec.toNat_inj, wordVal, BitVec.extractLsb'_toNat, Nat.shiftRight_zero]
  rfl

/-- `Decode(w)` on the numbers its four fields are (41_fifo_decoder.md R181). -/
theorem decode_command_eq (w : Word64) :
    decode (.command w) =
      if w.toNat / 2 ^ 56 ∉ [0x00, 0x01, 0x10, 0x20, 0x21] then .invalidCommand
      else if w.toNat / 2 ^ 32 % 2 ^ 16 ≠ 0 then .invalidCommand
      else if w.toNat / 2 ^ 56 ≠ 0x10 ∧ (w.toNat / 2 ^ 48 % 2 ^ 8 ≠ 0 ∨ w.toNat % 2 ^ 32 ≠ 0) then
        .invalidCommand
      else if w.toNat / 2 ^ 56 = 0x00 then .instr .nop
      else if w.toNat / 2 ^ 56 = 0x01 then .instr .eol
      else if w.toNat / 2 ^ 56 = 0x10 then
        .instr (.setReg (BitVec.ofNat 8 (w.toNat / 2 ^ 48 % 2 ^ 8)) (BitVec.ofNat 32 (w.toNat % 2 ^ 32)))
      else if w.toNat / 2 ^ 56 = 0x20 then .instr .fill
      else .instr .blit := by
  have hopc (n : BitVec 8) : (wordOpc w == n) = true ↔ w.toNat / 2 ^ 56 = n.toNat :=
    beq_iff_eq.trans (wordOpc_eq_iff w n)
  have hlisted : (!([0x00#8, 0x01#8, 0x10#8, 0x20#8, 0x21#8].contains (wordOpc w))) = true ↔
      w.toNat / 2 ^ 56 ∉ [0x00, 0x01, 0x10, 0x20, 0x21] := by
    simp [wordOpc_eq_iff]
  have hrsv : (wordRsv w != 0) = true ↔ w.toNat / 2 ^ 32 % 2 ^ 16 ≠ 0 := by
    rw [bne_iff_ne, ne_eq, wordRsv_eq_zero_iff]
  have hzero : (wordOpc w != 0x10 && (wordSel w != 0 || wordVal w != 0)) = true ↔
      w.toNat / 2 ^ 56 ≠ 0x10 ∧ (w.toNat / 2 ^ 48 % 2 ^ 8 ≠ 0 ∨ w.toNat % 2 ^ 32 ≠ 0) := by
    rw [Bool.and_eq_true, Bool.or_eq_true, bne_iff_ne, bne_iff_ne, bne_iff_ne, ne_eq, ne_eq, ne_eq,
      wordOpc_eq_iff, wordSel_eq_zero_iff, wordVal_eq_zero_iff]
    rfl
  rw [← wordSel_eq w, ← wordVal_eq w]
  exact if_congr hlisted rfl (if_congr hrsv rfl (if_congr hzero rfl (if_congr (hopc 0x00) rfl
    (if_congr (hopc 0x01) rfl (if_congr (hopc 0x10) rfl (if_congr (hopc 0x20) rfl rfl))))))

end Sys2Proof

namespace Sys2Proof.Machine

/-! ### Command words -/

theorem regOfNumber_of_gt (n : Nat) (h : 11 < n) : regOfNumber n = none := by
  obtain ⟨m, rfl⟩ : ∃ m, n = m + 12 := ⟨n - 12, by omega⟩
  rfl

/-- A SET_REG above id 11 faults (42_state_set.md R201). -/
theorem setRegEffect_of_gt (sel : BitVec 8) (val : Word32) (s : State) (h : 11 < sel.toNat) :
    setRegEffect sel val s = raiseFault codeInvalidRegister s := by
  rw [setRegEffect, regOfNumber_of_gt _ h]

/-- Settles O4: decoding on the fields as numbers, and the fault of a register id that names none. -/
theorem commandWordDecode : Obligations.CommandWordDecode :=
  ⟨decode_command_eq, fun s sel val h => congrArg _ (setRegEffect_of_gt sel val (popFifo s) h)⟩

theorem popFifo_cons (s : State) (e : FifoEntry) (rest : List FifoEntry) (h : s.fifo = e :: rest) :
    popFifo s = { s with fifo := rest } := by
  rw [popFifo, h]; rfl

theorem headProducer_cons (s : State) (e : FifoEntry) (rest : List FifoEntry) (h : s.fifo = e :: rest) :
    headProducer s = e.producer := by
  rw [headProducer, h]

/-- Settles O22: NOP is the pop of its own entry. -/
theorem nopParse : Obligations.NopParse :=
  ⟨by decide, fun s _ _ rest h => congrArg _ (popFifo_cons s _ rest h)⟩

/-- Settles O23: EOL is popped and started with the producer of its entry. -/
theorem eolParse : Obligations.EolParse := by
  intro s w p rest h
  have e : exec .eol s = .next (startOperation .eol (headProducer s) Regs.zero (popFifo s)) := rfl
  rw [e, headProducer_cons s _ rest h, popFifo_cons s _ rest h]
  rfl

/-! ### What a turn fetches and runs -/

theorem fetchCommand_cons (s : State) (e : FifoEntry) (rest : List FifoEntry) (h : s.fifo = e :: rest) :
    fetchCommand s = .command e.word := by
  rw [fetchCommand, h]

theorem parseEnabled_of_cons (s : State) (e : FifoEntry) (rest : List FifoEntry)
    (h : s.fifo = e :: rest) (hl : s.inflight.length < s.cfg.pipeDepth) : parseEnabled s = true :=
  (parseEnabled_iff s).2 ⟨by simp [h], hl⟩

/-- An enabled Parse runs the oldest word (41_fifo_decoder.md R180). -/
theorem parseStep_instr (s : State) (e : FifoEntry) (rest : List FifoEntry) (i : Instr)
    (h : s.fifo = e :: rest) (hl : s.inflight.length < s.cfg.pipeDepth)
    (hd : decode (.command e.word) = .instr i) : parseStep s = exec i s := by
  simp only [parseStep, parseEnabled_of_cons s e rest h hl, fetchCommand_cons s e rest h, hd, if_true]

/-- An enabled Parse consumes an invalid word with its fault (41_fifo_decoder.md R184). -/
theorem parseStep_invalid (s : State) (e : FifoEntry) (rest : List FifoEntry)
    (h : s.fifo = e :: rest) (hl : s.inflight.length < s.cfg.pipeDepth)
    (hd : decode (.command e.word) = .invalidCommand) : parseStep s = .next (parseInvalid s) := by
  simp only [parseStep, parseEnabled_of_cons s e rest h hl, fetchCommand_cons s e rest h, hd, if_true]

theorem vqpStep_translate (s : State) (h : s.vqp.phase = .translate) : vqpStep s = translateStep s :=
  if_pos h

/-- TRANSLATE runs the gathered request (46_gpu_translator.md R340). -/
theorem translateStep_instr (s : State) (i : Instr) (hd : decode (.request s.vqp.req) = .instr i) :
    translateStep s = exec i s := by
  simp only [translateStep, fetchRequest, hd]

/-- TRANSLATE answers a short or unlisted request RESP_ERR_UNSPEC (46_gpu_translator.md R340, R353). -/
theorem translateStep_rejected (s : State)
    (hd : decode (.request s.vqp.req) = .shortRequest ∨ decode (.request s.vqp.req) = .unlistedRequest) :
    translateStep s = .next (rejectRequest s) := by
  rcases hd with hd | hd <;> simp only [translateStep, fetchRequest, hd]

/-- Settles O7, agent by agent. -/
theorem stepRunsDecodedInstruction : Obligations.StepRunsDecodedInstruction := by
  intro s i _
  refine ⟨fun e rest ht h hl hd => ?parse, fun a rest ht h hd => ?host, fun ht hp hd => ?vqp⟩
  case parse =>
    rw [step_agent s _ ht]
    exact parseStep_instr (takeTurn s) e rest i h hl hd
  case host =>
    rw [step_agent s _ ht]
    exact hostStep_access (takeTurn s) a rest i h hd
  case vqp =>
    rw [step_agent s _ ht]
    exact (vqpStep_translate (takeTurn s) hp).trans (translateStep_instr (takeTurn s) i hd)

/-- Settles O8: an invalid word by Parse, a rejected request by TRANSLATE. -/
theorem undecodedSteps : Obligations.UndecodedSteps := by
  refine ⟨fun s e rest ht h hl hd => ?word, fun s ht hp hd => ?request⟩
  case word =>
    rw [step_agent s _ ht, ← popFifo_cons (takeTurn s) e rest h]
    exact parseStep_invalid (takeTurn s) e rest h hl hd
  case request =>
    rw [step_agent s _ ht]
    exact (vqpStep_translate (takeTurn s) hp).trans (translateStep_rejected (takeTurn s) hd)

/-! ### The arbiter's steps -/

theorem vqpStep_acquire (s : State) (h : s.vqp.phase = .acquire) : vqpStep s = .next (acquireStep s) := by
  simp [vqpStep, vqpPhaseStep, h]

theorem vqpStep_push (s : State) (h : s.vqp.phase = .push) : vqpStep s = .next (pushStep s) := by
  simp [vqpStep, vqpPhaseStep, h]

theorem vqpStep_release (s : State) (h : s.vqp.phase = .release) : vqpStep s = .next (releaseStep s) := by
  simp [vqpStep, vqpPhaseStep, h]

/-- With the lock and a place left, the group's next word is appended (41_fifo_decoder.md R173). -/
theorem pushStep_room (s : State) (w : Word64) (ws : List Word64) (hg : s.vqp.group = w :: ws)
    (hl : s.lock = .heldVirtio) (hf : s.fifo.length < s.cfg.fifoDepth) :
    pushStep s = { pushFifo w .virtio s with
      vqp := { s.vqp with group := ws, phase := if ws = [] then .release else .push } } := by
  simp [pushStep, hg, hl, hf]

/-- A full FIFO holds the push (41_fifo_decoder.md R173). -/
theorem pushStep_full (s : State) (w : Word64) (ws : List Word64) (hg : s.vqp.group = w :: ws)
    (hf : s.cfg.fifoDepth ≤ s.fifo.length) : pushStep s = s := by
  simp [pushStep, hg, hf]

/-- The lock turns every legacy push away (41_fifo_decoder.md R172). -/
theorem pushBlocked_of_held (s : State) (h : s.lock = .heldVirtio) : pushBlocked s = true := by
  simp [pushBlocked, h]

/-- Settles O54, step by step. -/
theorem arbiterSteps : Obligations.ArbiterSteps := by
  intro s
  refine ⟨fun hp hl => ?acquire, fun hp hl w ws hg => ⟨fun hf => ?room, fun hf => ?full⟩,
    vqpStep_release s, fun hl d => ?refused⟩
  case acquire =>
    rw [vqpStep_acquire s hp, acquireStep, if_pos hl]
    rfl
  case room =>
    rw [vqpStep_push s hp, pushStep_room s w ws hg hl hf]
    rfl
  case full =>
    rw [vqpStep_push s hp, pushStep_full s w ws hg hf]
  case refused =>
    exact congrArg _ (legacyPush_blocked d s (pushBlocked_of_held s hl))

end Sys2Proof.Machine
end

section
/-! PROOFS. SET_REG (O24): the ids of the drawing registers, and the two outcomes of its Parse. -/
namespace Sys2Proof.Machine

/-! ### Register ids -/

@[simp] theorem regOfNumber_regNumber (r : RegId) : regOfNumber (regNumber r) = some r := by
  cases r <;> rfl

/-- Two drawing registers have different ids (10_state.md R21). -/
theorem regNumber_injective : Function.Injective regNumber := fun q r h =>
  Option.some.inj <| by rw [← regOfNumber_regNumber q, h, regOfNumber_regNumber]

/-- Every id up to 11 is a drawing register's (10_state.md R21). -/
theorem exists_regNumber_eq (n : Nat) (h : n ≤ 11) : ∃ r, regNumber r = n := by
  interval_cases n
  exacts [⟨.fbAddr, rfl⟩, ⟨.fbStride, rfl⟩, ⟨.drawX, rfl⟩, ⟨.drawY, rfl⟩, ⟨.drawW, rfl⟩, ⟨.drawH, rfl⟩,
    ⟨.fillColor, rfl⟩, ⟨.srcAddr, rfl⟩, ⟨.srcStride, rfl⟩, ⟨.stencilKey, rfl⟩, ⟨.alphaMode, rfl⟩,
    ⟨.pixelFmt, rfl⟩]

/-- A register write seen through the ids: the register with the written id holds the masked value, the
others what they held. -/
theorem readReg_writeReg_number (q r : RegId) (v : Word32) (g : Regs) :
    (readReg r (writeReg q v g)).toNat =
      if regNumber r = regNumber q then v.toNat % 2 ^ regWidth r else (readReg r g).toNat := by
  simp only [readReg_writeReg, regNumber_injective.eq_iff]

/-! ### SET_REG -/

/-- A SET_REG of a drawing register's id writes that register (42_state_set.md R200). -/
theorem setRegEffect_of_number (sel : BitVec 8) (val : Word32) (s : State) (q : RegId)
    (h : regNumber q = sel.toNat) : setRegEffect sel val s = setReg q val s := by
  rw [setRegEffect, ← h, regOfNumber_regNumber]

/-- SET_REG is the pop of its own entry, then its effect. -/
theorem exec_setReg_cons (s : State) (e : FifoEntry) (rest : List FifoEntry) (sel : BitVec 8)
    (val : Word32) (h : s.fifo = e :: rest) :
    exec (.setReg sel val) s = .next (setRegEffect sel val { s with fifo := rest }) := by
  rw [← popFifo_cons s e rest h]
  rfl

/-- Settles O24: an id up to 11 is some register's, which is written; a larger one faults. -/
theorem setRegParse : Obligations.SetRegParse := by
  unfold Obligations.SetRegParse
  intro table
  have hrows : ∀ r ∈ table, regNumber r.1 = r.2.1 ∧ regWidth r.1 = r.2.2 := by decide
  refine ⟨hrows, fun g => ?fields,
    fun s w p rest sel val h => ⟨fun hsel => ?written, fun hsel => ?faults⟩⟩
  case fields =>
    simp [table, readReg, BitVec.toNat_setWidth_of_le, -BitVec.toNat_setWidth]
  case written =>
    obtain ⟨q, hq⟩ := exists_regNumber_eq sel.toNat hsel
    refine ⟨writeReg q val s.regs, ?_, fun r hr => ?_⟩
    · rw [exec_setReg_cons s _ rest sel val h, setRegEffect_of_number sel val _ q hq]
      rfl
    · obtain ⟨hnumber, hwidth⟩ := hrows r hr
      rw [← hnumber, ← hwidth, ← hq, readReg_writeReg_number]
  case faults =>
    rw [exec_setReg_cons s _ rest sel val h, setRegEffect_of_gt sel val _ hsel]
    rfl

end Sys2Proof.Machine
end

section
/-! PROOFS. The blend (O31): a pixel by its four channels, and the two laws of the source's alpha. -/
namespace Sys2Proof.Machine

/-- Channel `c` of a canonical pixel: 3 is A, 2 R, 1 G, 0 B (43_draw.md R212). -/
def pixelChannel (p : Word32) (c : Nat) : Nat := p.toNat / 2 ^ (8 * c) % 2 ^ 8

theorem pixelChannel_lt (p : Word32) (c : Nat) : pixelChannel p c < 256 := Nat.mod_lt _ (by decide)

/-- The top channel needs no mask. -/
theorem pixelChannel_alpha (p : Word32) : pixelChannel p 3 = p.toNat / 2 ^ 24 := by
  have := p.isLt
  unfold pixelChannel
  omega

/-- A pixel's value from its channels. -/
theorem toNat_eq_pixelChannels (p : Word32) :
    p.toNat = ((pixelChannel p 3 * 256 + pixelChannel p 2) * 256 + pixelChannel p 1) * 256 +
      pixelChannel p 0 := by
  have := p.isLt
  unfold pixelChannel
  omega

/-- Two pixels with the same channels are equal. -/
theorem eq_of_pixelChannel_eq (p q : Word32) (h : ∀ c < 4, pixelChannel p c = pixelChannel q c) :
    p = q := by
  apply BitVec.eq_of_toNat_eq
  rw [toNat_eq_pixelChannels p, toNat_eq_pixelChannels q, h 3 (by decide), h 2 (by decide),
    h 1 (by decide), h 0 (by decide)]

/-- A channel as the model cuts it out of the word. -/
theorem extractLsb'_toNat_eq_pixelChannel (p : Word32) (c : Nat) :
    (p.extractLsb' (8 * c) 8).toNat = pixelChannel p c := by
  rw [BitVec.extractLsb'_toNat, Nat.shiftRight_eq_div_pow, pixelChannel]

/-- Four bytes put together are the channels of the word. -/
theorem pixelChannel_append (a r g b : Byte) (c : Nat) (hc : c < 4) :
    pixelChannel (a ++ r ++ g ++ b) c = ([b, g, r, a][c]'hc).toNat := by
  have hword : (a ++ r ++ g ++ b).toNat =
      ((a.toNat * 256 + r.toNat) * 256 + g.toNat) * 256 + b.toNat := by
    simp only [app_toNat, Nat.reducePow]
  have hr := r.isLt
  have hg := g.isLt
  have hb := b.isLt
  have ha := a.isLt
  unfold pixelChannel
  interval_cases c <;> simp only [hword, List.getElem_cons_zero, List.getElem_cons_succ] <;> omega

theorem overChannel_lt (sa x y : Nat) : overChannel sa x y < 256 := by
  unfold overChannel
  omega

/-- The blend of a pixel, channel by channel (43_draw.md R212). -/
theorem pixelChannel_overPixel (src dst : Word32) (c : Nat) (hc : c < 4) :
    pixelChannel (overPixel src dst) c =
      overChannel (src.toNat / 2 ^ 24) (pixelChannel src c) (pixelChannel dst c) := by
  have hbyte (x y : Nat) : (BitVec.ofNat 8 (overChannel (pixelChannel src 3) x y)).toNat =
      overChannel (pixelChannel src 3) x y := by
    rw [BitVec.toNat_ofNat, Nat.mod_eq_of_lt (overChannel_lt _ _ _)]
  rw [← pixelChannel_alpha]
  refine (pixelChannel_append _ _ _ _ c hc).trans ?_
  simp only [extractLsb'_toNat_eq_pixelChannel _ 3, extractLsb'_toNat_eq_pixelChannel _ 2,
    extractLsb'_toNat_eq_pixelChannel _ 1, extractLsb'_toNat_eq_pixelChannel _ 0]
  interval_cases c <;> exact hbyte _ _

/-- An opaque source replaces the channel (43_draw.md R220). -/
theorem overChannel_opaque (x y : Nat) (hx : x < 256) : overChannel 255 x y = x := by
  simp only [overChannel, Nat.sub_self, Nat.mul_zero, Nat.zero_div, Nat.add_zero]
  omega

/-- A transparent source adds to the channel, saturating (43_draw.md R221). -/
theorem overChannel_transparent (x y : Nat) : overChannel 0 x y = min (x + y) 255 := by
  rw [overChannel, Nat.sub_zero, Nat.mul_div_cancel y (by decide)]

/-- Settles O31: the channels of the blend, and what the two extreme alphas make of one channel. -/
theorem blendFormula : Obligations.BlendFormula := by
  refine ⟨pixelChannel_overPixel, fun src dst hsa => ?opaqueSource, fun src dst hsa c hc => ?transparentSource,
    fun dst => ?zeroSource⟩
  case opaqueSource =>
    refine eq_of_pixelChannel_eq _ _ fun c hc => ?_
    rw [pixelChannel_overPixel src dst c hc, hsa, overChannel_opaque _ _ (pixelChannel_lt src c)]
  case transparentSource =>
    have h := pixelChannel_overPixel src dst c hc
    rwa [hsa, overChannel_transparent] at h
  case zeroSource =>
    refine eq_of_pixelChannel_eq _ _ fun c hc => ?_
    have hzero : pixelChannel 0 c = 0 := by simp [pixelChannel]
    have hlt := pixelChannel_lt dst c
    rw [pixelChannel_overPixel 0 dst c hc, hzero, show (0 : Word32).toNat / 2 ^ 24 = 0 from rfl,
      overChannel_transparent]
    omega

end Sys2Proof.Machine
end

section
/-! PROOFS. Draw Parse and the geometry of a draw (O25, O26): the bounds test as arithmetic, the two outcomes
of the Parse, and the row and column of a pixel. -/
namespace Sys2Proof.Machine

/-! ### Geometry -/

/-- A rectangle with a pixel has a column. -/
theorem drawW_pos_of_lt (g : Regs) (k : Nat) (h : k < pixelCount g) : 0 < g.drawW.toNat :=
  Nat.pos_of_mul_pos_right (Nat.zero_lt_of_lt h)

theorem inDstBytes_iff (g : Regs) (k b : Nat) :
    inDstBytes g k b = true ↔ dstAddr g k ≤ b ∧ b < dstAddr g k + bytesPerPixel g.pixelFmt := by
  simp only [inDstBytes, Bool.and_eq_true, decide_eq_true_eq]

/-- Settles O26: the column and the row are the remainder and the quotient of `k` by the width. -/
theorem drawGeometry : Obligations.DrawGeometry := by
  intro g k hk
  have hcol : k % g.drawW.toNat < g.drawW.toNat := Nat.mod_lt k (drawW_pos_of_lt g k hk)
  have hrow : k / g.drawW.toNat < g.drawH.toNat := Nat.div_lt_of_lt_mul hk
  exact ⟨_, _, hcol, hrow, (Nat.div_add_mod' k g.drawW.toNat).symm, rfl, rfl, inDstBytes_iff g k⟩

/-! ### The bounds test -/

/-- The bounds test fails when there is a last pixel and one of its ranges leaves VRAM
(43_draw.md R211). -/
theorem drawInBounds_eq_false_iff (kind : OpKind) (g : Regs) (v : Nat) :
    drawInBounds kind g v = false ↔ 0 < pixelCount g ∧
      (v < dstAddr g (pixelCount g - 1) + bytesPerPixel g.pixelFmt ∨
        kind = .blit ∧ v < srcAddr g (pixelCount g - 1) + bytesPerPixel g.pixelFmt) := by
  simp [drawInBounds, Nat.pos_iff_ne_zero, imp_iff_not_or]

theorem drawInBounds_fill_iff (g : Regs) (v : Nat) :
    drawInBounds .fill g v = false ↔
      0 < pixelCount g ∧ v < dstAddr g (pixelCount g - 1) + bytesPerPixel g.pixelFmt := by
  simp [drawInBounds_eq_false_iff]

theorem drawInBounds_blit_iff (g : Regs) (v : Nat) :
    drawInBounds .blit g v = false ↔ 0 < pixelCount g ∧
      (v < dstAddr g (pixelCount g - 1) + bytesPerPixel g.pixelFmt ∨
        v < srcAddr g (pixelCount g - 1) + bytesPerPixel g.pixelFmt) := by
  simp [drawInBounds_eq_false_iff]

/-! ### Draw Parse -/

/-- A draw out of bounds is popped and raises OUT_OF_RANGE. -/
theorem parseDraw_refused (kind : OpKind) (s : State) (e : FifoEntry) (rest : List FifoEntry)
    (h : s.fifo = e :: rest) (hb : drawInBounds kind s.regs s.cfg.vramSize = false) :
    parseDraw kind s = raiseFault codeOutOfRange { s with fifo := rest } := by
  rw [parseDraw, hb, popFifo_cons s e rest h]
  rfl

/-- A draw in bounds is popped and enters with the registers as they are. -/
theorem parseDraw_entered (kind : OpKind) (s : State) (e : FifoEntry) (rest : List FifoEntry)
    (h : s.fifo = e :: rest) (hb : ¬drawInBounds kind s.regs s.cfg.vramSize = false) :
    parseDraw kind s = startOperation kind e.producer s.regs { s with fifo := rest } := by
  rw [parseDraw, if_pos (Bool.of_not_eq_false hb), headProducer_cons s e rest h,
    popFifo_cons s e rest h]

/-- Settles O25: for both kinds the bounds test, read as arithmetic, decides between the fault and the
entry; in bounds the last pixel covers every pixel. -/
theorem drawParse : Obligations.DrawParse := by
  intro s w p rest h
  have hfill := drawInBounds_fill_iff s.regs s.cfg.vramSize
  have hblit := drawInBounds_blit_iff s.regs s.cfg.vramSize
  have hpixels (kind : OpKind) (hb : ¬drawInBounds kind s.regs s.cfg.vramSize = false) :=
    drawInBounds_spec kind s.regs _ (Bool.of_not_eq_false hb)
  refine ⟨fun hout => ?fillRefused, fun hin => ⟨?fillEntered, fun k hk => ?fillInside⟩,
    fun hout => ?blitRefused, fun hin => ⟨?blitEntered, fun k hk => ?blitInside⟩⟩
  case fillRefused => exact congrArg _ (parseDraw_refused .fill s _ rest h (hfill.2 hout))
  case fillEntered => exact congrArg _ (parseDraw_entered .fill s _ rest h (mt hfill.1 hin))
  case fillInside => exact (hpixels .fill (mt hfill.1 hin) k hk).1
  case blitRefused => exact congrArg _ (parseDraw_refused .blit s _ rest h (hblit.2 hout))
  case blitEntered => exact congrArg _ (parseDraw_entered .blit s _ rest h (mt hblit.1 hin))
  case blitInside =>
    obtain ⟨hdst, hsrc⟩ := hpixels .blit (mt hblit.1 hin) k hk
    exact ⟨hdst, hsrc rfl⟩

end Sys2Proof.Machine
end

section
/-! PROOFS. The Pixel step (O27 to O30): what a draw reads byte by byte, the source and the output pixel, and
one rule for each outcome of the step. -/
namespace Sys2Proof.Machine

/-! ### What a draw reads -/

/-- The free bytes among `n` bytes from `a`. -/
def freeCount (op : Operation) (a n : Nat) : Nat :=
  ((List.range n).filter fun i => readsFree op (a + i)).length

theorem freeCount_succ (op : Operation) (a n : Nat) :
    freeCount op a (n + 1) = (if readsFree op a then 1 else 0) + freeCount op (a + 1) n := by
  have hshift : ((fun i => readsFree op (a + i)) ∘ Nat.succ) = fun i => readsFree op (a + 1 + i) :=
    funext fun i => congrArg (readsFree op) (by omega)
  unfold freeCount
  rw [List.range_succ_eq_map, List.filter_cons, List.filter_map, hshift]
  cases h : readsFree op a <;> simp [Nat.add_comm]

/-- The first byte of a read, and the read of the others with the bytes drawn so far. -/
theorem readDraw_succ (s : State) (op : Operation) (a n d : Nat) :
    readDraw s op a (n + 1) d =
      ((if readsFree op a then Config.freeByte d else vramByte s a) ::
          (readDraw s op (a + 1) n (d + if readsFree op a then 1 else 0)).1,
        (readDraw s op (a + 1) n (d + if readsFree op a then 1 else 0)).2) := by
  cases h : readsFree op a <;> simp [readDraw, h]

theorem readDraw_length (s : State) (op : Operation) (a n d : Nat) :
    (readDraw s op a n d).1.length = n := by
  induction n generalizing a d with
  | zero => rfl
  | succ n ih => rw [readDraw_succ, List.length_cons, ih]

/-- The counter moves by the free bytes of the read. -/
theorem readDraw_draws (s : State) (op : Operation) (a n d : Nat) :
    (readDraw s op a n d).2 = d + freeCount op a n := by
  induction n generalizing a d with
  | zero => rfl
  | succ n ih => rw [readDraw_succ, ih, freeCount_succ, Nat.add_assoc]

/-- Byte `i` of a read: the next free byte, or what VRAM holds (43_draw.md R222). -/
theorem readDraw_get (s : State) (op : Operation) (a n d i : Nat) (hi : i < n) :
    (readDraw s op a n d).1[i]? =
      some (if readsFree op (a + i) then Config.freeByte (d + freeCount op a i)
        else vramByte s (a + i)) := by
  induction n generalizing a d i with
  | zero => exact absurd hi (Nat.not_lt_zero i)
  | succ n ih =>
    rw [readDraw_succ]
    cases i with
    | zero => rfl
    | succ i =>
      rw [List.getElem?_cons_succ, ih _ _ _ (Nat.lt_of_succ_lt_succ hi), freeCount_succ,
        Nat.add_assoc d, Nat.add_right_comm a 1 i]
      rfl

/-- A byte is free when it is tainted or of an earlier pixel's destination (43_draw.md R222). -/
theorem readsFree_iff (op : Operation) (b : Nat) :
    readsFree op b = true ↔ b ∈ op.tainted ∨ ∃ k < op.k, dstAddr op.snap k ≤ b ∧
      b < dstAddr op.snap k + bytesPerPixel op.snap.pixelFmt := by
  simp only [readsFree, Bool.or_eq_true, List.contains_iff_mem, inEarlier_iff, inDstBytes_iff]

/-- Tainting an operation of a list: it keeps its place, and its set gains the range. -/
theorem taintOps_get (a n : Nat) (ops : List Operation) (j : Nat) (op : Operation)
    (h : ops[j]? = some op) :
    (taintOps a n ops)[j]? = some { op with tainted := setInsertRange a n op.tainted } := by
  rw [taintOps, List.getElem?_map, h]
  rfl

/-- Settles O30: reads by induction on their length, taints by the members of the set. -/
theorem freeReads : Obligations.FreeReads :=
  ⟨readsFree_iff,
    fun s op a n d => ⟨readDraw_length s op a n d, readDraw_draws s op a n d,
      fun i hi => readDraw_get s op a n d i hi⟩,
    fun a n ops j op h => ⟨_, taintOps_get a n ops j op h, rfl, fun b =>
      (mem_setInsertRange a n b op.tainted).trans or_comm⟩⟩

/-! ### Source and output pixel -/

/-- The value of the pixel at an address, widened (20_memory.md R75). -/
theorem widenPixel_vramBytes_toNat (f : BitVec 1) (s : State) (a : Nat) :
    (widenPixel f (vramBytes s a (bytesPerPixel f))).toNat =
      leNat (vramBytes s a (bytesPerPixel f)) + if f = 0 then 0 else 0xFF000000 :=
  widen_toNat f _ (vramBytes_length s a _)

/-- The pixel at an address as a word built from its value. -/
theorem widenPixel_vramBytes_eq (f : BitVec 1) (s : State) (a : Nat) :
    widenPixel f (vramBytes s a (bytesPerPixel f)) =
      BitVec.ofNat 32 (leNat (vramBytes s a (bytesPerPixel f)) + if f = 0 then 0 else 0xFF000000) := by
  rw [← widenPixel_vramBytes_toNat, BitVec.ofNat_toNat, BitVec.setWidth_eq]

/-- A byte of the widened pixel is the byte of VRAM it was read from. -/
theorem widenPixel_vramBytes_byte (f : BitVec 1) (s : State) (a i : Nat) (hi : i < bytesPerPixel f) :
    BitVec.ofNat 8 ((widenPixel f (vramBytes s a (bytesPerPixel f))).toNat / 256 ^ i) =
      vramByte s (a + i) := by
  have hlen : i < (vramBytes s a (bytesPerPixel f)).length := by rwa [vramBytes_length]
  rw [widen_byte f _ (vramBytes_length s a _) i hlen]
  exact Option.some.inj ((List.getElem?_eq_getElem hlen).symm.trans (vramBytes_get s a _ i hi))

/-- The source pixel of a FILL is FILL_COLOR (43_draw.md R230). -/
theorem sourcePixel_fill (s : State) (op : Operation) (hk : op.kind = .fill) :
    sourcePixel s op = (op.snap.fillColor, s.draws) := if_pos hk

/-- The source pixel of a BLIT that reads no free byte (43_draw.md R231). -/
theorem sourcePixel_blit (s : State) (op : Operation) (hk : op.kind = .blit)
    (h : ∀ b, srcAddr op.snap op.k ≤ b → b < srcAddr op.snap op.k + bytesPerPixel op.snap.pixelFmt →
      b ∉ op.tainted ∧ ∀ k < op.k, inDstBytes op.snap k b = false) :
    sourcePixel s op =
      (widenPixel op.snap.pixelFmt
        (vramBytes s (srcAddr op.snap op.k) (bytesPerPixel op.snap.pixelFmt)), s.draws) := by
  have hread := readDraw_defined s op (srcAddr op.snap op.k) (bytesPerPixel op.snap.pixelFmt) s.draws
    fun b hlo hhi => readsFree_false op b (h b hlo hhi)
  rw [sourcePixel, if_neg (by simp [hk]), hread]

/-- Without BLEND_EN the source pixel is written as it is. -/
theorem outputPixel_unblended (s : State) (op : Operation) (src : Word32) (d : Nat)
    (h : op.snap.alphaMode.getLsbD 0 = false) : outputPixel s op src d = (src, d) := by
  rw [outputPixel, h]
  rfl

/-- With BLEND_EN the source is blended over the old destination, if that reads no free byte. -/
theorem outputPixel_blended (s : State) (op : Operation) (src : Word32) (d : Nat)
    (he : op.snap.alphaMode.getLsbD 0 = true)
    (h : ∀ b, dstAddr op.snap op.k ≤ b → b < dstAddr op.snap op.k + bytesPerPixel op.snap.pixelFmt →
      b ∉ op.tainted ∧ ∀ k < op.k, inDstBytes op.snap k b = false) :
    outputPixel s op src d =
      (overPixel src (widenPixel op.snap.pixelFmt
        (vramBytes s (dstAddr op.snap op.k) (bytesPerPixel op.snap.pixelFmt))), d) := by
  have hread := readDraw_defined s op (dstAddr op.snap op.k) (bytesPerPixel op.snap.pixelFmt) d
    fun b hlo hhi => readsFree_false op b (h b hlo hhi)
  rw [outputPixel, if_pos he, hread]

/-! ### The outcomes of the step -/

theorem pixelInVram_iff (s : State) (op : Operation) :
    pixelInVram s op = true ↔
      dstAddr op.snap op.k + bytesPerPixel op.snap.pixelFmt ≤ s.cfg.vramSize ∧
        (op.kind = .blit → srcAddr op.snap op.k + bytesPerPixel op.snap.pixelFmt ≤ s.cfg.vramSize) := by
  simp [pixelInVram, vramInRange, imp_iff_not_or]

theorem keyDrops_iff (op : Operation) (src : Word32) :
    keyDrops op src = true ↔
      op.kind = .blit ∧ op.snap.alphaMode.getLsbD 1 = true ∧ src = op.snap.stencilKey := by
  simp [keyDrops, and_assoc]

/-- The colour key never drops a pixel of a FILL (43_draw.md R213). -/
theorem keyDrops_fill (op : Operation) (src : Word32) (hk : op.kind = .fill) :
    keyDrops op src = false := by
  simp [keyDrops, hk]

/-- A dropped pixel is only counted. -/
theorem pixelStep_dropped (op : Operation) (rest : List Operation) (s : State) (src : Word32) (d : Nat)
    (hv : pixelInVram s op = true) (hsrc : sourcePixel s op = (src, d)) (hkey : keyDrops op src = true) :
    pixelStep op rest s = .next { s with inflight := nextPixel op :: rest, draws := d } := by
  simp only [pixelStep, hv, hsrc, hkey, if_true]

/-- A pixel the key does not drop is written. -/
theorem pixelStep_written (op : Operation) (rest : List Operation) (s : State) (src out : Word32)
    (d e : Nat) (hv : pixelInVram s op = true) (hsrc : sourcePixel s op = (src, d))
    (hkey : keyDrops op src = false) (hout : outputPixel s op src d = (out, e)) :
    pixelStep op rest s = .next (writePixel op rest out e s) := by
  simp only [pixelStep, hv, hsrc, hkey, hout, if_true, Bool.false_eq_true, if_false]

/-- `t` is `s` with the head's pixel written as `out` and no free byte drawn: the pixel counted, the
operations behind it tainted, and no byte of VRAM changed outside the pixel. -/
def WritesHeadPixel (s : State) (op : Operation) (rest : List Operation) (out : Word32) (t : State) :
    Prop :=
  { t with vram := s.vram } =
      { s with
        inflight := { op with k := op.k + 1 } ::
          taintOps (dstAddr op.snap op.k) (bytesPerPixel op.snap.pixelFmt) rest } ∧
    ∀ b, vramByte t b =
      if dstAddr op.snap op.k ≤ b ∧ b < dstAddr op.snap op.k + bytesPerPixel op.snap.pixelFmt then
        BitVec.ofNat 8 (out.toNat / 256 ^ (b - dstAddr op.snap op.k))
      else vramByte s b

theorem writesHeadPixel_writePixel (s : State) (op : Operation) (rest : List Operation) (out : Word32) :
    WritesHeadPixel s op rest out (writePixel op rest out s.draws s) :=
  ⟨rfl, writePixel_byte op rest out s.draws s⟩

/-- The turn of a head whose pixel is written without drawing a free byte. -/
theorem headStep_writes (s : State) (op : Operation) (rest : List Operation) (src out : Word32)
    (h : s.inflight = op :: rest) (hk : op.kind ≠ .eol) (hn : op.k < pixelCount op.snap)
    (hv : pixelInVram s op = true) (hsrc : sourcePixel s op = (src, s.draws))
    (hkey : keyDrops op src = false) (hout : outputPixel s op src s.draws = (out, s.draws)) :
    ∃ t, headStep s = .next t ∧ WritesHeadPixel s op rest out t := by
  rw [headStep_pixel s op rest h hk hn, pixelStep_written op rest s src out _ _ hv hsrc hkey hout]
  exact ⟨_, rfl, writesHeadPixel_writePixel s op rest out⟩

/-- Settles O27: the source is FILL_COLOR, the key does not apply, and it is written as it is. -/
theorem fillPixelStep : Obligations.FillPixelStep := by
  intro s op rest h hk hn hdst hblend
  have hv : pixelInVram s op = true := (pixelInVram_iff s op).2 ⟨hdst, by simp [hk]⟩
  exact headStep_writes s op rest _ _ h (by simp [hk]) hn hv (sourcePixel_fill s op hk)
    (keyDrops_fill op _ hk) (outputPixel_unblended s op _ _ hblend)

/-- Settles O28: the source is what VRAM holds, and the key decides between dropping and copying it. -/
theorem blitPixelStep : Obligations.BlitPixelStep := by
  intro s op rest h hk hn hdst hin hreads pixel
  have hv : pixelInVram s op = true := (pixelInVram_iff s op).2 ⟨hdst, fun _ => hin⟩
  have hkind : op.kind ≠ .eol := by simp [hk]
  have hsrc := sourcePixel_blit s op hk hreads
  have hvalue := widenPixel_vramBytes_toNat op.snap.pixelFmt s (srcAddr op.snap op.k)
  generalize hp : widenPixel op.snap.pixelFmt
    (vramBytes s (srcAddr op.snap op.k) (bytesPerPixel op.snap.pixelFmt)) = src at hsrc hvalue
  have hkey : keyDrops op src = true ↔
      op.snap.alphaMode.getLsbD 1 = true ∧ pixel = op.snap.stencilKey.toNat := by
    rw [keyDrops_iff, BitVec.toNat_eq, hvalue]
    exact and_iff_right hk
  refine ⟨fun hdrop => ?dropped, fun hcopy hblend => ?copied⟩
  case dropped =>
    rw [headStep_pixel s op rest h hkind hn, pixelStep_dropped op rest s _ _ hv hsrc (hkey.2 hdrop)]
    rfl
  case copied =>
    obtain ⟨t, hstep, hframe, hbytes⟩ := headStep_writes s op rest _ _ h hkind hn hv hsrc
      (Bool.eq_false_of_not_eq_true (mt hkey.1 hcopy)) (outputPixel_unblended s op _ _ hblend)
    refine ⟨t, hstep, hframe, fun b => (hbytes b).trans (ite_congr rfl (fun hb => ?_) fun _ => rfl)⟩
    rw [← hp]
    exact widenPixel_vramBytes_byte _ s _ _ (by omega)

/-- Settles O29: with the source of either kind, the pixel written is the blend over the old
destination. -/
theorem blendPixelStep : Obligations.BlendPixelStep := by
  intro s op rest h hk hn hdst hin hblend hreads widened src hkeep
  have hv : pixelInVram s op = true := (pixelInVram_iff s op).2 ⟨hdst, hin⟩
  have hkey : keyDrops op src = false :=
    Bool.eq_false_of_not_eq_true (mt (keyDrops_iff op src).1 hkeep)
  have hsrc : sourcePixel s op = (src, s.draws) := by
    cases hkind : op.kind with
    | eol => exact absurd hkind hk
    | fill => rw [sourcePixel_fill s op hkind, show src = op.snap.fillColor from if_pos hkind]
    | blit =>
      rw [sourcePixel_blit s op hkind fun b hlo hhi => hreads b (.inr ⟨hkind, hlo, hhi⟩),
        widenPixel_vramBytes_eq,
        show src = widened (srcAddr op.snap op.k) from if_neg (by simp [hkind])]
  have hout := outputPixel_blended s op src s.draws hblend
    fun b hlo hhi => hreads b (.inl ⟨hlo, hhi⟩)
  rw [widenPixel_vramBytes_eq] at hout
  exact headStep_writes s op rest _ _ h hk hn hv hsrc hkey hout

end Sys2Proof.Machine
end

section
/-! PROOFS. A whole FILL (O33): what stands in VRAM after `j` of its pixels, by induction on `j`, and its
retirement. -/
namespace Sys2Proof.Machine

/-- `t` is `s` after `j` pixels of the unblended FILL `op`, the only operation in flight: those pixels
hold FILL_COLOR, and no other byte has changed. -/
structure FillPainted (s : State) (op : Operation) (j : Nat) (t : State) : Prop where
  frame : { t with vram := s.vram } = { s with inflight := [{ op with k := j }] }
  painted : ∀ k < j, ∀ c < bytesPerPixel op.snap.pixelFmt,
    vramByte t (dstAddr op.snap k + c) = BitVec.ofNat 8 (op.snap.fillColor.toNat / 256 ^ c)
  kept : ∀ b, (∀ k < j, inDstBytes op.snap k b = false) → vramByte t b = vramByte s b

theorem fillPainted_zero (s : State) (op : Operation) (h : s.inflight = [op]) (hk : op.k = 0) :
    FillPainted s op 0 s where
  frame := by rw [← hk, ← h]
  painted := fun k hk => absurd hk (Nat.not_lt_zero k)
  kept := fun _ _ => rfl

/-- What one more pixel of a FILL makes of VRAM, when the pixel lies behind all earlier ones. -/
theorem fillPainted_succ (s t u : State) (op : Operation) (j : Nat) (ht : FillPainted s op j t)
    (hrise : ∀ k < j, dstAddr op.snap k + bytesPerPixel op.snap.pixelFmt ≤ dstAddr op.snap j)
    (hu : WritesHeadPixel t { op with k := j } [] op.snap.fillColor u) :
    FillPainted s op (j + 1) u := by
  obtain ⟨hframe, hbytes⟩ := hu
  have hout (b : Nat) (hb : ¬(dstAddr op.snap j ≤ b ∧
      b < dstAddr op.snap j + bytesPerPixel op.snap.pixelFmt)) : vramByte u b = vramByte t b :=
    (hbytes b).trans (if_neg hb)
  refine ⟨?frame, fun k hk c hc => ?painted, fun b hb => ?kept⟩
  case frame =>
    calc { u with vram := s.vram }
        = { { u with vram := t.vram } with vram := s.vram } := rfl
      _ = { { t with inflight := [{ op with k := j + 1 }] } with vram := s.vram } := by rw [hframe]; rfl
      _ = { { t with vram := s.vram } with inflight := [{ op with k := j + 1 }] } := rfl
      _ = { s with inflight := [{ op with k := j + 1 }] } := by rw [ht.frame]
  case painted =>
    rcases Nat.lt_succ_iff_lt_or_eq.1 hk with hlt | rfl
    · have hbelow := hrise k hlt
      rw [hout _ (by omega), ht.painted k hlt c hc]
    · rw [hbytes, if_pos ⟨Nat.le_add_right _ _, Nat.add_lt_add_left hc _⟩, Nat.add_sub_cancel_left]
  case kept =>
    have hj : ¬inDstBytes op.snap j b = true := by simp [hb j (Nat.lt_succ_self j)]
    rw [hout b (mt (inDstBytes_iff op.snap j b).2 hj), ht.kept b fun k hk => hb k (Nat.lt_succ_of_lt hk)]

/-- The turn of the head paints the next pixel. -/
theorem headStep_fillPainted (s t : State) (op : Operation) (j : Nat) (ht : FillPainted s op j t)
    (hk : op.kind = .fill) (hblend : op.snap.alphaMode.getLsbD 0 = false)
    (hrows : op.snap.drawH.toNat ≤ 1 ∨
      op.snap.drawW.toNat * bytesPerPixel op.snap.pixelFmt ≤ op.snap.fbStride.toNat)
    (hj : j < pixelCount op.snap)
    (hin : dstAddr op.snap j + bytesPerPixel op.snap.pixelFmt ≤ s.cfg.vramSize) :
    ∃ u, headStep t = .next u ∧ FillPainted s op (j + 1) u := by
  have hinflight : t.inflight = [{ op with k := j }] := congrArg State.inflight ht.frame
  have hcfg : t.cfg = s.cfg := (congrArg State.cfg ht.frame :)
  obtain ⟨u, hstep, hu⟩ := fillPixelStep t { op with k := j } [] hinflight hk hj (hcfg ▸ hin) hblend
  exact ⟨u, hstep, fillPainted_succ s t u op j ht (fun k hkj => dst_disjoint op.snap k j hkj hj hrows) hu⟩

/-- The turns of the head paint the first `j` pixels. -/
theorem runAgents_fillPainted (s : State) (op : Operation) (h : s.inflight = [op]) (h0 : op.k = 0)
    (hk : op.kind = .fill) (hblend : op.snap.alphaMode.getLsbD 0 = false)
    (hrows : op.snap.drawH.toNat ≤ 1 ∨
      op.snap.drawW.toNat * bytesPerPixel op.snap.pixelFmt ≤ op.snap.fbStride.toNat)
    (hin : ∀ k < pixelCount op.snap,
      dstAddr op.snap k + bytesPerPixel op.snap.pixelFmt ≤ s.cfg.vramSize)
    (j : Nat) (hj : j ≤ pixelCount op.snap) :
    ∃ t, runAgents (List.replicate j .head) s = .next t ∧ FillPainted s op j t := by
  induction j with
  | zero => exact ⟨s, rfl, fillPainted_zero s op h h0⟩
  | succ j ih =>
    obtain ⟨t, hrun, ht⟩ := ih (Nat.le_of_succ_le hj)
    obtain ⟨u, hstep, hu⟩ := headStep_fillPainted s t op j ht hk hblend hrows hj (hin j hj)
    refine ⟨u, ?_, hu⟩
    rw [List.replicate_succ', runAgents_append _ _ s t hrun]
    simp only [runAgents, agentStep, hstep]

/-- A FILL with all its pixels painted and nothing queued retires with DONE (41_fifo_decoder.md R188). -/
theorem headStep_retireFill (s t : State) (op : Operation) (ht : FillPainted s op (pixelCount op.snap) t)
    (hk : op.kind = .fill) (hfifo : s.fifo = []) :
    headStep t = .next (setDone { t with inflight := [] }) := by
  have hinflight : t.inflight = [{ op with k := pixelCount op.snap }] := congrArg State.inflight ht.frame
  have hempty : t.fifo = [] := (congrArg State.fifo ht.frame).trans hfifo
  obtain ⟨-, hdraw⟩ := retireSteps t _ [] hinflight
  exact (hdraw (.inl hk) rfl).1 ⟨hempty, rfl⟩

/-- Settles O33: all pixels by induction, then the retirement, which leaves VRAM as it is. -/
theorem fillRectangle : Obligations.FillRectangle := by
  intro s op h hfifo hk h0 hblend hrows hin
  obtain ⟨t, hrun, ht⟩ := runAgents_fillPainted s op h h0 hk hblend hrows hin
    (op.snap.drawW.toNat * op.snap.drawH.toNat) (Nat.le_refl _)
  refine ⟨setDone { t with inflight := [] }, ?turns, ?frame, ht.painted, ht.kept⟩
  case turns =>
    rw [List.replicate_succ', runAgents_append _ _ s t hrun]
    simp only [runAgents, agentStep, headStep_retireFill s t op ht hk hfifo]
  case frame =>
    calc { setDone { t with inflight := [] } with vram := s.vram }
        = setDone { { t with vram := s.vram } with inflight := [] } := rfl
      _ = setDone { s with inflight := [] } := by rw [ht.frame]

end Sys2Proof.Machine
end

section
/-! PROOFS. The registers of the VirtIO transport (O42 to O47): what each operation on the selected queue,
the features and the status does, once, then each register by these rules. -/
namespace Sys2Proof.Machine

/-! ### The queue an index names -/

theorem queueOfIndex_eq_some (i : Word32) (q : QueueId) (h : i.toNat = if q = .ctrl then 0 else 1) :
    queueOfIndex i = some q := by
  cases q with
  | ctrl => rw [show i = 0 from BitVec.eq_of_toNat_eq h]; rfl
  | cursor => rw [show i = 1 from BitVec.eq_of_toNat_eq h]; rfl

/-- A selector of 2 and more selects neither word and neither queue. -/
theorem ne_zero_one_of_two_le (i : Word32) (h : 2 ≤ i.toNat) : i ≠ 0 ∧ i ≠ 1 := by
  constructor <;> rintro rfl <;> exact absurd h (by decide)

theorem queueOfIndex_eq_none (i : Word32) (h : 2 ≤ i.toNat) : queueOfIndex i = none := by
  obtain ⟨h0, h1⟩ := ne_zero_one_of_two_le i h
  simp only [queueOfIndex, h0, h1, if_false]

theorem selectedQueue_eq_some (s : State) (q : QueueId)
    (h : s.vio.queueSel.toNat = if q = .ctrl then 0 else 1) : selectedQueue s = some q :=
  queueOfIndex_eq_some s.vio.queueSel q h

theorem selectedQueue_eq_none (s : State) (h : 2 ≤ s.vio.queueSel.toNat) : selectedQueue s = none :=
  queueOfIndex_eq_none s.vio.queueSel h

theorem respond_setQueue (r : BusResponse) (q : QueueId) (v : Queue) (s : State) :
    respond r (setQueue q v s) = setQueue q v (respond r s) := by
  cases q <;> rfl

/-! ### Reads, selectors and the other offsets -/

/-- The device offers VIRTIO_F_VERSION_1 alone, bit 0 of the high word (44_virtio_transport.md R261). -/
theorem wordOf_deviceFeatures (sel : Word32) :
    wordOf Config.deviceFeatures sel = if sel = 1 then 1 else 0 := by
  unfold wordOf
  split
  · next h => subst h; decide
  · rfl

theorem queueNumMaxValue_of_selected (s : State) (h : s.vio.queueSel.toNat < 2) :
    queueNumMaxValue s = BitVec.ofNat 32 s.cfg.queueNumMax := by
  obtain ⟨q, hq⟩ : ∃ q : QueueId, s.vio.queueSel.toNat = if q = .ctrl then 0 else 1 := by
    rcases Nat.le_one_iff_eq_zero_or_eq_one.1 (Nat.le_of_lt_succ h) with h | h
    · exact ⟨.ctrl, h⟩
    · exact ⟨.cursor, h⟩
  simp [queueNumMaxValue, selectedQueue_eq_some s q hq]

theorem queueNumMaxValue_of_none (s : State) (h : 2 ≤ s.vio.queueSel.toNat) : queueNumMaxValue s = 0 := by
  simp [queueNumMaxValue, selectedQueue_eq_none s h]

/-- A write of a read-only register decodes to the access that does nothing (44_virtio_transport.md R260). -/
theorem decode_vioWrite_readOnly (d : Word32) :
    ∀ off ∈ [(0x000 : BitVec 9), 0x004, 0x008, 0x00C, 0x010, 0x034, 0x060, 0x0FC, 0x100, 0x108, 0x10C],
      decode (.access (.vioWrite off 4 d)) = .instr (.vioOther off (some d)) := by
  simp only [List.forall_mem_cons]
  exact ⟨rfl, rfl, rfl, rfl, rfl, rfl, rfl, rfl, rfl, rfl, rfl, fun _ h => by cases h⟩

/-- Settles O42: each access by its meaning, DeviceFeatures by the one feature the device offers, QueueNumMax
by the selector. -/
theorem transportAccesses : Obligations.TransportAccesses := by
  intro s
  refine ⟨rfl, rfl, rfl, rfl, rfl, ?deviceFeatures, ⟨queueNumMaxValue s, rfl, ?selected, ?none⟩,
    ?interruptStatus, rfl, rfl, rfl, fun _ => rfl, fun _ => rfl, fun _ => rfl, fun _ => rfl,
    fun _ _ => rfl, decode_vioWrite_readOnly⟩
  case deviceFeatures => rw [← wordOf_deviceFeatures]; rfl
  case selected => exact queueNumMaxValue_of_selected s
  case none => exact queueNumMaxValue_of_none s
  case interruptStatus => rw [BitVec.ofNat_toNat]; rfl

/-! ### Driver features -/

/-- The features stored once `d` is written to DriverFeatures (44_virtio_transport.md R262). -/
def featuresAfter (d : Word32) (w : Vio) : Word64 :=
  if hasStatus w.status statusFeaturesOk then w.driverFeatures
  else if w.drvFeaturesSel = 0 then withLow w.driverFeatures d
  else if w.drvFeaturesSel = 1 then withHigh w.driverFeatures d
  else w.driverFeatures

theorem driverFeaturesWrite_eq (d : Word32) (s : State) :
    driverFeaturesWrite d s =
      { s with vio := { s.vio with driverFeatures := featuresAfter d s.vio } } := by
  unfold driverFeaturesWrite featuresAfter
  split
  · rfl
  · split
    · rfl
    · split <;> rfl

/-- FEATURES_OK is bit 3 of the status (10_state.md R36). -/
theorem hasStatus_featuresOk_iff (v : BitVec 8) :
    hasStatus v statusFeaturesOk = true ↔ v.toNat / 8 % 2 = 1 := by
  rw [hasStatus_featuresOk, bit8, decide_eq_true_eq]
  rfl

theorem featuresAfter_low (d : Word32) (w : Vio) (hok : w.status.toNat / 8 % 2 = 0)
    (hsel : w.drvFeaturesSel = 0) : featuresAfter d w = withLow w.driverFeatures d := by
  rw [featuresAfter, if_neg (by rw [hasStatus_featuresOk_iff]; omega), if_pos hsel]

theorem featuresAfter_high (d : Word32) (w : Vio) (hok : w.status.toNat / 8 % 2 = 0)
    (hsel : w.drvFeaturesSel = 1) : featuresAfter d w = withHigh w.driverFeatures d := by
  rw [featuresAfter, if_neg (by rw [hasStatus_featuresOk_iff]; omega), if_neg (by rw [hsel]; decide),
    if_pos hsel]

/-- A write is ignored while FEATURES_OK is set, and for a selector above 1 (44_virtio_transport.md R262). -/
theorem featuresAfter_ignored (d : Word32) (w : Vio)
    (h : w.status.toNat / 8 % 2 = 1 ∨ 2 ≤ w.drvFeaturesSel.toNat) :
    featuresAfter d w = w.driverFeatures := by
  unfold featuresAfter
  rcases h with hok | hsel
  · rw [if_pos ((hasStatus_featuresOk_iff _).2 hok)]
  · obtain ⟨h0, h1⟩ := ne_zero_one_of_two_le w.drvFeaturesSel hsel
    rw [if_neg h0, if_neg h1, ite_self]

theorem exec_driverFeatures (d : Word32) (s : State) :
    exec (.vioWriteDriverFeatures d) s =
      .next { s with vio := { s.vio with driverFeatures := featuresAfter d s.vio }, bus := .ok } :=
  congrArg (Host.Outcome.next ∘ respond .ok) (driverFeaturesWrite_eq d s)

end Sys2Proof.Machine

namespace Sys2Proof

/-- Settles O43: the selected half of the features stored, by selector, or the write ignored. -/
theorem driverFeaturesWrite : Obligations.DriverFeaturesWrite := by
  intro s d
  refine ⟨rfl, Machine.featuresAfter d s.vio, Machine.exec_driverFeatures d s,
    fun hok hsel => ?low, fun hok hsel => ?high, Machine.featuresAfter_ignored d s.vio⟩
  case low => rw [Machine.featuresAfter_low d s.vio hok hsel, Machine.lowWord]
  case high => rw [Machine.featuresAfter_high d s.vio hok hsel, Machine.highWord]

end Sys2Proof

namespace Sys2Proof.Machine

/-! ### Queue configuration -/

theorem withLow_eq_ofNat (v : Word64) (d : Word32) :
    withLow v d = BitVec.ofNat 64 (v.toNat / 2 ^ 32 * 2 ^ 32 + d.toNat) := by
  rw [← lowWord, BitVec.ofNat_toNat, BitVec.setWidth_eq]

theorem withHigh_eq_ofNat (v : Word64) (d : Word32) :
    withHigh v d = BitVec.ofNat 64 (d.toNat * 2 ^ 32 + v.toNat % 2 ^ 32) := by
  rw [← highWord, BitVec.ofNat_toNat, BitVec.setWidth_eq]

theorem configureQueue_selected (f : Queue → Queue) (s : State) (q : QueueId)
    (h : selectedQueue s = some q) :
    configureQueue f s = if (getQueue s q).ready then s else setQueue q (f (getQueue s q)) s := by
  simp only [configureQueue, h]

theorem configureQueue_none (f : Queue → Queue) (s : State) (h : selectedQueue s = none) :
    configureQueue f s = s := by
  simp only [configureQueue, h]

/-- A row that configures the selected queue stores its field while the queue is not ready, and is ignored
for a ready queue or none (44_virtio_transport.md R265). -/
theorem exec_configureQueue (i : Instr) (f : Queue → Queue) (s : State) (q : QueueId)
    (h : exec i s = .next (respond .ok (configureQueue f s))) :
    (s.vio.queueSel.toNat = (if q = .ctrl then 0 else 1) → (getQueue s q).ready = false →
      exec i s = .next (setQueue q (f (getQueue s q)) { s with bus := .ok })) ∧
    (s.vio.queueSel.toNat = (if q = .ctrl then 0 else 1) → (getQueue s q).ready = true →
      exec i s = .next { s with bus := .ok }) ∧
    (2 ≤ s.vio.queueSel.toNat → exec i s = .next { s with bus := .ok }) := by
  rw [h]
  refine ⟨fun hq hr => ?stored, fun hq hr => ?ready, fun hsel => ?none⟩
  case stored =>
    rw [configureQueue_selected f s q (selectedQueue_eq_some s q hq), if_neg (by simp [hr]),
      respond_setQueue]
    rfl
  case ready =>
    rw [configureQueue_selected f s q (selectedQueue_eq_some s q hq), if_pos hr]
    rfl
  case none =>
    rw [configureQueue_none f s (selectedQueue_eq_none s hsel)]
    rfl

/-- Settles O44: all seven writes are configurations of the selected queue, told apart by their field. -/
theorem queueConfigWrites : Obligations.QueueConfigWrites := by
  refine ⟨fun s d q p => ?writes, ?reads⟩
  case writes =>
    simp only [← withLow_eq_ofNat, ← withHigh_eq_ofNat]
    intro hp
    have hrow : exec p.1 s = .next (respond .ok (configureQueue p.2 s)) := by
      revert p
      simp only [List.forall_mem_cons]
      exact ⟨rfl, rfl, rfl, rfl, rfl, rfl, rfl, fun _ h => by cases h⟩
    exact exec_configureQueue p.1 p.2 s q hrow
  case reads =>
    simp only [List.forall_mem_cons]
    exact ⟨rfl, rfl, rfl, rfl, rfl, rfl, rfl, fun _ h => by cases h⟩

/-! ### QueueReady -/

theorem queueReadyValue_selected (s : State) (q : QueueId) (h : selectedQueue s = some q) :
    queueReadyValue s = if (getQueue s q).ready then 1 else 0 := by
  simp only [queueReadyValue, h]

theorem queueReadyValue_none (s : State) (h : selectedQueue s = none) : queueReadyValue s = 0 := by
  simp only [queueReadyValue, h]

theorem queueReadyWrite_none (d : Word32) (s : State) (h : selectedQueue s = none) :
    queueReadyWrite d s = s := by
  simp only [queueReadyWrite, h]

theorem queueReadyWrite_selected (d : Word32) (s : State) (q : QueueId) (h : selectedQueue s = some q) :
    queueReadyWrite d s = if d.toNat % 2 = 1 then enableQueue q s else disableQueue q s := by
  have hbit : d.getLsbD 0 = decide (d.toNat % 2 = 1) := by simpa using bit_mod d 0
  simp only [queueReadyWrite, h, hbit, decide_eq_true_eq]

theorem enableQueue_ready (q : QueueId) (s : State) (h : (getQueue s q).ready = true) :
    enableQueue q s = s :=
  if_pos h

/-- A queue that is not ready is enabled when its size is legal, and is a transport error otherwise
(44_virtio_transport.md R266, R275). -/
theorem enableQueue_unready (q : QueueId) (s : State) (h : (getQueue s q).ready = false) :
    enableQueue q s =
      if queueSizeOk s (getQueue s q).num then
        setQueue q { getQueue s q with ready := true, lastAvail := 0, usedIdx := 0, pending := false } s
      else deviceError s :=
  if_neg (by simp [h])

/-- The legal sizes of a queue (44_virtio_transport.md R266). -/
theorem queueSizeOk_iff (s : State) (n : Word32) :
    queueSizeOk s n = true ↔ (∃ k, n.toNat = 2 ^ k) ∧ n.toNat ≤ s.cfg.queueNumMax := by
  rw [queueSizeOk, Bool.and_eq_true, pow2_iff, decide_eq_true_eq]

/-- Settles O45: the read and the write by the selector, the write by its bit 0, the enabling by the
queue's readiness and size. -/
theorem queueReadyRegister : Obligations.QueueReadyRegister := by
  intro s d
  have sel := selectedQueue_eq_some s
  have exec_write : exec (.vioWriteQueueReady d) s = .next (respond .ok (queueReadyWrite d s)) := rfl
  rw [exec_write]
  refine ⟨⟨queueReadyValue s, rfl, fun h => ?readCtrl, fun h => ?readCursor, fun h => ?readNone⟩,
    fun h => ?writeNone, fun q hq => ⟨fun hd => ?disable, fun hd hr => ?ready, fun hd hr =>
      ⟨fun hn => ?enable, fun hn => ?error⟩⟩⟩
  case readCtrl => exact queueReadyValue_selected s .ctrl (sel .ctrl (by rw [h]; rfl))
  case readCursor => exact queueReadyValue_selected s .cursor (sel .cursor (by rw [h]; rfl))
  case readNone => exact queueReadyValue_none s (selectedQueue_eq_none s h)
  case writeNone =>
    rw [queueReadyWrite_none d s (selectedQueue_eq_none s h)]
    rfl
  case disable =>
    rw [queueReadyWrite_selected d s q (sel q hq), if_neg (by omega), disableQueue, respond_setQueue]
    rfl
  case ready =>
    rw [queueReadyWrite_selected d s q (sel q hq), if_pos hd, enableQueue_ready q s hr]
    rfl
  case enable =>
    rw [queueReadyWrite_selected d s q (sel q hq), if_pos hd, enableQueue_unready q s hr,
      if_pos ((queueSizeOk_iff s _).2 hn), respond_setQueue]
    rfl
  case error =>
    rw [queueReadyWrite_selected d s q (sel q hq), if_pos hd, enableQueue_unready q s hr,
      if_neg (mt (queueSizeOk_iff s _).1 hn)]
    rfl

/-! ### QueueNotify and InterruptACK -/

/-- A queue can be served when it is ready, DRIVER_OK is set and DEVICE_NEEDS_RESET is not
(45_virtqueue.md R300). -/
theorem serviceable_iff (s : State) (v : Queue) : serviceable s v = true ↔
    v.ready = true ∧ s.vio.status.toNat / 4 % 2 = 1 ∧ s.vio.status.toNat / 64 % 2 = 0 := by
  have hdriver : s.vio.status.getLsbD 2 = decide (s.vio.status.toNat / 4 % 2 = 1) := bit8 _ 2
  have hreset : s.vio.status.getLsbD 6 = decide (s.vio.status.toNat / 64 % 2 = 1) := bit8 _ 6
  simp only [serviceable, hasStatus_driverOk, hasStatus_needsReset, hdriver, hreset, Bool.and_eq_true,
    Bool.not_eq_true', decide_eq_true_eq, decide_eq_false_iff_not, Nat.mod_two_not_eq_one, and_assoc]

theorem queueNotify_named (d : Word32) (s : State) (q : QueueId) (h : queueOfIndex d = some q) :
    queueNotify d s =
      if serviceable s (getQueue s q) then setQueue q { getQueue s q with pending := true } s else s := by
  simp only [queueNotify, h]

theorem queueNotify_none (d : Word32) (s : State) (h : queueOfIndex d = none) : queueNotify d s = s := by
  simp only [queueNotify, h]

/-- InterruptACK clears the bits written as 1 and keeps the other one (44_virtio_transport.md R269). -/
theorem acknowledged_bit (v : BitVec 2) (d : Word32) (c : Nat) (hc : c < 2) :
    (v &&& ~~~(d.setWidth 2)).toNat / 2 ^ c % 2 =
      if d.toNat / 2 ^ c % 2 = 1 then 0 else v.toNat / 2 ^ c % 2 := by
  have hbit : (v &&& ~~~(d.setWidth 2)).getLsbD c = (v.getLsbD c && !d.getLsbD c) := by
    simp [hc, -BitVec.getLsbD_eq_getElem]
  simp only [← Nat.toNat_testBit, BitVec.testBit_toNat, hbit]
  cases d.getLsbD c <;> simp

/-- Settles O46: the notification by the queue its value names and whether it can be served, the
acknowledgement bit by bit. -/
theorem notifyAndAcknowledge : Obligations.NotifyAndAcknowledge := by
  intro s d
  have exec_notify : exec (.vioWriteQueueNotify d) s = .next (respond .ok (queueNotify d s)) := rfl
  rw [exec_notify]
  refine ⟨fun q hq => ⟨fun h => ?served, fun h => ?ignored⟩, fun h => ?none,
    ⟨s.vio.interruptStatus &&& ~~~(d.setWidth 2), rfl, acknowledged_bit s.vio.interruptStatus d⟩⟩
  case served =>
    rw [queueNotify_named d s q (queueOfIndex_eq_some d q hq), if_pos ((serviceable_iff s _).2 h),
      respond_setQueue]
    rfl
  case ignored =>
    rw [queueNotify_named d s q (queueOfIndex_eq_some d q hq), if_neg (mt (serviceable_iff s _).1 h)]
    rfl
  case none =>
    rw [queueNotify_none d s (queueOfIndex_eq_none d h)]
    rfl

/-! ### Status -/

/-- The byte a Status write carries is 0 exactly for the device reset (44_virtio_transport.md R270). -/
theorem statusByte_eq_zero_iff (d : Word32) : d.setWidth 8 = 0#8 ↔ d.toNat % 256 = 0 := by
  rw [← BitVec.toNat_inj, BitVec.toNat_setWidth]
  rfl

theorem statusWrite_reset (d : Word32) (s : State) (h : d.toNat % 256 = 0) :
    statusWrite d s = deviceReset s :=
  if_pos ((statusByte_eq_zero_iff d).2 h)

theorem statusWrite_handshake (d : Word32) (s : State) (h : d.toNat % 256 ≠ 0) :
    statusWrite d s =
      { s with vio := { s.vio with
          negFailed := negFailedAfter (d.setWidth 8) s.vio
          status := statusAfter (d.setWidth 8) s.vio.status (negFailedAfter (d.setWidth 8) s.vio) } } :=
  if_neg (mt (statusByte_eq_zero_iff d).1 h)

/-- A negotiation fails when FEATURES_OK is newly set over a feature the device did not offer, and stays
failed (44_virtio_transport.md R272). -/
theorem negFailedAfter_iff (v : BitVec 8) (w : Vio) : negFailedAfter v w = true ↔
    w.negFailed = true ∨ (v.getLsbD 3 = true ∧ w.status.getLsbD 3 = false ∧
      featuresRefused w.driverFeatures = true) := by
  unfold negFailedAfter
  rw [hasStatus_featuresOk, hasStatus_featuresOk]
  cases v.getLsbD 3 <;> cases w.status.getLsbD 3 <;> simp

/-- Settles O47: the device reset for a byte of 0, else the handshake, by the rules of its two results. -/
theorem statusRegister : Obligations.StatusRegister := by
  intro s d
  have exec_status : exec (.vioWriteStatus d) s = .next (respond .ok (statusWrite d s)) := rfl
  have byte_bit (b : Nat) (hb : b < 8) : (d.setWidth 8).getLsbD b = d.getLsbD b := by
    rw [BitVec.getLsbD_setWidth, decide_eq_true hb, Bool.true_and]
  rw [exec_status]
  refine ⟨?read, fun h => ?reset, fun h => ?handshake⟩
  case read => rw [BitVec.ofNat_toNat]; rfl
  case reset => rw [statusWrite_reset d s h]; rfl
  case handshake =>
    obtain ⟨h3, h2, h6, hrest⟩ :=
      status_bits (d.setWidth 8) s.vio.status (negFailedAfter (d.setWidth 8) s.vio)
    rw [byte_bit 3 (by decide)] at h3 h2
    rw [byte_bit 2 (by decide)] at h2
    rw [statusWrite_handshake d s h]
    refine ⟨_, _, rfl, ?negotiation, h3, h2, h6, fun b hb => ?others⟩
    case negotiation =>
      rw [negFailedAfter_iff, features_refused, byte_bit 3 (by decide)]
    case others =>
      have hlt : b < 8 := (by decide : ∀ b ∈ [0, 1, 4, 5, 7], b < 8) b hb
      rw [hrest b hb, byte_bit b hlt]

end Sys2Proof.Machine
end

section
/-! PROOFS. The transport's invariant (O12): what it asks of the handshake and of a queue, then one lemma
for each agent's turn. -/
namespace Sys2Proof.Machine

/-! ### The handshake -/

/-- The invariant on the two status bits, the negotiation and events_read (44_virtio_transport.md R272,
R273, 10_state.md R39). -/
theorem transportOk_iff (s : State) : transportOk s = true ↔
    (s.vio.status.getLsbD 2 = true → s.vio.status.getLsbD 3 = true) ∧
    (s.vio.status.getLsbD 3 = true →
      s.vio.negFailed = false ∧ featuresRefused s.vio.driverFeatures = false) ∧
    s.vio.eventsRead = 0 := by
  simp only [transportOk, hasStatus_driverOk, hasStatus_featuresOk]
  cases s.vio.status.getLsbD 2 <;> cases s.vio.status.getLsbD 3 <;> simp

/-- What the invariant looks at is kept. -/
structure KeepsHandshake (v w : Vio) : Prop where
  driverOk : w.status.getLsbD 2 = v.status.getLsbD 2
  featuresOk : w.status.getLsbD 3 = v.status.getLsbD 3
  negFailed : w.negFailed = v.negFailed
  driverFeatures : w.driverFeatures = v.driverFeatures
  eventsRead : w.eventsRead = v.eventsRead

theorem KeepsHandshake.of_status {v w : Vio} (hs : w.status = v.status)
    (hn : w.negFailed = v.negFailed) (hf : w.driverFeatures = v.driverFeatures)
    (he : w.eventsRead = v.eventsRead) : KeepsHandshake v w :=
  ⟨by rw [hs], by rw [hs], hn, hf, he⟩

theorem KeepsHandshake.of_eq {v w : Vio} (h : w = v) : KeepsHandshake v w :=
  h ▸ .of_status rfl rfl rfl rfl

theorem transportOk_of_keeps (s t : State) (hs : transportOk s = true)
    (h : KeepsHandshake s.vio t.vio) : transportOk t = true := by
  rw [transportOk_iff] at hs ⊢
  rwa [h.driverOk, h.featuresOk, h.negFailed, h.driverFeatures, h.eventsRead]

/-- DEVICE_NEEDS_RESET is neither bit of the handshake (44_virtio_transport.md R275). -/
theorem deviceError_keepsHandshake (s : State) : KeepsHandshake s.vio (deviceError s).vio where
  driverOk := by simp [deviceError, statusNeedsReset]
  featuresOk := by simp [deviceError, statusNeedsReset]
  negFailed := rfl
  driverFeatures := rfl
  eventsRead := rfl

/-- A transport at its reset values is legal (10_state.md R47). -/
theorem transportOk_of_zero (s : State) (h : s.vio = Vio.zero) : transportOk s = true := by
  rw [transportOk_iff, h]
  decide

/-- FEATURES_OK is stored by a Status write only when the negotiation has not failed, by this write's check
or, if it was stored before, by the one that stored it; DRIVER_OK only with it (44_virtio_transport.md
R272, R273). -/
theorem transportOk_status (s : State) (v : BitVec 8) (hs : transportOk s = true) :
    transportOk { s with vio := { s.vio with
      negFailed := negFailedAfter v s.vio
      status := statusAfter v s.vio.status (negFailedAfter v s.vio) } } = true := by
  obtain ⟨-, hfeatures, hevents⟩ := (transportOk_iff s).1 hs
  obtain ⟨h3, h2, -, -⟩ := status_bits v s.vio.status (negFailedAfter v s.vio)
  refine (transportOk_iff _).2 ⟨fun hdriver => ?driverOk, fun hok => ?featuresOk, hevents⟩
  case driverOk =>
    obtain ⟨⟨-, hv⟩, hneg⟩ : (v.getLsbD 2 = true ∧ v.getLsbD 3 = true) ∧
        (!negFailedAfter v s.vio) = true := by
      simpa only [h2, Bool.and_eq_true] using hdriver
    exact h3.trans (by rw [hv, hneg]; rfl)
  case featuresOk =>
    obtain ⟨hv, hneg⟩ : v.getLsbD 3 = true ∧ negFailedAfter v s.vio = false := by
      simpa only [h3, Bool.and_eq_true, Bool.not_eq_true'] using hok
    refine ⟨hneg, ?_⟩
    cases hold : s.vio.status.getLsbD 3 with
    | true => exact (hfeatures hold).2
    | false =>
      have hfail := mt (negFailedAfter_iff v s.vio).2 (by simp [hneg])
      simpa only [hv, hold, true_and, Bool.not_eq_true] using (not_or.1 hfail).2

/-! ### The queues -/

/-- A queue is legal: its size while it is ready, its pending flag only then (44_virtio_transport.md R266,
R268). -/
theorem queueOk_iff (p : Params) (v : Queue) : queueOk p v = true ↔
    (v.ready = true → natIsPow2 v.num.toNat = true ∧ v.num.toNat ≤ p.queueNumMax) ∧
    (v.pending = true → v.ready = true) := by
  simp only [queueOk]
  cases v.ready <;> cases v.pending <;> simp

theorem queuesOk_iff (s : State) : queuesOk s = true ↔ ∀ q, queueOk s.cfg (getQueue s q) = true := by
  rw [queuesOk, Bool.and_eq_true]
  exact ⟨fun ⟨h0, h1⟩ q => by cases q <;> assumption, fun h => ⟨h .ctrl, h .cursor⟩⟩

theorem queuesOk_of_eq (s t : State) (hs : queuesOk s = true) (hc : t.cfg = s.cfg) (h0 : t.q0 = s.q0)
    (h1 : t.q1 = s.q1) : queuesOk t = true := by
  unfold queuesOk at hs ⊢
  rwa [hc, h0, h1]

theorem queuesOk_setQueue (q : QueueId) (v : Queue) (s : State) (hs : queuesOk s = true)
    (hv : queueOk s.cfg v = true) : queuesOk (setQueue q v s) = true := by
  rw [queuesOk_iff] at hs ⊢
  intro q'
  rw [setQueue_cfg]
  by_cases h : q = q'
  · rw [← h, getQueue_setQueue]; exact hv
  · rw [getQueue_setQueue_ne q q' v s h]; exact hs q'

/-- A queue out of service is legal (44_virtio_transport.md R266). -/
theorem queueOk_of_unready (p : Params) (v : Queue) (hr : v.ready = false) (hp : v.pending = false) :
    queueOk p v = true := by
  simp [queueOk_iff, hr, hp]

/-- A queue that is not ready is not pending. -/
theorem pending_of_unready (p : Params) (v : Queue) (hv : queueOk p v = true) (hr : v.ready = false) :
    v.pending = false := by
  obtain ⟨-, hpending⟩ := (queueOk_iff p v).1 hv
  simpa [hr] using hpending

/-- A queue of the same size and readiness, pending only if it was or is ready. -/
theorem queueOk_of_keeps (p : Params) (v w : Queue) (hv : queueOk p v = true) (hn : w.num = v.num)
    (hr : w.ready = v.ready) (hp : w.pending = true → v.ready = true) : queueOk p w = true := by
  rw [queueOk_iff] at hv ⊢
  rw [hn, hr]
  exact ⟨hv.1, hp⟩

theorem queuesOk_of_zero (s : State) (h0 : s.q0 = Queue.zero) (h1 : s.q1 = Queue.zero) :
    queuesOk s = true := by
  rw [queuesOk, h0, h1, queueOk_of_unready s.cfg Queue.zero rfl rfl]
  rfl

/-! ### One lemma an effect -/

/-- A register access keeps the handshake legal: a Status write by its check, a features write because
FEATURES_OK is not stored, the others because they do not touch it. -/
theorem accessEffect_transportOk (s u : State) (hs : transportOk s = true) (hu : AccessEffect s u) :
    transportOk u = true := by
  obtain ⟨hdriver, hfeatures, hevents⟩ := (transportOk_iff s).1 hs
  cases hu with
  | features w h =>
    rw [hasStatus_featuresOk] at h
    exact (transportOk_iff _).2 ⟨hdriver, fun hok => absurd (h.symm.trans hok) (by decide), hevents⟩
  | events d => exact (transportOk_iff _).2 ⟨hdriver, hfeatures, by simp [eventsClear, hevents]⟩
  | status v h => exact transportOk_status s v hs
  | reset => exact transportOk_of_zero _ rfl
  | error => exact transportOk_of_keeps s _ hs (deviceError_keepsHandshake s)
  | configure | enable | disable | notify =>
    exact transportOk_of_keeps s _ hs (.of_eq (setQueue_vio _ _ _))
  | _ => exact transportOk_of_keeps s _ hs (.of_status rfl rfl rfl rfl)

/-- A register access keeps the queues legal: enabling checks the size, a notification the readiness, and
a configuration is for a queue out of service (44_virtio_transport.md R265, R266, R268). -/
theorem accessEffect_queuesOk (s u : State) (hs : queuesOk s = true) (hu : AccessEffect s u) :
    queuesOk u = true := by
  have ok (q : QueueId) : queueOk s.cfg (getQueue s q) = true := (queuesOk_iff s).1 hs q
  cases hu with
  | configure q v h hr hp =>
    have hpending := pending_of_unready s.cfg _ (ok q) h
    exact queuesOk_setQueue q v s hs (queueOk_of_unready s.cfg v hr (hp.trans hpending))
  | enable q h =>
    simp only [queueSizeOk, Bool.and_eq_true, decide_eq_true_eq] at h
    exact queuesOk_setQueue q _ s hs ((queueOk_iff _ _).2 ⟨fun _ => h, fun h => by cases h⟩)
  | disable q => exact queuesOk_setQueue q _ s hs (queueOk_of_unready _ _ rfl rfl)
  | notify q h =>
    obtain ⟨hready, -⟩ := (serviceable_iff s _).1 h
    exact queuesOk_setQueue q _ s hs (queueOk_of_keeps _ _ _ (ok q) rfl rfl fun _ => hready)
  | reset => exact queuesOk_of_zero _ rfl rfl
  | _ => exact queuesOk_of_eq s _ hs rfl rfl rfl

theorem hostEffect_transportOk (s t : State) (hs : transportOk s = true) (ht : HostEffect s t) :
    transportOk t = true := by
  cases ht with
  | access a rest h r u hu => exact accessEffect_transportOk { s with hostOps := rest } u hs hu
  | _ => exact hs

theorem hostEffect_queuesOk (s t : State) (hs : queuesOk s = true) (ht : HostEffect s t) :
    queuesOk t = true := by
  cases ht with
  | access a rest h r u hu => exact accessEffect_queuesOk { s with hostOps := rest } u hs hu
  | _ => exact hs

/-- The processor keeps the handshake: it sets DEVICE_NEEDS_RESET on an overrun and the interrupt bits, and
touches no other field of the transport. -/
theorem vqpEffect_keepsHandshake (s t : State) (ht : VqpEffect s t) : KeepsHandshake s.vio t.vio := by
  cases ht with
  | overrun => exact deviceError_keepsHandshake s
  | translate h t ht => rw [requestOutcome_frame s t ht]; exact .of_eq rfl
  | select | guestWrite => exact .of_eq (setQueue_vio _ _ _)
  | notify => simp only [entryDone, emit_vio, setQueue_vio]; exact .of_status rfl rfl rfl rfl
  | _ => exact .of_eq rfl

/-- The processor keeps the queues legal: it moves their indices and takes a notification. -/
theorem vqpEffect_queuesOk (s t : State) (hs : queuesOk s = true) (ht : VqpEffect s t) :
    queuesOk t = true := by
  have ok (q : QueueId) : queueOk s.cfg (getQueue s q) = true := (queuesOk_iff s).1 hs q
  have pendingReady (q : QueueId) := ((queueOk_iff _ _).1 (ok q)).2
  cases ht with
  | select q =>
    exact queuesOk_setQueue q { getQueue s q with pending := false } s hs
      (queueOk_of_keeps _ _ _ (ok q) rfl rfl fun h => by cases h)
  | guestWrite q u a bytes =>
    exact queuesOk_setQueue q { getQueue s q with usedIdx := u } s hs
      (queueOk_of_keeps _ _ _ (ok q) rfl rfl (pendingReady q))
  | notify =>
    exact queuesOk_setQueue s.vqp.queue _ { s with vio := _ } hs
      (queueOk_of_keeps _ _ _ (ok s.vqp.queue) rfl rfl (pendingReady s.vqp.queue))
  | translate h t ht => rw [requestOutcome_frame s t ht]; exact queuesOk_of_eq s _ hs rfl rfl rfl
  | _ => exact queuesOk_of_eq s _ hs rfl rfl rfl

theorem stepEffect_transportOk (s t : State) (trn : Turn) (hs : transportOk s = true)
    (ht : StepEffect s trn t) : transportOk t = true := by
  cases ht with
  | powerOn => exact transportOk_of_zero _ rfl
  | host t h => exact hostEffect_transportOk s t hs h
  | parse t h => rw [parseEffect_frame s t h]; exact hs
  | head t h => rw [headEffect_frame s t h]; exact hs
  | vqp t h => exact transportOk_of_keeps s t hs (vqpEffect_keepsHandshake s t h)
  | display => exact hs

theorem stepEffect_queuesOk (s t : State) (trn : Turn) (hs : queuesOk s = true)
    (ht : StepEffect s trn t) : queuesOk t = true := by
  cases ht with
  | powerOn => exact queuesOk_of_zero _ rfl rfl
  | host t h => exact hostEffect_queuesOk s t hs h
  | parse t h => rw [parseEffect_frame s t h]; exact hs
  | head t h => rw [headEffect_frame s t h]; exact hs
  | vqp t h => exact vqpEffect_queuesOk s t hs h
  | display => exact hs

/-- Settles O12: the handshake and the queues, each kept by every agent's turn. -/
theorem transportInvariant : Obligations.TransportInvariant := by
  intro s t hs hq e
  have heffect := step_effect s t e
  exact ⟨stepEffect_transportOk (takeTurn s) t _ hs heffect,
    stepEffect_queuesOk (takeTurn s) t _ hq heffect⟩

end Sys2Proof.Machine
end

section
/-! PROOFS. Who writes guest memory (O20): the host's own accesses, then the bytes each writer stores. -/
namespace Sys2Proof.Machine

/-! ### Stored bytes read back -/

/-- Guest memory byte by byte, where bytes are stored in it. -/
theorem guestByte_of_storeBytes (s t : State) (a : Nat) (bytes : List Byte)
    (h : t.guest = storeBytes s.guest a bytes) (b : Nat) :
    guestByte t b = if a ≤ b ∧ b < a + bytes.length then bytes.getD (b - a) 0 else guestByte s b := by
  unfold guestByte
  rw [h]
  exact store_byte s.guest (Config.guestByte b) a bytes b

/-- Guest memory once one byte is written. -/
theorem guestByte_of_storeByte (s t : State) (a : Nat) (c : Byte) (h : t.guest = storeBytes s.guest a [c])
    (b : Nat) : guestByte t b = if b = a then c else guestByte s b := by
  rw [guestByte_of_storeBytes s t a [c] h b]
  by_cases hb : b = a
  · subst hb; simp
  · rw [if_neg hb, if_neg (by simp only [List.length_singleton]; omega)]

/-- Guest memory once two bytes are written. -/
theorem guestByte_of_storePair (s t : State) (a : Nat) (c d : Byte)
    (h : t.guest = storeBytes s.guest a [c, d]) (b : Nat) :
    guestByte t b = if b = a then c else if b = a + 1 then d else guestByte s b := by
  have hsecond := guestByte_of_storeByte { s with guest := storeBytes s.guest a [c] } t (a + 1) d h b
  have hfirst := guestByte_of_storeByte s { s with guest := storeBytes s.guest a [c] } a c rfl b
  rw [hsecond, hfirst]
  by_cases hb : b = a
  · subst hb
    rw [if_neg (by omega), if_pos rfl, if_pos rfl]
  · rw [if_neg hb, if_neg hb]

/-! ### The host's own accesses -/

theorem hostStep_guestRead (s : State) (a : Word64) (n : Nat) (rest : List HostOp)
    (h : s.hostOps = .guestRead a n :: rest) :
    hostStep s = .next (hostGuestRead a n { s with hostOps := rest }) := by
  simp only [hostStep, h]

theorem hostStep_guestWrite (s : State) (a : Word64) (bytes : List Byte) (rest : List HostOp)
    (h : s.hostOps = .guestWrite a bytes :: rest) :
    hostStep s = .next (hostGuestWrite a bytes { s with hostOps := rest }) := by
  simp only [hostStep, h]

/-- The bytes of an access, by their number. -/
theorem guestBytes_getElem? (s : State) (a n i : Nat) :
    (guestBytes s a n)[i]? = if i < n then some (guestByte s (a + i)) else none := by
  by_cases h : i < n <;> simp [guestBytes, h]

/-- A host write stores what lies below 2^64 and nothing beyond (log 21). -/
theorem guestByte_hostGuestWrite (s : State) (a : Word64) (bytes : List Byte) (b : Nat) :
    guestByte (hostGuestWrite a bytes s) b =
      if a.toNat ≤ b ∧ b < a.toNat + bytes.length ∧ b < 2 ^ 64 then bytes.getD (b - a.toNat) 0
      else guestByte s b := by
  have ha : a.toNat < 2 ^ 64 := a.isLt
  rw [guestByte_of_storeBytes s (hostGuestWrite a bytes s) a.toNat (bytes.take (2 ^ 64 - a.toNat)) rfl b,
    List.length_take]
  refine ite_congr (propext (by omega)) (fun h => ?_) fun _ => rfl
  rw [List.getD_eq_getElem?_getD, List.getElem?_take_of_lt (by omega), ← List.getD_eq_getElem?_getD]

/-! ### The writers -/

/-- `t` holds the guest memory of `s` with bytes stored in it, none outside the `n` from `a`. -/
def StoresGuest (s t : State) (a n : Nat) : Prop :=
  ∃ bytes : List Byte, bytes.length ≤ n ∧ t.guest = storeBytes s.guest a bytes

/-- The turns that store in guest memory, and where: the processor's and the host's (20_memory.md R73,
60_exceptions.md R418). -/
inductive GuestWriter (s : State) : Turn → (a n : Nat) → Prop where
  | processor (a n : Nat) (h : guestWriteAt s a n) : GuestWriter s (.agent .vqp) a n
  | host (a : Word64) (bytes : List Byte) (rest : List HostOp)
      (h : s.hostOps = .guestWrite a bytes :: rest) :
      GuestWriter s (.agent .host) a.toNat bytes.length

theorem hostEffect_guestWriter (s t : State) (ht : HostEffect s t) :
    t.guest = s.guest ∨ ∃ a n, GuestWriter s (.agent .host) a n ∧ StoresGuest s t a n := by
  cases ht with
  | access a rest h r u hu => exact .inl (accessEffect_memories { s with hostOps := rest } u hu).2
  | guest a bytes rest h => exact .inr ⟨_, _, .host a bytes rest h, _, List.length_take_le' _ _, rfl⟩
  | _ => exact .inl rfl

theorem vqpEffect_guestWriter (s t : State) (ht : VqpEffect s t) :
    t.guest = s.guest ∨ ∃ a n, GuestWriter s (.agent .vqp) a n ∧ StoresGuest s t a n := by
  cases ht with
  | guestWrite q u a bytes v h hv hb hd hw =>
    exact .inr ⟨_, _, .processor a bytes.length hw, bytes, Nat.le_refl _, by simp⟩
  | select => left; simp
  | translate h t ht => left; rw [requestOutcome_frame s t ht]
  | notify => left; rw [entryDone_frame]
  | _ => exact .inl rfl

/-- A turn keeps guest memory or stores in it as one of the writers. -/
theorem stepEffect_guestWriter (s t : State) (trn : Turn) (ht : StepEffect s trn t) :
    t.guest = s.guest ∨ ∃ a n, GuestWriter s trn a n ∧ StoresGuest s t a n := by
  cases ht with
  | host t h => exact hostEffect_guestWriter s t h
  | parse t h => left; rw [parseEffect_frame s t h]
  | head t h => left; rw [headEffect_frame s t h]
  | vqp t h => exact vqpEffect_guestWriter s t h
  | powerOn | display => exact .inl rfl

/-- A byte that a store changes is one of those stored. -/
theorem StoresGuest.mem_of_ne (s t : State) (a n b : Nat) (h : StoresGuest s t a n)
    (hb : guestByte t b ≠ guestByte s b) : a ≤ b ∧ b < a + n := by
  obtain ⟨bytes, hn, hg⟩ := h
  by_contra hout
  exact hb ((guestByte_of_storeBytes s t a bytes hg b).trans (if_neg (by omega)))

/-- The bytes the processor writes: one of the response, those of the used element or of the used index
when it is written in one access, else the byte whose turn it is (45_virtqueue.md R308, R309, R310). -/
theorem guestWriteAt_byte (s : State) (a n b : Nat) (h : guestWriteAt s a n) (hlo : a ≤ b)
    (hhi : b < a + n) :
    (s.vqp.phase = .respond ∧ segAddr (writableSegs s.vqp.chain) s.vqp.written = some b) ∨
    (s.vqp.phase = .usedElem ∧
      (s.vqp.dma = [] → usedSlotAddr (servedQueue s) ≤ b ∧ b < usedSlotAddr (servedQueue s) + 8) ∧
      (s.vqp.dma ≠ [] → b = s.vqp.dmaAddr)) ∨
    (s.vqp.phase = .usedIdx ∧
      (s.vqp.dma = [] →
        (servedQueue s).deviceAddr.toNat + 2 ≤ b ∧ b < (servedQueue s).deviceAddr.toNat + 4) ∧
      (s.vqp.dma ≠ [] → b = s.vqp.dmaAddr)) := by
  rcases h with ⟨hp, ha, hn⟩ | ⟨hp, hwhole, hpart⟩ | ⟨hp, hwhole, hpart⟩
  · obtain rfl : a = b := by omega
    exact .inl ⟨hp, ha⟩
  · refine .inr (.inl ⟨hp, fun hd => ?_, fun hd => ?_⟩)
    · have := hwhole hd; omega
    · have := hpart hd; omega
  · refine .inr (.inr ⟨hp, fun hd => ?_, fun hd => ?_⟩)
    · have := hwhole hd; omega
    · have := hpart hd; omega

/-- Settles O20: the host's two accesses by their meaning; a byte that changes is one of those the turn's
writer stores. -/
theorem guestWrittenOnlyBy : Obligations.GuestWrittenOnlyBy := by
  refine ⟨fun s a n rest h => ?read, fun s a bytes rest h => ?write, fun s t b e hb => ?changed⟩
  case read =>
    have ha : a.toNat < 2 ^ 64 := a.isLt
    refine ⟨_, hostStep_guestRead s a n rest h, fun i => ?_⟩
    exact (guestBytes_getElem? s a.toNat _ i).trans (ite_congr (propext (by omega)) (fun _ => rfl) fun _ => rfl)
  case write =>
    exact ⟨_, hostStep_guestWrite s a bytes rest h, rfl,
      guestByte_hostGuestWrite { s with hostOps := rest } a bytes⟩
  case changed =>
    rcases stepEffect_guestWriter (takeTurn s) t (nextTurn s) (step_effect s t e) with
      hkept | ⟨a, n, hw, hst⟩
    · exact absurd (by unfold guestByte; rw [hkept]; rfl) hb
    · obtain ⟨hlo, hhi⟩ := hst.mem_of_ne (takeTurn s) t a n b hb
      generalize nextTurn s = trn at hw
      cases hw with
      | processor a n h =>
        rcases guestWriteAt_byte s a n b h hlo hhi with hbyte | hbyte | hbyte
        · exact .inl ⟨rfl, hbyte⟩
        · exact .inr (.inl ⟨rfl, hbyte⟩)
        · exact .inr (.inr (.inl ⟨rfl, hbyte⟩))
      | host a bytes rest h => exact .inr (.inr (.inr ⟨rfl, a, bytes, rest, h, hlo, hhi⟩))

end Sys2Proof.Machine
end

section
/-! PROOFS. Serving a queue (O49): SELECT, READ_IDX, READ_SLOT and WAIT, one rule for each outcome of the
step. -/
namespace Sys2Proof.Machine

/-! ### SELECT -/

theorem vqpStep_select (s : State) (h : s.vqp.phase = .idle) : vqpStep s = .next (selectStep s) := by
  simp [vqpStep, vqpPhaseStep, h]

theorem selectStep_ctrl (s : State) (h : s.q0.pending = true ∧ serviceable s s.q0 = true) :
    selectStep s = { s with
      q0 := { s.q0 with pending := false }
      vqp := { Vqp.idle with phase := .readIdx, queue := .ctrl } } := by
  rw [selectStep, if_pos (by rwa [Bool.and_eq_true])]

/-- Queue 1 is taken when queue 0 cannot be (45_virtqueue.md R312). -/
theorem selectStep_cursor (s : State) (h0 : ¬(s.q0.pending = true ∧ serviceable s s.q0 = true))
    (h1 : s.q1.pending = true ∧ serviceable s s.q1 = true) :
    selectStep s = { s with
      q1 := { s.q1 with pending := false }
      vqp := { Vqp.idle with phase := .readIdx, queue := .cursor } } := by
  rw [selectStep, if_neg (by rwa [Bool.and_eq_true]), if_pos (by rwa [Bool.and_eq_true])]

/-! ### Reads in one access -/

/-- An admitted read at a multiple of its size is one step. -/
theorem dmaRead_aligned (a n : Nat) (s : State) (hd : s.vqp.dma = [])
    (hg : guestAdmits s.cfg a n = true) (hn : n ≤ 8) (ha : a % n = 0) :
    dmaRead a n s = .done s (guestBytes s a n) :=
  dmaRead_atomic a n s hd hg ((dmaAtomic_iff a n).2 ⟨hn, ha⟩)

theorem leNat_guestBytes_two (s : State) (a : Nat) :
    leNat (guestBytes s a 2) = (guestByte s a).toNat + 256 * (guestByte s (a + 1)).toNat := rfl

/-! ### READ_IDX -/

theorem readIdxStep_aligned (s : State) (hs : serviceable s (servedQueue s) = true) (hd : s.vqp.dma = [])
    (hg : guestAdmits s.cfg ((servedQueue s).driverAddr.toNat + 2) 2 = true)
    (ha : (servedQueue s).driverAddr.toNat % 2 = 0) :
    readIdxStep s =
      idxRead (BitVec.ofNat 16 (leNat (guestBytes s ((servedQueue s).driverAddr.toNat + 2) 2))) s := by
  rw [readIdxStep, if_pos hs, dmaRead_aligned _ 2 s hd hg (by decide) (by omega)]

/-- The entries published and not yet taken, over the free-running indices (45_virtqueue.md R301). -/
theorem availableEntries_toNat (n : Nat) (last : BitVec 16) :
    (BitVec.ofNat 16 n - last).toNat = (n + 2 ^ 16 - last.toNat) % 2 ^ 16 := by
  have := last.isLt
  rw [BitVec.toNat_sub, BitVec.toNat_ofNat]
  omega

theorem idxRead_caughtUp (avail : BitVec 16) (s : State)
    (h : (avail - (servedQueue s).lastAvail).toNat = 0) : idxRead avail s = goIdle s :=
  if_pos (BitVec.eq_of_toNat_eq h)

/-- More entries than the ring holds are a device error (45_virtqueue.md R302). -/
theorem idxRead_overrun (avail : BitVec 16) (s : State)
    (h : (servedQueue s).num.toNat < (avail - (servedQueue s).lastAvail).toNat) :
    idxRead avail s = goIdle (deviceError s) := by
  have hne : avail - (servedQueue s).lastAvail ≠ 0 := fun h0 => by rw [h0] at h; exact Nat.not_lt_zero _ h
  exact (if_neg hne).trans (if_pos h)

theorem idxRead_entry (avail : BitVec 16) (s : State)
    (h0 : (avail - (servedQueue s).lastAvail).toNat ≠ 0)
    (h : (avail - (servedQueue s).lastAvail).toNat ≤ (servedQueue s).num.toNat) :
    idxRead avail s = setPhase .readSlot s := by
  have hne : avail - (servedQueue s).lastAvail ≠ 0 := fun e => h0 (congrArg BitVec.toNat e)
  exact (if_neg hne).trans (if_neg (Nat.not_lt.2 h))

/-! ### READ_SLOT -/

theorem ringSlot_of_ne_zero (num : Word32) (idx : BitVec 16) (h : num ≠ 0) :
    ringSlot num idx = idx.toNat % num.toNat :=
  if_neg h

theorem availSlotAddr_of_ne_zero (q : Queue) (h : q.num ≠ 0) :
    availSlotAddr q = q.driverAddr.toNat + 4 + 2 * (q.lastAvail.toNat % q.num.toNat) := by
  rw [availSlotAddr, ringSlot_of_ne_zero _ _ h]

theorem readSlotStep_aligned (s : State) (hd : s.vqp.dma = [])
    (hg : guestAdmits s.cfg (availSlotAddr (servedQueue s)) 2 = true)
    (ha : availSlotAddr (servedQueue s) % 2 = 0) :
    readSlotStep s =
      startWalk (BitVec.ofNat 16 (leNat (guestBytes s (availSlotAddr (servedQueue s)) 2))) s := by
  rw [readSlotStep, dmaRead_aligned _ 2 s hd hg (by decide) ha]

/-! ### WAIT -/

theorem vqpStep_wait (s : State) (h : s.vqp.phase = .wait) : vqpStep s = .next (waitStep s) := by
  simp [vqpStep, vqpPhaseStep, h]

theorem virtioPending_iff (s : State) : virtioPending s = true ↔
    (∃ e ∈ s.fifo, e.producer = .virtio) ∨ (∃ o ∈ s.inflight, o.producer = .virtio) := by
  simp [virtioPending]

theorem producer_ne_virtio (p : Producer) (h : p = .legacy) : p ≠ .virtio := by
  rintro rfl
  cases h

/-- Settles O49, step by step; READ_IDX by the number of entries published and not yet taken. -/
theorem serviceSteps : Obligations.ServiceSteps := by
  intro s
  refine ⟨serviceable_iff s, fun hp hs => ?unserviceable, fun hp => ⟨fun h0 => ?ctrl, fun h0 =>
    ⟨fun h1 => ?cursor, fun h1 => vqpStep_idle s hp h0 h1⟩⟩, ?readIdx, ?readSlot,
    fun hp => ⟨fun h => ?held, fun h => ?free⟩⟩
  case unserviceable => exact (vqpStep_readIdx s hp).trans (congrArg _ (readIdxStep_unserviceable s hs))
  case ctrl => exact (vqpStep_select s hp).trans (congrArg _ (selectStep_ctrl s h0))
  case cursor => exact (vqpStep_select s hp).trans (congrArg _ (selectStep_cursor s h0 h1))
  case readIdx =>
    rintro q rfl hs hp hd hg ha avail d
    have hstep : vqpStep s = .next (idxRead (BitVec.ofNat 16 avail) s) :=
      (vqpStep_readIdx s hp).trans (congrArg _ (readIdxStep_aligned s hs hd hg ha))
    have hentries : (BitVec.ofNat 16 avail - (servedQueue s).lastAvail).toNat = d :=
      availableEntries_toNat avail _
    rw [hstep]
    refine ⟨fun h => congrArg _ ?_, fun h => congrArg _ ?_, fun ⟨h0, h⟩ => congrArg _ ?_⟩
    · exact idxRead_caughtUp _ s (hentries.trans h)
    · exact idxRead_overrun _ s (hentries ▸ h)
    · exact idxRead_entry _ s (hentries ▸ h0) (hentries ▸ h)
  case readSlot =>
    rintro q a rfl hp hd hnum ha hg halign head
    have hslot : availSlotAddr (servedQueue s) = a := (availSlotAddr_of_ne_zero _ hnum).trans ha.symm
    rw [vqpStep_readSlot s hp, readSlotStep_aligned s hd (hslot ▸ hg) (hslot ▸ halign), hslot]
    rfl
  case held =>
    rw [vqpStep_wait s hp, waitStep, if_pos ((virtioPending_iff s).2 h)]
  case free =>
    have hnone : ¬virtioPending s = true := by
      rw [virtioPending_iff]
      rintro (⟨e, he, hv⟩ | ⟨o, ho, hv⟩)
      · exact producer_ne_virtio _ (h.1 e he) hv
      · exact producer_ne_virtio _ (h.2 o ho) hv
    rw [vqpStep_wait s hp, waitStep, if_neg hnone]

end Sys2Proof.Machine
end

section
/-! PROOFS. The chain walk (O51): the descriptor's address and its fields in order, the malformed chain and
the finished descriptor. -/
namespace Sys2Proof.Machine

/-! ### The descriptor's flags -/

theorem descNext_iff (d : Desc) : descNext d = true ↔ d.flags.toNat % 2 = 1 := by
  rw [descNext, bitW, pow_zero, Nat.div_one, decide_eq_true_eq]

theorem descWrite_iff (d : Desc) : descWrite d = true ↔ d.flags.toNat / 2 % 2 = 1 := by
  rw [descWrite, bitW, pow_one, decide_eq_true_eq]

theorem descIndirect_iff (d : Desc) : descIndirect d = true ↔ d.flags.toNat / 4 % 2 = 1 := by
  rw [descIndirect, bitW, decide_eq_true_eq]
  rfl

/-- A finished descriptor that breaks the chain: indirect, or readable after a writable one
(45_virtqueue.md R303). -/
theorem descBreaks_iff (d : Desc) (seen : Bool) :
    (descIndirect d || (!descWrite d && seen)) = true ↔
      d.flags.toNat / 4 % 2 = 1 ∨ (d.flags.toNat / 2 % 2 = 0 ∧ seen = true) := by
  rw [Bool.or_eq_true, Bool.and_eq_true, Bool.not_eq_true', ← Bool.not_eq_true, descIndirect_iff,
    descWrite_iff, Nat.mod_two_not_eq_one]

theorem descRead_malformed (d : Desc) (s : State)
    (h : d.flags.toNat / 4 % 2 = 1 ∨ (d.flags.toNat / 2 % 2 = 0 ∧ s.vqp.seenWritable = true)) :
    descRead d s = malformedChain s :=
  if_pos ((descBreaks_iff d s.vqp.seenWritable).2 h)

/-- A good descriptor joins the chain; the walk goes on at `next` or ends (45_virtqueue.md R303). -/
theorem descRead_joins (d : Desc) (s : State)
    (h : ¬(d.flags.toNat / 4 % 2 = 1 ∨ (d.flags.toNat / 2 % 2 = 0 ∧ s.vqp.seenWritable = true))) :
    descRead d s = { s with vqp := { s.vqp with
      phase := if d.flags.toNat % 2 = 1 then .walk else .gather
      walkIdx := d.next
      visited := s.vqp.visited ++ [s.vqp.walkIdx]
      seenWritable := decide (s.vqp.seenWritable = true ∨ d.flags.toNat / 2 % 2 = 1)
      cur := Desc.zero
      curField := .addr
      chain := s.vqp.chain ++ [d]
      req := [] } } := by
  have hseen : (s.vqp.seenWritable || descWrite d) =
      decide (s.vqp.seenWritable = true ∨ d.flags.toNat / 2 % 2 = 1) := by
    rw [Bool.eq_iff_iff, Bool.or_eq_true, descWrite_iff, decide_eq_true_eq]
  rw [descRead, if_neg (mt (descBreaks_iff d s.vqp.seenWritable).1 h), hseen]
  simp only [descNext_iff]

/-! ### Each field -/

theorem fieldRead_addr (bs : List Byte) (s : State) (h : s.vqp.curField = .addr) :
    fieldRead bs s = { s with vqp := { s.vqp with
      cur := { s.vqp.cur with addr := BitVec.ofNat 64 (leNat bs) }, curField := .len } } := by
  simp only [fieldRead, h]

theorem fieldRead_len (bs : List Byte) (s : State) (h : s.vqp.curField = .len) :
    fieldRead bs s = { s with vqp := { s.vqp with
      cur := { s.vqp.cur with len := BitVec.ofNat 32 (leNat bs) }, curField := .flags } } := by
  simp only [fieldRead, h]

theorem fieldRead_flags (bs : List Byte) (s : State) (h : s.vqp.curField = .flags) :
    fieldRead bs s = { s with vqp := { s.vqp with
      cur := { s.vqp.cur with flags := BitVec.ofNat 16 (leNat bs) }, curField := .next } } := by
  simp only [fieldRead, h]

/-- The last field ends the descriptor (45_virtqueue.md R304). -/
theorem fieldRead_next (bs : List Byte) (s : State) (h : s.vqp.curField = .next) :
    fieldRead bs s = descRead { s.vqp.cur with next := BitVec.ofNat 16 (leNat bs) } s := by
  simp only [fieldRead, h]

/-! ### The walk's step -/

theorem walkBroken_iff (s : State) : walkBroken s = true ↔
    (servedQueue s).num.toNat ≤ s.vqp.walkIdx.toNat ∨ s.vqp.walkIdx ∈ s.vqp.visited := by
  simp [walkBroken]

/-- A dangling or repeated index ends the walk before anything of it is read (45_virtqueue.md R303). -/
theorem walkStep_broken (s : State) (hd : s.vqp.dma = []) (hf : s.vqp.curField = .addr)
    (hw : walkBroken s = true) : walkStep s = malformedChain s := by
  simp [walkStep, atDescStart, hf, hd, hw]

theorem keepDescBase_start (s : State) (hd : s.vqp.dma = []) (hf : s.vqp.curField = .addr) :
    keepDescBase s = { s with vqp := { s.vqp with descBase := descAddrOf s } } := by
  simp [keepDescBase, atDescStart, hf, hd]

theorem atDescStart_of_field (s : State) (hf : s.vqp.curField ≠ .addr) : atDescStart s = false := by
  simp [atDescStart, hf]

/-- A field whose access is one step, from the place the walk keeps (45_virtqueue.md R304). -/
theorem walkStep_aligned (s : State) (v : Vqp) (hgood : (atDescStart s && walkBroken s) = false)
    (hk : keepDescBase s = { s with vqp := v }) (hd : v.dma = [])
    (hg : guestAdmits s.cfg (v.descBase + (descFieldAt s.vqp.curField).1)
      (descFieldAt s.vqp.curField).2 = true)
    (ha : dmaAtomic (v.descBase + (descFieldAt s.vqp.curField).1)
      (descFieldAt s.vqp.curField).2 = true) :
    walkStep s = fieldRead (guestBytes s (v.descBase + (descFieldAt s.vqp.curField).1)
      (descFieldAt s.vqp.curField).2) { s with vqp := v } := by
  rw [walkStep, if_neg (by simp [hgood])]
  dsimp only
  rw [hk, dmaRead_atomic _ _ { s with vqp := v } hd hg ha]
  rfl

/-- The address field: its place is the one the index gives, and is kept (45_virtqueue.md R303). -/
theorem walkStep_addr (s : State) (hd : s.vqp.dma = []) (hf : s.vqp.curField = .addr)
    (hw : walkBroken s = false) (hg : guestAdmits s.cfg (descAddrOf s) 8 = true)
    (ha : descAddrOf s % 8 = 0) :
    walkStep s = { s with vqp := { s.vqp with
      descBase := descAddrOf s
      cur := { s.vqp.cur with addr := BitVec.ofNat 64 (leNat (guestBytes s (descAddrOf s) 8)) }
      curField := .len } } := by
  have hfield : descFieldAt s.vqp.curField = (0, 8) := by rw [hf]; rfl
  rw [walkStep_aligned s _ (by rw [hw, Bool.and_false]) (keepDescBase_start s hd hf) hd
    (by rw [hfield]; exact hg) (by rw [hfield]; exact (dmaAtomic_iff _ _).2 ⟨by decide, ha⟩), hfield]
  exact fieldRead_addr _ _ hf

/-- A later field at offset `off` (45_virtqueue.md R304). -/
theorem walkStep_field (s : State) (f : DescField) (off n : Nat) (hd : s.vqp.dma = [])
    (hf : s.vqp.curField = f) (hne : f ≠ .addr) (hat : descFieldAt f = (off, n))
    (hg : guestAdmits s.cfg (s.vqp.descBase + off) n = true) (hn : n ≤ 8)
    (ha : (s.vqp.descBase + off) % n = 0) :
    walkStep s = fieldRead (guestBytes s (s.vqp.descBase + off) n) s := by
  subst hf
  have hstart := atDescStart_of_field s hne
  have hkeep : keepDescBase s = s := by rw [keepDescBase, hstart]; rfl
  have hread := walkStep_aligned s s.vqp (by rw [hstart, Bool.false_and]) hkeep hd
  rw [hat] at hread
  exact hread hg ((dmaAtomic_iff _ _).2 ⟨hn, ha⟩)

/-- Settles O51: the checks of the index, then each field, the last one with the checks of the flags. -/
theorem chainWalk : Obligations.ChainWalk := by
  rintro s q rfl hp hd malformed field broken desc
  rw [vqpStep_walk s hp]
  have hmalformed : malformedChain s = malformed := rfl
  refine ⟨fun hf hb => ?broken, fun hf hb hg ha => ?addr, fun hf hg ha => ?len, fun hf hg ha => ?flags,
    fun hf hg ha => ?next⟩
  case broken => rw [walkStep_broken s hd hf ((walkBroken_iff s).2 hb), hmalformed]
  case addr =>
    have hw : walkBroken s = false := Bool.eq_false_iff.2 (mt (walkBroken_iff s).1 hb)
    rw [walkStep_addr s hd hf hw hg ha]
    rfl
  case len =>
    have hread := walkStep_field s .len 8 4 hd hf (by decide) rfl hg (by decide) (by omega)
    exact congrArg _ (hread.trans (fieldRead_len _ s hf))
  case flags =>
    have hread := walkStep_field s .flags 12 2 hd hf (by decide) rfl hg (by decide) (by omega)
    exact congrArg _ (hread.trans (fieldRead_flags _ s hf))
  case next =>
    intro d bad
    have hread := walkStep_field s .next 14 2 hd hf (by decide) rfl hg (by decide) (by omega)
    have hstep : walkStep s = descRead d s := hread.trans (fieldRead_next _ s hf)
    rw [hstep]
    refine ⟨fun hbad => ?_, fun hgood => ?_⟩
    · rw [descRead_malformed d s hbad, hmalformed]
    · rw [descRead_joins d s hgood]
      rfl

end Sys2Proof.Machine
end

section
/-! PROOFS. Request and response, one byte a step (O52). -/
namespace Sys2Proof.Machine

theorem vqpStep_gather (s : State) (h : s.vqp.phase = .gather) : vqpStep s = .next (gatherStep s) := by
  simp [vqpStep, vqpPhaseStep, h]

theorem vqpStep_respond (s : State) (h : s.vqp.phase = .respond) : vqpStep s = .next (respondStep s) := by
  simp [vqpStep, vqpPhaseStep, h]

/-! ### GATHER -/

theorem gatherStep_complete (s : State) (h : gatherLimit s ≤ s.vqp.req.length) :
    gatherStep s = setPhase .translate s :=
  if_neg (Nat.not_lt.2 h)

/-- There is a byte to read, and it has an address (45_virtqueue.md R305). -/
theorem segAddr_readable (s : State) (h : s.vqp.req.length < gatherLimit s) :
    ∃ a, segAddr (readableSegs s.vqp.chain) s.vqp.req.length = some a :=
  segAddr_isSome _ _ (h.trans_le (Nat.min_le_left _ _))

theorem gatherStep_held (s : State) (a : Nat) (h : s.vqp.req.length < gatherLimit s)
    (ha : segAddr (readableSegs s.vqp.chain) s.vqp.req.length = some a)
    (hg : guestAdmits s.cfg a 1 = false) : gatherStep s = s := by
  simp [gatherStep, h, ha, hg]

theorem gatherStep_byte (s : State) (a : Nat) (h : s.vqp.req.length < gatherLimit s)
    (ha : segAddr (readableSegs s.vqp.chain) s.vqp.req.length = some a)
    (hg : guestAdmits s.cfg a 1 = true) :
    gatherStep s = { s with vqp := { s.vqp with
      req := s.vqp.req ++ [guestByte s a]
      phase := if s.vqp.req.length + 1 < gatherLimit s then .gather else .translate } } := by
  simp [gatherStep, h, ha, hg]

/-! ### RESPOND -/

theorem respondStep_complete (s : State) (h : respondLimit s ≤ s.vqp.written) :
    respondStep s = setPhase .usedElem s :=
  if_neg (Nat.not_lt.2 h)

/-- There is a byte to write, and it has an address (45_virtqueue.md R308). -/
theorem segAddr_writable (s : State) (h : s.vqp.written < respondLimit s) :
    ∃ a, segAddr (writableSegs s.vqp.chain) s.vqp.written = some a :=
  segAddr_isSome _ _ (h.trans_le (Nat.min_le_left _ _))

theorem written_lt_resp (s : State) (h : s.vqp.written < respondLimit s) :
    s.vqp.written < s.vqp.resp.length :=
  h.trans_le (Nat.min_le_right _ _)

theorem respondStep_held (s : State) (a : Nat) (h : s.vqp.written < respondLimit s)
    (ha : segAddr (writableSegs s.vqp.chain) s.vqp.written = some a)
    (hg : guestAdmits s.cfg a 1 = false) : respondStep s = s := by
  simp [respondStep, h, ha, hg]

theorem respondStep_byte (s : State) (a : Nat) (b : Byte) (h : s.vqp.written < respondLimit s)
    (ha : segAddr (writableSegs s.vqp.chain) s.vqp.written = some a)
    (hb : s.vqp.resp[s.vqp.written]? = some b) (hg : guestAdmits s.cfg a 1 = true) :
    respondStep s = { guestStore a [b] s with vqp := { s.vqp with
      written := s.vqp.written + 1
      phase := if s.vqp.written + 1 < respondLimit s then .respond else .usedElem } } := by
  simp [respondStep, h, ha, hb, hg]

/-- Settles O52: what the two steps ask of the chain is its readable and its writable bytes, at most
MAX_REQ_BYTES and at most the response's. -/
theorem gatherAndRespond : Obligations.GatherAndRespond := by
  intro s readable writable total want room
  have hwant : gatherLimit s = want := by rw [gatherLimit, seg_sum]; rfl
  have hroom : respondLimit s = room := by rw [respondLimit, seg_sum]; rfl
  rw [← hwant, ← hroom]
  refine ⟨fun hp h => ?gathered, fun hp h => ?gather, fun hp h => ?responded, fun hp h => ?respond⟩
  case gathered => exact (vqpStep_gather s hp).trans (congrArg _ (gatherStep_complete s h))
  case gather =>
    obtain ⟨a, ha⟩ := segAddr_readable s h
    rw [vqpStep_gather s hp]
    exact ⟨a, ha, fun hg => congrArg _ (gatherStep_held s a h ha hg),
      fun hg => congrArg _ (gatherStep_byte s a h ha hg)⟩
  case responded => exact (vqpStep_respond s hp).trans (congrArg _ (respondStep_complete s h))
  case respond =>
    obtain ⟨a, ha⟩ := segAddr_writable s h
    have hb := List.getElem?_eq_getElem (written_lt_resp s h)
    rw [vqpStep_respond s hp]
    exact ⟨a, _, ha, hb, fun hg => congrArg _ (respondStep_held s a h ha hg),
      fun hg => congrArg _ (respondStep_byte s a _ h ha hb hg)⟩

end Sys2Proof.Machine
end

section
/-! PROOFS. The end of a request (O53): the used element, the used index and the notification. -/
namespace Sys2Proof.Machine

/-! ### The used element -/

theorem usedSlotAddr_of_ne_zero (q : Queue) (h : q.num ≠ 0) :
    usedSlotAddr q = q.deviceAddr.toNat + 4 + 8 * (q.usedIdx.toNat % q.num.toNat) := by
  rw [usedSlotAddr, ringSlot_of_ne_zero _ _ h]

theorem usedElement_length (v : Vqp) : (usedElement v).length = 8 := by simp [usedElement]

/-- The head index in the first four bytes, the bytes written in the last four (45_virtqueue.md R309). -/
theorem usedElement_getD (v : Vqp) (i : Nat) (h : i < 8) :
    (usedElement v).getD i 0 =
      if i < 4 then BitVec.ofNat 8 (v.head.toNat / 256 ^ i) else BitVec.ofNat 8 (v.written / 256 ^ (i - 4)) := by
  rw [usedElement]
  split
  · next hi =>
    rw [List.getD_append _ _ _ _ (by simpa using hi), leBytes_getD 4 _ i hi]
  · next hi =>
    rw [List.getD_append_right _ _ _ _ (by simpa using hi), leBytes_length, leBytes_getD 4 _ _ (by omega)]

/-- The eight bytes: a head index fills two, so the next two are 0. -/
theorem usedElement_bytes (v : Vqp) :
    usedElement v = BitVec.ofNat 8 v.head.toNat :: [BitVec.ofNat 8 (v.head.toNat / 256), 0, 0,
      BitVec.ofNat 8 v.written, BitVec.ofNat 8 (v.written / 256), BitVec.ofNat 8 (v.written / 256 ^ 2),
      BitVec.ofNat 8 (v.written / 256 ^ 3)] := by
  have hhead : v.head.toNat / 256 / 256 = 0 := by have := v.head.isLt; omega
  simp [usedElement, leBytes, hhead, Nat.div_div_eq_div_mul]

theorem setPhase_guestStore (p : Phase) (a : Nat) (bytes : List Byte) (s : State) :
    setPhase p (guestStore a bytes s) =
      { guestStore a bytes s with vqp := { s.vqp with phase := p } } := rfl

theorem usedElemStep_whole (s : State) (hd : s.vqp.dma = [])
    (hg : guestAdmits s.cfg (usedSlotAddr (servedQueue s)) 8 = true)
    (ha : usedSlotAddr (servedQueue s) % 8 = 0) :
    usedElemStep s = { guestStore (usedSlotAddr (servedQueue s)) (usedElement s.vqp) s with
      vqp := { s.vqp with phase := .usedIdx } } := by
  have hlen := usedElement_length s.vqp
  rw [← setPhase_guestStore, usedElemStep, dmaWrite_atomic _ _ s hd (by rw [hlen]; exact hg)
    ((dmaAtomic_iff _ _).2 (by rw [hlen]; exact ⟨by decide, ha⟩))]

/-- The first byte of a used element written in parts; the rest is kept (20_memory.md R77, log 12). -/
theorem usedElemStep_first (s : State) (b : Byte) (bs : List Byte) (hd : s.vqp.dma = [])
    (hbytes : usedElement s.vqp = b :: bs)
    (hg : guestAdmits s.cfg (usedSlotAddr (servedQueue s)) 8 = true)
    (ha : usedSlotAddr (servedQueue s) % 8 ≠ 0) :
    usedElemStep s =
      setDma bs (usedSlotAddr (servedQueue s) + 1) (guestStore (usedSlotAddr (servedQueue s)) [b] s) := by
  have hlen : bs.length + 1 = 8 := by rw [← usedElement_length s.vqp, hbytes, List.length_cons]
  have hne : bs ≠ [] := by rintro rfl; cases hlen
  have hparts : dmaAtomic (usedSlotAddr (servedQueue s)) (bs.length + 1) = false := by
    rw [hlen, Bool.eq_false_iff]
    exact fun h => ha ((dmaAtomic_iff _ _).1 h).2
  rw [usedElemStep, hbytes, dmaWrite_first _ b bs s hd (by rw [hlen]; exact hg) hparts hne]

/-- A later byte of a used element written in parts; the last one ends it (20_memory.md R77, log 12). -/
theorem usedElemStep_next (s : State) (b : Byte) (bs : List Byte) (hp : s.vqp.phase = .usedElem)
    (hd : s.vqp.dma = b :: bs) :
    usedElemStep s = { guestStore s.vqp.dmaAddr [b] s with vqp := { s.vqp with
      phase := if bs = [] then .usedIdx else .usedElem
      dma := bs
      dmaAddr := if bs = [] then 0 else s.vqp.dmaAddr + 1 } } := by
  rw [usedElemStep, dmaWrite_next _ _ b bs s hd]
  by_cases hbs : bs = []
  · simp only [hbs, if_true]; rfl
  · simp only [hbs, if_false]; rw [← hp]; rfl

/-- Guest memory once a used element is written (45_virtqueue.md R309). -/
theorem guestByte_usedElement (s t : State) (a : Nat)
    (h : t.guest = storeBytes s.guest a (usedElement s.vqp)) (b : Nat) :
    guestByte t b =
      if a ≤ b ∧ b < a + 4 then BitVec.ofNat 8 (s.vqp.head.toNat / 256 ^ (b - a))
      else if a + 4 ≤ b ∧ b < a + 8 then BitVec.ofNat 8 (s.vqp.written / 256 ^ (b - a - 4))
      else guestByte s b := by
  rw [guestByte_of_storeBytes s t a _ h b, usedElement_length]
  by_cases hin : a ≤ b ∧ b < a + 8
  · rw [if_pos hin, usedElement_getD s.vqp (b - a) (by omega)]
    by_cases hhead : b - a < 4
    · rw [if_pos hhead, if_pos (by omega)]
    · rw [if_neg hhead, if_neg (by omega), if_pos (by omega)]
  · rw [if_neg hin, if_neg (by omega), if_neg (by omega)]

/-! ### The used index -/

theorem add_one_eq_ofNat (x : BitVec 16) : x + 1 = BitVec.ofNat 16 (x.toNat + 1) := by
  apply BitVec.eq_of_toNat_eq
  simp

theorem bumpUsedIdx_first (s : State) (hd : s.vqp.dma = []) :
    bumpUsedIdx s =
      setQueue s.vqp.queue { servedQueue s with usedIdx := (servedQueue s).usedIdx + 1 } s := by
  simp [bumpUsedIdx, hd]

theorem setPhase_guestStore_setQueue (p : Phase) (a : Nat) (bytes : List Byte) (q : QueueId) (v : Queue)
    (s : State) : setPhase p (guestStore a bytes (setQueue q v s)) =
      setQueue q v { guestStore a bytes s with vqp := { s.vqp with phase := p } } := by
  cases q <;> rfl

theorem usedIdxStep_whole (s : State) (hd : s.vqp.dma = [])
    (hg : guestAdmits s.cfg ((servedQueue s).deviceAddr.toNat + 2) 2 = true)
    (ha : (servedQueue s).deviceAddr.toNat % 2 = 0) :
    usedIdxStep s = setQueue s.vqp.queue { servedQueue s with usedIdx := (servedQueue s).usedIdx + 1 }
      { guestStore ((servedQueue s).deviceAddr.toNat + 2)
          (leBytes 2 ((servedQueue s).usedIdx + 1).toNat) s with
        vqp := { s.vqp with phase := .notify } } := by
  have hserved : servedQueue (bumpUsedIdx s) =
      { servedQueue s with usedIdx := (servedQueue s).usedIdx + 1 } := by
    rw [bumpUsedIdx_first s hd]; simp [servedQueue]
  have haligned : ((servedQueue s).deviceAddr.toNat + 2) % 2 = 0 := by omega
  rw [← setPhase_guestStore_setQueue]
  dsimp only [usedIdxStep]
  rw [hserved, bumpUsedIdx_first s hd, dmaWrite_atomic]
  · rw [setQueue_vqp]; exact hd
  · rw [setQueue_cfg, leBytes_length]; exact hg
  · rw [leBytes_length]; exact (dmaAtomic_iff _ _).2 ⟨by decide, haligned⟩

/-- The used index counts modulo 65536, and its two bytes are those of the next number. -/
theorem leBytes_add_one (x : BitVec 16) :
    leBytes 2 (x + 1).toNat = [BitVec.ofNat 8 (x.toNat + 1), BitVec.ofNat 8 ((x.toNat + 1) / 256)] := by
  have hlow : (x.toNat + 1) % 65536 % 256 = (x.toNat + 1) % 256 := by omega
  have hhigh : (x.toNat + 1) % 65536 / 256 % 256 = (x.toNat + 1) / 256 % 256 := by omega
  simp [leBytes, ← BitVec.toNat_inj, hlow, hhigh]

theorem setQueue_withVqp (q : QueueId) (v : Queue) (w : Vqp) (s : State) :
    { setQueue q v s with vqp := w } = setQueue q v { s with vqp := w } := by
  cases q <;> rfl

theorem setQueue_withGuest (q : QueueId) (v : Queue) (m : Memory) (s : State) :
    { setQueue q v s with guest := m } = setQueue q v { s with guest := m } := by
  cases q <;> rfl

/-! ### The notification -/

theorem emit_setQueue (l : IrqLine) (q : QueueId) (v : Queue) (s : State) :
    emit l (setQueue q v s) = setQueue q v (emit l s) := by
  cases q <;> rfl

/-- The interrupt bit and the pulse do not change whether a queue can be served. -/
theorem serviceable_entryDone (s : State) (q : Queue) : serviceable (entryDone s) q = serviceable s q := by
  simp [serviceable, entryDone]

theorem entryDone_withVqp (s : State) (v : Vqp) :
    { entryDone s with vqp := v } = setQueue s.vqp.queue
      { servedQueue s with lastAvail := BitVec.ofNat 16 ((servedQueue s).lastAvail.toNat + 1) }
      { s with
        vio := { s.vio with interruptStatus := s.vio.interruptStatus ||| 0x1 }
        out := s.out ++ [.vio]
        vqp := v } := by
  rw [entryDone, emit_setQueue, setQueue_withVqp, add_one_eq_ofNat]
  rfl

/-- The end of an entry, and where the processor goes on (45_virtqueue.md R300, R311). -/
theorem notifyStep_eq (s : State) :
    notifyStep s = { entryDone s with
      vqp := if serviceable s (servedQueue s) then
          { Vqp.idle with phase := .readIdx, queue := s.vqp.queue }
        else Vqp.idle } := by
  dsimp only [notifyStep]
  rw [serviceable_entryDone]
  split <;> rfl

theorem vqpStep_notify (s : State) (h : s.vqp.phase = .notify) : vqpStep s = .next (notifyStep s) := by
  simp [vqpStep, vqpPhaseStep, h]

/-- Settles O53: the used element in one access, its first byte and its later ones; the used index; the
notification. -/
theorem completionSteps : Obligations.CompletionSteps := by
  rintro s q rfl
  refine ⟨fun a hp hd hnum ha hg hal => ?whole, fun a hp hd hnum ha hg hal => ?first,
    fun c cs hp hd => ?later, fun hp hd hg hal => ?index, fun hp => ?notify⟩
  case whole =>
    obtain rfl : usedSlotAddr (servedQueue s) = a := (usedSlotAddr_of_ne_zero _ hnum).trans ha.symm
    exact ⟨_, (vqpStep_usedElem s hp).trans (congrArg _ (usedElemStep_whole s hd hg hal)), rfl,
      guestByte_usedElement s _ _ rfl⟩
  case first =>
    obtain rfl : usedSlotAddr (servedQueue s) = a := (usedSlotAddr_of_ne_zero _ hnum).trans ha.symm
    have hfirst := usedElemStep_first s _ _ hd (usedElement_bytes s.vqp) hg hal
    exact ⟨_, (vqpStep_usedElem s hp).trans (congrArg _ hfirst), rfl, guestByte_of_storeByte s _ _ _ rfl⟩
  case later =>
    exact ⟨_, (vqpStep_usedElem s hp).trans (congrArg _ (usedElemStep_next s c cs hp hd)), rfl,
      guestByte_of_storeByte s _ _ c rfl⟩
  case index =>
    refine ⟨_, (vqpStep_usedIdx s hp).trans (congrArg _ (usedIdxStep_whole s hd hg hal)), ?_, ?_⟩
    · rw [setQueue_withGuest, add_one_eq_ofNat]
      rfl
    · refine guestByte_of_storePair s _ _ _ _ ?_
      rw [← leBytes_add_one]
      exact setQueue_guest _ _ _
  case notify => exact (vqpStep_notify s hp).trans (congrArg _ ((notifyStep_eq s).trans (entryDone_withVqp s _)))

end Sys2Proof.Machine
end

section
/-! PROOFS. The translator's invariant (O13): what it asks of the table, of the scan-out and of the staging
copy, what each effect of a request does to the three, then one lemma for each agent's turn. -/
namespace Sys2Proof.Machine

/-! ### The parameters -/

/-- What the translator needs of the constraints of 00_scope.md R7. -/
structure ImageBounds (p : Params) : Prop where
  vram_le : p.vramSize ≤ 2 ^ 32
  staging_le : p.stagingSize ≤ p.vramSize
  image_le : 4 * p.maxResW * p.maxResH ≤ p.stagingSize
  stride_lt : 4 * p.maxResW < 2 ^ 16
  height_lt : p.maxResH < 2 ^ 16

theorem imageBounds_of_ok (p : Params) (h : p.ok = true) : ImageBounds p := by
  simp only [Params.ok, Bool.and_eq_true, decide_eq_true_eq, and_assoc] at h
  obtain ⟨-, -, -, hvram, hstaging, himage, -, hstride, hheight, -⟩ := h
  exact ⟨hvram, hstaging, himage, by omega, by omega⟩

/-! ### The table -/

/-- A resource of the table under its id (10_state.md R42, 46_gpu_translator.md R341). -/
structure LegalResource (p : Params) (id : Nat) (r : Resource) : Prop where
  id_pos : 0 < id
  id_lt : id < 2 ^ 32
  format : formatAccepted r.format = true
  width_pos : 1 ≤ r.width
  width_le : r.width ≤ p.maxResW
  height_pos : 1 ≤ r.height
  height_le : r.height ≤ p.maxResH
  stride : r.stride = 4 * r.width
  size : r.size = r.stride * r.height
  base_ge : p.resHeapBase ≤ r.base
  aligned : (r.base - p.resHeapBase) % p.allocAlign = 0
  fits : r.base + r.size ≤ p.stagingBase

theorem resourceOk_iff (p : Params) (e : Nat × Resource) :
    resourceOk p e = true ↔ LegalResource p e.1 e.2 := by
  simp only [resourceOk, Bool.and_eq_true, decide_eq_true_eq, beq_iff_eq, and_assoc]
  constructor
  · rintro ⟨hpos, hlt, hformat, hw, hmaxw, hh, hmaxh, hstride, hsize, hbase, haligned, hfits⟩
    constructor <;> assumption
  · rintro ⟨⟩
    and_intros <;> assumption

/-- Two entries whose regions share no address (46_gpu_translator.md R341). -/
def RegionsApart (a b : Nat × Resource) : Prop := overlapsResource a.2.base a.2.size b.2 = false

/-- What the invariant asks of the table (10_state.md R42). -/
structure LegalTable (p : Params) (rs : List (Nat × Resource)) : Prop where
  rising : keysRising rs = true
  legal : ∀ e ∈ rs, LegalResource p e.1 e.2
  apart : rs.Pairwise RegionsApart
  length_le : rs.length ≤ p.maxResources

theorem translatorOk_iff (s : State) : translatorOk s = true ↔
    LegalTable s.cfg s.resources ∧ scanoutOk s.resources s.scanout = true ∧
      stagingOk s.cfg s.vqp = true := by
  simp only [translatorOk, regionsDisjoint, Bool.and_eq_true, decide_eq_true_eq, List.all_eq_true,
    resourceOk_iff, and_assoc]
  exact ⟨fun ⟨hrising, hlegal, hapart, hlength, hrest⟩ => ⟨⟨hrising, hlegal, hapart, hlength⟩, hrest⟩,
    fun ⟨⟨hrising, hlegal, hapart, hlength⟩, hrest⟩ => ⟨hrising, hlegal, hapart, hlength, hrest⟩⟩

theorem LegalTable.empty (p : Params) : LegalTable p [] :=
  ⟨rfl, by simp, List.Pairwise.nil, Nat.zero_le _⟩

/-- A resource that is found is one of the table's. -/
theorem LegalTable.resource {s : State} (h : LegalTable s.cfg s.resources) {id : Word32} {r : Resource}
    (hr : lookupResource s id = some r) : LegalResource s.cfg id.toNat r :=
  h.legal _ (mem_of_assocGet _ _ _ (lookupResource_some s id r hr).2)

/-- The allocator's answer makes a legal resource of a new one (46_gpu_translator.md R341, R346). -/
theorem LegalTable.insert {p : Params} {rs : List (Nat × Resource)} (h : LegalTable p rs) (id : Nat)
    (r : Resource) (hr : LegalResource p id r) (hn : assocGet id rs = none)
    (hl : rs.length < p.maxResources)
    (ha : ∀ e ∈ rs, overlapsResource r.base r.size e.2 = false) : LegalTable p (assocPut id r rs) where
  rising := keysRising_assocPut id r rs h.rising
  legal e he := by
    obtain rfl | he := mem_assocPut id r rs e he
    · exact hr
    · exact h.legal e he
  apart := assocPut_pairwise RegionsApart id r rs h.apart fun e he =>
    ⟨ha e he, overlaps_symm r e.2 (ha e he)⟩
  length_le := by rw [assocPut_length_none id r rs hn]; exact hl

/-- Only a resource's backing is replaced: its region stays where it is (46_gpu_translator.md R351,
R352). -/
theorem LegalTable.setBacking {p : Params} {rs : List (Nat × Resource)} (h : LegalTable p rs) (id : Nat)
    (r : Resource) (b : Option (List BackingEntry)) (hr : assocGet id rs = some r) :
    LegalTable p (assocPut id { r with backing := b } rs) where
  rising := keysRising_assocPut id _ rs h.rising
  legal e he := by
    obtain rfl | he := mem_assocPut id _ rs e he
    · obtain ⟨⟩ := h.legal _ (mem_of_assocGet id r rs hr)
      constructor <;> assumption
    · exact h.legal e he
  apart := by
    obtain ⟨before, after, hrs, hput⟩ := assocPut_some id { r with backing := b } r rs h.rising hr
    rw [hput]
    have hapart := h.apart
    rw [hrs] at hapart
    simpa [List.pairwise_append, RegionsApart, overlapsResource] using hapart
  length_le := by
    obtain ⟨before, after, hrs, hput⟩ := assocPut_some id { r with backing := b } r rs h.rising hr
    rw [hput]
    simpa [hrs] using h.length_le

theorem LegalTable.erase {p : Params} {rs : List (Nat × Resource)} (h : LegalTable p rs) (id : Nat) :
    LegalTable p (assocErase id rs) where
  rising := keysRising_assocErase id rs h.rising
  legal e he := h.legal e (mem_assocErase id rs e he)
  apart := h.apart.sublist (assocErase_sublist id rs)
  length_le := (assocErase_sublist id rs).length_le.trans h.length_le

/-! ### The scan-out -/

/-- The scan-out shows a rectangle with pixels, inside the resource (46_gpu_translator.md R348). -/
structure ShowsPart (sc : Scanout) (r : Resource) : Prop where
  inside : rectInside sc.rect r.width r.height = true
  width_ne : sc.rect.width ≠ 0
  height_ne : sc.rect.height ≠ 0
  base : sc.base = resourceAddr r sc.rect.x sc.rect.y
  stride : sc.stride = r.stride

theorem scanoutOk_off (rs : List (Nat × Resource)) : scanoutOk rs Scanout.off = true := rfl

theorem scanoutOk_enabled_iff (rs : List (Nat × Resource)) (sc : Scanout) (h : sc.enabled = true) :
    scanoutOk rs sc = true ↔ ∃ r, assocGet sc.resourceId.toNat rs = some r ∧ ShowsPart sc r := by
  rw [scanoutOk, if_pos h]
  cases assocGet sc.resourceId.toNat rs with
  | none => simp
  | some r =>
    simp only [Bool.and_eq_true, bne_iff_ne, beq_iff_eq, Option.some.injEq, exists_eq_left', and_assoc]
    exact ⟨fun ⟨hinside, hw, hh, hbase, hstride⟩ => ⟨hinside, hw, hh, hbase, hstride⟩,
      fun ⟨hinside, hw, hh, hbase, hstride⟩ => ⟨hinside, hw, hh, hbase, hstride⟩⟩

/-- A table that keeps the resource an enabled scan-out shows, but for its backing, keeps it legal. -/
theorem scanoutOk_of_lookup (rs rs' : List (Nat × Resource)) (sc : Scanout) (h : scanoutOk rs sc = true)
    (hk : ∀ r, sc.enabled = true → assocGet sc.resourceId.toNat rs = some r →
      ∃ b, assocGet sc.resourceId.toNat rs' = some { r with backing := b }) :
    scanoutOk rs' sc = true := by
  by_cases he : sc.enabled = true
  · obtain ⟨r, hr, hinside, hw, hh, hbase, hstride⟩ := (scanoutOk_enabled_iff rs sc he).1 h
    obtain ⟨b, hb⟩ := hk r he hr
    exact (scanoutOk_enabled_iff rs' sc he).2 ⟨_, hb, hinside, hw, hh, hbase, hstride⟩
  · rw [scanoutOk, if_neg he] at h ⊢
    exact h

/-- A new resource leaves the one that is shown (46_gpu_translator.md R346). -/
theorem scanoutOk_insert (rs : List (Nat × Resource)) (sc : Scanout) (id : Nat) (r : Resource)
    (h : scanoutOk rs sc = true) (hn : assocGet id rs = none) :
    scanoutOk (assocPut id r rs) sc = true := by
  refine scanoutOk_of_lookup rs _ sc h fun r' _ hr' => ⟨r'.backing, ?_⟩
  have hne : sc.resourceId.toNat ≠ id := by
    rintro rfl
    rw [hn] at hr'
    cases hr'
  rw [assocGet_assocPut_ne id _ r rs hne, hr']

theorem scanoutOk_setBacking (rs : List (Nat × Resource)) (sc : Scanout) (id : Nat) (r : Resource)
    (b : Option (List BackingEntry)) (h : scanoutOk rs sc = true) (hr : assocGet id rs = some r) :
    scanoutOk (assocPut id { r with backing := b } rs) sc = true := by
  refine scanoutOk_of_lookup rs _ sc h fun r' _ hr' => ?_
  by_cases hid : sc.resourceId.toNat = id
  · subst hid
    obtain rfl : r = r' := Option.some.inj (hr.symm.trans hr')
    exact ⟨b, assocGet_assocPut_eq _ _ rs⟩
  · exact ⟨r'.backing, by rw [assocGet_assocPut_ne id _ _ rs hid, hr']⟩

/-- A resource that is not shown can be unmapped (46_gpu_translator.md R347). -/
theorem scanoutOk_erase (rs : List (Nat × Resource)) (sc : Scanout) (id : Word32)
    (h : scanoutOk rs sc = true) (hne : sc.enabled = true → sc.resourceId ≠ id) :
    scanoutOk (assocErase id.toNat rs) sc = true := by
  refine scanoutOk_of_lookup rs _ sc h fun r he hr => ⟨r.backing, ?_⟩
  rw [assocGet_assocErase_ne id.toNat _ rs fun e => hne he (BitVec.eq_of_toNat_eq e), hr]

/-! ### The staging copy -/

/-- A plan that the staging area and its backing hold (46_gpu_translator.md R350, R356). -/
structure LegalPlan (p : Params) (g : StagingPlan) : Prop where
  width_pos : 1 ≤ g.width
  height_pos : 1 ≤ g.height
  total_le : stagingTotal g ≤ p.stagingSize
  backed : g.offset + (g.height - 1) * g.stride + 4 * g.width ≤ segLength (backingSegs g.backing)

theorem LegalPlan.total_pos {p : Params} {g : StagingPlan} (h : LegalPlan p g) : 0 < stagingTotal g := by
  have hw := h.width_pos
  have hh := h.height_pos
  unfold stagingTotal
  positivity

theorem stagingOk_of_ne_stage (p : Params) (v : Vqp) (h : v.phase ≠ .stage) : stagingOk p v = true := by
  unfold stagingOk
  split
  · next hs => exact absurd hs h
  all_goals rfl

theorem stagingOk_stage_iff (p : Params) (v : Vqp) (h : v.phase = .stage) : stagingOk p v = true ↔
    ∃ g, v.plan = some g ∧ LegalPlan p g ∧ v.copied < stagingTotal g := by
  simp only [stagingOk, h]
  cases v.plan with
  | none => simp
  | some g =>
    simp only [Bool.and_eq_true, decide_eq_true_eq, Option.some.injEq, exists_eq_left', and_assoc]
    exact ⟨fun ⟨hw, hh, htotal, hcopied, hbacked⟩ => ⟨⟨hw, hh, htotal, hbacked⟩, hcopied⟩,
      fun ⟨⟨hw, hh, htotal, hbacked⟩, hcopied⟩ => ⟨hw, hh, htotal, hcopied, hbacked⟩⟩

theorem phaseAfterStage_ne_stage (g : List Word64) : phaseAfterStage g ≠ .stage := by
  unfold phaseAfterStage
  split <;> decide

theorem rectInside_iff (r : Rect) (w h : Nat) : rectInside r w h = true ↔
    r.x.toNat + r.width.toNat ≤ w ∧ r.y.toNat + r.height.toNat ≤ h := by
  simp [rectInside]

/-- A side of a rectangle that is not empty has a pixel. -/
theorem toNat_pos_of_ne_zero {n : Nat} (x : BitVec n) (h : x ≠ 0) : 0 < x.toNat :=
  Nat.pos_of_ne_zero fun e => h (BitVec.eq_of_toNat_eq e)

/-- A rectangle of a resource is no larger than the largest image, which the staging area holds
(00_scope.md R7, 46_gpu_translator.md R350). -/
theorem legalPlan_of_transfer (s : State) (hp : ImageBounds s.cfg) (hs : LegalTable s.cfg s.resources)
    (group : List Word64) (g : StagingPlan) (h : PlanEffect s group (some g)) : LegalPlan s.cfg g := by
  cases h with
  | transfer id res backing r offset hg hr hi hw hh hl =>
    have hres := hs.resource hr
    obtain ⟨hx, hy⟩ := (rectInside_iff _ _ _).1 hi
    have hwidth : r.width.toNat ≤ s.cfg.maxResW := by have := hres.width_le; omega
    have hheight : r.height.toNat ≤ s.cfg.maxResH := by have := hres.height_le; omega
    refine ⟨toNat_pos_of_ne_zero _ hw, toNat_pos_of_ne_zero _ hh, ?_, hl⟩
    calc r.height.toNat * (4 * r.width.toNat)
        ≤ s.cfg.maxResH * (4 * s.cfg.maxResW) := by gcongr
      _ = 4 * s.cfg.maxResW * s.cfg.maxResH := Nat.mul_comm _ _
      _ ≤ s.cfg.stagingSize := hp.image_le

/-- A translation goes to the staging copy exactly with a plan, of which no byte is copied
(45_virtqueue.md R306). -/
theorem stagingOk_finishTranslate (p : Params) (resp : List Byte) (group : List Word64)
    (plan : Option StagingPlan) (s : State) (h : ∀ g, plan = some g → LegalPlan p g) :
    stagingOk p (finishTranslate resp group plan s).vqp = true := by
  cases plan with
  | some g => exact (stagingOk_stage_iff p _ rfl).2 ⟨g, rfl, h g rfl, (h g rfl).total_pos⟩
  | none =>
    refine stagingOk_of_ne_stage p _ ?_
    dsimp only [finishTranslate, phaseAfterTranslate]
    split <;> decide

/-- A staged byte that is not the last leaves the copy under way (46_gpu_translator.md R356). -/
theorem stagingOk_stageByte (s : State) (g : StagingPlan) (b : Byte) (h : s.vqp.phase = .stage)
    (hg : s.vqp.plan = some g) (hs : stagingOk s.cfg s.vqp = true) :
    stagingOk s.cfg (stageByte g b s).vqp = true := by
  obtain ⟨g', hg', hlegal, -⟩ := (stagingOk_stage_iff _ _ h).1 hs
  obtain rfl : g = g' := Option.some.inj (hg.symm.trans hg')
  by_cases hmore : s.vqp.copied + 1 < stagingTotal g
  · exact (stagingOk_stage_iff _ _ (if_pos hmore)).2 ⟨g, hg, hlegal, hmore⟩
  · refine stagingOk_of_ne_stage _ _ ?_
    dsimp only [stageByte]
    rw [if_neg hmore]
    exact phaseAfterStage_ne_stage _

/-! ### One lemma an effect -/

/-- What the allocator answers is where a resource may lie (46_gpu_translator.md R341). -/
theorem allocRegion_spec (p : Params) (rs : List (Nat × Resource)) (size b : Nat)
    (h : allocRegion p rs size = some b) :
    p.resHeapBase ≤ b ∧ (b - p.resHeapBase) % p.allocAlign = 0 ∧ b + size ≤ p.stagingBase ∧
      ∀ e ∈ rs, overlapsResource b size e.2 = false := by
  obtain ⟨⟨k, rfl⟩, hfits, hfree⟩ := allocFrom_spec p rs size _ 0 b h
  exact ⟨Nat.le_add_right _ _, by simp, hfits, hfree⟩

/-- A request keeps the table and the scan-out legal (46_gpu_translator.md R346 to R352). -/
theorem tableEffect_legal (s u : State) (hs : LegalTable s.cfg s.resources)
    (hsc : scanoutOk s.resources s.scanout = true) (hu : TableEffect s u) :
    LegalTable s.cfg u.resources ∧ scanoutOk u.resources u.scanout = true := by
  cases hu with
  | same | fault => exact ⟨hs, hsc⟩
  | create id format w h b hid hn hf hw hh hl hb =>
    obtain ⟨hge, haligned, hfits, hfree⟩ := allocRegion_spec _ _ _ _ hb
    exact ⟨hs.insert id.toNat _ ⟨toNat_pos_of_ne_zero id hid, id.isLt, hf, hw.1, hw.2, hh.1, hh.2, rfl,
      rfl, hge, haligned, hfits⟩ hn hl hfree, scanoutOk_insert _ _ id.toNat _ hsc hn⟩
  | backing id r b h =>
    have hr := (lookupResource_some s id r h).2
    exact ⟨hs.setBacking id.toNat r b hr, scanoutOk_setBacking _ _ id.toNat r b hsc hr⟩
  | remove id r h =>
    refine ⟨hs.erase id.toNat, ?_⟩
    rw [removeResource_scanout, removeResource_resources]
    split
    · exact scanoutOk_off _
    · next hbound =>
      exact scanoutOk_erase _ _ id hsc fun he hid => hbound (by simp [he, hid])
  | scanoutOff => exact ⟨hs, scanoutOk_off _⟩
  | scanoutOn id res r h hw hh hi =>
    exact ⟨hs, (scanoutOk_enabled_iff _ _ rfl).2
      ⟨res, (lookupResource_some s id res h).2, hi, hw, hh, rfl, rfl⟩⟩

theorem requestOutcome_translatorOk (s t : State) (hp : ImageBounds s.cfg) (hs : translatorOk s = true)
    (ht : RequestOutcome s t) : translatorOk t = true := by
  have hcfg : t.cfg = s.cfg := by rw [requestOutcome_frame s t ht]
  obtain ⟨htable, hscanout, -⟩ := (translatorOk_iff s).1 hs
  obtain ⟨u, resp, group, plan, rfl, hu, hplan⟩ := ht
  obtain ⟨htable', hscanout'⟩ := tableEffect_legal s u htable hscanout hu
  rw [translatorOk_iff, hcfg]
  refine ⟨htable', hscanout', stagingOk_finishTranslate s.cfg resp group plan u ?_⟩
  rintro g rfl
  exact legalPlan_of_transfer s hp htable group g hplan

/-- What the invariant looks at, but for the processor's position, is kept. -/
structure KeepsTable (s t : State) : Prop where
  cfg : t.cfg = s.cfg
  resources : t.resources = s.resources
  scanout : t.scanout = s.scanout

/-- A turn that keeps the table and the scan-out need only keep the staging copy legal. -/
theorem translatorOk_of_keepsTable (s t : State) (hs : translatorOk s = true) (hk : KeepsTable s t)
    (hv : stagingOk s.cfg t.vqp = true) : translatorOk t = true := by
  obtain ⟨htable, hscanout, -⟩ := (translatorOk_iff s).1 hs
  rw [translatorOk_iff, hk.cfg, hk.resources, hk.scanout]
  exact ⟨htable, hscanout, hv⟩

/-- A turn that leaves the processor where it is, too. -/
theorem translatorOk_of_same_vqp (s t : State) (hs : translatorOk s = true) (hk : KeepsTable s t)
    (hv : t.vqp = s.vqp) : translatorOk t = true :=
  translatorOk_of_keepsTable s t hs hk (hv ▸ ((translatorOk_iff s).1 hs).2.2)

/-- A reset empties the table (10_state.md R47). -/
theorem translatorOk_of_reset (t : State) (hr : t.resources = []) (hsc : t.scanout = Scanout.off)
    (hv : t.vqp = Vqp.idle) : translatorOk t = true := by
  rw [translatorOk_iff, hr, hsc, hv]
  exact ⟨.empty _, scanoutOk_off _, rfl⟩

/-- A register access keeps the table, the scan-out and the processor, or resets the three
(70_reset_and_hazards.md R441). -/
theorem accessEffect_translator (s u : State) (hu : AccessEffect s u) :
    (KeepsTable s u ∧ u.vqp = s.vqp) ∨
      (u.resources = [] ∧ u.scanout = Scanout.off ∧ u.vqp = Vqp.idle) := by
  cases hu with
  | reset => exact .inr ⟨rfl, rfl, rfl⟩
  | configure | enable | disable | notify =>
    exact .inl ⟨⟨setQueue_cfg _ _ _, setQueue_resources _ _ _, setQueue_scanout _ _ _⟩,
      setQueue_vqp _ _ _⟩
  | _ => exact .inl ⟨⟨rfl, rfl, rfl⟩, rfl⟩

theorem hostEffect_translatorOk (s t : State) (hs : translatorOk s = true) (ht : HostEffect s t) :
    translatorOk t = true := by
  cases ht with
  | access a rest h r u hu =>
    obtain ⟨⟨hcfg, hres, hsc⟩, hv⟩ | ⟨hres, hsc, hv⟩ :=
      accessEffect_translator { s with hostOps := rest } u hu
    · exact translatorOk_of_same_vqp s _ hs ⟨hcfg, hres, hsc⟩ hv
    · exact translatorOk_of_reset _ hres hsc hv
  | _ => exact translatorOk_of_same_vqp s _ hs ⟨rfl, rfl, rfl⟩ rfl

/-- Of the processor's steps TRANSLATE alone writes the table, and the copy's own bytes alone leave it in
the copy. -/
theorem vqpEffect_translatorOk (s t : State) (hp : ImageBounds s.cfg) (hs : translatorOk s = true)
    (ht : VqpEffect s t) : translatorOk t = true := by
  have leaves (t : State) (hk : KeepsTable s t) (hv : t.vqp.phase ≠ .stage) : translatorOk t = true :=
    translatorOk_of_keepsTable s t hs hk (stagingOk_of_ne_stage _ _ hv)
  have served (q : QueueId) (v : Queue) : KeepsTable s (setQueue q v s) :=
    ⟨setQueue_cfg q v s, setQueue_resources q v s, setQueue_scanout q v s⟩
  cases ht with
  | hold => exact hs
  | position v h0 h1 h2 => exact leaves _ ⟨rfl, rfl, rfl⟩ h2
  | select q =>
    obtain ⟨hcfg, hres, hsc⟩ := served q { getQueue s q with pending := false }
    exact leaves _ ⟨hcfg, hres, hsc⟩ (by simp)
  | overrun => exact leaves _ ⟨rfl, rfl, rfl⟩ (by simp [Vqp.idle])
  | malformed h v hv => exact leaves _ ⟨rfl, rfl, rfl⟩ (by simp [hv])
  | translate h t ht => exact requestOutcome_translatorOk s t hp hs ht
  | stage g b h hg =>
    exact translatorOk_of_keepsTable s _ hs ⟨rfl, rfl, rfl⟩
      (stagingOk_stageByte s g b h hg ((translatorOk_iff s).1 hs).2.2)
  | acquire => exact leaves _ ⟨rfl, rfl, rfl⟩ (by simp)
  | push w ws => exact leaves _ ⟨rfl, rfl, rfl⟩ (by dsimp only; split <;> decide)
  | pushEnd => exact leaves _ ⟨rfl, rfl, rfl⟩ (by simp)
  | release => exact leaves _ ⟨rfl, rfl, rfl⟩ (by simp)
  | guestWrite q u a bytes v h hv =>
    obtain ⟨hcfg, hres, hsc⟩ := served q { getQueue s q with usedIdx := u }
    refine leaves _ ⟨hcfg, hres, hsc⟩ ?_
    rcases hv with h | h | h | h <;> simp [h]
  | notify h v hv =>
    rw [entryDone_frame]
    refine leaves _ ⟨rfl, rfl, rfl⟩ ?_
    rcases hv with h | h <;> simp [h]

theorem stepEffect_translatorOk (s t : State) (trn : Turn) (hp : ImageBounds s.cfg)
    (hs : translatorOk s = true) (ht : StepEffect s trn t) : translatorOk t = true := by
  cases ht with
  | powerOn => exact translatorOk_of_reset _ rfl rfl rfl
  | host t h => exact hostEffect_translatorOk s t hs h
  | parse t h =>
    rw [parseEffect_frame s t h]
    exact translatorOk_of_same_vqp s _ hs ⟨rfl, rfl, rfl⟩ rfl
  | head t h =>
    rw [headEffect_frame s t h]
    exact translatorOk_of_same_vqp s _ hs ⟨rfl, rfl, rfl⟩ rfl
  | vqp t h => exact vqpEffect_translatorOk s t hp hs h
  | display => exact translatorOk_of_same_vqp s _ hs ⟨rfl, rfl, rfl⟩ rfl

/-- Settles O13: no step writes the parameters, and under their bounds each agent's turn keeps the table,
the scan-out and the staging copy legal. -/
theorem translatorInvariant : Obligations.TranslatorInvariant := by
  intro s t hp hs e
  exact ⟨(step_cfg s t e).symm ▸ hp,
    stepEffect_translatorOk (takeTurn s) t (nextTurn s) (imageBounds_of_ok s.cfg hp) hs
      (step_effect s t e)⟩

end Sys2Proof.Machine
end

section
/-! PROOFS. The words of a group (O60): which group each request leaves, and that under the translator's
invariant every value in it fits the register it is for. -/
namespace Sys2Proof.Machine

/-! ### Values within the bounds -/

/-- The heap holds a resource, so the staging area is not empty and its base is a 32-bit address
(00_scope.md R7). -/
theorem LegalResource.stagingBase_lt {p : Params} {id : Nat} {r : Resource} (hp : ImageBounds p)
    (h : LegalResource p id r) : p.stagingBase < 2 ^ 32 := by
  have hw : 0 < p.maxResW := h.width_pos.trans h.width_le
  have hh : 0 < p.maxResH := h.height_pos.trans h.height_le
  have himage : 0 < 4 * p.maxResW * p.maxResH := by positivity
  have hstaging : 0 < p.stagingSize := himage.trans_le hp.image_le
  have hvram := hp.vram_le
  have hle := hp.staging_le
  unfold Params.stagingBase
  omega

theorem LegalResource.base_lt {p : Params} {id : Nat} {r : Resource} (hp : ImageBounds p)
    (h : LegalResource p id r) : r.base < 2 ^ 32 :=
  ((Nat.le_add_right _ _).trans h.fits).trans_lt (h.stagingBase_lt hp)

theorem LegalResource.stride_lt {p : Params} {id : Nat} {r : Resource} (hp : ImageBounds p)
    (h : LegalResource p id r) : r.stride < 2 ^ 16 := by
  rw [h.stride]
  exact (Nat.mul_le_mul_left 4 h.width_le).trans_lt hp.stride_lt

theorem LegalResource.height_lt {p : Params} {id : Nat} {r : Resource} (hp : ImageBounds p)
    (h : LegalResource p id r) : r.height < 2 ^ 16 :=
  h.height_le.trans_lt hp.height_lt

/-- The first pixel of a rectangle that is not empty lies in the resource's region. -/
theorem LegalResource.resourceAddr_lt {p : Params} {id : Nat} {res : Resource} (hp : ImageBounds p)
    (h : LegalResource p id res) (r : Rect) (hi : rectInside r res.width res.height = true)
    (hw : r.width ≠ 0) (hh : r.height ≠ 0) : resourceAddr res r.x r.y < 2 ^ 32 := by
  obtain ⟨hx, hy⟩ := (rectInside_iff _ _ _).1 hi
  have hw := toNat_pos_of_ne_zero _ hw
  have hh := toNat_pos_of_ne_zero _ hh
  have hcolumn : r.x.toNat * 4 < res.stride := by rw [h.stride]; omega
  have hrows : (r.y.toNat + 1) * res.stride ≤ res.size := by
    rw [h.size, Nat.mul_comm]
    exact Nat.mul_le_mul_left _ (by omega)
  rw [Nat.succ_mul] at hrows
  have hfits := h.fits
  have hstaging := h.stagingBase_lt hp
  unfold resourceAddr
  omega

/-- A side of a flushed rectangle is clipped to no more than itself (46_gpu_translator.md R349). -/
theorem clipLength_le (start len limit : Word32) : clipLength start len limit ≤ len.toNat := by
  unfold clipLength
  omega

/-- What an enabled scan-out puts in the FB registers. -/
theorem scanout_fits (s : State) (hp : ImageBounds s.cfg) (hs : LegalTable s.cfg s.resources)
    (hsc : scanoutOk s.resources s.scanout = true) (he : s.scanout.enabled = true) :
    s.scanout.base < 2 ^ 32 ∧ s.scanout.stride < 2 ^ 16 := by
  obtain ⟨r, hr, hshows⟩ := (scanoutOk_enabled_iff _ _ he).1 hsc
  have hres := hs.legal _ (mem_of_assocGet _ _ _ hr)
  rw [hshows.base, hshows.stride]
  exact ⟨hres.resourceAddr_lt hp _ hshows.inside hshows.width_ne hshows.height_ne, hres.stride_lt hp⟩

/-! ### Words -/

/-- A BLIT, or a SET of a value that its register holds whole (46_gpu_translator.md R354). -/
def FitsRegister (w : Word64) : Prop :=
  w = blitWord ∨ ∃ (r : RegId) (v : Nat), v < 2 ^ regWidth r ∧ w = setWord r v

theorem fitsRegister_setWord (r : RegId) (v : Nat) (h : v < 2 ^ regWidth r) :
    FitsRegister (setWord r v) :=
  .inr ⟨r, v, h, rfl⟩

theorem scanoutGroup_fits (base stride : Nat) (hb : base < 2 ^ 32) (hs : stride < 2 ^ 16) :
    ∀ w ∈ scanoutGroup base stride, FitsRegister w := by
  simp only [scanoutGroup, List.forall_mem_cons]
  exact ⟨fitsRegister_setWord .fbAddr _ hb, fitsRegister_setWord .fbStride _ hs,
    fitsRegister_setWord .pixelFmt 0 (by decide), List.forall_mem_nil _⟩

theorem blitGroup_fits (src srcStride fb fbStride x y w h : Nat) (hsrc : src < 2 ^ 32)
    (hss : srcStride < 2 ^ 16) (hfb : fb < 2 ^ 32) (hfs : fbStride < 2 ^ 16) (hx : x < 2 ^ 16)
    (hy : y < 2 ^ 16) (hw : w < 2 ^ 16) (hh : h < 2 ^ 16) :
    ∀ c ∈ blitGroup src srcStride fb fbStride x y w h, FitsRegister c := by
  simp only [blitGroup, List.forall_mem_cons]
  exact ⟨fitsRegister_setWord .srcAddr _ hsrc, fitsRegister_setWord .srcStride _ hss,
    fitsRegister_setWord .fbAddr _ hfb, fitsRegister_setWord .fbStride _ hfs,
    fitsRegister_setWord .drawX _ hx, fitsRegister_setWord .drawY _ hy,
    fitsRegister_setWord .drawW _ hw, fitsRegister_setWord .drawH _ hh,
    fitsRegister_setWord .alphaMode 0 (by decide), fitsRegister_setWord .pixelFmt 0 (by decide),
    .inl rfl, List.forall_mem_nil _⟩

/-! ### The groups of the requests -/

/-- The group a request leaves, with the checks it passed (46_gpu_translator.md R348 to R350). -/
inductive GroupEffect (s : State) : List Word64 → Prop where
  | empty : GroupEffect s []
  | scanout (id : Word32) (res : Resource) (r : Rect) (h : lookupResource s id = some res)
      (hi : rectInside r res.width res.height = true) (hw : r.width ≠ 0) (hh : r.height ≠ 0) :
      GroupEffect s (scanoutGroup (resourceAddr res r.x r.y) res.stride)
  | flush (id : Word32) (res : Resource) (r : Rect) (h : lookupResource s id = some res)
      (hi : rectInside r res.width res.height = true) :
      GroupEffect s (flushGroup r id res s.scanout)
  | transfer (id : Word32) (res : Resource) (r : Rect) (h : lookupResource s id = some res)
      (hi : rectInside r res.width res.height = true) :
      GroupEffect s (transferGroup s.cfg r res s.scanout)

theorem createResource_group (h : CtrlHdr) (id f w l : Word32) (s : State) :
    (createResource h id f w l s).vqp.group = [] := by
  unfold createResource
  split_ifs
  case neg => split <;> rfl
  all_goals rfl

theorem attachBacking_group (h : CtrlHdr) (id n : Word32) (es : List BackingEntry) (s : State) :
    (attachBacking h id n es s).vqp.group = [] := by
  unfold attachBacking
  split
  · rfl
  · split
    · rfl
    · split <;> rfl

theorem setScanout_group (h : CtrlHdr) (r : Rect) (sc id : Word32) (s : State) :
    GroupEffect s (setScanout h r sc id s).vqp.group := by
  unfold setScanout
  split
  · exact .empty
  · split
    · exact .empty
    · split
      · exact .empty
      · next res hr =>
        split
        · exact .empty
        · next hc =>
          simp only [Bool.or_eq_true, decide_eq_true_eq, not_or, Bool.not_eq_true,
            Bool.not_eq_false'] at hc
          obtain ⟨⟨hw, hh⟩, hi⟩ := hc
          exact .scanout id res r hr hi hw hh

theorem transferToHost_group (h : CtrlHdr) (r : Rect) (off : Word64) (id : Word32) (s : State) :
    GroupEffect s (transferToHost h r off id s).vqp.group := by
  unfold transferToHost
  split
  · exact .empty
  · next res hr =>
    split
    · exact .empty
    · split
      · exact .empty
      · next hi =>
        split
        · exact .empty
        · split
          · exact .empty
          · exact .transfer id res r hr (by simpa using hi)

theorem exec_request_group (i : Instr) (s t : State) (hi : source i = .request)
    (e : exec i s = .next t) : GroupEffect s t.vqp.group := by
  cases i with
  | cmdResourceCreate2d h id f w l => cases e; rw [createResource_group]; exact .empty
  | cmdResourceUnref h id =>
    simp only [exec, execCmdResourceUnref] at e
    split at e <;> cases e <;> exact .empty
  | cmdSetScanout h r sc id => cases e; exact setScanout_group ..
  | cmdResourceFlush h r id =>
    simp only [exec, execCmdResourceFlush] at e
    split at e
    · cases e; exact .empty
    · next res hr =>
      split at e
      · cases e; exact .empty
      · next hin => cases e; exact .flush id res r hr (by simpa using hin)
  | cmdTransferToHost2d h r off id => cases e; exact transferToHost_group ..
  | cmdResourceAttachBacking h id n es => cases e; rw [attachBacking_group]; exact .empty
  | cmdResourceDetachBacking h id =>
    simp only [exec, execCmdResourceDetachBacking] at e
    split at e
    · cases e; exact .empty
    · split at e <;> cases e <;> exact .empty
  | cmdGetDisplayInfo | cmdGetCapsetInfo | cmdGetCapset | cmdGetEdid | cmdResourceAssignUuid
  | cmdResourceCreateBlob | cmdSetScanoutBlob | cmdUpdateCursor | cmdMoveCursor | cmd3dRange =>
    cases e; exact .empty
  | _ => cases hi

/-! ### They fit -/

/-- A flush copies from inside the resource to the scan-out, no more than the rectangle (46_gpu_translator.md
R349). -/
theorem flushGroup_fits (s : State) (id : Word32) (res : Resource) (r : Rect) (hp : ImageBounds s.cfg)
    (hres : LegalResource s.cfg id.toNat res) (hi : rectInside r res.width res.height = true)
    (hsc : s.scanout.enabled = true → s.scanout.base < 2 ^ 32 ∧ s.scanout.stride < 2 ^ 16) :
    ∀ w ∈ flushGroup r id res s.scanout, FitsRegister w := by
  unfold flushGroup
  dsimp only
  split
  · exact List.forall_mem_nil _
  · next hc =>
    simp only [Bool.or_eq_true, Bool.not_eq_true', decide_eq_true_eq, not_or, Bool.not_eq_false,
      and_assoc] at hc
    obtain ⟨he, -, hw, hh, -, -⟩ := hc
    obtain ⟨hbase, hstride⟩ := hsc he
    obtain ⟨hx, hy⟩ := (rectInside_iff _ _ _).1 hi
    have hres_stride := hres.stride
    have hstride_lt := hres.stride_lt hp
    have hheight_lt := hres.height_lt hp
    have hcw := clipLength_le r.x r.width s.scanout.rect.width
    have hch := clipLength_le r.y r.height s.scanout.rect.height
    exact blitGroup_fits _ _ _ _ _ _ _ _ (hres.resourceAddr_lt hp r hi hw hh) hstride_lt hbase hstride
      (by omega) (by omega) (by omega) (by omega)

/-- A transfer copies the packed image of a rectangle into the resource, and puts the scan-out's FB
registers back (46_gpu_translator.md R350). -/
theorem transferGroup_fits (s : State) (id : Nat) (res : Resource) (r : Rect) (hp : ImageBounds s.cfg)
    (hres : LegalResource s.cfg id res) (hi : rectInside r res.width res.height = true)
    (hsc : s.scanout.enabled = true → s.scanout.base < 2 ^ 32 ∧ s.scanout.stride < 2 ^ 16) :
    ∀ w ∈ transferGroup s.cfg r res s.scanout, FitsRegister w := by
  obtain ⟨hx, hy⟩ := (rectInside_iff _ _ _).1 hi
  have hres_stride := hres.stride
  have hstride_lt := hres.stride_lt hp
  have hheight_lt := hres.height_lt hp
  rw [transferGroup, List.forall_mem_append]
  refine ⟨blitGroup_fits _ _ _ _ _ _ _ _ (hres.stagingBase_lt hp) (by omega) (hres.base_lt hp) hstride_lt
    (by omega) (by omega) (by omega) (by omega), ?_⟩
  split
  · next he =>
    simp only [List.forall_mem_cons]
    exact ⟨fitsRegister_setWord .fbAddr _ (hsc he).1, fitsRegister_setWord .fbStride _ (hsc he).2,
      List.forall_mem_nil _⟩
  · exact List.forall_mem_nil _

theorem groupEffect_fits (s : State) (group : List Word64) (hp : ImageBounds s.cfg)
    (hs : LegalTable s.cfg s.resources) (hsc : scanoutOk s.resources s.scanout = true)
    (h : GroupEffect s group) : ∀ w ∈ group, FitsRegister w := by
  cases h with
  | empty => exact List.forall_mem_nil _
  | scanout id res r h hi hw hh =>
    exact scanoutGroup_fits _ _ ((hs.resource h).resourceAddr_lt hp r hi hw hh)
      ((hs.resource h).stride_lt hp)
  | flush id res r h hi =>
    exact flushGroup_fits s id res r hp (hs.resource h) hi (scanout_fits s hp hs hsc)
  | transfer id res r h hi =>
    exact transferGroup_fits s id.toNat res r hp (hs.resource h) hi (scanout_fits s hp hs hsc)

/-- Settles O60: each request's group is made of addresses inside VRAM and of strides and sides of legal
resources. -/
theorem groupWordsFit : Obligations.GroupWordsFit := by
  intro i s t hp hs hi e
  obtain ⟨htable, hscanout, -⟩ := (translatorOk_iff s).1 hs
  exact groupEffect_fits s t.vqp.group (imageBounds_of_ok s.cfg hp) htable hscanout
    (exec_request_group i s t hi e)

end Sys2Proof.Machine
end

section
/-! PROOFS. Requests (O5): which are rejected, and the row and fields each other one is read from. -/
namespace Sys2Proof

/-! ### Rejected requests -/

/-- The supported types with their minimum lengths (30_encoding.md R120). -/
def minLengths : List (Nat × Nat) :=
  [(0x100, 24), (0x101, 40), (0x102, 32), (0x103, 48), (0x104, 48), (0x105, 56), (0x106, 32), (0x107, 32)]

theorem decodeSupported_length_iff (t l : Nat) (bs : List Byte) :
    (∃ i, decodeSupported t bs = some (l, i)) ↔ (t, l) ∈ minLengths := by
  rcases supported_cases t bs with ⟨rfl, e⟩ | ⟨rfl, e⟩ | ⟨rfl, e⟩ | ⟨rfl, e⟩ | ⟨rfl, e⟩ | ⟨rfl, e⟩ |
    ⟨rfl, e⟩ | ⟨rfl, e⟩ | ⟨h, e⟩ <;> simp [e, minLengths, eq_comm]
  omega

theorem decodeSupported_eq_none_iff (t : Nat) (bs : List Byte) :
    decodeSupported t bs = none ↔ t < 0x100 ∨ 0x107 < t := by
  rcases supported_cases t bs with ⟨rfl, e⟩ | ⟨rfl, e⟩ | ⟨rfl, e⟩ | ⟨rfl, e⟩ | ⟨rfl, e⟩ | ⟨rfl, e⟩ |
    ⟨rfl, e⟩ | ⟨rfl, e⟩ | ⟨h, e⟩ <;> simp [e]
  exact h

theorem decodeRequest_short_iff (bs : List Byte) : decodeRequest bs = .shortRequest ↔
    bs.length < 24 ∨ ∃ l i, decodeSupported (leField bs 0 4) bs = some (l, i) ∧ bs.length < l := by
  unfold decodeRequest
  dsimp only
  split
  · next h => simp [h]
  · next h =>
    split
    · next l i e => split <;> simp_all
    · next e => split <;> simp [h, e]

theorem decodeRequest_unlisted_iff (bs : List Byte) : decodeRequest bs = .unlistedRequest ↔
    24 ≤ bs.length ∧ decodeSupported (leField bs 0 4) bs = none ∧
      decodeUnsupported (leField bs 0 4) (decodeHdr bs) = none := by
  unfold decodeRequest
  dsimp only
  split
  · next h => simp [h]
  · next h =>
    split
    · next l i e => split <;> simp [e]
    · next e => split <;> simp_all

/-! ### Rows and fields -/

/-- The row a request decodes to, by its type, with the fields it is read from (30_encoding.md R116, R117,
R120). -/
inductive RequestRow (bs : List Byte) : Instr → Prop where
  | getDisplayInfo (ht : leField bs 0 4 = 0x100) (hl : 24 ≤ bs.length) :
      RequestRow bs (.cmdGetDisplayInfo (decodeHdr bs))
  | resourceCreate2d (ht : leField bs 0 4 = 0x101) (hl : 40 ≤ bs.length) :
      RequestRow bs (.cmdResourceCreate2d (decodeHdr bs) (le32 bs 24) (le32 bs 28) (le32 bs 32)
        (le32 bs 36))
  | resourceUnref (ht : leField bs 0 4 = 0x102) (hl : 32 ≤ bs.length) :
      RequestRow bs (.cmdResourceUnref (decodeHdr bs) (le32 bs 24))
  | setScanout (ht : leField bs 0 4 = 0x103) (hl : 48 ≤ bs.length) :
      RequestRow bs (.cmdSetScanout (decodeHdr bs) (decodeRect bs 24) (le32 bs 40) (le32 bs 44))
  | resourceFlush (ht : leField bs 0 4 = 0x104) (hl : 48 ≤ bs.length) :
      RequestRow bs (.cmdResourceFlush (decodeHdr bs) (decodeRect bs 24) (le32 bs 40))
  | transferToHost2d (ht : leField bs 0 4 = 0x105) (hl : 56 ≤ bs.length) :
      RequestRow bs (.cmdTransferToHost2d (decodeHdr bs) (decodeRect bs 24) (le64 bs 40) (le32 bs 48))
  | resourceAttachBacking (ht : leField bs 0 4 = 0x106) (hl : 32 ≤ bs.length) :
      RequestRow bs (.cmdResourceAttachBacking (decodeHdr bs) (le32 bs 24) (le32 bs 28)
        (decodeEntries (bs.length / 16) (le32 bs 28).toNat (bs.drop 32)))
  | resourceDetachBacking (ht : leField bs 0 4 = 0x107) (hl : 32 ≤ bs.length) :
      RequestRow bs (.cmdResourceDetachBacking (decodeHdr bs) (le32 bs 24))
  | getCapsetInfo (ht : leField bs 0 4 = 0x108) (hl : 24 ≤ bs.length) :
      RequestRow bs (.cmdGetCapsetInfo (decodeHdr bs))
  | getCapset (ht : leField bs 0 4 = 0x109) (hl : 24 ≤ bs.length) :
      RequestRow bs (.cmdGetCapset (decodeHdr bs))
  | getEdid (ht : leField bs 0 4 = 0x10A) (hl : 24 ≤ bs.length) :
      RequestRow bs (.cmdGetEdid (decodeHdr bs))
  | resourceAssignUuid (ht : leField bs 0 4 = 0x10B) (hl : 24 ≤ bs.length) :
      RequestRow bs (.cmdResourceAssignUuid (decodeHdr bs))
  | resourceCreateBlob (ht : leField bs 0 4 = 0x10C) (hl : 24 ≤ bs.length) :
      RequestRow bs (.cmdResourceCreateBlob (decodeHdr bs))
  | setScanoutBlob (ht : leField bs 0 4 = 0x10D) (hl : 24 ≤ bs.length) :
      RequestRow bs (.cmdSetScanoutBlob (decodeHdr bs))
  | updateCursor (ht : leField bs 0 4 = 0x300) (hl : 24 ≤ bs.length) :
      RequestRow bs (.cmdUpdateCursor (decodeHdr bs))
  | moveCursor (ht : leField bs 0 4 = 0x301) (hl : 24 ≤ bs.length) :
      RequestRow bs (.cmdMoveCursor (decodeHdr bs))
  | range3d (low : BitVec 8) (ht : leField bs 0 4 = 0x200 + low.toNat) (hl : 24 ≤ bs.length) :
      RequestRow bs (.cmd3dRange (decodeHdr bs) low)

theorem requestRow_of_supported (bs : List Byte) (l : Nat) (i : Instr)
    (h : decodeSupported (leField bs 0 4) bs = some (l, i)) (hl : l ≤ bs.length) : RequestRow bs i := by
  rcases supported_cases (leField bs 0 4) bs with ⟨ht, e⟩ | ⟨ht, e⟩ | ⟨ht, e⟩ | ⟨ht, e⟩ | ⟨ht, e⟩ |
    ⟨ht, e⟩ | ⟨ht, e⟩ | ⟨ht, e⟩ | ⟨-, e⟩ <;> cases e.symm.trans h
  · exact .getDisplayInfo ht hl
  · exact .resourceCreate2d ht hl
  · exact .resourceUnref ht hl
  · exact .setScanout ht hl
  · exact .resourceFlush ht hl
  · exact .transferToHost2d ht hl
  · exact .resourceAttachBacking ht hl
  · exact .resourceDetachBacking ht hl

theorem requestRow_of_unsupported (bs : List Byte) (i : Instr) (hl : 24 ≤ bs.length)
    (h : decodeUnsupported (leField bs 0 4) (decodeHdr bs) = some i) : RequestRow bs i := by
  unfold decodeUnsupported at h
  split at h
  · next ht => cases h; exact .getCapsetInfo ht hl
  · next ht => cases h; exact .getCapset ht hl
  · next ht => cases h; exact .getEdid ht hl
  · next ht => cases h; exact .resourceAssignUuid ht hl
  · next ht => cases h; exact .resourceCreateBlob ht hl
  · next ht => cases h; exact .setScanoutBlob ht hl
  · next ht => cases h; exact .updateCursor ht hl
  · next ht => cases h; exact .moveCursor ht hl
  · split at h
    · next ht => cases h; exact .range3d _ (by rw [BitVec.toNat_ofNat]; omega) hl
    · cases h

theorem requestRow_of_decode (bs : List Byte) (i : Instr) (h : decode (.request bs) = .instr i) :
    RequestRow bs i := by
  obtain ⟨h24, ⟨l, hs, hl⟩ | hu⟩ := request_row bs i h
  · exact requestRow_of_supported bs l i hs hl
  · exact requestRow_of_unsupported bs i h24 hu

/-! ### Bytes of the fields -/

/-- Bytes up to a field, then the field's. -/
theorem take_append_le32 (bs : List Byte) (off : Nat) (h : off + 4 ≤ bs.length) :
    bs.take off ++ leBytes 4 (le32 bs off).toNat = bs.take (off + 4) := by
  rw [leBytes_le32 bs off h, take_append_piece]

theorem take_append_le64 (bs : List Byte) (off : Nat) (h : off + 8 ≤ bs.length) :
    bs.take off ++ leBytes 8 (le64 bs off).toNat = bs.take (off + 8) := by
  rw [leBytes_le64 bs off h, take_append_piece]

/-- The bytes of a rectangle, as they are read. -/
theorem take_append_rect (bs : List Byte) (off : Nat) (h : off + 16 ≤ bs.length) :
    bs.take off ++ (leBytes 4 (decodeRect bs off).x.toNat ++ leBytes 4 (decodeRect bs off).y.toNat ++
      leBytes 4 (decodeRect bs off).width.toNat ++ leBytes 4 (decodeRect bs off).height.toNat) =
        bs.take (off + 16) := by
  simp only [decodeRect, ← List.append_assoc]
  rw [take_append_le32 bs off (by omega), take_append_le32 bs (off + 4) (by omega),
    take_append_le32 bs (off + 8) (by omega), take_append_le32 bs (off + 12) (by omega)]

/-- The first 24 bytes are the type and the header (30_encoding.md R116). -/
theorem header_bytes (bs : List Byte) (t : Nat) (ht : leField bs 0 4 = t) (h : 24 ≤ bs.length) :
    leBytes 4 t ++ leBytes 4 (decodeHdr bs).flags.toNat ++ leBytes 8 (decodeHdr bs).fenceId.toNat ++
      leBytes 4 (decodeHdr bs).ctxId.toNat ++ leBytes 1 (decodeHdr bs).ringIdx.toNat ++
        leBytes 3 (decodeHdr bs).padding.toNat = bs.take 24 := by
  have htype : leBytes 4 t = bs.take 4 := by rw [← ht, leBytes_leField bs 0 4 (by omega), List.drop_zero]
  have hrest := hdr_bytes bs h
  rw [htype, ← take_append_piece bs 4 20, ← hrest]
  simp only [List.append_assoc]

/-- The entries of an attach: as many complete ones as there are and as it announces, each read from its
own 16 bytes (46_gpu_translator.md R351). -/
theorem attach_entries (bs : List Byte) (n : Nat) :
    (decodeEntries (bs.length / 16) n (bs.drop 32)).length = min n ((bs.length - 32) / 16) ∧
      ∀ k e, (decodeEntries (bs.length / 16) n (bs.drop 32))[k]? = some e →
        leBytes 8 e.addr.toNat ++ leBytes 4 e.length.toNat = (bs.drop (32 + 16 * k)).take 12 := by
  refine ⟨?_, fun k e hk => ?_⟩
  · rw [decodeEntries_length _ _ _ (Nat.div_le_div_right (by simp)), List.length_drop]
  · rw [decodeEntries_get _ _ _ k e hk, List.drop_drop]

/-- Settles O5: the rejections by type and length, then each form by the row it decodes to. -/
theorem requestDecode : Obligations.RequestDecode := by
  intro bs header rect
  have hheader {t : Nat} (ht : leField bs 0 4 = t) (hl : 24 ≤ bs.length) :
      header t (decodeHdr bs) = bs.take 24 := header_bytes bs t ht hl
  have hrect (hl : 40 ≤ bs.length) : bs.take 24 ++ rect (decodeRect bs 24) = bs.take 40 :=
    take_append_rect bs 24 hl
  have row {i : Instr} (hd : decode (.request bs) = .instr i) := requestRow_of_decode bs i hd
  refine ⟨?short, ?unlisted, fun h hd => ?displayInfo, fun h id f w l hd => ?create, fun h id hd => ?unref,
    fun h r sc id hd => ?scanout, fun h r id hd => ?flush, fun h r off id hd => ?transfer,
    fun h id n es hd => ?attach, fun h id hd => ?detach, fun h low p hp hd => ?unsupported⟩
  case short =>
    refine (decodeRequest_short_iff bs).trans (or_congr_right ?_)
    constructor
    · rintro ⟨l, i, hi, hl⟩
      exact ⟨(_, l), (decodeSupported_length_iff _ l bs).1 ⟨i, hi⟩, rfl, hl⟩
    · rintro ⟨p, hp, ht, hl⟩
      obtain ⟨i, hi⟩ := (decodeSupported_length_iff p.1 p.2 bs).2 hp
      exact ⟨p.2, i, (congrArg (decodeSupported · bs) ht).trans hi, hl⟩
  case unlisted =>
    refine (decodeRequest_unlisted_iff bs).trans (and_congr_right fun _ => ?_)
    rw [decodeSupported_eq_none_iff, unsupported_none, show leNat (bs.take 4) = leField bs 0 4 from rfl]
    simp only [List.mem_cons, List.not_mem_nil, or_false, not_or]
    omega
  case displayInfo => cases row hd with | getDisplayInfo ht hl => exact hheader ht hl
  case create =>
    cases row hd with
    | resourceCreate2d ht hl =>
      rw [hheader ht (by omega), take_append_le32, take_append_le32, take_append_le32, take_append_le32] <;>
        omega
  case unref =>
    cases row hd with
    | resourceUnref ht hl => rw [hheader ht (by omega), take_append_le32]; omega
  case scanout =>
    cases row hd with
    | setScanout ht hl =>
      rw [hheader ht (by omega), hrect (by omega), take_append_le32, take_append_le32] <;> omega
  case flush =>
    cases row hd with
    | resourceFlush ht hl => rw [hheader ht (by omega), hrect (by omega), take_append_le32]; omega
  case transfer =>
    cases row hd with
    | transferToHost2d ht hl =>
      rw [hheader ht (by omega), hrect (by omega), take_append_le64, take_append_le32] <;> omega
  case attach =>
    cases row hd with
    | resourceAttachBacking ht hl =>
      refine ⟨?_, attach_entries bs _⟩
      rw [hheader ht (by omega), take_append_le32, take_append_le32] <;> omega
  case detach =>
    cases row hd with
    | resourceDetachBacking ht hl => rw [hheader ht (by omega), take_append_le32]; omega
  case unsupported =>
    simp only [List.mem_cons, List.not_mem_nil, or_false] at hp
    rcases hp with rfl | rfl | rfl | rfl | rfl | rfl | rfl | rfl | rfl <;> cases row hd <;>
      exact hheader ‹_› ‹_›

end Sys2Proof
end

section
/-! PROOFS. The staging copy (O55): one staged byte a step, and where a byte of a list of segments lies. -/
namespace Sys2Proof.Machine

/-- Byte (j, c) of the packed image is read from row `j`, column `c` of the backing (46_gpu_translator.md
R356). -/
theorem stagingSource_of_row_column (p : StagingPlan) (j c : Nat) (hc : c < 4 * p.width) :
    stagingSource p (j * (4 * p.width) + c) = p.offset + j * p.stride + c := by
  have hw : 0 < 4 * p.width := Nat.zero_lt_of_lt hc
  rw [stagingSource, Nat.mul_comm j, Nat.mul_add_div hw, Nat.div_eq_of_lt hc, Nat.mul_add_mod,
    Nat.mod_eq_of_lt hc, Nat.add_zero]

theorem vqpStep_stage (s : State) (h : s.vqp.phase = .stage) : vqpStep s = stageStep s := by
  simp [vqpStep, vqpPhaseStep, h]

theorem stageStep_held (s : State) (p : StagingPlan) (a : Nat) (hp : s.vqp.plan = some p)
    (hc : s.vqp.copied < stagingTotal p)
    (ha : segAddr (backingSegs p.backing) (stagingSource p s.vqp.copied) = some a)
    (hg : guestAdmits s.cfg a 1 = false) : stageStep s = .next s := by
  simp [stageStep, hp, hc, ha, hg]

theorem stageStep_byte (s : State) (p : StagingPlan) (a : Nat) (hp : s.vqp.plan = some p)
    (hc : s.vqp.copied < stagingTotal p)
    (ha : segAddr (backingSegs p.backing) (stagingSource p s.vqp.copied) = some a)
    (hg : guestAdmits s.cfg a 1 = true)
    (hv : s.cfg.stagingBase + s.vqp.copied < s.cfg.vramSize) :
    stageStep s = .next (stageByte p (guestByte s a) s) := by
  have hin : vramInRange s (s.cfg.stagingBase + s.vqp.copied) 1 = true := decide_eq_true hv
  simp [stageStep, hp, hc, ha, hg, hin]

/-- A staged byte goes to its place in the staging area and to no other. -/
theorem vramByte_stageByte (p : StagingPlan) (x : Byte) (s : State) (b : Nat) :
    vramByte (stageByte p x s) b =
      if b = s.cfg.stagingBase + s.vqp.copied then x else vramByte s b := by
  change vramByte (vramStore s (s.cfg.stagingBase + s.vqp.copied) [x]) b = _
  split
  · next h => subst h; exact vramByte_vramStore_in s _ [x] 0 (by simp)
  · next h => exact vramByte_vramStore_out s _ [x] b (by simp; omega)

/-- Beside VRAM a staged byte taints the operations in flight and moves the copy on
(46_gpu_translator.md R356). -/
theorem stageByte_frame (p : StagingPlan) (x : Byte) (s : State) :
    { stageByte p x s with vram := s.vram } =
      { s with
        inflight := taintOps (s.cfg.stagingBase + s.vqp.copied) 1 s.inflight
        vqp := { s.vqp with
          copied := s.vqp.copied + 1
          phase := if s.vqp.copied + 1 < p.height * (4 * p.width) then .stage
            else if s.vqp.group = [] then .wait else .acquire } } := by
  simp [stageByte, phaseAfterStage, stagingTotal, taintAll, vramStore]

/-! ### Segments -/

/-- A byte below the total lies in the first segment that ends above it (46_gpu_translator.md R357). -/
theorem segAddr_of_lt (l : List (Nat × Nat)) (t : Nat) (h : t < (l.map Prod.snd).sum) :
    ∃ e a n, l[e]? = some (a, n) ∧ ((l.take e).map Prod.snd).sum ≤ t ∧
      t < ((l.take (e + 1)).map Prod.snd).sum ∧
      segAddr l t = some (a + (t - ((l.take e).map Prod.snd).sum)) := by
  induction l generalizing t with
  | nil => simp at h
  | cons c r ih =>
    obtain ⟨a, n⟩ := c
    simp only [List.map_cons, List.sum_cons] at h
    by_cases ht : t < n
    · exact ⟨0, a, n, rfl, Nat.zero_le t, by simpa using ht, by simp [segAddr, ht]⟩
    · obtain ⟨e, a', n', hget, hlo, hhi, haddr⟩ := ih (t - n) (by omega)
      refine ⟨e + 1, a', n', hget, ?_, ?_, ?_⟩
      · simp only [List.take_succ_cons, List.map_cons, List.sum_cons]
        omega
      · simp only [List.take_succ_cons, List.map_cons, List.sum_cons] at hhi ⊢
        omega
      · rw [segAddr, if_neg ht, haddr]
        simp [Nat.sub_sub]

theorem segAddr_eq_none (l : List (Nat × Nat)) (t : Nat) (h : (l.map Prod.snd).sum ≤ t) :
    segAddr l t = none := by
  induction l generalizing t with
  | nil => rfl
  | cons c r ih =>
    obtain ⟨a, n⟩ := c
    simp only [List.map_cons, List.sum_cons] at h
    rw [segAddr, if_neg (by omega), ih (t - n) (by omega)]

/-- Settles O55: the step of the copy at the row and column of its next byte, and the address of a backing
byte. -/
theorem stagingCopy : Obligations.StagingCopy := by
  refine ⟨fun s p hphase hp hc hv j c _ hcol hjc a ha => ?_,
    fun l t => ⟨segAddr_of_lt l t, segAddr_eq_none l t⟩⟩
  have haddr : segAddr (backingSegs p.backing) (stagingSource p s.vqp.copied) = some a := by
    rw [hjc, stagingSource_of_row_column p j c hcol]
    exact ha
  rw [vqpStep_stage s hphase, ← hjc]
  refine ⟨stageStep_held s p a hp hc haddr, fun hg => ?_⟩
  exact ⟨_, stageStep_byte s p a hp hc haddr hg hv, stageByte_frame p _ s, vramByte_stageByte p _ s⟩

end Sys2Proof.Machine
end

section
/-! PROOFS. What a translation leaves (O56): the response header, GET_DISPLAY_INFO and the unsupported
forms. -/
namespace Sys2Proof

/-! ### The mirrored header -/

/-- The `n` bytes of a string at an offset, missing bytes as 0 (46_gpu_translator.md R344). -/
def paddedPiece (bs : List Byte) (off n : Nat) : List Byte :=
  (bs.drop off).take n ++ List.replicate (n - (bs.length - off)) 0

/-- Consecutive padded pieces make one: the first is padded only where the second is all padding. -/
theorem paddedPiece_append (bs : List Byte) (off n m : Nat) :
    paddedPiece bs off n ++ paddedPiece bs (off + n) m = paddedPiece bs off (n + m) := by
  unfold paddedPiece
  rw [← List.drop_drop, List.take_add]
  by_cases h : off + n ≤ bs.length
  · rw [show n - (bs.length - off) = 0 by omega,
      show m - (bs.length - (off + n)) = n + m - (bs.length - off) by omega]
    simp
  · have hend : (bs.drop off).drop n = [] := List.drop_of_length_le (by simp; omega)
    rw [hend, show m - (bs.length - (off + n)) = m by omega,
      show n + m - (bs.length - off) = n - (bs.length - off) + m by omega, List.replicate_add]
    simp

theorem leBytes_leField_eq_paddedPiece (bs : List Byte) (off n : Nat) :
    leBytes n (leField bs off n) = paddedPiece bs off n :=
  leField_piece bs off n

/-- The fields of a header are the values of its bytes (30_encoding.md R116). -/
theorem decodeHdr_toNat (bs : List Byte) :
    (decodeHdr bs).flags.toNat = leField bs 4 4 ∧ (decodeHdr bs).fenceId.toNat = leField bs 8 8 ∧
      (decodeHdr bs).ctxId.toNat = leField bs 16 4 ∧ (decodeHdr bs).ringIdx.toNat = leField bs 20 1 ∧
      (decodeHdr bs).padding.toNat = leField bs 21 3 :=
  ⟨le32_toNat bs 4, le64_toNat bs 8, le32_toNat bs 16, Nat.mod_eq_of_lt (leField_lt bs 20 1),
    Nat.mod_eq_of_lt (leField_lt bs 21 3)⟩

/-- A response mirrors bytes 4 to 23 of its request (46_gpu_translator.md R344). -/
theorem hdrBytes_decodeHdr (code : Nat) (bs : List Byte) :
    hdrBytes code (decodeHdr bs) = leBytes 4 code ++ paddedPiece bs 4 20 := by
  obtain ⟨hflags, hfence, hctx, hring, hpadding⟩ := decodeHdr_toNat bs
  rw [hdrBytes, hflags, hfence, hctx, hring, hpadding]
  simp only [leBytes_leField_eq_paddedPiece]
  rw [paddedPiece_append bs 20 1 3, paddedPiece_append bs 16 4 4, paddedPiece_append bs 8 8 8,
    paddedPiece_append bs 4 4 16]

end Sys2Proof

namespace Sys2Proof.Machine

/-! ### The phase after TRANSLATE -/

/-- The staging copy if there is one, the arbiter for a group, else WAIT (45_virtqueue.md R306). -/
theorem phaseAfterTranslate_eq (group : List Word64) (plan : Option StagingPlan) :
    phaseAfterTranslate group plan =
      if plan ≠ none then .stage else if group = [] then .wait else .acquire := by
  cases plan with
  | some p => rfl
  | none => cases group <;> rfl

/-- A response of GET_DISPLAY_INFO has one mode of the display and fifteen empty ones (46_gpu_translator.md
R345). -/
theorem displayInfoBytes_length (p : Params) : (displayInfoBytes p).length = 384 := by
  simp only [displayInfoBytes, List.length_append, leBytes_length, List.length_replicate]

/-- The requests that are answered RESP_ERR_UNSPEC whatever they hold (46_gpu_translator.md R353). -/
theorem exec_unsupported (h : CtrlHdr) (low : BitVec 8) (s : State) :
    ∀ i ∈ [Instr.cmdGetCapsetInfo h, .cmdGetCapset h, .cmdGetEdid h, .cmdResourceAssignUuid h,
        .cmdResourceCreateBlob h, .cmdSetScanoutBlob h, .cmdUpdateCursor h, .cmdMoveCursor h,
        .cmd3dRange h low],
      exec i s = .next (answerError respErrUnspec h s) := by
  simp only [List.forall_mem_cons]
  exact ⟨rfl, rfl, rfl, rfl, rfl, rfl, rfl, rfl, rfl, List.forall_mem_nil _⟩

/-- Settles O56: the phase by the plan and the group, the header by its bytes, and the ten forms that
change nothing else. -/
theorem translateOutcomes : Obligations.TranslateOutcomes := by
  refine ⟨fun resp group plan s => ?phase, fun code bs => ?header, fun s h => ?display,
    fun s h low => exec_unsupported h low s⟩
  case phase => rw [finishTranslate, phaseAfterTranslate_eq]
  case header => rw [hdrBytes_decodeHdr, paddedPiece, ← List.append_assoc]
  case display =>
    refine ⟨displayInfoBytes s.cfg, rfl, ?_, rfl⟩
    rw [List.length_append, hdrBytes_length, displayInfoBytes_length]

end Sys2Proof.Machine
end

section
/-! PROOFS. Allocation and creation (O57): first fit, then the outcomes of RESOURCE_CREATE_2D in the order of
its checks. -/
namespace Sys2Proof.Machine

/-! ### First fit -/

/-- The `m`-th place a region may begin at (46_gpu_translator.md R341). -/
def heapPlace (p : Params) (m : Nat) : Nat := p.resHeapBase + m * p.allocAlign

/-- A region that ends in the heap and overlaps none of the table's. -/
def RegionFree (p : Params) (rs : List (Nat × Resource)) (size b : Nat) : Prop :=
  b + size ≤ p.stagingBase ∧ ∀ e ∈ rs, overlapsResource b size e.2 = false

theorem heapPlace_le (p : Params) {m m' : Nat} (h : m ≤ m') : heapPlace p m ≤ heapPlace p m' :=
  Nat.add_le_add_left (Nat.mul_le_mul_right _ h) _

/-- The order of two places is that of their numbers. -/
theorem lt_of_heapPlace_lt (p : Params) {m m' : Nat} (h : heapPlace p m < heapPlace p m') : m < m' :=
  Nat.lt_of_not_le fun hle => absurd (heapPlace_le p hle) (Nat.not_le.2 h)

theorem allocFrom_succ (p : Params) (rs : List (Nat × Resource)) (size fuel m : Nat) :
    allocFrom p rs size (fuel + 1) m =
      if p.stagingBase < heapPlace p m + size then none
      else if rs.any (fun e => overlapsResource (heapPlace p m) size e.2) then
        allocFrom p rs size fuel (m + 1)
      else some (heapPlace p m) :=
  rfl

/-- One place of the search: the heap ends before it, or it is taken, or it is not free. -/
theorem allocFrom_succ_cases (p : Params) (rs : List (Nat × Resource)) (size fuel m : Nat) :
    (p.stagingBase < heapPlace p m + size ∧ allocFrom p rs size (fuel + 1) m = none) ∨
      (RegionFree p rs size (heapPlace p m) ∧
        allocFrom p rs size (fuel + 1) m = some (heapPlace p m)) ∨
      (¬RegionFree p rs size (heapPlace p m) ∧
        allocFrom p rs size (fuel + 1) m = allocFrom p rs size fuel (m + 1)) := by
  rw [allocFrom_succ]
  by_cases hend : p.stagingBase < heapPlace p m + size
  · exact .inl ⟨hend, if_pos hend⟩
  rw [if_neg hend]
  by_cases hany : rs.any (fun e => overlapsResource (heapPlace p m) size e.2) = true
  · obtain ⟨e, he, hover⟩ := List.any_eq_true.1 hany
    exact .inr (.inr ⟨fun hfree => Bool.eq_false_iff.1 (hfree.2 e he) hover, if_pos hany⟩)
  · refine .inr (.inl ⟨⟨Nat.le_of_not_lt hend, fun e he => ?_⟩, if_neg hany⟩)
    exact Bool.eq_false_iff.2 fun hover => hany (List.any_eq_true.2 ⟨e, he, hover⟩)

/-- The search answers the first free place it comes to. -/
theorem allocFrom_first (p : Params) (rs : List (Nat × Resource)) (size fuel m b : Nat)
    (h : allocFrom p rs size fuel m = some b) :
    ∃ k, b = heapPlace p k ∧ RegionFree p rs size b ∧
      ∀ j, m ≤ j → j < k → ¬RegionFree p rs size (heapPlace p j) := by
  induction fuel generalizing m with
  | zero => cases h
  | succ fuel ih =>
    obtain ⟨-, e⟩ | ⟨hfree, e⟩ | ⟨hfree, e⟩ := allocFrom_succ_cases p rs size fuel m
    · cases e.symm.trans h
    · cases e.symm.trans h
      exact ⟨m, rfl, hfree, fun j hmj hjm => absurd hjm (Nat.not_lt.2 hmj)⟩
    · obtain ⟨k, hk, hfits, hfirst⟩ := ih (m + 1) (e.symm.trans h)
      refine ⟨k, hk, hfits, fun j hmj hjk => ?_⟩
      rcases Nat.eq_or_lt_of_le hmj with rfl | hlt
      · exact hfree
      · exact hfirst j hlt hjk

/-- A search that answers none passes over no free place: where it stops early, all later places end
outside the heap. -/
theorem allocFrom_none (p : Params) (rs : List (Nat × Resource)) (size fuel m : Nat)
    (h : allocFrom p rs size fuel m = none) :
    ∀ j, m ≤ j → j < m + fuel → ¬RegionFree p rs size (heapPlace p j) := by
  induction fuel generalizing m with
  | zero => intro j hmj hjm; omega
  | succ fuel ih =>
    intro j hmj hjm hj
    obtain ⟨hend, -⟩ | ⟨-, e⟩ | ⟨hfree, e⟩ := allocFrom_succ_cases p rs size fuel m
    · exact absurd ((Nat.add_le_add_right (heapPlace_le p hmj) size).trans hj.1) (Nat.not_le.2 hend)
    · cases e.symm.trans h
    · rcases Nat.eq_or_lt_of_le hmj with rfl | hlt
      · exact hfree hj
      · exact ih (m + 1) (e.symm.trans h) j hlt (by omega) hj

/-- The allocator comes to every free place (46_gpu_translator.md R341). -/
theorem allocRegion_none (p : Params) (rs : List (Nat × Resource)) (size : Nat) (ha : 0 < p.allocAlign)
    (h : allocRegion p rs size = none) (m : Nat) : ¬RegionFree p rs size (heapPlace p m) := by
  intro hm
  have hend : m * p.allocAlign ≤ p.stagingBase := by
    have := hm.1
    unfold heapPlace at this
    omega
  have hfuel : m < p.stagingBase / p.allocAlign + 1 :=
    Nat.lt_succ_of_le ((Nat.le_div_iff_mul_le ha).2 hend)
  exact allocFrom_none p rs size _ 0 h m (Nat.zero_le m) (by omega) hm

/-- The allocator is first fit: its answer is the least free place, and it has one whenever there is one
(46_gpu_translator.md R341). -/
theorem allocRegion_eq_some_iff (p : Params) (rs : List (Nat × Resource)) (size b : Nat)
    (ha : 0 < p.allocAlign) :
    allocRegion p rs size = some b ↔ ((∃ m, b = heapPlace p m) ∧ RegionFree p rs size b) ∧
      ∀ b' < b, ¬((∃ m, b' = heapPlace p m) ∧ RegionFree p rs size b') := by
  have first (b : Nat) (h : allocRegion p rs size = some b) :
      ((∃ m, b = heapPlace p m) ∧ RegionFree p rs size b) ∧
        ∀ b' < b, ¬((∃ m, b' = heapPlace p m) ∧ RegionFree p rs size b') := by
    obtain ⟨k, rfl, hfree, hfirst⟩ := allocFrom_first p rs size _ 0 b h
    refine ⟨⟨⟨k, rfl⟩, hfree⟩, ?_⟩
    rintro _ hlt ⟨⟨m, rfl⟩, hm⟩
    exact hfirst m (Nat.zero_le m) (lt_of_heapPlace_lt p hlt) hm
  refine ⟨first b, fun ⟨⟨⟨m, hm⟩, hfree⟩, hleast⟩ => ?_⟩
  cases h : allocRegion p rs size with
  | none => exact absurd (hm ▸ hfree) (allocRegion_none p rs size ha h m)
  | some b0 =>
    obtain ⟨hb0, hleast0⟩ := first b0 h
    rcases Nat.lt_trichotomy b0 b with hlt | rfl | hlt
    · exact absurd hb0 (hleast b0 hlt)
    · rfl
    · exact absurd ⟨⟨m, hm⟩, hfree⟩ (hleast0 b hlt)

theorem allocRegion_eq_none_iff (p : Params) (rs : List (Nat × Resource)) (size : Nat)
    (ha : 0 < p.allocAlign) :
    allocRegion p rs size = none ↔ ∀ b, ¬((∃ m, b = heapPlace p m) ∧ RegionFree p rs size b) := by
  constructor
  · rintro h _ ⟨⟨m, rfl⟩, hm⟩
    exact allocRegion_none p rs size ha h m hm
  · intro h
    cases hb : allocRegion p rs size with
    | none => rfl
    | some b => exact absurd ((allocRegion_eq_some_iff p rs size b ha).1 hb).1 (h b)

/-- Regions that are not empty are apart when they share no address. -/
theorem regionFree_iff (p : Params) (rs : List (Nat × Resource)) (size b : Nat) (hs : 0 < size)
    (hr : ∀ e ∈ rs, 0 < e.2.size) :
    RegionFree p rs size b ↔ b + size ≤ p.stagingBase ∧
      ∀ e ∈ rs, ∀ x, ¬((b ≤ x ∧ x < b + size) ∧ (e.2.base ≤ x ∧ x < e.2.base + e.2.size)) := by
  refine and_congr_right fun _ => forall₂_congr fun e he => ?_
  rw [← not_exists, ← overlaps_iff b size e.2 hs (hr e he), Bool.not_eq_true]

/-! ### RESOURCE_CREATE_2D -/

/-- The id is 0 or already mapped. -/
def IdTaken (id : Word32) (s : State) : Prop :=
  id = 0 ∨ (assocGet id.toNat s.resources).isSome = true

/-- The image has no pixel, or is larger than the device allows. -/
def SizeRefused (width height : Word32) (s : State) : Prop :=
  width = 0 ∨ height = 0 ∨ s.cfg.maxResW < width.toNat ∨ s.cfg.maxResH < height.toNat

/-- The resource of an image at a place of the heap, without a backing. -/
def newResource (format width height : Word32) (b : Nat) : Resource where
  format := format
  width := width.toNat
  height := height.toNat
  stride := 4 * width.toNat
  base := b
  size := 4 * width.toNat * height.toNat
  backing := none

theorem idTaken_iff (id : Word32) (s : State) :
    (id = 0 || (assocGet id.toNat s.resources).isSome) = true ↔ IdTaken id s := by
  simp [IdTaken]

theorem sizeRefused_iff (width height : Word32) (s : State) :
    (width = 0 || height = 0 || s.cfg.maxResW < width.toNat || s.cfg.maxResH < height.toNat) = true ↔
      SizeRefused width height s := by
  simp [SizeRefused, or_assoc]

theorem formatAccepted_iff (f : Word32) :
    formatAccepted f = true ↔ f.toNat ∈ [1, 2, 3, 4, 67, 68, 121, 134] := by
  rw [formatAccepted, List.contains_iff_mem]

section
variable (h : CtrlHdr) {id format width height : Word32} {s : State}

theorem createResource_of_idTaken (hid : IdTaken id s) :
    createResource h id format width height s = answerError respErrInvalidResourceId h s := by
  rw [createResource, if_pos ((idTaken_iff id s).2 hid)]

theorem createResource_of_formatRefused (hid : ¬IdTaken id s) (hf : formatAccepted format = false) :
    createResource h id format width height s = answerError respErrInvalidParameter h s := by
  rw [createResource, if_neg (hid ∘ (idTaken_iff id s).1), if_pos (by simp [hf])]

theorem createResource_of_sizeRefused (hid : ¬IdTaken id s) (hf : formatAccepted format = true)
    (hsize : SizeRefused width height s) :
    createResource h id format width height s = answerError respErrInvalidParameter h s := by
  rw [createResource, if_neg (hid ∘ (idTaken_iff id s).1), if_neg (by simp [hf]),
    if_pos ((sizeRefused_iff width height s).2 hsize)]

theorem createResource_of_full (hid : ¬IdTaken id s) (hf : formatAccepted format = true)
    (hsize : ¬SizeRefused width height s) (hfull : s.cfg.maxResources ≤ s.resources.length) :
    createResource h id format width height s = answerError respErrOutOfMemory h s := by
  rw [createResource, if_neg (hid ∘ (idTaken_iff id s).1), if_neg (by simp [hf]),
    if_neg (hsize ∘ (sizeRefused_iff width height s).1), if_pos hfull]

/-- With room in the table the allocator decides. -/
theorem createResource_of_room (hid : ¬IdTaken id s) (hf : formatAccepted format = true)
    (hsize : ¬SizeRefused width height s) (hroom : s.resources.length < s.cfg.maxResources) :
    createResource h id format width height s =
      (allocRegion s.cfg s.resources (4 * width.toNat * height.toNat)).elim
        (answerError respErrOutOfMemory h s)
        fun b => answerOk h [] (putResource id (newResource format width height b) s) := by
  rw [createResource, if_neg (hid ∘ (idTaken_iff id s).1), if_neg (by simp [hf]),
    if_neg (hsize ∘ (sizeRefused_iff width height s).1), if_neg (Nat.not_le.2 hroom)]
  cases allocRegion s.cfg s.resources (4 * width.toNat * height.toNat) <;> rfl

end

/-- The table with a resource mapped or replaced, id by id. -/
theorem putResource_spec (id : Word32) (r : Resource) (s : State) :
    ∃ rs, putResource id r s = { s with resources := rs } ∧ assocGet id.toNat rs = some r ∧
      ∀ k, k ≠ id.toNat → assocGet k rs = assocGet k s.resources :=
  ⟨_, rfl, assocGet_assocPut_eq _ _ _, fun k hk => assocGet_assocPut_ne _ k _ _ hk⟩

/-- Settles O57: the allocator is first fit, and a creation is decided by its checks in order. (The name
`createResource` alone is the model's function.) -/
theorem Certificates.createResource : Obligations.CreateResource := by
  refine ⟨fun p rs size ha hs hr => ?alloc, fun s h id format width height hlen => ?create⟩
  case alloc =>
    intro fits
    have hfits (b : Nat) : fits b ↔ (∃ m, b = heapPlace p m) ∧ RegionFree p rs size b :=
      and_congr_right fun _ => (regionFree_iff p rs size b hs hr).symm
    simp only [hfits]
    exact ⟨fun b => allocRegion_eq_some_iff p rs size b ha, allocRegion_eq_none_iff p rs size ha⟩
  case create =>
    intro result answers used badFormat badSize size
    have accepted (hf : ¬badFormat) : formatAccepted format = true :=
      (formatAccepted_iff format).2 (Decidable.not_not.1 hf)
    refine ⟨fun hid => ?taken, fun hid hbad => ?refused, fun hid hf hsize hmem => ?memory,
      fun hid hf hsize hroom b hb => ?created⟩
    case taken => exact congrArg _ (createResource_of_idTaken h hid)
    case refused =>
      refine congrArg Host.Outcome.next ?_
      by_cases hf : badFormat
      · have hf : formatAccepted format = false :=
          Bool.eq_false_iff.2 fun hok => hf ((formatAccepted_iff format).1 hok)
        exact createResource_of_formatRefused h hid hf
      · exact createResource_of_sizeRefused h hid (accepted hf) (hbad.resolve_left hf)
    case memory =>
      refine congrArg Host.Outcome.next ?_
      rcases Nat.eq_or_lt_of_le hlen with hfull | hroom
      · exact createResource_of_full h hid (accepted hf) hsize hfull.ge
      · rw [createResource_of_room h hid (accepted hf) hsize hroom,
          hmem.resolve_left (Nat.ne_of_lt hroom)]
        rfl
    case created =>
      obtain ⟨rs, hput, hget, hother⟩ := putResource_spec id (newResource format width height b) s
      refine ⟨rs, congrArg Host.Outcome.next ?_, hget, hother⟩
      rw [createResource_of_room h hid (accepted hf) hsize hroom, hb, ← hput]
      rfl

end Sys2Proof.Machine
end

section
/-! PROOFS. The commands on a resource (O58, O59): one rule for each outcome of RESOURCE_UNREF,
ATTACH_BACKING, DETACH_BACKING, SET_SCANOUT, RESOURCE_FLUSH and TRANSFER_TO_HOST_2D. -/
namespace Sys2Proof.Machine

theorem exec_cmdSetScanout (h : CtrlHdr) (r : Rect) (sc id : Word32) (s : State) :
    exec (.cmdSetScanout h r sc id) s = .next (setScanout h r sc id s) :=
  rfl

theorem exec_cmdTransferToHost2d (h : CtrlHdr) (r : Rect) (off : Word64) (id : Word32) (s : State) :
    exec (.cmdTransferToHost2d h r off id) s = .next (transferToHost h r off id s) :=
  rfl

/-! ### A resource that is not found (46_gpu_translator.md R342) -/

section
variable (h : CtrlHdr) {id : Word32} {s : State} (hn : lookupResource s id = none)
include hn

theorem exec_unref_unknown : exec (.cmdResourceUnref h id) s = .next (unknownResource h s) := by
  simp [exec, execCmdResourceUnref, hn]

theorem exec_flush_unknown (r : Rect) :
    exec (.cmdResourceFlush h r id) s = .next (unknownResource h s) := by
  simp [exec, execCmdResourceFlush, hn]

theorem exec_transfer_unknown (r : Rect) (off : Word64) :
    exec (.cmdTransferToHost2d h r off id) s = .next (unknownResource h s) := by
  simp [exec_cmdTransferToHost2d, transferToHost, hn]

theorem exec_attach_unknown (n : Word32) (es : List BackingEntry)
    (hmax : n.toNat ≤ s.cfg.maxBackingEntries) (hlen : n.toNat ≤ es.length) :
    exec (.cmdResourceAttachBacking h id n es) s = .next (unknownResource h s) := by
  simp [exec, execCmdResourceAttachBacking, attachBacking, hmax, hlen, hn]

theorem exec_detach_unknown : exec (.cmdResourceDetachBacking h id) s = .next (unknownResource h s) := by
  simp [exec, execCmdResourceDetachBacking, hn]

theorem exec_setScanout_unknown (r : Rect) (h0 : id ≠ 0) :
    exec (.cmdSetScanout h r 0 id) s = .next (unknownResource h s) := by
  rw [exec_cmdSetScanout, setScanout, if_neg (not_not.2 rfl), if_neg h0, hn]

end

/-- An attach is refused before its resource is looked up (46_gpu_translator.md R351). -/
theorem exec_attach_refused (h : CtrlHdr) (id n : Word32) (es : List BackingEntry) (s : State)
    (hn : s.cfg.maxBackingEntries < n.toNat ∨ es.length < n.toNat) :
    exec (.cmdResourceAttachBacking h id n es) s = .next (answerError respErrUnspec h s) := by
  simp [exec, execCmdResourceAttachBacking, attachBacking, hn]

/-! ### A resource that is found -/

section
variable (h : CtrlHdr) {id : Word32} {s : State} {res : Resource} (hr : lookupResource s id = some res)
include hr

theorem exec_unref :
    exec (.cmdResourceUnref h id) s = .next (answerOk h [] (removeResource id s)) := by
  simp [exec, execCmdResourceUnref, hr]

theorem exec_attach_taken (n : Word32) (es : List BackingEntry) (hb : res.backing ≠ none) :
    exec (.cmdResourceAttachBacking h id n es) s = .next (answerError respErrUnspec h s) := by
  simp [exec, execCmdResourceAttachBacking, attachBacking, hr, Option.isSome_iff_ne_none, hb]

theorem exec_attach (n : Word32) (es : List BackingEntry) (hmax : n.toNat ≤ s.cfg.maxBackingEntries)
    (hlen : n.toNat ≤ es.length) (hb : res.backing = none) :
    exec (.cmdResourceAttachBacking h id n es) s =
      .next (answerOk h [] (putResource id { res with backing := some es } s)) := by
  simp [exec, execCmdResourceAttachBacking, attachBacking, hmax, hlen, hr, hb]

theorem exec_detach_missing (hb : res.backing = none) :
    exec (.cmdResourceDetachBacking h id) s = .next (answerError respErrUnspec h s) := by
  simp [exec, execCmdResourceDetachBacking, hr, hb]

theorem exec_detach (hb : res.backing ≠ none) :
    exec (.cmdResourceDetachBacking h id) s =
      .next (answerOk h [] (putResource id { res with backing := none } s)) := by
  simp [exec, execCmdResourceDetachBacking, hr, Option.isSome_iff_ne_none, hb]

theorem exec_setScanout_refused (r : Rect)
    (hbad : (r.width = 0 ∨ r.height = 0) ∨ rectInside r res.width res.height = false) :
    exec (.cmdSetScanout h r 0 id) s = .next (answerError respErrInvalidParameter h s) := by
  have h0 : id ≠ 0 := (lookupResource_some s id res hr).1
  rw [exec_cmdSetScanout, setScanout, if_neg (not_not.2 rfl), if_neg h0, hr]
  exact congrArg _ (if_pos (by simpa using hbad))

theorem exec_setScanout_bound (r : Rect) (hne : ¬(r.width = 0 ∨ r.height = 0))
    (hi : rectInside r res.width res.height = true) :
    exec (.cmdSetScanout h r 0 id) s =
      .next (answerOk h (scanoutGroup (resourceAddr res r.x r.y) res.stride)
        { s with scanout := { enabled := true, resourceId := id, rect := r,
                              base := resourceAddr res r.x r.y, stride := res.stride } }) := by
  have h0 : id ≠ 0 := (lookupResource_some s id res hr).1
  rw [exec_cmdSetScanout, setScanout, if_neg (not_not.2 rfl), if_neg h0, hr]
  exact congrArg _ (if_neg (by simpa [hi] using hne))

theorem exec_flush_outside (r : Rect) (hi : rectInside r res.width res.height = false) :
    exec (.cmdResourceFlush h r id) s = .next (answerError respErrInvalidParameter h s) := by
  simp [exec, execCmdResourceFlush, hr, hi]

theorem exec_flush_inside (r : Rect) (hi : rectInside r res.width res.height = true) :
    exec (.cmdResourceFlush h r id) s = .next (answerOk h (flushGroup r id res s.scanout) s) := by
  simp [exec, execCmdResourceFlush, hr, hi]

variable (r : Rect) (off : Word64)

theorem exec_transfer_unbacked (hb : res.backing = none) :
    exec (.cmdTransferToHost2d h r off id) s = .next (answerError respErrUnspec h s) := by
  simp [exec_cmdTransferToHost2d, transferToHost, hr, hb]

variable {backing : List BackingEntry} (hb : res.backing = some backing)
include hb

theorem exec_transfer_outside (hi : rectInside r res.width res.height = false) :
    exec (.cmdTransferToHost2d h r off id) s = .next (answerError respErrInvalidParameter h s) := by
  simp [exec_cmdTransferToHost2d, transferToHost, hr, hb, hi]

variable (hi : rectInside r res.width res.height = true)
include hi

/-- A transfer inside its resource, up to the checks of its size. -/
theorem exec_transfer_inside :
    exec (.cmdTransferToHost2d h r off id) s = .next
      (if r.width = 0 || r.height = 0 then answerOk h [] s
      else if segLength (backingSegs backing) <
          off.toNat + (r.height.toNat - 1) * res.stride + 4 * r.width.toNat then
        answerError respErrInvalidParameter h s
      else
        finishTranslate (hdrBytes respOkNoData h) (transferGroup s.cfg r res s.scanout)
          (some { backing, stride := res.stride, width := r.width.toNat, height := r.height.toNat,
                  offset := off.toNat }) s) := by
  simp [exec_cmdTransferToHost2d, transferToHost, hr, hb, hi]

theorem exec_transfer_empty (hempty : r.width = 0 ∨ r.height = 0) :
    exec (.cmdTransferToHost2d h r off id) s = .next (answerOk h [] s) := by
  rw [exec_transfer_inside h hr r off hb hi, if_pos (by simpa using hempty)]

variable (hne : ¬(r.width = 0 ∨ r.height = 0))
include hne

theorem exec_transfer_short (hshort : segLength (backingSegs backing) <
      off.toNat + (r.height.toNat - 1) * res.stride + 4 * r.width.toNat) :
    exec (.cmdTransferToHost2d h r off id) s = .next (answerError respErrInvalidParameter h s) := by
  rw [exec_transfer_inside h hr r off hb hi, if_neg (by simpa using hne), if_pos hshort]

theorem exec_transfer_staged (hfits : ¬segLength (backingSegs backing) <
      off.toNat + (r.height.toNat - 1) * res.stride + 4 * r.width.toNat) :
    exec (.cmdTransferToHost2d h r off id) s =
      .next (finishTranslate (hdrBytes respOkNoData h) (transferGroup s.cfg r res s.scanout)
        (some { backing, stride := res.stride, width := r.width.toNat, height := r.height.toNat,
                offset := off.toNat }) s) := by
  rw [exec_transfer_inside h hr r off hb hi, if_neg (by simpa using hne), if_neg hfits]

end

theorem exec_setScanout_other (h : CtrlHdr) (r : Rect) (sc id : Word32) (s : State) (hsc : sc ≠ 0) :
    exec (.cmdSetScanout h r sc id) s = .next (answerError respErrInvalidScanoutId h s) := by
  rw [exec_cmdSetScanout, setScanout, if_pos hsc]

theorem exec_setScanout_off (h : CtrlHdr) (r : Rect) (s : State) :
    exec (.cmdSetScanout h r 0 0) s = .next (answerOk h [] { s with scanout := Scanout.off }) := by
  rw [exec_cmdSetScanout, setScanout, if_neg (not_not.2 rfl), if_pos rfl]

/-! ### The resource commands -/

/-- An unmapped resource takes its binding with it (46_gpu_translator.md R347). -/
theorem removeResource_spec (id : Word32) (s : State) (hs : keysRising s.resources = true) :
    ∃ rs, removeResource id s =
        { s with
          resources := rs
          scanout := if s.scanout.enabled = true ∧ s.scanout.resourceId = id then Scanout.off
            else s.scanout } ∧
      assocGet id.toNat rs = none ∧ ∀ k, k ≠ id.toNat → assocGet k rs = assocGet k s.resources :=
  ⟨_, by simp [removeResource], assocGet_assocErase_eq _ _ hs,
    fun k hk => assocGet_assocErase_ne _ k _ hk⟩

/-- Settles O58: the commands on a resource that is not found, then each one on a mapped resource. -/
theorem resourceCommands : Obligations.ResourceCommands := by
  intro s h id hs
  refine ⟨fun hid r n es off hmax hlen => ?unknown, fun n es hn => exec_attach_refused h id n es s hn,
    fun res h0 hget => ?mapped⟩
  case unknown =>
    have hn := lookup_none s id hid
    refine List.forall_mem_append.2 ⟨?_, ?_⟩
    · simp only [List.forall_mem_cons]
      exact ⟨exec_unref_unknown h hn, exec_flush_unknown h hn r, exec_transfer_unknown h hn r off,
        exec_attach_unknown h hn n es hmax hlen, exec_detach_unknown h hn, List.forall_mem_nil _⟩
    · split
      · exact List.forall_mem_nil _
      · next h0 => exact List.forall_mem_singleton.2 (exec_setScanout_unknown h hn r h0)
  case mapped =>
    have hr := lookup_some s id res h0 hget
    refine ⟨?unref, fun n es hmax hlen => ⟨exec_attach_taken h hr n es, fun hb => ?attach⟩,
      exec_detach_missing h hr, fun hb => ?detach⟩
    case unref =>
      obtain ⟨rs, hremove, hspec⟩ := removeResource_spec id s hs
      exact ⟨rs, (exec_unref h hr).trans
        (congrArg (fun u => Host.Outcome.next (answerOk h [] u)) hremove), hspec⟩
    case attach =>
      obtain ⟨rs, hput, hspec⟩ := putResource_spec id { res with backing := some es } s
      exact ⟨rs, (exec_attach h hr n es hmax hlen hb).trans
        (congrArg (fun u => Host.Outcome.next (answerOk h [] u)) hput), hspec⟩
    case detach =>
      obtain ⟨rs, hput, hspec⟩ := putResource_spec id { res with backing := none } s
      exact ⟨rs, (exec_detach h hr hb).trans
        (congrArg (fun u => Host.Outcome.next (answerOk h [] u)) hput), hspec⟩

/-! ### The display commands -/

/-- A SET word is its opcode, its register's number and its value (30_encoding.md R100). -/
theorem setWord_toNat (r : RegId) (v : Nat) (hv : v < 2 ^ 32) :
    (setWord r v).toNat = 0x10 * 2 ^ 56 + regNumber r * 2 ^ 48 + v := by
  have hr : regNumber r < 2 ^ 8 := by cases r <;> decide
  rw [setWord, commandWord_toNat, BitVec.toNat_ofNat, BitVec.toNat_ofNat, Nat.mod_eq_of_lt hr,
    Nat.mod_eq_of_lt hv]
  rfl

theorem rectInside_eq_false_iff (r : Rect) (w h : Nat) : rectInside r w h = false ↔
    ¬(r.x.toNat + r.width.toNat ≤ w ∧ r.y.toNat + r.height.toNat ≤ h) := by
  rw [← rectInside_iff, Bool.not_eq_true]

/-- Nothing is to be copied by a flush (46_gpu_translator.md R349). -/
def NothingVisible (r : Rect) (id : Word32) (sc : Scanout) : Prop :=
  sc.enabled = false ∨ id = sc.resourceId ∨ (r.width = 0 ∨ r.height = 0) ∨
    clipLength r.x r.width sc.rect.width = 0 ∨ clipLength r.y r.height sc.rect.height = 0

theorem flushGroup_of_nothing (r : Rect) (id : Word32) (res : Resource) (sc : Scanout)
    (h : NothingVisible r id sc) : flushGroup r id res sc = [] := by
  unfold flushGroup
  exact if_pos (by simpa [NothingVisible, or_assoc] using h)

theorem flushGroup_of_visible (r : Rect) (id : Word32) (res : Resource) (sc : Scanout)
    (h : ¬NothingVisible r id sc) :
    flushGroup r id res sc = blitGroup (resourceAddr res r.x r.y) res.stride sc.base sc.stride r.x.toNat
      r.y.toNat (clipLength r.x r.width sc.rect.width) (clipLength r.y r.height sc.rect.height) := by
  unfold flushGroup
  exact if_neg (by simpa [NothingVisible, or_assoc] using h)

/-- Settles O59: the words of a group, then each command's checks in order. -/
theorem displayCommands : Obligations.DisplayCommands := by
  refine ⟨setWord_toNat, rfl, fun s h r id => ?_⟩
  intro ok err
  refine ⟨fun sc hsc => exec_setScanout_other h r sc id s hsc, ?off, fun res h0 hget => ?mapped⟩
  case off => rintro rfl; exact exec_setScanout_off h r s
  case mapped =>
    intro inside empty a
    have hr := lookup_some s id res h0 hget
    have hin : inside → rectInside r res.width res.height = true := (rectInside_iff _ _ _).2
    have hout : ¬inside → rectInside r res.width res.height = false := (rectInside_eq_false_iff _ _ _).2
    refine ⟨fun hbad => exec_setScanout_refused h hr r (hbad.imp_right hout),
      fun hne hi => exec_setScanout_bound h hr r hne (hin hi),
      fun hi => exec_flush_outside h hr r (hout hi), ?flush, fun off => ⟨?unbacked, ?backed⟩⟩
    case flush =>
      rintro _ _ rfl rfl hi
      rw [exec_flush_inside h hr r (hin hi)]
      refine ⟨fun hnone => ?_, fun hsome => ?_⟩
      · rw [flushGroup_of_nothing r id res s.scanout hnone]; rfl
      · rw [flushGroup_of_visible r id res s.scanout hsome]; rfl
    case unbacked => exact exec_transfer_unbacked h hr r off
    case backed =>
      intro backing hb short
      have hshort : segLength (backingSegs backing) <
          off.toNat + (r.height.toNat - 1) * res.stride + 4 * r.width.toNat ↔ short := by
        rw [seg_back]
      exact ⟨fun hi => exec_transfer_outside h hr r off hb (hout hi),
        fun hi hempty => exec_transfer_empty h hr r off hb (hin hi) hempty,
        fun hi hne hs => exec_transfer_short h hr r off hb (hin hi) hne (hshort.2 hs),
        fun hi hne hs => exec_transfer_staged h hr r off hb (hin hi) hne (mt hshort.1 hs)⟩

end Sys2Proof.Machine
end

section
/-! PROOFS. No step stops (O15): the one fault of the model needs a pixel or a staged byte outside VRAM (log
14), and the invariants keep both inside. -/
namespace Sys2Proof.Machine

/-! ### The staging copy -/

/-- A byte of the staging area is a byte of VRAM (00_scope.md R7, log 17). -/
theorem ImageBounds.stagingByte_lt {p : Params} (hp : ImageBounds p) {n : Nat} (h : n < p.stagingSize) :
    p.stagingBase + n < p.vramSize := by
  have hle := hp.staging_le
  unfold Params.stagingBase
  omega

/-- The staging copy never stops while its plan fits the staging area (46_gpu_translator.md R350, R356). -/
theorem stageStep_next (s : State) (hp : ImageBounds s.cfg) (h : s.vqp.phase = .stage)
    (hs : stagingOk s.cfg s.vqp = true) : ∃ t, stageStep s = .next t := by
  obtain ⟨g, hplan, hg, hc⟩ := (stagingOk_stage_iff s.cfg s.vqp h).1 hs
  have hv := hp.stagingByte_lt (hc.trans_le hg.total_le)
  cases ha : segAddr (backingSegs g.backing) (stagingSource g s.vqp.copied) with
  | none => exact ⟨s, by simp [stageStep, hplan, hc, ha]⟩
  | some a =>
    cases hadm : guestAdmits s.cfg a 1 with
    | false => exact ⟨s, stageStep_held s g a hplan hc ha hadm⟩
    | true => exact ⟨_, stageStep_byte s g a hplan hc ha hadm hv⟩

/-! ### The turns -/

/-- Of the processor's phases only the staging copy needs an invariant (45_virtqueue.md R300). -/
theorem vqpStep_next (s : State) (hc : s.cfg.ok = true) (hs : translatorOk s = true) :
    ∃ t, vqpStep s = .next t := by
  cases h : s.vqp.phase with
  | stage =>
    obtain ⟨-, -, hstaging⟩ := (translatorOk_iff s).1 hs
    rw [vqpStep_stage s h]
    exact stageStep_next s (imageBounds_of_ok s.cfg hc) h hstaging
  | translate =>
    rw [vqpStep_translate s h]
    exact (translateStep_effect s h).imp fun _ => And.left
  | _ => simp [vqpStep, vqpPhaseStep, h]

theorem agentStep_next (a : Agent) (s : State) (hc : s.cfg.ok = true) (he : engineOk s = true)
    (ht : translatorOk s = true) : ∃ t, agentStep a s = .next t := by
  cases a with
  | host => exact (hostStep_effect s).imp fun _ => And.left
  | parse => exact (parseStep_effect s).imp fun _ => And.left
  | head => exact headStep_next s he
  | vqp => exact vqpStep_next s hc ht
  | display x y => exact ⟨_, rfl⟩

/-- Settles O15: the head's turn by the engine's invariant, the processor's by the translator's; the others
answer in every state. -/
theorem stepNeverStops : Obligations.StepNeverStops := by
  intro s hc he ht
  unfold step
  cases nextTurn s with
  | agent a => exact agentStep_next a (takeTurn s) hc he ht
  | powerOn => exact ⟨_, rfl⟩

end Sys2Proof.Machine
end

section
/-! PROOFS. FAULT and FAULT_CODE (O40): which turn may record which code, and what a turn can do to the two
latches. -/
namespace Sys2Proof.Machine

/-! ### Codes and their turns -/

/-- The codes a turn can record: three by Parse, one by a chain walk, one by a translation
(60_exceptions.md R400). -/
inductive MayRecord (s : State) : Turn → BitVec 8 → Prop where
  | opcode : MayRecord s (.agent .parse) codeInvalidOpcode
  | register : MayRecord s (.agent .parse) codeInvalidRegister
  | range : MayRecord s (.agent .parse) codeOutOfRange
  | chain (h : s.vqp.phase = .walk) : MayRecord s (.agent .vqp) codeMalformedChain
  | resource (h : s.vqp.phase = .translate) : MayRecord s (.agent .vqp) codeUnknownResource

/-- No turn records 0 or a reserved code. -/
theorem MayRecord.code_bounds {s : State} {trn : Turn} {c : BitVec 8} (h : MayRecord s trn c) :
    c ≠ 0 ∧ c.toNat ≤ 5 := by
  cases h <;> decide

theorem MayRecord.turn_and_code {s : State} {trn : Turn} {c : BitVec 8} (h : MayRecord s trn c) :
    (trn = .agent .parse ∧ c.toNat ∈ [1, 2, 3]) ∨
      (trn = .agent .vqp ∧ s.vqp.phase = .walk ∧ c.toNat = 4) ∨
      (trn = .agent .vqp ∧ s.vqp.phase = .translate ∧ c.toNat = 5) := by
  cases h with
  | opcode | register | range => exact .inl ⟨rfl, by decide⟩
  | chain h => exact .inr (.inl ⟨rfl, h, rfl⟩)
  | resource h => exact .inr (.inr ⟨rfl, h, rfl⟩)

/-! ### What a turn does to the latches -/

/-- FAULT and FAULT_CODE after a turn: kept, cleared, or a code recorded over a clear FAULT
(60_exceptions.md R403, R407). -/
inductive FaultEffect (s : State) (trn : Turn) (t : State) : Prop where
  | kept (hf : t.fault = s.fault) (hc : t.faultCode = s.faultCode)
  | cleared (hf : t.fault = false) (hc : t.faultCode = 0)
  | raised (c : BitVec 8) (h : MayRecord s trn c) (hf : t.fault = true)
      (hc : t.faultCode = if s.fault then s.faultCode else c)

/-- The latches hold a code exactly while FAULT is set, and never a reserved one (60_exceptions.md R400). -/
def FaultOk (s : State) : Prop := (s.fault = false ↔ s.faultCode = 0) ∧ s.faultCode.toNat ≤ 5

theorem FaultEffect.faultOk {s t : State} {trn : Turn} (h : FaultEffect s trn t) (hs : FaultOk s) :
    FaultOk t := by
  cases h with
  | kept hf hc => rwa [FaultOk, hf, hc]
  | cleared hf hc => simp [FaultOk, hf, hc]
  | raised c h hf hc =>
    obtain ⟨hiff, hle⟩ := hs
    cases hsf : s.fault with
    | false => simpa [FaultOk, hf, hc, hsf] using h.code_bounds
    | true => simpa [FaultOk, hf, hc, hsf, hle] using hiff

/-- A FAULT that a turn sets comes with a code the turn may record. -/
theorem FaultEffect.mayRecord {s t : State} {trn : Turn} (h : FaultEffect s trn t)
    (hs : s.fault = false) (ht : t.fault = true) : MayRecord s trn t.faultCode := by
  cases h with
  | kept hf => simp [hf, hs] at ht
  | cleared hf => simp [hf] at ht
  | raised c h hf hc => simpa [hc, hs] using h

/-! ### One lemma an effect -/

theorem parseEffect_fault (s t : State) (ht : ParseEffect s t) : FaultEffect s (.agent .parse) t := by
  cases ht with
  | idle => exact .kept rfl rfl
  | invalid => exact .raised _ .opcode rfl rfl
  | command h t ht =>
    cases ht with
    | fault c hc =>
      rcases hc with rfl | rfl
      · exact .raised _ .register rfl rfl
      · exact .raised _ .range rfl rfl
    | _ => exact .kept rfl rfl

theorem headEffect_fault (s t : State) (ht : HeadEffect s t) : FaultEffect s (.agent .head) t := by
  rw [headEffect_frame s t ht]
  exact .kept rfl rfl

theorem requestOutcome_fault (s t : State) (hp : s.vqp.phase = .translate) (ht : RequestOutcome s t) :
    FaultEffect s (.agent .vqp) t := by
  obtain ⟨u, resp, group, plan, rfl, hu, -⟩ := ht
  cases hu with
  | fault => exact .raised _ (.resource hp) rfl rfl
  | _ => exact .kept rfl rfl

theorem vqpEffect_fault (s t : State) (ht : VqpEffect s t) : FaultEffect s (.agent .vqp) t := by
  cases ht with
  | malformed h => exact .raised _ (.chain h) rfl rfl
  | translate h t ht => exact requestOutcome_fault s t h ht
  | select | guestWrite => exact .kept (by simp) (by simp)
  | notify => rw [entryDone_frame]; exact .kept rfl rfl
  | _ => exact .kept rfl rfl

/-- CTRL.CLEAR_FAULT clears the latches, and every other access keeps them, a device reset too
(60_exceptions.md R407, 70_reset_and_hazards.md R441). -/
theorem accessEffect_fault (s u : State) (hu : AccessEffect s u) :
    (u.fault = s.fault ∧ u.faultCode = s.faultCode) ∨ (u.fault = false ∧ u.faultCode = 0) := by
  cases hu with
  | ctrl flush done fault =>
    cases fault with
    | true => exact .inr ⟨rfl, rfl⟩
    | false => exact .inl ⟨rfl, rfl⟩
  | configure | enable | disable | notify => exact .inl ⟨by simp, by simp⟩
  | _ => exact .inl ⟨rfl, rfl⟩

theorem hostEffect_fault (s t : State) (ht : HostEffect s t) : FaultEffect s (.agent .host) t := by
  cases ht with
  | access a rest h r u hu =>
    rcases accessEffect_fault { s with hostOps := rest } u hu with ⟨hf, hc⟩ | ⟨hf, hc⟩
    · exact .kept hf hc
    · exact .cleared hf hc
  | _ => exact .kept rfl rfl

theorem stepEffect_fault (s t : State) (trn : Turn) (ht : StepEffect s trn t) : FaultEffect s trn t := by
  cases ht with
  | powerOn => exact .cleared rfl rfl
  | host t h => exact hostEffect_fault s t h
  | parse t h => exact parseEffect_fault s t h
  | head t h => exact headEffect_fault s t h
  | vqp t h => exact vqpEffect_fault s t h
  | display => exact .kept rfl rfl

theorem step_fault (s t : State) (e : step s = .next t) : FaultEffect (takeTurn s) (nextTurn s) t :=
  stepEffect_fault (takeTurn s) t (nextTurn s) (step_effect s t e)

/-- Settles O40: a turn keeps the latches, clears both, or records a code of its own. -/
theorem faultInvariant : Obligations.FaultInvariant :=
  ⟨fun s t hs e => (step_fault s t e).faultOk hs,
    fun s t e hs ht => ((step_fault s t e).mayRecord hs ht).turn_and_code,
    rfl, rfl⟩

end Sys2Proof.Machine
end

section
/-! PROOFS. The power-on reset (O48): the turn that gives it, the two queues, and the bytes of VRAM after it. -/
namespace Sys2Proof.Machine

/-- Where the turn decided from outside is the reset, the step is the reset and nothing else
(70_reset_and_hazards.md R440). -/
theorem step_powerOn (s : State) (h : nextTurn s = .powerOn) : step s = .next (powerOn (takeTurn s)) := by
  rw [step, h, turnStep]

/-- Both queues are at their reset value (10_state.md R47). -/
theorem powerOn_queues (s : State) : ∀ q ∈ [(powerOn s).q0, (powerOn s).q1], q = Queue.zero := by
  intro q hq
  rcases List.mem_pair.1 hq with rfl | rfl
  · rfl
  · rfl

/-- No byte stored before the reset is kept: each is one of a new epoch's unconstrained bytes
(10_state.md R34). -/
theorem vramByte_powerOn (s : State) (a : Nat) :
    vramByte (powerOn s) a = Config.vramByte (s.epoch + 1) a := rfl

/-- Settles O48: the engine and the FIFO, the transport and its queues, the processor and the translator are
as `State.reset` has them; what is not the block's is the old state's; VRAM is the new epoch's. -/
theorem powerOnReset : Obligations.PowerOnReset := by
  intro s h
  refine ⟨powerOn (takeTurn s), step_powerOn s h, ?_⟩
  have hqueues := powerOn_queues (takeTurn s)
  have hvram := vramByte_powerOn (takeTurn s)
  exact
    ⟨rfl, rfl, rfl, rfl, rfl, rfl, rfl, rfl, rfl, rfl,
      rfl, hqueues,
      rfl, rfl, rfl, rfl, rfl, rfl,
      rfl, rfl, rfl, rfl, rfl, hvram⟩

end Sys2Proof.Machine
end
